-- ==== Sys2Proof/Word.lean ====
section
/-!
DEFINITION. Word.lean: the word types of the ZM4 and their plainest arithmetic. Bytes are little-endian in wider
words throughout (00 R6, 02 R30).
-/
namespace Sys2Proof

/-- A byte of storage. -/
abbrev Byte := BitVec 8
/-- An allocation register, a uniform register, a code offset: 32 bits (02 R45, R46, R37). -/
abbrev Word := BitVec 32
/-- A register pair or a privileged register: 64 bits (02 R47). -/
abbrev Word64 := BitVec 64
/-- A buffer record: 256 bits (03 R82). -/
abbrev Rec := BitVec 256
/-- A layout record: 256 bytes, 2048 bits (06 R142). -/
abbrev Layout := BitVec 2048

/-- Bits `hi:lo` of a natural number. -/
def bitsOf (v hi lo : Nat) : Nat := v / 2 ^ lo % 2 ^ (hi + 1 - lo)

/-- One bit of a natural number. -/
def bitAt (v i : Nat) : Bool := v / 2 ^ i % 2 == 1

/-- A natural number below `2^w` read as a two's-complement integer of width `w`. -/
def toSigned (w v : Nat) : Int :=
  if 2 * (v % 2 ^ w) < 2 ^ w then (v % 2 ^ w : Nat) else ((v % 2 ^ w : Nat) : Int) - (2 ^ w : Nat)

/-- An integer taken modulo `2^w`. -/
def wrapNat (w : Nat) (v : Int) : Nat := (v % ((2 ^ w : Nat) : Int)).toNat

/-- A Boolean as a bit. -/
def bit01 (b : Bool) : Nat := if b then 1 else 0

end Sys2Proof
end

