-- ==== Sys2Proof/Config.lean ====
section
/-!
DEFINITION. Config.lean: what an implementation of the ZM4 fixes and the manual leaves open. Each constant here has
no body: nothing in Lean can evaluate it, and a statement about the machine holds whatever it is. The assumption log
names each one (log entries 3, 7, 9, 11, 12, 17, 61).
-/
namespace Sys2Proof.Config

/-- The value of an approximate function that the hardware would return, given which function (0 to 5) and the
operand's bits: R185 leaves it open inside the bound of R184, which the meaning checks, and fixes that it depends on
nothing else. Log entry 9. -/
opaque approx : Nat → Nat → Nat
/-- The core cycles that pass in one step of the model on a die (R25). Log entry 3. -/
opaque cycles : Nat → Nat → Nat
/-- The package nanoseconds that pass in one step of the model (R25). Log entry 3. -/
opaque nanos : Nat → Nat
/-- Whether a row-retaining copy takes a row from the line buffer (R153), given the command's own number and the row.
Log entry 9. -/
opaque retains : Nat → Nat → Bool
/-- What a flash page reads as after an erase epoch passed over its key (R402): the address and the epoch. Log
entry 12. -/
opaque erased : Nat → Nat → Byte
/-- A digest (R400: SHA-384) of a list of bytes. Log entry 11. -/
opaque digest : List Byte → BitVec 384
/-- A signature by the device's alias key over a digest (R401). Log entry 11. -/
opaque signature : BitVec 384 → BitVec 768
/-- The certificate chain of a slot (R401), as bytes: that of the device's identity has its slot's number alone, the alias
chain also the boot that issued it and a digest of slots 1 to 7. Log entry 11. -/
opaque certificate : Nat → Nat → BitVec 384 → List Byte
/-- A message sealed under a session's secret (R401: AES-256-GCM). Log entry 11. -/
opaque sealed : BitVec 384 → List Byte → List Byte
/-- A session secret (R401), given a fresh counter. Log entry 11. -/
opaque session : Nat → BitVec 384
/-- The set of its slice of L2 that a line falls into (R98 names sets of 16 ways and no index). Log entry 7. -/
opaque l2Set : Nat → Nat
/-- What the host has written into a sector of device memory that it holds modified and gives back to a snoop (R271,
R274), given a fresh counter and the place in the sector; `none` for a byte it has not written. Log entry 61. -/
opaque hostDirty : Nat → Nat → Option Byte
/-- A free value, given a fresh counter: a value the manual states nothing about. Log entry 17. -/
opaque freeWord : Nat → Nat

end Sys2Proof.Config
end

