-- ==== Sys2Proof/Syntax.lean ====
section
/-!
DEFINITION. Syntax.lean: the one inductive `Instr`, a constructor for each row of spec/opcode_table.json: first the
instruction words of chapters 02, 05, 06, 08, 09, 10, 12, 13, 14 and 15, then the steps of the agents. The fields of
a word stand in the bundle of its format (02 R31); a function field is a closed inductive type.
-/
namespace Sys2Proof

/-! ## Fields of the formats (R31) -/

/-- The payload of an RRR prefix (R34, R35): RM, SAT, the reserved bits [19:18], CV, C and EXT. -/
structure RPfx where
  rm  : Nat := 0
  sat : Bool := false
  rsv : Nat := 0
  cv  : Bool := false
  c   : Nat := 0
  ext : Nat := 0
deriving DecidableEq, Repr

/-- Format RRR: the switch marker S and the fields D, A and B (F selects the constructor). -/
structure R3 where
  mark : Bool := false
  d : Nat := 0
  a : Nat := 0
  b : Nat := 0
deriving DecidableEq, Repr

/-- Format RI: S, D, A and IMM10. -/
structure RI where
  mark : Bool := false
  d : Nat := 0
  a : Nat := 0
  imm : Nat := 0
deriving DecidableEq, Repr

/-- Format RL: S, D and IMM17. -/
structure RL where
  mark : Bool := false
  d : Nat := 0
  imm : Nat := 0
deriving DecidableEq, Repr

/-- Format M: S, D, A and K (SZ and CH select the constructor or a type). -/
structure MO where
  mark : Bool := false
  d : Nat := 0
  a : Nat := 0
  k : Nat := 0
deriving DecidableEq, Repr

/-- Format MG: S, D, A, K and the guard, N and P (F selects the constructor or a type). -/
structure MG where
  mark : Bool := false
  d : Nat := 0
  a : Nat := 0
  k : Nat := 0
  n : Bool := false
  p : Nat := 7
deriving DecidableEq, Repr

/-- Format BR: S, the pool hint H, the guard and OFF19. -/
structure BR where
  mark : Bool := false
  h : Bool := false
  p : Nat := 7
  n : Bool := false
  off : Nat := 0
deriving DecidableEq, Repr

/-- Format BR-reg: S, H, the guard, the reserved bits [18:17] and [9:0], and A. -/
structure BX where
  mark : Bool := false
  h : Bool := false
  p : Nat := 7
  n : Bool := false
  rsv : Nat := 0
  a : Nat := 0
  low : Nat := 0
deriving DecidableEq, Repr

/-- Format SY: S, A and IMM10 (SF selects the constructor). -/
structure SY where
  mark : Bool := false
  a : Nat := 0
  imm : Nat := 0
deriving DecidableEq, Repr

/-! ## Function fields -/

/-- `.n32` or `.s32` (R189, R192, R195). -/
inductive Sg where | n32 | s32
deriving DecidableEq, Repr
/-- The types of `IDIV` and `IREM` (R190). -/
inductive DivTy where | n32 | s32 | n64 | s64
deriving DecidableEq, Repr
/-- `.n64` or `.s64` of `ADD64` and `SUB64` (R191). -/
inductive Sg64 where | n64 | s64
deriving DecidableEq, Repr
/-- The forms of `MUL64` (R191). -/
inductive MulTy where | n64 | s64 | n32 | s32
deriving DecidableEq, Repr
/-- `.s32` or `.s64` of `ABS` and `NEG` (R192). -/
inductive AbsTy where | s32 | s64
deriving DecidableEq, Repr
/-- The condition codes of `CMP` and `CMPI` (R197). -/
inductive CC where | eq | ne | ltS | geS | ltN | geN
deriving DecidableEq, Repr
/-- The conditions of `FCMP` (R204). -/
inductive FCC where | eq | ne | lt | le | un | or
deriving DecidableEq, Repr
/-- The element types of `DOT4` (R200). -/
inductive DotTy where | s8 | n8 | s8n8 | n8s8
deriving DecidableEq, Repr
/-- The element types of `WADD` (R201). -/
inductive WaddTy where | n8 | s8 | n16 | s16
deriving DecidableEq, Repr
/-- `.f16` or `.bf16` of the paired instructions (R207). -/
inductive H16 where | f16 | bf16
deriving DecidableEq, Repr
/-- The types of `CVT` (R208). -/
inductive CvtTy where | n8 | s8 | n16 | s16 | n32 | s32 | n64 | s64 | f32 | f16 | bf16 | e4m3 | e5m2
deriving DecidableEq, Repr
/-- The sources of `QNT` (R209). -/
inductive QntTy where | f32 | f16 | bf16
deriving DecidableEq, Repr
/-- The destinations of `DQNT` (R210). -/
inductive DqntTy where | f16 | bf16 | f32
deriving DecidableEq, Repr
/-- The types of `PACK` and `UNPK` (R211, R212). -/
inductive PackTy where | f16 | bf16 | e4m3 | e5m2 | s8 | n8 | s4 | n4
deriving DecidableEq, Repr
/-- The modes of `SHFL` (R214). -/
inductive ShflMode where | idx | up | down | xor
deriving DecidableEq, Repr
/-- The kinds of `VOTE` (R215). -/
inductive VoteKind where | any | all | ballot
deriving DecidableEq, Repr
/-- The operations of `WRED` and `QRED` (R216). -/
inductive RedOp where | addN32 | minS32 | maxS32 | minN32 | maxN32 | addF32 | minF32 | maxF32
deriving DecidableEq, Repr
/-- The exchanges of `QSWP` (R218). -/
inductive QswpKind where | x1 | x2 | x3
deriving DecidableEq, Repr
/-- The access sizes of format M (R32). -/
inductive Size where | n8 | s8 | n16 | s16 | w32 | w64 | b128
deriving DecidableEq, Repr
/-- The sizes of `STS` (R124). -/
inductive StsSize where | b8 | b16 | b32 | b64 | b128
deriving DecidableEq, Repr
/-- The element sizes of `TLDS` (R125). -/
inductive TldsSize where | n8 | s8 | n16 | s16 | w32
deriving DecidableEq, Repr
/-- The cache hints CH (R32). -/
inductive Hint where | normal | evict | keep | bypass
deriving DecidableEq, Repr
/-- The hints of `PREF` (R127). -/
inductive PrefHint where | both | l2 | keep
deriving DecidableEq, Repr
/-- The level of `CWB` and `CINV` (R127). -/
inductive Lvl where | l1 | l2
deriving DecidableEq, Repr
/-- The scopes of R256. -/
inductive Scope where | blk | cls | die | pkg | sys
deriving DecidableEq, Repr
/-- The operations of `ATOM` and `ATOMR` (R281). -/
inductive AtomOp where
  | add | addF32 | addBf16x2 | minS | maxS | minN | maxN | minF32 | maxF32 | and | or | xor | exch
deriving DecidableEq, Repr
/-- The forms of `CAS` (R282). -/
inductive CasTy where | n32 | n64 | b128
deriving DecidableEq, Repr
/-- The kinds of `FENCE` (R297). -/
inductive FenceKind where | rel | acq | ar
deriving DecidableEq, Repr
/-- The column types of `OBRD` and `OBWR` (R237). -/
inductive ObTy where | b32 | bf16 | f16 | e4m3
deriving DecidableEq, Repr
/-- The kinds of `TLBI` (R373). -/
inductive TlbiKind where | range | asid | all
deriving DecidableEq, Repr
/-- What an access does, for the checks of R79 and R80: `wait` reads a waited word, `sarm` re-arms a line. -/
inductive AccKind where | read | write | atomic | wait | sarm | fetch
deriving DecidableEq, Repr
/-- Who writes a register or answers (R389): the host of a given identifier, a peer, or the BMC. -/
abbrev Master := Nat

/-- Where a soft error strikes (R105): a word at its home, a 64-bit word of the register file of a thread (a pair of its
allocation), a word of the copy of a line in the L1 of a core or the L2 of a die, an instruction-cache block. -/
inductive ErrorAt where
  | home (key : Nat)
  | register (core slot tid pair : Nat)
  | copy (l2 : Bool) (idx line word : Nat)
  | icache (core va : Nat)
deriving DecidableEq, Repr

/-- An image that the trust die verifies and measures (R399, R400): whether its signature verifies, its security version,
its digest. -/
structure Image where
  signed : Bool
  version : Nat
  digest : BitVec 384
deriving DecidableEq, Repr

/-- An SPDM request that has no row of its own in the table (R401): the version, capability and algorithm requests, a
message in a session, the end of a session, a request that the responder does not support. The session, or the request's
code, stands beside it. -/
inductive SpdmMsg where
  | version
  | capabilities
  | algorithms
  | secured (data : List Byte)
  | endSession
  | unsupported
deriving DecidableEq, Repr

/-- The kind of a configuration request (R384, R398): a read of configuration space, the commit of an HDM decoder, an SPDM
request in the DOE mailbox or, without `doe`, over MCTP on I3C, a CDAT read in the DOE mailbox. The offset, the decoder, the
session or the code stands beside it. -/
inductive ConfigKind where
  | read
  | commitHdm
  | spdm (doe : Bool) (m : SpdmMsg)
  | cdat
deriving DecidableEq, Repr

/-- An SPDM request's transport, the DOE mailbox or MCTP on I3C, and its operand: a nonce, or a certificate slot (R401). -/
structure SpdmAsk where
  doe : Bool
  n : Nat
deriving DecidableEq, Repr

/-- What a register access names (R386): an offset in BAR2 or in BAR0 and the management window, and its size. -/
structure RegAt where
  bar2 : Bool
  off : Nat
  size : Nat
deriving DecidableEq, Repr

/-- What a host read asks for: a number of bytes, and whether to own their sectors (R272). -/
structure HostAsk where
  bytes : Nat
  own : Bool
deriving DecidableEq, Repr

/-! ## The instructions -/

/-- One constructor for each row of spec/opcode_table.json. -/
inductive Instr where
  -- chapter 02, 13: control
  | nop
  | bra (r : BR)
  | brx (r : BX)
  | call (r : BR)
  | callx (r : BX)
  | ret (r : BX)
  | join (mark : Bool) (low : Nat)
  | mrset (p : Option Nat) (r : RI)
  | mrswap (p : Option Nat) (r : RL)
  | exit (mark : Bool) (low : Nat)
  | wbase (r : RI)
  -- chapter 08: integer arithmetic, logic, bit fields
  | add (t : Sg) (p : Option RPfx) (r : R3)
  | addi (p : Option Nat) (r : RI)
  | sub (t : Sg) (p : Option RPfx) (r : R3)
  | mul (t : Sg) (p : Option RPfx) (r : R3)
  | mulhi (t : Sg) (r : R3)
  | mad (t : Sg) (p : Option RPfx) (r : R3)
  | add64 (t : Sg64) (p : Option RPfx) (r : R3)
  | sub64 (t : Sg64) (p : Option RPfx) (r : R3)
  | mul64 (t : MulTy) (p : Option RPfx) (r : R3)
  | idiv (t : DivTy) (r : R3)
  | irem (t : DivTy) (r : R3)
  | min (t : Sg) (r : R3)
  | max (t : Sg) (r : R3)
  | abs (t : AbsTy) (p : Option RPfx) (r : R3)
  | neg (t : AbsTy) (p : Option RPfx) (r : R3)
  | and (r : R3)
  | or (r : R3)
  | xor (r : R3)
  | andn (r : R3)
  | shl (p : Option RPfx) (r : R3)
  | shr (p : Option RPfx) (r : R3)
  | sar (p : Option RPfx) (r : R3)
  | rot (p : Option RPfx) (r : R3)
  | fshl (p : RPfx) (r : R3)
  | popc (r : R3)
  | clz (r : R3)
  | ctz (r : R3)
  | brev (r : R3)
  | bfe (t : Sg) (r : R3)
  | bfi (r : R3)
  | mov (r : R3)
  | movi (p : Option Nat) (r : RL)
  | movhi (r : RL)
  | cmp (c : CC) (p : Option RPfx) (r : R3)
  | cmpi (c : CC) (p : Option Nat) (r : RI)
  | sel (q : Nat) (r : R3)
  | pand (r : R3)
  | por (r : R3)
  | pxor (r : R3)
  | pnot (r : R3)
  | dot4 (t : DotTy) (p : Option RPfx) (r : R3)
  | wadd (t : WaddTy) (p : Option RPfx) (r : R3)
  -- chapter 08: floating point, conversions, cross-lane
  | fadd (p : Option RPfx) (r : R3)
  | fsub (p : Option RPfx) (r : R3)
  | fmul (p : Option RPfx) (r : R3)
  | ffma (p : Option RPfx) (r : R3)
  | fmin (r : R3)
  | fmax (r : R3)
  | fcmp (c : FCC) (r : R3)
  | frcp (r : R3)
  | frsq (r : R3)
  | fsqrt (p : Option RPfx) (r : R3)
  | fdiv (p : Option RPfx) (r : R3)
  | fexp2 (r : R3)
  | flog2 (r : R3)
  | fsin (r : R3)
  | fcos (r : R3)
  | frnd (p : Option RPfx) (r : R3)
  | hadd2 (t : H16) (p : Option RPfx) (r : R3)
  | hmul2 (t : H16) (p : Option RPfx) (r : R3)
  | hfma2 (t : H16) (p : Option RPfx) (r : R3)
  | cvt (td ts : CvtTy) (p : Option RPfx) (r : R3)
  | qnt (t : QntTy) (r : R3)
  | dqnt (t : DqntTy) (p : Option RPfx) (r : R3)
  | pack (t : PackTy) (p : Option RPfx) (r : R3)
  | unpk (t : PackTy) (p : Option RPfx) (r : R3)
  | shfl (m : ShflMode) (r : R3)
  | vote (v : VoteKind) (r : R3)
  | wred (o : RedOp) (p : Option RPfx) (r : R3)
  | qswp (x : QswpKind) (r : R3)
  | qbcst (m : Nat) (r : R3)
  | qred (o : RedOp) (p : Option RPfx) (r : R3)
  -- chapter 05: loads and stores
  | ld (sz : Size) (ch : Hint) (off : Option Nat) (r : MO)
  | lda (sz : Size) (ch : Hint) (sc : Scope) (off : Nat) (r : MO)
  | stWord (dbl : Bool) (off : Option Nat) (r : MG)
  | stNarrow (half : Bool) (off : Option Nat) (r : MG)
  | stB128 (off : Option Nat) (r : MG)
  | str64 (sc : Scope) (off : Nat) (r : MG)
  | str32 (sc : Scope) (off : Nat) (r : MG)
  | sts (sz : StsSize) (off : Option Nat) (r : MG)
  | lds (sz : Size) (off : Option Nat) (r : MO)
  | tlds (sz : TldsSize) (off : Option Nat) (r : MO)
  | pref (h : PrefHint) (off : Option Nat) (r : MO)
  | cwb (l : Lvl) (off : Option Nat) (r : MO)
  | cinv (l : Lvl) (off : Option Nat) (r : MO)
  | sarm (off : Option Nat) (r : MO)
  | femk (full : Bool) (off : Option Nat) (r : MO)
  | kld (ch : Hint) (off : Option Nat) (r : MO)
  | maintenanceComplete (core slot tid : Nat)
  -- chapter 12: atomics, counters, waits, fences
  | atom (op : AtomOp) (dbl : Bool) (off : Nat) (r : MG)
  | atomr (op : AtomOp) (dbl : Bool) (off : Nat) (r : MG)
  | cas (t : CasTy) (off : Nat) (r : MG)
  | cadd (dbl : Bool) (off : Option Nat) (r : MG)
  | cwait (n32 : Bool) (off : Option Nat) (r : MO)
  | waita (off : Option Nat) (r : MO)
  | badd (p : Option RPfx) (r : R3)
  | bwait (p : Option RPfx) (r : R3)
  | barv (p : Option RPfx) (r : R3)
  | fence (k : FenceKind) (r : R3)
  | waiterWake (core slot tid : Nat)
  | slicePoll (core slot tid : Nat)
  | ioDiePoll (core slot tid : Nat)
  | ownershipRecall (line : Nat)
  | contentionEntryExpiry (line : Nat)
  | cacheEviction (l2 : Bool) (idx line : Nat)
  | hostSnoop (sector : Nat)
  | variableResultLands (core slot tid k : Nat)
  | pageWalk (die asid va : Nat) (k : AccKind)
  -- chapter 06: the block transfer engine
  | tcpyLd (p : RPfx) (r : R3)
  | tcpySt (p : RPfx) (r : R3)
  | gcpyGather (p : RPfx) (r : R3)
  | gcpyScatter (p : RPfx) (r : R3)
  | mcpy (p : RPfx) (r : R3)
  | wcpy (p : RPfx) (r : R3)
  | streamPlaceFrees (core slot tid : Nat)
  | thnd (r : R3)
  | copyLineServe (core slot q : Nat)
  | copyComplete (core slot q : Nat)
  -- chapter 09: the matrix engine
  | obres (r : R3)
  | obrel (r : R3)
  | obdup (p : RPfx) (r : R3)
  | obclr (r : R3)
  | mma (z : Bool) (p : RPfx) (r : R3)
  | mmah (z : Bool) (p : RPfx) (r : R3)
  | mmahFetchLanded (core slot : Nat)
  | engineMultiply (core : Nat)
  | multiplyLands (core : Nat)
  | obrd (t : ObTy) (r : R3)
  | obwr (t : ObTy) (r : R3)
  | obrdLands (core slot tid : Nat)
  | obld (p : RPfx) (r : R3)
  | obst (p : RPfx) (r : R3)
  | engineQueuePlaceFrees (core slot : Nat)
  -- chapter 10: the selection engine
  | selk (p : RPfx) (r : R3)
  | selks (p : RPfx) (r : R3)
  | selu (p : RPfx) (r : R3)
  | selectionQueuePlaceFrees (core slot tid : Nat)
  | selectionCommandRun (bed : Nat)
  | selectionComplete (bed : Nat)
  -- chapter 14, 02, 15: rings, launch, special registers, system
  | rres (r : R3)
  | rcom (p : Option RPfx) (r : R3)
  | rget (p : Option RPfx) (r : R3)
  | rfre (p : Option RPfx) (r : R3)
  | phase (p : Option RPfx) (r : R3)
  | launch (r : R3)
  | yield (r : R3)
  | mfsrSpecial (r : RI)
  | mfsrUniform (r : RI)
  | mtsr (r : RI)
  | sset (r : RI)
  | trap (r : SY)
  | bkpt (r : SY)
  | rtt (r : SY)
  | tlbi (k : TlbiKind) (r : SY)
  | icinv (r : SY)
  -- chapter 13: casting
  | warpForm (core : Nat)
  | poolReady (core slot tid : Nat)
  | boundGroupRelease (core slot grp : Nat)
  | castingStarvation (core : Nat)
  -- chapter 15: faults, the Stagehand, pre-emption
  | faultBatchSend (core : Nat)
  | faultRingWrite
  | stagehandFill
  | stagehandFillComplete (k : Nat) (ok : Bool)
  | watchdogExpiry (core slot : Nat) (tids : List Nat)
  | frespRetry (m : Master) (fid : Nat)
  | frespAbandon (m : Master) (fid : Nat)
  | frespKill (m : Master) (fid : Nat)
  | frespHalt (m : Master) (fid : Nat)
  | dbgstepThread (m : Master) (v : Nat)
  | dbgstepPc (m : Master) (v : Nat)
  | preemptSuspendAsid (m : Master) (v : Nat)
  | preemptResumeAsid (m : Master) (v : Nat)
  | forceSave (m : Master) (v : Nat)
  | restore (m : Master) (v : Nat)
  | preemptKillLaunch (m : Master) (v : Nat)
  | preemptKillAsid (m : Master) (v : Nat)
  | blockExit (core slot : Nat)
  -- chapter 14: the dispatchers
  | blockExitAdds
  | launchRingConsume (asid n : Nat)
  | launchWaitsMet (id : Nat)
  | launchReady (id : Nat)
  | clusterPlace (die : Nat)
  | placementBackoffExpiry (die : Nat)
  | phaseEntry (id : Nat)
  | tailDoorbell (m : Master) (asid n v : Nat)
  | lringWrite (m : Master) (asid n v : Nat)
  | ffringWrite (m : Master) (die v : Nat)
  | fringWrite (m : Master) (v : Nat)
  | iotailDoorbell (m : Master) (v : Nat)
  | iocmdWrite (m : Master) (v : Nat)
  | ioCopy
  | flwr
  | flrd
  | ioCommandComplete
  | frameopPurgeWriteback (m : Master) (v : Nat)
  | frameopPurgeDiscard (m : Master) (v : Nat)
  | frameopBackInvalidate (m : Master) (v : Nat)
  | frameopComplete
  | shootRange (m : Master) (v : Nat)
  | shootAsid (m : Master) (v : Nat)
  | shootAll (m : Master) (v : Nat)
  | shootdownAcknowledge (die k : Nat)
  | shootdownComplete (k : Nat)
  -- chapter 16: host, trust and management
  | ownerClaim (m : Master)
  | ownerRelease (m : Master)
  | ownerWithdraw (m : Master)
  | claimWindowClose
  | ownerLoss
  | flerase (m : Master) (v : Nat)
  | detmodeWrite (m : Master) (v : Nat)
  | pwrcapWrite (m : Master) (v : Nat)
  | thermClear (m : Master) (v : Nat)
  | powerEvaluation (power inlet tj : Nat)
  | thermalTrip
  | registerWrite (m : Master) (r : RegAt) (v : Nat)
  | hostMemRead (hpa : Nat) (ask : HostAsk)
  | hostMemWrite (hpa mask : Nat) (data : List Byte)
  | deviceReset (images : List Image)
  | linkTrainingReport (failed : Nat)
  | bootComplete
  | getMeasurements (ask : SpdmAsk)
  | getCertificate (ask : SpdmAsk)
  | challenge (ask : SpdmAsk)
  | keyExchange (ask : SpdmAsk)
  | softError (place : ErrorAt) (double : Bool)
  | configurationRequest (kind : ConfigKind) (v : Nat)
  | hostLinkTraining (width : Nat)
  | pendingClaimLinkLoss (m : Master)
deriving DecidableEq, Repr

end Sys2Proof
end

