-- ==== Sys2Proof/WellFormed.lean ====
section
/-!
DEFINITION. WellFormed.lean: which instructions have a word. Four checks, each a Bool: the fields fit their bits
(R31), the function values are listed (R58 check 3), the reserved fields are zero (check 4), the field codes are
legal (check 5, as far as the word alone decides it). The decoder applies the last three in the order of R58.
-/
namespace Sys2Proof

/-- A register operand of an instruction: a field code, how many registers it names from there, the alignment the
entry asks for, whether the instruction writes it, and whether `zr` may stand in that place (R45, R47). -/
structure Opnd where
  code : Nat
  n : Nat := 1
  align : Nat := 1
  dst : Bool := false
  zr : Bool := true
deriving DecidableEq, Repr

/-- A single source register. -/
def src (c : Nat) : Opnd := { code := c }
/-- A single destination register. -/
def dst (c : Nat) : Opnd := { code := c, dst := true }
/-- A source pair (R47). -/
def srcP (c : Nat) : Opnd := { code := c, n := 2, align := 2 }
/-- A destination pair (R47). -/
def dstP (c : Nat) : Opnd := { code := c, n := 2, align := 2, dst := true }
/-- A source quadruple (R47). -/
def srcQ (c : Nat) : Opnd := { code := c, n := 4, align := 4 }
/-- A destination quadruple (R47). -/
def dstQ (c : Nat) : Opnd := { code := c, n := 4, align := 4, dst := true }
/-- A register group that an entry defines: `zr` is not one (log entry 18). -/
def grp (c n al : Nat) (w : Bool) : Opnd := { code := c, n := n, align := al, dst := w, zr := false }

/-- Check 5 of R58 for one register operand (R45, R47). -/
def Opnd.legal (o : Opnd) : Bool :=
  if o.code == 127 then o.zr
  else if o.n == 1 then (if o.dst then decide (o.code < 120) else o.code != 126)
  else o.code % o.align == 0 && decide (o.code + o.n ≤ 120)

/-- Check 6 of R58 for one register operand, on a thread with window base `wb` and `regs` registers (R46). -/
def Opnd.within (wb regs : Nat) (o : Opnd) : Bool :=
  decide (120 ≤ o.code) || decide (wb + o.code + o.n ≤ regs)

/-- The payload of a prefix that stands or does not stand (R34: absent means zeros). -/
def pfx (p : Option RPfx) : RPfx := p.getD {}

/-- The third source, where CV names one (R35). -/
def cOpnd (p : RPfx) : List Opnd := if p.cv then [src p.c] else []

/-- The register operand of an access of a given size: one register, a pair or a quadruple (R32, R47). -/
def sized (sz : Size) (c : Nat) (w : Bool) : Opnd :=
  match sz with
  | .w64 => { code := c, n := 2, align := 2, dst := w }
  | .b128 => { code := c, n := 4, align := 4, dst := w }
  | _ => { code := c, dst := w }

/-- The register operand of an `STS` (R124). -/
def stsOpnd (sz : StsSize) (c : Nat) : Opnd :=
  match sz with
  | .b64 => srcP c
  | .b128 => srcQ c
  | _ => src c

/-- The operand of an atomic of 4 or 8 bytes. -/
def wide (dbl : Bool) (c : Nat) (w : Bool) : Opnd :=
  if dbl then { code := c, n := 2, align := 2, dst := w } else { code := c, dst := w }

/-- Whether a `CVT` type is 64 bits wide. -/
def CvtTy.is64 : CvtTy → Bool
  | .n64 | .s64 => true
  | _ => false
/-- Whether a `CVT` type is floating. -/
def CvtTy.isFloat : CvtTy → Bool
  | .f32 | .f16 | .bf16 | .e4m3 | .e5m2 => true
  | _ => false
/-- One more than the largest EXT a `CVT` of this source type admits (R208). -/
def CvtTy.extBound : CvtTy → Nat
  | .n16 | .s16 | .f16 | .bf16 => 2
  | .n8 | .s8 | .e4m3 | .e5m2 => 4
  | _ => 1

/-- The x registers an instruction names (R45 to R47), in the order D, A, B, C. -/
def Instr.opnds : Instr → List Opnd
  | .nop => []
  | .bra _ => []
  | .brx r => [src r.a]
  | .call _ => [dst 119]
  | .callx r => [src r.a, dst 119]
  | .ret r => [src r.a]
  | .join _ _ => []
  | .mrset _ r => [src r.a]
  | .mrswap _ r => [dst r.d]
  | .exit _ _ => []
  | .wbase _ => []
  | .add _ _ r | .sub _ _ r | .mul _ _ r => [dst r.d, src r.a, src r.b]
  | .addi _ r => [dst r.d, src r.a]
  | .mulhi _ r => [dst r.d, src r.a, src r.b]
  | .mad _ p r => [dst r.d, src r.a, src r.b] ++ cOpnd (pfx p)
  | .add64 _ _ r | .sub64 _ _ r => [dstP r.d, srcP r.a, srcP r.b]
  | .mul64 t _ r =>
    match t with
    | .n64 | .s64 => [dstP r.d, srcP r.a, srcP r.b]
    | .n32 | .s32 => [dstP r.d, src r.a, src r.b]
  | .idiv t r | .irem t r =>
    match t with
    | .n64 | .s64 => [dstP r.d, srcP r.a, srcP r.b]
    | .n32 | .s32 => [dst r.d, src r.a, src r.b]
  | .min _ r | .max _ r => [dst r.d, src r.a, src r.b]
  | .abs t _ r | .neg t _ r =>
    match t with
    | .s64 => [dstP r.d, srcP r.a]
    | .s32 => [dst r.d, src r.a]
  | .and r | .or r | .xor r | .andn r => [dst r.d, src r.a, src r.b]
  | .shl _ r | .shr _ r | .sar _ r | .rot _ r => [dst r.d, src r.a, src r.b]
  | .fshl p r => [dst r.d, src r.a, src r.b] ++ cOpnd p
  | .popc r | .clz r | .ctz r | .brev r => [dst r.d, src r.a]
  | .bfe _ r | .bfi r => [dst r.d, src r.a, src r.b]
  | .mov r => [dst r.d, src r.a]
  | .movi _ r => [dst r.d]
  | .movhi r => [dst r.d]
  | .cmp _ p r => if (pfx p).ext == 1 then [srcP r.a, srcP r.b] else [src r.a, src r.b]
  | .cmpi _ _ r => [src r.a]
  | .sel _ r => [dst r.d, src r.a, src r.b]
  | .pand _ | .por _ | .pxor _ | .pnot _ => []
  | .dot4 _ p r => [dst r.d, src r.a, src r.b] ++ cOpnd (pfx p)
  | .wadd _ _ r => [dst r.d, src r.a, src r.b]
  | .fadd _ r | .fsub _ r | .fmul _ r => [dst r.d, src r.a, src r.b]
  | .ffma p r => [dst r.d, src r.a, src r.b] ++ cOpnd (pfx p)
  | .fmin r | .fmax r => [dst r.d, src r.a, src r.b]
  | .fcmp _ r => [src r.a, src r.b]
  | .frcp r | .frsq r | .fexp2 r | .flog2 r | .fsin r | .fcos r => [dst r.d, src r.a]
  | .fsqrt _ r | .frnd _ r => [dst r.d, src r.a]
  | .fdiv _ r => [dst r.d, src r.a, src r.b]
  | .hadd2 _ _ r | .hmul2 _ _ r => [dst r.d, src r.a, src r.b]
  | .hfma2 _ p r => [dst r.d, src r.a, src r.b] ++ cOpnd (pfx p)
  | .cvt td ts _ r => [if td.is64 then dstP r.d else dst r.d, if ts.is64 then srcP r.a else src r.a]
  | .qnt t r => [dst r.d, if t = .f32 then srcP r.a else src r.a, src r.b]
  | .dqnt t _ r => [if t = .f32 then dstP r.d else dst r.d, src r.a, srcP r.b]
  | .pack _ _ r => [dst r.d, src r.a, src r.b]
  | .unpk _ _ r => [dstP r.d, src r.a]
  | .shfl _ r => [dst r.d, src r.a, src r.b]
  | .vote v r => if v = .ballot then [dst r.d] else []
  | .wred _ _ r | .qred _ _ r => [dst r.d, src r.a]
  | .qswp _ r | .qbcst _ r => [dst r.d, src r.a]
  | .ld sz _ _ r | .lda sz _ _ _ r => [sized sz r.d true, src r.a]
  | .stWord dbl _ r => [wide dbl r.d false, src r.a]
  | .stNarrow _ _ r => [src r.d, src r.a]
  | .stB128 _ r => [srcQ r.d, src r.a]
  | .str64 _ _ r => [srcP r.d, src r.a]
  | .str32 _ _ r => [src r.d, src r.a]
  | .sts sz _ r => [stsOpnd sz r.d, src r.a]
  | .lds sz _ r => [sized sz r.d true, src r.a]
  | .tlds _ _ r => [dst r.d, src r.a]
  | .pref _ _ r => [src r.a]
  | .cwb _ _ r | .cinv _ _ r | .sarm _ r | .femk _ _ r => [src r.d, src r.a]
  | .kld _ _ r => [src r.a]
  | .atom _ dbl _ r => [wide dbl r.d false, src r.a]
  | .atomr _ dbl _ r => [wide dbl r.d true, src r.a]
  | .cas t _ r =>
    match t with
    | .n32 => [grp r.d 2 2 true, src r.a]
    | .n64 => [grp r.d 4 4 true, src r.a]
    | .b128 => [grp r.d 8 8 true, src r.a]
  | .cadd dbl _ r => [wide dbl r.d false, src r.a]
  | .cwait n32 _ r => [wide (!n32) r.d false, src r.a]
  | .waita _ r => [dst r.d, grp r.a 8 8 false]
  | .badd _ r => [src r.b]
  | .bwait _ r => [srcP r.a]
  | .barv _ r => [srcP r.a, src r.b]
  | .fence _ _ => []
  | .tcpyLd p r | .tcpySt p r | .gcpyGather p r | .gcpyScatter p r | .wcpy p r =>
    [src r.a, srcP r.b] ++ cOpnd p
  | .mcpy p r => [src r.a, srcQ r.b] ++ cOpnd p
  | .thnd r => [src r.a]
  | .obres r => [srcQ r.a]
  | .obrel _ | .obclr _ => []
  | .obdup _ r => [src r.a]
  | .mma _ _ r => [grp r.d 16 8 false, src r.a, src r.b]
  | .mmah _ _ r => [grp r.d 16 8 false, srcP r.a, src r.b]
  | .obrd _ r => [grp r.d 16 8 true, src r.b]
  | .obwr _ r => [grp r.d 16 8 false, src r.b]
  | .obld p r | .obst p r => [src r.a, srcP r.b] ++ cOpnd p
  | .selk p r | .selks p r | .selu p r => [srcQ r.d, src r.a, srcP r.b] ++ cOpnd p
  | .rres r => [dstP r.d, src r.a]
  | .rcom _ r | .rfre _ r => [srcP r.a]
  | .rget _ r => [dstP r.d]
  | .phase p r => if (pfx p).ext == 0 then [] else [grp r.a (4 * (pfx p).ext - 1) 8 false]
  | .launch r => [dst r.d, src r.a]
  | .yield _ => []
  | .mfsrSpecial r => [if r.imm == 0x0F || r.imm == 0x19 || r.imm == 0x1A then dstP r.d else dst r.d]
  | .mfsrUniform r => [dst r.d]
  | .mtsr r | .sset r => [src r.a]
  | .trap _ | .bkpt _ => []
  | .rtt r => [src r.a]
  | .tlbi _ r => [srcQ r.a]
  | .icinv r => [srcP r.a]
  | _ => []

/-! ## The fields fit their bits (R31, R34) -/

/-- The fields of an RRR prefix fit. -/
def RPfx.inRange (p : RPfx) : Bool :=
  decide (p.rm < 8) && decide (p.rsv < 4) && decide (p.c < 128) && decide (p.ext < 1024)
/-- The fields of an RRR word fit. -/
def R3.inRange (r : R3) : Bool := decide (r.d < 128) && decide (r.a < 128) && decide (r.b < 128)
/-- The fields of an RI word fit. -/
def RI.inRange (r : RI) : Bool := decide (r.d < 128) && decide (r.a < 128) && decide (r.imm < 1024)
/-- The fields of an RL word fit. -/
def RL.inRange (r : RL) : Bool := decide (r.d < 128) && decide (r.imm < 131072)
/-- The fields of an M word fit. -/
def MO.inRange (r : MO) : Bool := decide (r.d < 128) && decide (r.a < 128) && decide (r.k < 32)
/-- The fields of an MG word fit. -/
def MG.inRange (r : MG) : Bool :=
  decide (r.d < 128) && decide (r.a < 128) && decide (r.k < 32) && decide (r.p < 8)
/-- The fields of a BR word fit. -/
def BR.inRange (r : BR) : Bool := decide (r.p < 8) && decide (r.off < 524288)
/-- The fields of a BR-reg word fit. -/
def BX.inRange (r : BX) : Bool :=
  decide (r.p < 8) && decide (r.rsv < 4) && decide (r.a < 128) && decide (r.low < 1024)
/-- The fields of an SY word fit. -/
def SY.inRange (r : SY) : Bool := decide (r.a < 128) && decide (r.imm < 1024)
/-- A prefix that stands fits. -/
def pfxIn : Option RPfx → Bool
  | none => true
  | some p => p.inRange
/-- A raw 24-bit payload that stands fits. -/
def payIn : Option Nat → Bool
  | none => true
  | some v => decide (v < 16777216)

/-- Every field of an instruction word fits its bits; a step of an agent has no word and its numbers are free. -/
def Instr.inRange : Instr → Bool
  | .nop => true
  | .bra r | .call r => r.inRange
  | .brx r | .callx r | .ret r => r.inRange
  | .join _ l | .exit _ l => decide (l < 16777216)
  | .mrset p r | .addi p r | .cmpi _ p r => payIn p && r.inRange
  | .mrswap p r | .movi p r => payIn p && r.inRange
  | .wbase r => r.inRange
  | .add _ p r | .sub _ p r | .mul _ p r | .mad _ p r => pfxIn p && r.inRange
  | .mulhi _ r | .min _ r | .max _ r | .bfe _ r => r.inRange
  | .add64 _ p r | .sub64 _ p r => pfxIn p && r.inRange
  | .mul64 _ p r => pfxIn p && r.inRange
  | .idiv _ r | .irem _ r => r.inRange
  | .abs _ p r | .neg _ p r => pfxIn p && r.inRange
  | .and r | .or r | .xor r | .andn r => r.inRange
  | .shl p r | .shr p r | .sar p r | .rot p r => pfxIn p && r.inRange
  | .fshl p r => p.inRange && r.inRange
  | .popc r | .clz r | .ctz r | .brev r | .bfi r | .mov r => r.inRange
  | .movhi r => r.inRange
  | .cmp _ p r => pfxIn p && r.inRange
  | .sel q r => decide (q < 8) && r.inRange
  | .pand r | .por r | .pxor r | .pnot r => r.inRange
  | .dot4 _ p r => pfxIn p && r.inRange
  | .wadd _ p r => pfxIn p && r.inRange
  | .fadd p r | .fsub p r | .fmul p r | .ffma p r | .fsqrt p r | .fdiv p r | .frnd p r => pfxIn p && r.inRange
  | .fmin r | .fmax r | .frcp r | .frsq r | .fexp2 r | .flog2 r | .fsin r | .fcos r => r.inRange
  | .fcmp _ r => r.inRange
  | .hadd2 _ p r | .hmul2 _ p r | .hfma2 _ p r => pfxIn p && r.inRange
  | .cvt _ _ p r => pfxIn p && r.inRange && decide (r.b < 4)
  | .qnt _ r => r.inRange
  | .dqnt _ p r => pfxIn p && r.inRange
  | .pack _ p r | .unpk _ p r => pfxIn p && r.inRange
  | .shfl _ r => r.inRange
  | .vote _ r => r.inRange
  | .wred _ p r | .qred _ p r => pfxIn p && r.inRange
  | .qswp _ r => r.inRange
  | .qbcst m r => decide (m < 4) && r.inRange
  | .ld _ _ off r => payIn off && r.inRange
  | .lda _ _ _ off r => decide (off < 2097152) && r.inRange
  | .stWord _ off r | .stNarrow _ off r => payIn off && r.inRange
  | .stB128 off r => payIn off && r.inRange
  | .str64 _ off r | .str32 _ off r => decide (off < 2097152) && r.inRange
  | .sts _ off r => payIn off && r.inRange && decide (r.k < 4)
  | .lds _ off r => payIn off && r.inRange
  | .tlds _ off r => payIn off && r.inRange
  | .pref _ off r => payIn off && r.inRange
  | .cwb _ off r | .cinv _ off r => payIn off && r.inRange
  | .sarm off r | .waita off r => payIn off && r.inRange
  | .femk _ off r | .cwait _ off r => payIn off && r.inRange
  | .kld _ off r => payIn off && r.inRange
  | .atom _ _ off r | .atomr _ _ off r => decide (off < 524288) && r.inRange
  | .cas _ off r => decide (off < 524288) && r.inRange
  | .cadd _ off r => payIn off && r.inRange
  | .badd p r | .bwait p r | .barv p r | .rcom p r | .rget p r | .rfre p r | .phase p r => pfxIn p && r.inRange
  | .fence _ r => r.inRange
  | .tcpyLd p r | .tcpySt p r | .gcpyGather p r | .gcpyScatter p r | .mcpy p r | .wcpy p r => p.inRange && r.inRange
  | .thnd r | .obres r | .obrel r | .obclr r | .rres r | .launch r | .yield r => r.inRange
  | .obdup p r | .obld p r | .obst p r | .selk p r | .selks p r | .selu p r => p.inRange && r.inRange
  | .mma _ p r | .mmah _ p r => p.inRange && r.inRange
  | .obrd _ r | .obwr _ r => r.inRange
  | .mfsrSpecial r => r.inRange && decide (r.imm < 256)
  | .mfsrUniform r | .mtsr r | .sset r => r.inRange && decide (r.imm < 256)
  | .trap r | .bkpt r | .rtt r | .icinv r => r.inRange
  | .tlbi _ r => r.inRange && decide (r.imm < 256)
  | _ => true

/-! ## The function values are listed (check 3) -/

/-- A scope code (R256) in the low three bits. -/
def scopeCode (v : Nat) : Bool := decide (v % 8 < 5)
/-- The fields of a counter prefix (R289): a listed scope code. -/
def ctrFn : Option Nat → Bool
  | none => true
  | some v => scopeCode (v / 2097152)

/-- The operations of `ATOM` and `ATOMR` that take 4 bytes alone (R281). -/
def AtomOp.wordOnly : AtomOp → Bool
  | .addF32 | .addBf16x2 | .minF32 | .maxF32 => true
  | _ => false

/-- Check 3 of R58 for what the constructor does not say already, and the prefixes that one function of an entry does not
admit (R36, R191, R216, R218). -/
def Instr.functionOk : Instr → Bool
  | .mul64 t p _ => (t == .n64 || t == .s64) || p.isNone
  | .wred o p _ | .qred o p _ => o == .addF32 || p.isNone
  | .atom o dbl _ _ | .atomr o dbl _ _ => !(dbl && o.wordOnly)
  | .cadd _ off _ | .cwait _ off _ => ctrFn off
  | .waita off _ => ctrFn off && (match off with | none => true | some v => v / 65536 % 16 != 0)
  | .badd p _ | .bwait p _ | .barv p _ | .rcom p _ | .rget p _ | .rfre p _ => scopeCode (pfx p).ext
  | .fence _ r => scopeCode r.d
  | .phase p _ => (pfx p).ext % 4 != 3
  | _ => true

/-! ## The reserved fields are zero (check 4) -/

/-- The fields of an RRR prefix that the entry admits: RM, SAT, CV, and an EXT below `e` (R35, R187). A reserved RM
is a nonzero reserved field. C without CV is an unused field (R186). -/
def RPfx.only (rm sat cv : Bool) (e : Nat) (p : RPfx) : Bool :=
  (p.rm == 0 || (rm && decide (p.rm < 5))) && (!p.sat || sat) && p.rsv == 0 && (!p.cv || cv) &&
    (p.cv || p.c == 0) && decide (p.ext < e)
/-- The same for an optional prefix. -/
def only (rm sat cv : Bool) (e : Nat) : Option RPfx → Bool
  | none => true
  | some p => p.only rm sat cv e
/-- A scope without `.rel` or `.acq` (R289, R291). -/
def ctrRes : Option Nat → Bool
  | none => true
  | some v => v / 1048576 % 2 == 1 || v / 2097152 == 0
/-- An RI prefix: P[23:22] is reserved (R34). -/
def riRes : Option Nat → Bool
  | none => true
  | some v => decide (v < 4194304)
/-- An RL prefix: P[23:15] is reserved (R34). -/
def rlRes : Option Nat → Bool
  | none => true
  | some v => decide (v < 32768)
/-- One more than the largest EXT that `PACK` and `UNPK` admit (R211, R212). -/
def PackTy.extBound : PackTy → Nat
  | .f16 | .bf16 => 1
  | .e4m3 | .e5m2 | .s8 | .n8 => 2
  | .s4 | .n4 => 4
/-- Whether `PACK` to this type is floating. -/
def PackTy.isFloat : PackTy → Bool
  | .f16 | .bf16 | .e4m3 | .e5m2 => true
  | _ => false
/-- A shift: an immediate amount stands only with B = `zr` (R193). -/
def shiftRes (p : Option RPfx) (r : R3) : Bool := only false false false 64 p && ((pfx p).ext == 0 || r.b == 127)

/-- Check 4 of R58: every reserved or unused field is zero (R31, R35, R48, R186 and the entries). -/
def Instr.reservedOk : Instr → Bool
  | .brx r | .callx r | .ret r => r.rsv == 0 && r.low == 0
  | .join _ l | .exit _ l => l == 0
  | .mrset p r => riRes p && r.d == 0
  | .mrswap p _ | .movi p _ => rlRes p
  | .wbase r => r.d == 0 && r.a == 0
  | .add _ p _ | .sub _ p _ | .mul _ p _ => only false true false 1 p
  | .addi p _ => riRes p
  | .mad _ p _ => only false true true 1 p
  | .add64 _ p _ | .sub64 _ p _ => only false true false 1 p
  | .mul64 _ p _ => only false true false 1 p
  | .abs _ p r | .neg _ p r => only false true false 1 p && r.b == 0
  | .shl p r | .shr p r | .sar p r | .rot p r => shiftRes p r
  | .fshl p _ => p.only false false true 32 && (!p.cv || p.ext == 0)
  | .popc r | .clz r | .ctz r | .brev r | .mov r => r.b == 0
  | .movhi r => decide (r.imm < 65536)
  | .cmp _ p r => only false false false 2 p && decide (r.d < 8)
  | .cmpi _ p r => riRes p && decide (r.d < 8)
  | .pand r | .por r | .pxor r => decide (r.d < 8) && decide (r.a < 8) && decide (r.b < 8)
  | .pnot r => decide (r.d < 8) && decide (r.a < 8) && r.b == 0
  | .dot4 _ p _ => only false true true 1 p
  | .wadd t p _ => only false true false (match t with | .n8 | .s8 => 4 | .n16 | .s16 => 2) p
  | .fadd p _ | .fsub p _ | .fmul p _ | .fdiv p _ => only true false false 1 p
  | .ffma p _ => only true false true 1 p
  | .fsqrt p r | .frnd p r => only true false false 1 p && r.b == 0
  | .fcmp _ r => decide (r.d < 8)
  | .frcp r | .frsq r | .fexp2 r | .flog2 r | .fsin r | .fcos r => r.b == 0
  | .hadd2 _ p _ | .hmul2 _ p _ => only true false false 1 p
  | .hfma2 _ p _ => only true false true 1 p
  | .cvt td ts p r =>
    only (td.isFloat || ts.isFloat) (td == .e5m2 || (!td.isFloat && !ts.isFloat)) false ts.extBound p && r.b == 0
  | .dqnt _ p _ => only true false false 4 p
  | .pack t p _ => only t.isFloat (t == .e5m2) false t.extBound p
  | .unpk t p r => only false false false t.extBound p && r.b == 0
  | .vote v r => decide (r.a < 8) && r.b == 0 && (v == .ballot || decide (r.d < 8))
  | .wred o p r | .qred o p r => only (o == .addF32) false false 1 p && r.b == 0
  | .qswp _ r | .qbcst _ r => r.b == 0
  | .sts _ _ r => r.k == 0
  | .lds _ _ r => r.k == 0
  | .tlds _ _ r => r.k == 0
  | .pref _ _ r => r.d == 0
  | .femk _ _ r => r.k == 0
  | .kld _ _ r => decide (r.d < 32)
  | .cadd _ off _ => ctrRes off
  | .cwait _ off _ => ctrRes off
  | .waita off _ => ctrRes off
  | .badd p r => only false false false 8 p && decide (r.d < 64) && r.a == 0
  | .bwait p r => only false false false 8 p && decide (r.d < 64) && r.b == 0
  | .barv p r => only false false false 8 p && decide (r.d < 64)
  | .fence _ r => decide (r.d < 8) && r.a == 0 && r.b == 0
  | .tcpyLd p r | .tcpySt p r | .gcpyGather p r | .gcpyScatter p r | .mcpy p r | .wcpy p r =>
    p.only false false true 4 && decide (r.d < 16)
  | .thnd r => decide (r.d < 16) && decide (r.b < 32)
  | .obres r => decide (r.d < 16) && r.b == 0
  | .obrel r | .obclr r => decide (r.d < 16) && r.a == 0 && r.b == 0
  | .obdup p r => p.only false false false 64 && decide (r.d < 16) && r.b == 0
  | .mma _ p _ | .mmah _ p _ => p.only false false false 512
  | .obrd _ r | .obwr _ r => decide (r.a < 16)
  | .obld p r | .obst p r => p.only false false true 4 && decide (r.d < 16)
  | .selk p _ | .selks p _ => p.only false false true 16
  | .selu p _ => p.only false false true 16 && p.ext % 8 < 4
  | .rres r => decide (r.b < 32)
  | .rcom p r | .rfre p r => only false false false 8 p && r.d == 0 && decide (r.b < 32)
  | .rget p r => only false false false 8 p && r.a == 0 && decide (r.b < 32)
  | .phase p r => only false false false 4 p && r.d == 0 && r.b == 0 && ((pfx p).ext != 0 || r.a == 0)
  | .launch r => decide (r.b < 32)
  | .yield r => r.d == 0 && r.a == 0 && r.b == 0
  | .mfsrSpecial r => r.a == 0
  | .mfsrUniform r => r.a == 0 && decide (r.imm < 64)
  | .mtsr r => r.d == 0
  | .sset r => r.d == 0 && decide (r.imm < 64)
  | .trap r | .bkpt r => r.a == 0
  | .rtt r | .icinv r => r.imm == 0
  | .tlbi _ r => r.imm == 0
  | _ => true

/-! ## The field codes are legal (check 5) -/

/-- A special register that exists (R50). -/
def srReadable (n : Nat) : Bool := decide (n < 0x1B)
/-- A special register that `MTSR` may name (R50). -/
def srWritable (n : Nat) : Bool := decide (0x14 ≤ n) && decide (n < 0x19)

/-- Check 5 of R58 as far as the word decides it: barriers at or above the kernel's `.barriers` are checked at issue,
where the kernel is known; none has more than 48. -/
def Instr.codesOk (i : Instr) : Bool :=
  i.opnds.all Opnd.legal &&
    match i with
    | .mfsrSpecial r => srReadable r.imm
    | .mtsr r => srWritable r.imm
    | .badd _ r | .bwait _ r | .barv _ r => decide (r.d < 48)
    | _ => true

/-- An instruction that has a word: the four checks. -/
def Instr.wf (i : Instr) : Bool := i.inRange && i.functionOk && i.reservedOk && i.codesOk

/-- Whether a row of the table is an instruction word, not a step of an agent. -/
def Instr.isWord : Instr → Bool
  | .maintenanceComplete .. | .waiterWake .. | .slicePoll .. | .ioDiePoll .. | .ownershipRecall ..
  | .contentionEntryExpiry .. | .cacheEviction .. | .hostSnoop .. | .variableResultLands .. | .pageWalk ..
  | .streamPlaceFrees .. | .copyLineServe .. | .copyComplete .. | .mmahFetchLanded .. | .engineMultiply ..
  | .multiplyLands .. | .obrdLands .. | .engineQueuePlaceFrees .. | .selectionQueuePlaceFrees ..
  | .selectionCommandRun .. | .selectionComplete .. | .warpForm .. | .poolReady .. | .boundGroupRelease ..
  | .castingStarvation .. | .faultBatchSend .. | .faultRingWrite | .stagehandFill | .stagehandFillComplete ..
  | .watchdogExpiry .. | .frespRetry .. | .frespAbandon .. | .frespKill .. | .frespHalt .. | .dbgstepThread ..
  | .dbgstepPc .. | .preemptSuspendAsid .. | .preemptResumeAsid .. | .forceSave .. | .restore ..
  | .preemptKillLaunch .. | .preemptKillAsid .. | .blockExit .. | .blockExitAdds .. | .launchRingConsume ..
  | .launchWaitsMet .. | .launchReady .. | .clusterPlace .. | .placementBackoffExpiry .. | .phaseEntry ..
  | .tailDoorbell .. | .lringWrite .. | .ffringWrite .. | .fringWrite .. | .iotailDoorbell .. | .iocmdWrite ..
  | .ioCopy | .flwr | .flrd | .ioCommandComplete | .frameopPurgeWriteback .. | .frameopPurgeDiscard ..
  | .frameopBackInvalidate .. | .frameopComplete | .shootRange .. | .shootAsid .. | .shootAll ..
  | .shootdownAcknowledge .. | .shootdownComplete .. | .ownerClaim .. | .ownerRelease .. | .ownerWithdraw ..
  | .claimWindowClose | .ownerLoss | .flerase .. | .detmodeWrite .. | .pwrcapWrite .. | .thermClear ..
  | .powerEvaluation .. | .thermalTrip .. | .registerWrite .. | .hostMemRead .. | .hostMemWrite .. | .deviceReset ..
  | .linkTrainingReport .. | .bootComplete | .getMeasurements .. | .getCertificate .. | .challenge ..
  | .keyExchange .. | .softError .. | .configurationRequest .. | .hostLinkTraining .. | .pendingClaimLinkLoss .. =>
    false
  | _ => true

end Sys2Proof
end

