-- ==== Sys2Proof/Decode.lean ====
section
/-!
DEFINITION. Decode.lean: the decoder, total on any bytes, which rejects by name in the order of R58, and the encoder
of well-formed instructions. Both are written from the formats (R31 to R35), the opcode map (R54 to R57) and the
encodings of the entries.
-/
namespace Sys2Proof

/-! ## Function values -/

/-- The code of a value of `Sg` (R189). -/
def Sg.code : Sg → Nat
  | .n32 => 0
  | .s32 => 1
/-- The value of `Sg` with a code, if one is listed. -/
def Sg.ofCode : Nat → Option Sg
  | 0 => some .n32
  | 1 => some .s32
  | _ => none
/-- The code of a value of `DivTy` (R190). -/
def DivTy.code : DivTy → Nat
  | .n32 => 0
  | .s32 => 1
  | .n64 => 2
  | .s64 => 3
/-- The value of `DivTy` with a code, if one is listed. -/
def DivTy.ofCode : Nat → Option DivTy
  | 0 => some .n32
  | 1 => some .s32
  | 2 => some .n64
  | 3 => some .s64
  | _ => none
/-- The code of a value of `Sg64` (R191). -/
def Sg64.code : Sg64 → Nat
  | .n64 => 0
  | .s64 => 1
/-- The value of `Sg64` with a code, if one is listed. -/
def Sg64.ofCode : Nat → Option Sg64
  | 0 => some .n64
  | 1 => some .s64
  | _ => none
/-- The code of a value of `MulTy` (R191). -/
def MulTy.code : MulTy → Nat
  | .n64 => 0
  | .s64 => 1
  | .n32 => 2
  | .s32 => 3
/-- The value of `MulTy` with a code, if one is listed. -/
def MulTy.ofCode : Nat → Option MulTy
  | 0 => some .n64
  | 1 => some .s64
  | 2 => some .n32
  | 3 => some .s32
  | _ => none
/-- The code of a value of `CC` (R197). -/
def CC.code : CC → Nat
  | .eq => 0
  | .ne => 1
  | .ltS => 2
  | .geS => 3
  | .ltN => 4
  | .geN => 5
/-- The value of `CC` with a code, if one is listed. -/
def CC.ofCode : Nat → Option CC
  | 0 => some .eq
  | 1 => some .ne
  | 2 => some .ltS
  | 3 => some .geS
  | 4 => some .ltN
  | 5 => some .geN
  | _ => none
/-- The code of a value of `FCC` (R204). -/
def FCC.code : FCC → Nat
  | .eq => 0
  | .ne => 1
  | .lt => 2
  | .le => 3
  | .un => 4
  | .or => 5
/-- The value of `FCC` with a code, if one is listed. -/
def FCC.ofCode : Nat → Option FCC
  | 0 => some .eq
  | 1 => some .ne
  | 2 => some .lt
  | 3 => some .le
  | 4 => some .un
  | 5 => some .or
  | _ => none
/-- The code of a value of `DotTy` (R200). -/
def DotTy.code : DotTy → Nat
  | .s8 => 0
  | .n8 => 1
  | .s8n8 => 2
  | .n8s8 => 3
/-- The value of `DotTy` with a code, if one is listed. -/
def DotTy.ofCode : Nat → Option DotTy
  | 0 => some .s8
  | 1 => some .n8
  | 2 => some .s8n8
  | 3 => some .n8s8
  | _ => none
/-- The code of a value of `WaddTy` (R201). -/
def WaddTy.code : WaddTy → Nat
  | .n8 => 0
  | .s8 => 1
  | .n16 => 2
  | .s16 => 3
/-- The value of `WaddTy` with a code, if one is listed. -/
def WaddTy.ofCode : Nat → Option WaddTy
  | 0 => some .n8
  | 1 => some .s8
  | 2 => some .n16
  | 3 => some .s16
  | _ => none
/-- The code of a value of `H16` (R207). -/
def H16.code : H16 → Nat
  | .f16 => 0
  | .bf16 => 1
/-- The value of `H16` with a code, if one is listed. -/
def H16.ofCode : Nat → Option H16
  | 0 => some .f16
  | 1 => some .bf16
  | _ => none
/-- The code of a value of `CvtTy` (R208). -/
def CvtTy.code : CvtTy → Nat
  | .n8 => 0
  | .s8 => 1
  | .n16 => 2
  | .s16 => 3
  | .n32 => 4
  | .s32 => 5
  | .n64 => 6
  | .s64 => 7
  | .f32 => 8
  | .f16 => 9
  | .bf16 => 10
  | .e4m3 => 11
  | .e5m2 => 12
/-- The value of `CvtTy` with a code, if one is listed. -/
def CvtTy.ofCode : Nat → Option CvtTy
  | 0 => some .n8
  | 1 => some .s8
  | 2 => some .n16
  | 3 => some .s16
  | 4 => some .n32
  | 5 => some .s32
  | 6 => some .n64
  | 7 => some .s64
  | 8 => some .f32
  | 9 => some .f16
  | 10 => some .bf16
  | 11 => some .e4m3
  | 12 => some .e5m2
  | _ => none
/-- The code of a value of `QntTy` (R209). -/
def QntTy.code : QntTy → Nat
  | .f32 => 0
  | .f16 => 1
  | .bf16 => 2
/-- The value of `QntTy` with a code, if one is listed. -/
def QntTy.ofCode : Nat → Option QntTy
  | 0 => some .f32
  | 1 => some .f16
  | 2 => some .bf16
  | _ => none
/-- The code of a value of `DqntTy` (R210). -/
def DqntTy.code : DqntTy → Nat
  | .f16 => 0
  | .bf16 => 1
  | .f32 => 2
/-- The value of `DqntTy` with a code, if one is listed. -/
def DqntTy.ofCode : Nat → Option DqntTy
  | 0 => some .f16
  | 1 => some .bf16
  | 2 => some .f32
  | _ => none
/-- The code of a value of `PackTy` (R211). -/
def PackTy.code : PackTy → Nat
  | .f16 => 0
  | .bf16 => 1
  | .e4m3 => 2
  | .e5m2 => 3
  | .s8 => 4
  | .n8 => 5
  | .s4 => 6
  | .n4 => 7
/-- The value of `PackTy` with a code, if one is listed. -/
def PackTy.ofCode : Nat → Option PackTy
  | 0 => some .f16
  | 1 => some .bf16
  | 2 => some .e4m3
  | 3 => some .e5m2
  | 4 => some .s8
  | 5 => some .n8
  | 6 => some .s4
  | 7 => some .n4
  | _ => none
/-- The code of a value of `ShflMode` (R214). -/
def ShflMode.code : ShflMode → Nat
  | .idx => 0
  | .up => 1
  | .down => 2
  | .xor => 3
/-- The value of `ShflMode` with a code, if one is listed. -/
def ShflMode.ofCode : Nat → Option ShflMode
  | 0 => some .idx
  | 1 => some .up
  | 2 => some .down
  | 3 => some .xor
  | _ => none
/-- The code of a value of `VoteKind` (R215). -/
def VoteKind.code : VoteKind → Nat
  | .any => 0
  | .all => 1
  | .ballot => 2
/-- The value of `VoteKind` with a code, if one is listed. -/
def VoteKind.ofCode : Nat → Option VoteKind
  | 0 => some .any
  | 1 => some .all
  | 2 => some .ballot
  | _ => none
/-- The code of a value of `RedOp` (R216). -/
def RedOp.code : RedOp → Nat
  | .addN32 => 0
  | .minS32 => 1
  | .maxS32 => 2
  | .minN32 => 3
  | .maxN32 => 4
  | .addF32 => 5
  | .minF32 => 6
  | .maxF32 => 7
/-- The value of `RedOp` with a code, if one is listed. -/
def RedOp.ofCode : Nat → Option RedOp
  | 0 => some .addN32
  | 1 => some .minS32
  | 2 => some .maxS32
  | 3 => some .minN32
  | 4 => some .maxN32
  | 5 => some .addF32
  | 6 => some .minF32
  | 7 => some .maxF32
  | _ => none
/-- The code of a value of `QswpKind` (R218). -/
def QswpKind.code : QswpKind → Nat
  | .x1 => 1
  | .x2 => 2
  | .x3 => 3
/-- The value of `QswpKind` with a code, if one is listed. -/
def QswpKind.ofCode : Nat → Option QswpKind
  | 1 => some .x1
  | 2 => some .x2
  | 3 => some .x3
  | _ => none
/-- The code of a value of `Size` (R32). -/
def Size.code : Size → Nat
  | .n8 => 0
  | .s8 => 1
  | .n16 => 2
  | .s16 => 3
  | .w32 => 4
  | .w64 => 5
  | .b128 => 6
/-- The value of `Size` with a code, if one is listed. -/
def Size.ofCode : Nat → Option Size
  | 0 => some .n8
  | 1 => some .s8
  | 2 => some .n16
  | 3 => some .s16
  | 4 => some .w32
  | 5 => some .w64
  | 6 => some .b128
  | _ => none
/-- The code of a value of `StsSize` (R124). -/
def StsSize.code : StsSize → Nat
  | .b8 => 0
  | .b16 => 2
  | .b32 => 4
  | .b64 => 5
  | .b128 => 6
/-- The value of `StsSize` with a code, if one is listed. -/
def StsSize.ofCode : Nat → Option StsSize
  | 0 => some .b8
  | 2 => some .b16
  | 4 => some .b32
  | 5 => some .b64
  | 6 => some .b128
  | _ => none
/-- The code of a value of `TldsSize` (R125). -/
def TldsSize.code : TldsSize → Nat
  | .n8 => 0
  | .s8 => 1
  | .n16 => 2
  | .s16 => 3
  | .w32 => 4
/-- The value of `TldsSize` with a code, if one is listed. -/
def TldsSize.ofCode : Nat → Option TldsSize
  | 0 => some .n8
  | 1 => some .s8
  | 2 => some .n16
  | 3 => some .s16
  | 4 => some .w32
  | _ => none
/-- The code of a value of `Hint` (R32). -/
def Hint.code : Hint → Nat
  | .normal => 0
  | .evict => 1
  | .keep => 2
  | .bypass => 3
/-- The value of `Hint` with a code, if one is listed. -/
def Hint.ofCode : Nat → Option Hint
  | 0 => some .normal
  | 1 => some .evict
  | 2 => some .keep
  | 3 => some .bypass
  | _ => none
/-- The code of a value of `PrefHint` (R127). -/
def PrefHint.code : PrefHint → Nat
  | .both => 0
  | .l2 => 1
  | .keep => 2
/-- The value of `PrefHint` with a code, if one is listed. -/
def PrefHint.ofCode : Nat → Option PrefHint
  | 0 => some .both
  | 1 => some .l2
  | 2 => some .keep
  | _ => none
/-- The code of a value of `Lvl` (R127). -/
def Lvl.code : Lvl → Nat
  | .l1 => 0
  | .l2 => 1
/-- The value of `Lvl` with a code, if one is listed. -/
def Lvl.ofCode : Nat → Option Lvl
  | 0 => some .l1
  | 1 => some .l2
  | _ => none
/-- The code of a value of `Scope` (R256). -/
def Scope.code : Scope → Nat
  | .blk => 0
  | .cls => 1
  | .die => 2
  | .pkg => 3
  | .sys => 4
/-- The value of `Scope` with a code, if one is listed. -/
def Scope.ofCode : Nat → Option Scope
  | 0 => some .blk
  | 1 => some .cls
  | 2 => some .die
  | 3 => some .pkg
  | 4 => some .sys
  | _ => none
/-- The code of a value of `AtomOp` (R281). -/
def AtomOp.code : AtomOp → Nat
  | .add => 0
  | .addF32 => 1
  | .addBf16x2 => 2
  | .minS => 3
  | .maxS => 4
  | .minN => 5
  | .maxN => 6
  | .minF32 => 7
  | .maxF32 => 8
  | .and => 9
  | .or => 10
  | .xor => 11
  | .exch => 12
/-- The value of `AtomOp` with a code, if one is listed. -/
def AtomOp.ofCode : Nat → Option AtomOp
  | 0 => some .add
  | 1 => some .addF32
  | 2 => some .addBf16x2
  | 3 => some .minS
  | 4 => some .maxS
  | 5 => some .minN
  | 6 => some .maxN
  | 7 => some .minF32
  | 8 => some .maxF32
  | 9 => some .and
  | 10 => some .or
  | 11 => some .xor
  | 12 => some .exch
  | _ => none
/-- The code of a value of `FenceKind` (R297). -/
def FenceKind.code : FenceKind → Nat
  | .rel => 0
  | .acq => 1
  | .ar => 2
/-- The value of `FenceKind` with a code, if one is listed. -/
def FenceKind.ofCode : Nat → Option FenceKind
  | 0 => some .rel
  | 1 => some .acq
  | 2 => some .ar
  | _ => none
/-- The code of a value of `ObTy` (R237). -/
def ObTy.code : ObTy → Nat
  | .b32 => 0
  | .bf16 => 1
  | .f16 => 2
  | .e4m3 => 3
/-- The value of `ObTy` with a code, if one is listed. -/
def ObTy.ofCode : Nat → Option ObTy
  | 0 => some .b32
  | 1 => some .bf16
  | 2 => some .f16
  | 3 => some .e4m3
  | _ => none
/-- The code of a value of `TlbiKind` (R373). -/
def TlbiKind.code : TlbiKind → Nat
  | .range => 0
  | .asid => 1
  | .all => 2
/-- The value of `TlbiKind` with a code, if one is listed. -/
def TlbiKind.ofCode : Nat → Option TlbiKind
  | 0 => some .range
  | 1 => some .asid
  | 2 => some .all
  | _ => none

/-! ## Why a word is refused (R58) -/

/-- The decode checks 1 to 5 of R58. -/
inductive DecodeError where
  /-- Check 1: a prefix misuse (R36). -/
  | prefixMisuse
  /-- Check 2: an unassigned OP, or a nonzero bit in an OP 0x00 word. -/
  | unassigned
  /-- Check 3: a function value that the entry does not list. -/
  | functionUnlisted
  /-- Check 4: a nonzero reserved field. -/
  | reservedField
  /-- Check 5: an illegal field code. -/
  | fieldCode
deriving DecidableEq, Repr

/-- The subcode of an illegal-instruction fault (R58). -/
def DecodeError.subcode : DecodeError → Nat
  | .prefixMisuse => 3
  | .unassigned => 0
  | .functionUnlisted => 1
  | .reservedField => 2
  | .fieldCode => 4

/-! ## Fields -/

/-- `n` values of the field of a word that begins at the bit of weight `lo`. -/
def fld (w lo n : Nat) : Nat := w / lo % n
/-- The bit of weight `lo`. -/
def fbit (w lo : Nat) : Bool := w / lo % 2 == 1

/-- The payload P[23:0] of an RRR prefix (R34). -/
def RPfx.ofPay (v : Nat) : RPfx :=
  { rm := fld v 2097152 8, sat := fbit v 1048576, rsv := fld v 262144 4, cv := fbit v 131072,
    c := fld v 1024 128, ext := fld v 1 1024 }
/-- The fields of an RRR word. -/
def R3.ofWord (w : Nat) : R3 :=
  { mark := fbit w 2147483648, d := fld w 131072 128, a := fld w 1024 128, b := fld w 8 128 }
/-- The fields of an RI word. -/
def RI.ofWord (w : Nat) : RI :=
  { mark := fbit w 2147483648, d := fld w 131072 128, a := fld w 1024 128, imm := fld w 1 1024 }
/-- The fields of an RL word. -/
def RL.ofWord (w : Nat) : RL :=
  { mark := fbit w 2147483648, d := fld w 131072 128, imm := fld w 1 131072 }
/-- The fields of an M word. -/
def MO.ofWord (w : Nat) : MO :=
  { mark := fbit w 2147483648, d := fld w 131072 128, a := fld w 1024 128, k := fld w 32 32 }
/-- The fields of an MG word. -/
def MG.ofWord (w : Nat) : MG :=
  { mark := fbit w 2147483648, d := fld w 131072 128, a := fld w 1024 128, k := fld w 32 32, n := fbit w 8,
    p := fld w 1 8 }
/-- The fields of a BR word. -/
def BR.ofWord (w : Nat) : BR :=
  { mark := fbit w 2147483648, h := fbit w 8388608, p := fld w 1048576 8, n := fbit w 524288, off := fld w 1 524288 }
/-- The fields of a BR-reg word. -/
def BX.ofWord (w : Nat) : BX :=
  { mark := fbit w 2147483648, h := fbit w 8388608, p := fld w 1048576 8, n := fbit w 524288,
    rsv := fld w 131072 4, a := fld w 1024 128, low := fld w 1 1024 }
/-- The fields of an SY word. -/
def SY.ofWord (w : Nat) : SY :=
  { mark := fbit w 2147483648, a := fld w 1024 128, imm := fld w 1 1024 }

/-! ## Which instructions take a prefix (R36 and the entries) -/

/-- Whether an instruction admits a prefix, needs one, or admits none. -/
inductive PfxRule where | never | may | must
deriving DecidableEq, Repr

/-- The rule for the word that follows, or stands without, a prefix. Where one OP holds entries of different rules
and the function value is unlisted, no entry says that a prefix is misused. -/
def pfxRule (w : Nat) : PfxRule :=
  let f := fld w 1 8
  let g := fbit w 16
  match fld w 16777216 128 with
  | 0x00 => if w = 0 then .never else .may
  | 0x01 | 0x02 | 0x03 | 0x04 | 0x05 | 0x06 | 0x09 | 0x0A => .never
  | 0x14 | 0x19 | 0x1A | 0x1B | 0x1D | 0x20 | 0x21 | 0x22 | 0x23 | 0x25 | 0x28 | 0x29 => .never
  | 0x18 => if f = 2 ∨ f = 3 then .never else .may
  | 0x1F => .must
  | 0x34 | 0x35 | 0x36 | 0x39 | 0x3A | 0x51 | 0x58 | 0x59 | 0x5B | 0x5C => .never
  | 0x5A | 0x5D => if f = 5 then .may else .never
  | 0x61 => .must
  | 0x64 => if g then .must else .may
  | 0x65 => if g then .may else .must
  | 0x68 | 0x69 | 0x6A => .must
  | 0x6F | 0x73 | 0x76 | 0x7D | 0x7E | 0x7F => .never
  | 0x70 | 0x71 | 0x72 | 0x75 | 0x77 | 0x78 | 0x79 => .must
  | 0x74 => if f = 2 then .must else if f < 4 then .never else .may
  | 0x7A => if f = 0 then .never else .may
  | 0x7C => if f = 1 ∨ f = 2 then .never else .may
  | _ => .may

/-- Check 1 of R58 (R36): `px` is the prefix word where one stands, `last` says it is word 15 of its block. -/
def prefixMisused (px : Option Nat) (last : Bool) (w : Nat) : Bool :=
  match px, pfxRule w with
  | some _, .never => true
  | some p, _ => last || fbit p 2147483648
  | none, .must => true
  | none, _ => false

/-! ## The opcode map (R54 to R57) -/

/-- A listed function value, or check 3. -/
def listed {α : Type} (o : Option α) (k : α → Instr) : Except DecodeError Instr :=
  match o with
  | some a => .ok (k a)
  | none => .error .functionUnlisted

/-- The instruction of a word and the payload of its prefix, by OP and function value: checks 2 and 3. -/
def parse (x : Option Nat) (w : Nat) : Except DecodeError Instr :=
  let f := fld w 1 8
  let sz := fld w 4 8
  let ch := fld w 1 4
  let g := fbit w 16
  let r := R3.ofWord w
  let ri := RI.ofWord w
  let rl := RL.ofWord w
  let mo := MO.ofWord w
  let mg := MG.ofWord w
  let sy := SY.ofWord w
  let v := x.getD 0
  let q := RPfx.ofPay v
  let p := x.map RPfx.ofPay
  match fld w 16777216 128 with
  | 0x00 => if w = 0 then .ok .nop else .error .unassigned
  | 0x01 => .ok (.bra (BR.ofWord w))
  | 0x02 => .ok (.brx (BX.ofWord w))
  | 0x03 => .ok (.call (BR.ofWord w))
  | 0x04 => .ok (.callx (BX.ofWord w))
  | 0x05 => .ok (.ret (BX.ofWord w))
  | 0x06 => .ok (.join r.mark (fld w 1 16777216))
  | 0x07 => .ok (.mrset x ri)
  | 0x08 => .ok (.mrswap x rl)
  | 0x09 => .ok (.exit r.mark (fld w 1 16777216))
  | 0x0A => .ok (.wbase ri)
  | 0x10 => listed (Sg.ofCode f) fun t => .add t p r
  | 0x11 => .ok (.addi x ri)
  | 0x12 => listed (Sg.ofCode f) fun t => .sub t p r
  | 0x13 => listed (Sg.ofCode f) fun t => .mul t p r
  | 0x14 => listed (Sg.ofCode f) fun t => .mulhi t r
  | 0x15 => listed (Sg.ofCode f) fun t => .mad t p r
  | 0x16 => listed (Sg64.ofCode f) fun t => .add64 t p r
  | 0x17 => listed (Sg64.ofCode f) fun t => .sub64 t p r
  | 0x18 => listed (MulTy.ofCode f) fun t => .mul64 t p r
  | 0x19 => listed (DivTy.ofCode f) fun t => .idiv t r
  | 0x1A => listed (DivTy.ofCode f) fun t => .irem t r
  | 0x1B =>
    match f with
    | 0 => .ok (.min .n32 r) | 1 => .ok (.min .s32 r) | 2 => .ok (.max .n32 r) | 3 => .ok (.max .s32 r)
    | _ => .error .functionUnlisted
  | 0x1C =>
    match f with
    | 0 => .ok (.abs .s32 p r) | 1 => .ok (.neg .s32 p r) | 2 => .ok (.abs .s64 p r) | 3 => .ok (.neg .s64 p r)
    | _ => .error .functionUnlisted
  | 0x1D =>
    match f with
    | 0 => .ok (.and r) | 1 => .ok (.or r) | 2 => .ok (.xor r) | 3 => .ok (.andn r)
    | _ => .error .functionUnlisted
  | 0x1E =>
    match f with
    | 0 => .ok (.shl p r) | 1 => .ok (.shr p r) | 2 => .ok (.sar p r) | 3 => .ok (.rot p r)
    | _ => .error .functionUnlisted
  | 0x1F => if f = 0 then .ok (.fshl q r) else .error .functionUnlisted
  | 0x20 =>
    match f with
    | 0 => .ok (.popc r) | 1 => .ok (.clz r) | 2 => .ok (.ctz r) | 3 => .ok (.brev r)
    | _ => .error .functionUnlisted
  | 0x21 => listed (Sg.ofCode f) fun t => .bfe t r
  | 0x22 => if f = 0 then .ok (.bfi r) else .error .functionUnlisted
  | 0x23 => if f = 0 then .ok (.mov r) else .error .functionUnlisted
  | 0x24 => .ok (.movi x rl)
  | 0x25 => .ok (.movhi rl)
  | 0x26 => listed (CC.ofCode f) fun c => .cmp c p r
  | 0x27 =>
    -- D[5:3] holds CC; D[6] is reserved and stays as bit 3 of the field left over
    listed (CC.ofCode (ri.d / 8 % 8)) fun c => .cmpi c x { ri with d := ri.d % 8 + ri.d / 64 * 8 }
  | 0x28 => .ok (.sel f r)
  | 0x29 =>
    match f with
    | 0 => .ok (.pand r) | 1 => .ok (.por r) | 2 => .ok (.pxor r) | 3 => .ok (.pnot r)
    | _ => .error .functionUnlisted
  | 0x2A => listed (DotTy.ofCode f) fun t => .dot4 t p r
  | 0x2B => listed (WaddTy.ofCode f) fun t => .wadd t p r
  | 0x30 => if f = 0 then .ok (.fadd p r) else .error .functionUnlisted
  | 0x31 => if f = 0 then .ok (.fsub p r) else .error .functionUnlisted
  | 0x32 => if f = 0 then .ok (.fmul p r) else .error .functionUnlisted
  | 0x33 => if f = 0 then .ok (.ffma p r) else .error .functionUnlisted
  | 0x34 =>
    match f with
    | 0 => .ok (.fmin r) | 1 => .ok (.fmax r)
    | _ => .error .functionUnlisted
  | 0x35 => listed (FCC.ofCode f) fun c => .fcmp c r
  | 0x36 =>
    match f with
    | 0 => .ok (.frcp r) | 1 => .ok (.frsq r)
    | _ => .error .functionUnlisted
  | 0x37 => if f = 0 then .ok (.fsqrt p r) else .error .functionUnlisted
  | 0x38 => if f = 0 then .ok (.fdiv p r) else .error .functionUnlisted
  | 0x39 =>
    match f with
    | 0 => .ok (.fexp2 r) | 1 => .ok (.flog2 r)
    | _ => .error .functionUnlisted
  | 0x3A =>
    match f with
    | 0 => .ok (.fsin r) | 1 => .ok (.fcos r)
    | _ => .error .functionUnlisted
  | 0x3B => if f = 0 then .ok (.frnd p r) else .error .functionUnlisted
  | 0x3C => listed (H16.ofCode f) fun t => .hadd2 t p r
  | 0x3D => listed (H16.ofCode f) fun t => .hmul2 t p r
  | 0x3E => listed (H16.ofCode f) fun t => .hfma2 t p r
  | 0x50 =>
    match CvtTy.ofCode (fld w 64 16), CvtTy.ofCode (fld w 4 16) with
    | some td, some ts => .ok (.cvt td ts p { r with b := fld w 1 4 })
    | _, _ => .error .functionUnlisted
  | 0x51 => listed (QntTy.ofCode f) fun t => .qnt t r
  | 0x52 => listed (DqntTy.ofCode f) fun t => .dqnt t p r
  | 0x53 => listed (PackTy.ofCode f) fun t => .pack t p r
  | 0x54 => listed (PackTy.ofCode f) fun t => .unpk t p r
  | 0x58 => listed (ShflMode.ofCode f) fun m => .shfl m r
  | 0x59 => listed (VoteKind.ofCode f) fun m => .vote m r
  | 0x5A => listed (RedOp.ofCode f) fun o => .wred o p r
  | 0x5B => listed (QswpKind.ofCode f) fun o => .qswp o r
  | 0x5C => if f < 4 then .ok (.qbcst f r) else .error .functionUnlisted
  | 0x5D => listed (RedOp.ofCode f) fun o => .qred o p r
  | 0x60 =>
    match Size.ofCode sz, Hint.ofCode ch with
    | some s, some h => .ok (.ld s h x mo)
    | _, _ => .error .functionUnlisted
  | 0x61 =>
    match Size.ofCode sz, Hint.ofCode ch, Scope.ofCode (fld v 2097152 8) with
    | some s, some h, some c => .ok (.lda s h c (fld v 1 2097152) mo)
    | _, _, _ => .error .functionUnlisted
  | 0x62 => .ok (.stWord g x mg)
  | 0x63 => .ok (.stNarrow g x mg)
  | 0x64 =>
    if g then listed (Scope.ofCode (fld v 2097152 8)) fun c => .str64 c (fld v 1 2097152) mg
    else .ok (.stB128 x mg)
  | 0x65 =>
    if g then listed (StsSize.ofCode (fld w 128 8)) fun s => .sts s x { mg with k := fld w 32 4 }
    else listed (Scope.ofCode (fld v 2097152 8)) fun c => .str32 c (fld v 1 2097152) mg
  | 0x66 =>
    match ch with
    | 0 => listed (Size.ofCode sz) fun s => .lds s x mo
    | 1 => listed (TldsSize.ofCode sz) fun s => .tlds s x mo
    | _ => .error .functionUnlisted
  | 0x67 =>
    match sz with
    | 0 => listed (PrefHint.ofCode ch) fun h => .pref h x mo
    | 1 => listed (Lvl.ofCode ch) fun l => .cwb l x mo
    | 2 => listed (Lvl.ofCode ch) fun l => .cinv l x mo
    | 3 => if ch = 0 then .ok (.sarm x mo) else .error .functionUnlisted
    | 4 => if ch < 2 then .ok (.femk (ch == 1) x mo) else .error .functionUnlisted
    | 5 => listed (Hint.ofCode ch) fun h => .kld h x mo
    | _ => .error .functionUnlisted
  | 0x68 => atomic v g mg .atom
  | 0x69 => atomic v g mg .atomr
  | 0x6A =>
    match fld v 524288 32, g with
    | 0, false => .ok (.cas .n32 (fld v 1 524288) mg)
    | 0, true => .ok (.cas .n64 (fld v 1 524288) mg)
    | 1, true => .ok (.cas .b128 (fld v 1 524288) mg)
    | _, _ => .error .functionUnlisted
  | 0x6C => .ok (.cadd g x mg)
  | 0x6D =>
    if ch ≠ 0 then .error .functionUnlisted else
    match sz with
    | 0 => .ok (.cwait false x mo)
    | 1 => .ok (.cwait true x mo)
    | 2 => .ok (.waita x mo)
    | _ => .error .functionUnlisted
  | 0x6E =>
    match f with
    | 0 => .ok (.badd p r) | 1 => .ok (.bwait p r) | 2 => .ok (.barv p r)
    | _ => .error .functionUnlisted
  | 0x6F => listed (FenceKind.ofCode f) fun k => .fence k r
  | 0x70 =>
    match f with
    | 0 => .ok (.tcpyLd q r) | 1 => .ok (.tcpySt q r)
    | _ => .error .functionUnlisted
  | 0x71 =>
    match f with
    | 0 => .ok (.gcpyGather q r) | 1 => .ok (.gcpyScatter q r)
    | _ => .error .functionUnlisted
  | 0x72 =>
    match f with
    | 0 => .ok (.mcpy q r) | 1 => .ok (.wcpy q r)
    | _ => .error .functionUnlisted
  | 0x73 => if f = 0 then .ok (.thnd r) else .error .functionUnlisted
  | 0x74 =>
    match f with
    | 0 => .ok (.obres r) | 1 => .ok (.obrel r) | 2 => .ok (.obdup q r) | 3 => .ok (.obclr r)
    | _ => .error .functionUnlisted
  | 0x75 =>
    match f with
    | 0 => .ok (.mma false q r) | 1 => .ok (.mma true q r) | 2 => .ok (.mmah false q r) | 3 => .ok (.mmah true q r)
    | _ => .error .functionUnlisted
  | 0x76 => listed (ObTy.ofCode (f % 4)) fun t => if f < 4 then .obrd t r else .obwr t r
  | 0x77 =>
    match f with
    | 0 => .ok (.obld q r) | 1 => .ok (.obst q r)
    | _ => .error .functionUnlisted
  | 0x78 =>
    match f with
    | 0 => .ok (.selk q r) | 1 => .ok (.selks q r)
    | _ => .error .functionUnlisted
  | 0x79 => if f = 0 then .ok (.selu q r) else .error .functionUnlisted
  | 0x7A =>
    match f with
    | 0 => .ok (.rres r) | 1 => .ok (.rcom p r)
    | _ => .error .functionUnlisted
  | 0x7B =>
    match f with
    | 0 => .ok (.rget p r) | 1 => .ok (.rfre p r)
    | _ => .error .functionUnlisted
  | 0x7C =>
    match f with
    | 0 => .ok (.phase p r) | 1 => .ok (.launch r) | 2 => .ok (.yield r)
    | _ => .error .functionUnlisted
  | 0x7D =>
    let n := { ri with imm := ri.imm % 256 }
    match ri.imm / 256 with
    | 0 => .ok (.mfsrSpecial n) | 1 => .ok (.mfsrUniform n) | 2 => .ok (.mtsr n) | 3 => .ok (.sset n)
    | _ => .error .functionUnlisted
  | 0x7E =>
    match fld w 131072 128 with
    | 0 => .ok (.trap sy) | 1 => .ok (.bkpt sy) | 2 => .ok (.rtt sy)
    | 3 => listed (TlbiKind.ofCode (sy.imm % 4)) fun k => .tlbi k { sy with imm := sy.imm / 4 }
    | 4 => .ok (.icinv sy)
    | _ => .error .functionUnlisted
  | 0x7F => .error .prefixMisuse
  | _ => .error .unassigned
where
  /-- The operation of an atomic: F = 1 only where R281 lists the 8-byte form. -/
  atomic (v : Nat) (g : Bool) (mg : MG) (k : AtomOp → Bool → Nat → MG → Instr) : Except DecodeError Instr :=
    match AtomOp.ofCode (fld v 524288 32) with
    | none => .error .functionUnlisted
    | some o =>
      match g, o with
      | true, .addF32 | true, .addBf16x2 | true, .minF32 | true, .maxF32 => .error .functionUnlisted
      | _, _ => .ok (k o g (fld v 1 524288) mg)

/-- Checks 3 (what the payload holds), 4 and 5 of R58 on a parsed instruction, in that order. -/
def checked (i : Instr) : Except DecodeError Instr :=
  if !i.functionOk then .error .functionUnlisted
  else if !i.reservedOk then .error .reservedField
  else if !i.codesOk then .error .fieldCode
  else .ok i

/-- Decode one instruction: `w0` at the pc, `w1` after it, `last` when the pc is word 15 of its fetch block. The
answer is the instruction and how many words it takes. -/
def decode (last : Bool) (w0 w1 : Nat) : Except DecodeError (Instr × Nat) :=
  if fld w0 16777216 128 = 0x7F then
    if prefixMisused (some w0) last w1 then .error .prefixMisuse
    else
      match parse (some (fld w0 1 16777216)) w1 with
      | .error e => .error e
      | .ok i => (checked i).map fun i => (i, 2)
  else if prefixMisused none last w0 then .error .prefixMisuse
  else
    match parse none w0 with
    | .error e => .error e
    | .ok i => (checked i).map fun i => (i, 1)

/-- A 32-bit word from four bytes, the lowest address first (R30). -/
def wordOfBytes (b0 b1 b2 b3 : Byte) : Nat := b0.toNat + 256 * b1.toNat + 65536 * b2.toNat + 16777216 * b3.toNat

/-- Decode the instruction that a list of bytes begins with; bytes that are not there read as zero. -/
def decodeBytes (last : Bool) (bs : List Byte) : Except DecodeError (Instr × Nat) :=
  let b := fun i => bs.getD i 0#8
  decode last (wordOfBytes (b 0) (b 1) (b 2) (b 3)) (wordOfBytes (b 4) (b 5) (b 6) (b 7))

/-- The bytes of a word, the lowest address first. -/
def bytesOfWord (w : Nat) : List Byte :=
  [BitVec.ofNat 8 w, BitVec.ofNat 8 (w / 256), BitVec.ofNat 8 (w / 65536), BitVec.ofNat 8 (w / 16777216)]

/-- The eight bytes that a table word stands for: two words, the bits above `nbits` zero. -/
def tableBytes (nbits w : Nat) : List Byte :=
  let v := w % 2 ^ nbits
  bytesOfWord (v % 4294967296) ++ bytesOfWord (v / 4294967296 % 4294967296)

/-- The instruction the decoder reads from a word of spec/opcode_table.json. -/
def decodeTableWord (nbits w : Nat) : Option Instr :=
  match decodeBytes false (tableBytes nbits w) with
  | .ok (i, _) => some i
  | .error _ => none

/-! ## The encoder -/

/-- The payload of an RRR prefix (R34). -/
def RPfx.pay (p : RPfx) : Nat :=
  p.rm * 2097152 + bit01 p.sat * 1048576 + p.rsv * 262144 + bit01 p.cv * 131072 + p.c * 1024 + p.ext
/-- S and OP. -/
def encTop (mark : Bool) (op : Nat) : Nat := bit01 mark * 2147483648 + op * 16777216
/-- An RRR word. -/
def R3.word (op f : Nat) (r : R3) : Nat := encTop r.mark op + r.d * 131072 + r.a * 1024 + r.b * 8 + f
/-- An RI word. -/
def RI.word (op : Nat) (r : RI) : Nat := encTop r.mark op + r.d * 131072 + r.a * 1024 + r.imm
/-- An RL word. -/
def RL.word (op : Nat) (r : RL) : Nat := encTop r.mark op + r.d * 131072 + r.imm
/-- An M word. -/
def MO.word (op sz ch : Nat) (r : MO) : Nat :=
  encTop r.mark op + r.d * 131072 + r.a * 1024 + r.k * 32 + sz * 4 + ch
/-- An MG word. -/
def MG.word (op : Nat) (f : Bool) (r : MG) : Nat :=
  encTop r.mark op + r.d * 131072 + r.a * 1024 + r.k * 32 + bit01 f * 16 + bit01 r.n * 8 + r.p
/-- A BR word. -/
def BR.word (op : Nat) (r : BR) : Nat :=
  encTop r.mark op + bit01 r.h * 8388608 + r.p * 1048576 + bit01 r.n * 524288 + r.off
/-- A BR-reg word. -/
def BX.word (op : Nat) (r : BX) : Nat :=
  encTop r.mark op + bit01 r.h * 8388608 + r.p * 1048576 + bit01 r.n * 524288 + r.rsv * 131072 + r.a * 1024 + r.low
/-- An SY word. -/
def SY.word (sf : Nat) (r : SY) : Nat := encTop r.mark 0x7E + sf * 131072 + r.a * 1024 + r.imm
/-- A word behind a prefix with a given payload. -/
def behind (v w : Nat) : List Nat := [2130706432 + v, w]
/-- A word behind an optional prefix. -/
def mayBehind (x : Option Nat) (w : Nat) : List Nat :=
  match x with
  | none => [w]
  | some v => behind v w
/-- A word behind an optional RRR prefix. -/
def mayPfx (p : Option RPfx) (w : Nat) : List Nat :=
  match p with
  | none => [w]
  | some p => behind p.pay w

/-- The words of an instruction, the first at the lowest offset. A step of an agent has none. -/
def encode : Instr → List Nat
  | .nop => [0]
  | .bra r => [r.word 0x01]
  | .brx r => [r.word 0x02]
  | .call r => [r.word 0x03]
  | .callx r => [r.word 0x04]
  | .ret r => [r.word 0x05]
  | .join m l => [encTop m 0x06 + l]
  | .mrset p r => mayBehind p (r.word 0x07)
  | .mrswap p r => mayBehind p (r.word 0x08)
  | .exit m l => [encTop m 0x09 + l]
  | .wbase r => [r.word 0x0A]
  | .add t p r => mayPfx p (r.word 0x10 t.code)
  | .addi p r => mayBehind p (r.word 0x11)
  | .sub t p r => mayPfx p (r.word 0x12 t.code)
  | .mul t p r => mayPfx p (r.word 0x13 t.code)
  | .mulhi t r => [r.word 0x14 t.code]
  | .mad t p r => mayPfx p (r.word 0x15 t.code)
  | .add64 t p r => mayPfx p (r.word 0x16 t.code)
  | .sub64 t p r => mayPfx p (r.word 0x17 t.code)
  | .mul64 t p r => mayPfx p (r.word 0x18 t.code)
  | .idiv t r => [r.word 0x19 t.code]
  | .irem t r => [r.word 0x1A t.code]
  | .min t r => [r.word 0x1B t.code]
  | .max t r => [r.word 0x1B (2 + t.code)]
  | .abs t p r => mayPfx p (r.word 0x1C (match t with | .s32 => 0 | .s64 => 2))
  | .neg t p r => mayPfx p (r.word 0x1C (match t with | .s32 => 1 | .s64 => 3))
  | .and r => [r.word 0x1D 0]
  | .or r => [r.word 0x1D 1]
  | .xor r => [r.word 0x1D 2]
  | .andn r => [r.word 0x1D 3]
  | .shl p r => mayPfx p (r.word 0x1E 0)
  | .shr p r => mayPfx p (r.word 0x1E 1)
  | .sar p r => mayPfx p (r.word 0x1E 2)
  | .rot p r => mayPfx p (r.word 0x1E 3)
  | .fshl p r => behind p.pay (r.word 0x1F 0)
  | .popc r => [r.word 0x20 0]
  | .clz r => [r.word 0x20 1]
  | .ctz r => [r.word 0x20 2]
  | .brev r => [r.word 0x20 3]
  | .bfe t r => [r.word 0x21 t.code]
  | .bfi r => [r.word 0x22 0]
  | .mov r => [r.word 0x23 0]
  | .movi p r => mayBehind p (r.word 0x24)
  | .movhi r => [r.word 0x25]
  | .cmp c p r => mayPfx p (r.word 0x26 c.code)
  | .cmpi c p r => mayBehind p (({ r with d := r.d + c.code * 8 } : RI).word 0x27)
  | .sel q r => [r.word 0x28 q]
  | .pand r => [r.word 0x29 0]
  | .por r => [r.word 0x29 1]
  | .pxor r => [r.word 0x29 2]
  | .pnot r => [r.word 0x29 3]
  | .dot4 t p r => mayPfx p (r.word 0x2A t.code)
  | .wadd t p r => mayPfx p (r.word 0x2B t.code)
  | .fadd p r => mayPfx p (r.word 0x30 0)
  | .fsub p r => mayPfx p (r.word 0x31 0)
  | .fmul p r => mayPfx p (r.word 0x32 0)
  | .ffma p r => mayPfx p (r.word 0x33 0)
  | .fmin r => [r.word 0x34 0]
  | .fmax r => [r.word 0x34 1]
  | .fcmp c r => [r.word 0x35 c.code]
  | .frcp r => [r.word 0x36 0]
  | .frsq r => [r.word 0x36 1]
  | .fsqrt p r => mayPfx p (r.word 0x37 0)
  | .fdiv p r => mayPfx p (r.word 0x38 0)
  | .fexp2 r => [r.word 0x39 0]
  | .flog2 r => [r.word 0x39 1]
  | .fsin r => [r.word 0x3A 0]
  | .fcos r => [r.word 0x3A 1]
  | .frnd p r => mayPfx p (r.word 0x3B 0)
  | .hadd2 t p r => mayPfx p (r.word 0x3C t.code)
  | .hmul2 t p r => mayPfx p (r.word 0x3D t.code)
  | .hfma2 t p r => mayPfx p (r.word 0x3E t.code)
  | .cvt td ts p r =>
    mayPfx p (encTop r.mark 0x50 + r.d * 131072 + r.a * 1024 + td.code * 64 + ts.code * 4 + r.b)
  | .qnt t r => [r.word 0x51 t.code]
  | .dqnt t p r => mayPfx p (r.word 0x52 t.code)
  | .pack t p r => mayPfx p (r.word 0x53 t.code)
  | .unpk t p r => mayPfx p (r.word 0x54 t.code)
  | .shfl m r => [r.word 0x58 m.code]
  | .vote v r => [r.word 0x59 v.code]
  | .wred o p r => mayPfx p (r.word 0x5A o.code)
  | .qswp x r => [r.word 0x5B x.code]
  | .qbcst m r => [r.word 0x5C m]
  | .qred o p r => mayPfx p (r.word 0x5D o.code)
  | .ld sz h off r => mayBehind off (r.word 0x60 sz.code h.code)
  | .lda sz h sc off r => behind (sc.code * 2097152 + off) (r.word 0x61 sz.code h.code)
  | .stWord g off r => mayBehind off (r.word 0x62 g)
  | .stNarrow g off r => mayBehind off (r.word 0x63 g)
  | .stB128 off r => mayBehind off (r.word 0x64 false)
  | .str64 sc off r => behind (sc.code * 2097152 + off) (r.word 0x64 true)
  | .str32 sc off r => behind (sc.code * 2097152 + off) (r.word 0x65 false)
  | .sts sz off r => mayBehind off (({ r with k := sz.code * 4 + r.k } : MG).word 0x65 true)
  | .lds sz off r => mayBehind off (r.word 0x66 sz.code 0)
  | .tlds sz off r => mayBehind off (r.word 0x66 sz.code 1)
  | .pref h off r => mayBehind off (r.word 0x67 0 h.code)
  | .cwb l off r => mayBehind off (r.word 0x67 1 l.code)
  | .cinv l off r => mayBehind off (r.word 0x67 2 l.code)
  | .sarm off r => mayBehind off (r.word 0x67 3 0)
  | .femk full off r => mayBehind off (r.word 0x67 4 (bit01 full))
  | .kld h off r => mayBehind off (r.word 0x67 5 h.code)
  | .atom o g off r => behind (o.code * 524288 + off) (r.word 0x68 g)
  | .atomr o g off r => behind (o.code * 524288 + off) (r.word 0x69 g)
  | .cas t off r =>
    match t with
    | .n32 => behind off (r.word 0x6A false)
    | .n64 => behind off (r.word 0x6A true)
    | .b128 => behind (524288 + off) (r.word 0x6A true)
  | .cadd g off r => mayBehind off (r.word 0x6C g)
  | .cwait n off r => mayBehind off (r.word 0x6D (bit01 n) 0)
  | .waita off r => mayBehind off (r.word 0x6D 2 0)
  | .badd p r => mayPfx p (r.word 0x6E 0)
  | .bwait p r => mayPfx p (r.word 0x6E 1)
  | .barv p r => mayPfx p (r.word 0x6E 2)
  | .fence k r => [r.word 0x6F k.code]
  | .tcpyLd p r => behind p.pay (r.word 0x70 0)
  | .tcpySt p r => behind p.pay (r.word 0x70 1)
  | .gcpyGather p r => behind p.pay (r.word 0x71 0)
  | .gcpyScatter p r => behind p.pay (r.word 0x71 1)
  | .mcpy p r => behind p.pay (r.word 0x72 0)
  | .wcpy p r => behind p.pay (r.word 0x72 1)
  | .thnd r => [r.word 0x73 0]
  | .obres r => [r.word 0x74 0]
  | .obrel r => [r.word 0x74 1]
  | .obdup p r => behind p.pay (r.word 0x74 2)
  | .obclr r => [r.word 0x74 3]
  | .mma z p r => behind p.pay (r.word 0x75 (bit01 z))
  | .mmah z p r => behind p.pay (r.word 0x75 (2 + bit01 z))
  | .obrd t r => [r.word 0x76 t.code]
  | .obwr t r => [r.word 0x76 (4 + t.code)]
  | .obld p r => behind p.pay (r.word 0x77 0)
  | .obst p r => behind p.pay (r.word 0x77 1)
  | .selk p r => behind p.pay (r.word 0x78 0)
  | .selks p r => behind p.pay (r.word 0x78 1)
  | .selu p r => behind p.pay (r.word 0x79 0)
  | .rres r => [r.word 0x7A 0]
  | .rcom p r => mayPfx p (r.word 0x7A 1)
  | .rget p r => mayPfx p (r.word 0x7B 0)
  | .rfre p r => mayPfx p (r.word 0x7B 1)
  | .phase p r => mayPfx p (r.word 0x7C 0)
  | .launch r => [r.word 0x7C 1]
  | .yield r => [r.word 0x7C 2]
  | .mfsrSpecial r => [r.word 0x7D]
  | .mfsrUniform r => [r.word 0x7D + 256]
  | .mtsr r => [r.word 0x7D + 512]
  | .sset r => [r.word 0x7D + 768]
  | .trap r => [r.word 0]
  | .bkpt r => [r.word 1]
  | .rtt r => [r.word 2]
  | .tlbi k r => [encTop r.mark 0x7E + 3 * 131072 + r.a * 1024 + r.imm * 4 + k.code]
  | .icinv r => [r.word 4]
  | _ => []

/-- Whether the decoder gives an instruction back from its own words: from one word whatever word stands behind it, the
last of its fetch block or not; from a prefix pair in one block (R36). -/
def roundTrips (i : Instr) : Prop :=
  match encode i with
  | [w] => ∀ (last : Bool) (next : Nat), decode last w next = .ok (i, 1)
  | [v, w] => decode false v w = .ok (i, 2)
  | _ => False

end Sys2Proof
end

