-- ==== Sys2Proof/Machine/State.lean ====
section
/-!
DEFINITION. State.lean: the state of a ZM4 package as plain data, and the state right after reset. Every piece of
state the manual names has a field; INVENTORY.md lists them with their rules. Fields marked MODEL are the model's own.
-/
namespace Sys2Proof.Machine

/-- No step of this machine stops: what goes wrong is a trap, a fault record or an event, which are next states
(R356, R358). Nobody raises a fault; safe. -/
inductive Fault where
deriving DecidableEq, Repr

/-- Why the model would give no meaning. -/
inductive Refusal where
  /-- Raised by an arm of `exec` whose instruction has no meaning yet; safe. -/
  | notModelled (mnemonic : String)
deriving DecidableEq, Repr

/-! ## Threads (R303, R304) -/

/-- Where an outstanding variable-latency result lands: the location named at issue (R42). -/
inductive PTgt where
  /-- Allocation registers from an index on. -/
  | regs (base : Nat) (vals : List Word)
  /-- A record register of the block, with the step of its issue (R49). -/
  | krec (k : Nat) (v : Rec) (at_ : Nat)
  /-- A tile handle of the block, with the step of its issue (R49). -/
  | handle (h : Nat) (v : Layout) (at_ : Nat)
  /-- Allocation registers from an index on, by an `OBRD` (R237). -/
  | obrd (base : Nat) (vals : List Word)
  /-- What an `OBRD`, by its number, will give once the accesses before it are performed (R221): it cannot land yet. -/
  | obrdDue (id : Nat)
deriving DecidableEq, Repr

/-- A slot of a `WAITA` that is armed: the word's key, whether it has fired (R294), and the scope of the fences that a
read of a word of a SEQ page carries (R260). -/
structure WaSlot where
  idx : Nat
  key : Nat
  va : Nat
  fired : Bool
  seq : Option Scope := none
deriving DecidableEq, Repr

/-- Why a thread is in the wings, with what its resumption needs (R367). -/
inductive Park where
  /-- 0: a fault; the record's identifier. -/
  | fault (fid : Option Nat)
  /-- 1: a counter wait on a word, to a target (R292), and whether a write has met the target (R293). -/
  | counter (key va target : Nat) (met : Bool)
  /-- 2: an address wait (R294): the armed slots, the allocation register of the result (`none` for `zr`), the scope of
  the acquire, and the pc behind the instruction. -/
  | address (slots : List WaSlot) (dst : Option Nat) (acq : Option Scope) (next : Word)
  /-- 3: a barrier wait, on a barrier of the block to a target, at a scope (R296). -/
  | barrier (b target : Nat) (sc : Scope)
  /-- 4: a full copy stream (R139). -/
  | stream (q : Nat)
  /-- 5: a full selection queue (R245). -/
  | selQueue
  /-- 6: an empty scratchpad line (R107). -/
  | emptyLine (line : Nat)
  /-- 7: a quad meeting (R217). -/
  | quad
  /-- 8: a ring without space (R329): the header's key and VA, CONS as the thread found it, the order of parking, and
  the place in that order of the thread of the same instruction that holds this one back. -/
  | ringFull (key va cons ticket : Nat) (behind : Option Nat := none)
  /-- 9: a ring without a ready record (R331): the header's key, the record header's key, the ring header's VA, and PROD
  and the record header as the thread found them. -/
  | ringEmpty (key rec va prod word : Nat)
  /-- 10: a phase boundary (R348), with the pc behind the instruction. -/
  | phase (next : Word)
  /-- 11: a yield (R351), with the pc behind the instruction. -/
  | yield (next : Word)
  /-- 12: a debug halt (R371, R366); the record's identifier. -/
  | debug (fid : Option Nat)
  /-- 13: a shootdown, by its number (R373). -/
  | shootdown (k : Nat)
  /-- 14: a pre-emption (R378). -/
  | preempt
  /-- A member of a bound group whose own reason has cleared and that waits for the others (R308). -/
  | cleared
deriving DecidableEq, Repr

/-- A trap of one thread: class and cause (R355), the first failing VA where the class has one, the record bits that
describe the access, and the code of a `TRAP`. -/
structure Trap where
  cls : Nat
  cause : Nat := 0
  va : Nat := 0
  write : Bool := false
  fetch : Bool := false
  noncanon : Bool := false
  malf : Bool := false
  level : Nat := 0
  aux : Nat := 0
deriving DecidableEq, Repr

/-- The condition of a thread (R304). -/
inductive Cond where
  /-- In the pool since a step of the model; ready for casting or not yet. -/
  | pool (entry : Nat) (ready : Bool)
  /-- In a warp. -/
  | cast
  /-- Held at a meeting address. -/
  | held (j : Word)
  /-- Parked. -/
  | wings (r : Park)
  /-- Its `EXIT` has issued, but a result of it has still to land before it leaves (R44). -/
  | exiting
  /-- Exited. -/
  | exited
deriving DecidableEq, Repr

/-- A `CWB`, `CINV` or `SARM` that a thread has issued and that has not completed (R128, R135). -/
structure Maint where
  op : Nat            -- 1 CWB, 2 CINV, 3 SARM
  l2 : Bool
  lines : List (Nat × Nat)   -- key of each line, and a byte mask of the range within it
deriving DecidableEq, Repr

/-- A thread of a block (R303). -/
structure Thread where
  tid : Nat
  cond : Cond
  pc : Word
  mr : Word := 0
  wb : Word := 0
  fpctl : Word := 0
  regs : List Word
  preds : BitVec 7
  handler : Bool := false
  bound : Option Nat := none
  homeLane : Nat := 0               -- the lane a member of a bound group held (R308)
  quadUnit : Bool := false          -- released from a quad meeting (R308)
  pend : List PTgt := []            -- outstanding variable-latency results, oldest first (R43)
  maint : List Maint := []
  owed : Option (Word × Bool × Trap) := none  -- a trap its handler takes once its outstanding results have landed (R44)
  left : Option Cond := none        -- the condition a watchdog trap left (R366)
  ring : Option (Nat × Nat) := none -- its place among the reservations that parked at a full ring, until it reserves (R329)
  stepping : Bool := false          -- it takes part in a debug step that has not ended (R324)
  badRegs : List Nat := []          -- 64-bit words of the register file that are poisoned, as pairs of registers (R105)
deriving DecidableEq, Repr

/-! ## Blocks -/

/-- A copy counter specification that has been checked (R141, R157). -/
inductive Ctr where
  | none
  /-- A named barrier of the block. -/
  | barrier (b : Nat)
  /-- A memory counter, by its VA: the add is translated when it is performed (R90, log entry 36). -/
  | mem (va : Nat)
deriving DecidableEq, Repr

/-- Which copy an engine command is. -/
inductive CmdKind where
  | tld | tst | gather | scatter | mcast | wcpy | obld | obst
deriving DecidableEq, Repr

/-- An accepted command of a copy stream (R139), with its progress. -/
structure Cmd where
  kind : CmdKind
  seq : Nat                         -- sequence number on its stream (R357 CMD)
  ticket : Nat                      -- its own number, for the free choice of R153 and the order of R221
  lay : Layout
  off : Nat                         -- X(A): scratchpad or operand-buffer offset
  d0 : Nat
  d1 : Nat
  lst : Nat := 0                    -- offset of the coordinate list (R151)
  num : Nat := 1                    -- entries of the list
  targets : List (Nat × Nat × Nat) := []  -- core, block slot and scratchpad base of each target (R152)
  ctr : Ctr
  next : Nat := 0                   -- destination lines served
  ent : Nat := 0                    -- a command that writes the tensor: the entry it is at
  base : Nat := 0                   -- lines served when that entry began
  hdef : Nat := 0                   -- which definition of its handle it took (R153)
  ents : List (Nat × Nat) := []     -- the entries of a `GCPY` list read so far (R151)
  units : List (Nat × List (Byte × Bool) × Nat) := []
    -- 16-byte source units read that later lines may need (R154): the unit, its bytes and their poison, a mask of those
    -- taken
  got : List (Byte × Bool) := []    -- what a `WCPY` has read (R153), with poison
  stopped : Option Nat := none      -- stopped on a fault: its record (R159)
  begun : Bool := false             -- the engine has gone for its first line
  dead : Bool := false              -- killed: no counter add (R382)
  cut : Bool := false               -- killed, and then stopped on a fault: nothing more is served (R382)
deriving DecidableEq, Repr

/-- The rows a stream's last `WCPY` left in the line buffer of its core (R137, R153): its handle's definition, its layout,
deltas and packed bytes, with poison. -/
structure Rows where
  core : Nat
  slot : Nat
  q : Nat
  hdef : Nat
  lay : Layout
  d0 : Nat
  d1 : Nat
  bytes : List (Byte × Bool)
deriving DecidableEq, Repr

/-- A reservation slot (R222, R236): the record, the live bit, the current stage, and the number of the reservation
that it holds, which tells the slot's successive reservations apart. -/
structure ObSlot where
  live : Bool := false
  rv : BitVec 128 := 0
  cur : Bool := false
  gen : Nat := 0
deriving DecidableEq, Repr

/-- A block on a core. -/
structure Block where
  core : Nat
  slot : Nat
  launch : Nat
  bid : Word
  clrank : Word
  clsize : Word
  clid : Word
  gidx : Word
  gidy : Word
  gidz : Word
  ntid : Word
  asid : Nat
  priv : Bool
  codebase : Word64
  shape : List Word
  nregs : Nat
  bars : Nat
  carry : Nat
  scr : Nat                         -- lines of scratchpad
  opb : Nat                         -- bytes of operand buffer
  scrBase : Nat
  opbBase : Nat
  ranks : List (Nat × Nat × Nat)    -- core, block slot and scratchpad base of each cluster rank
  phaseno : Word := 0
  sregs : List Word
  krecs : List Rec
  handles : List (Option Layout)
  hdefs : List Nat := List.replicate 16 0  -- MODEL: the step of the `THND` that defined each handle (R153)
  barrs : List Word64
  bstat : Word := 0
  trapv : Word := 0
  slots : List ObSlot
  streams : List (List Cmd)
  seqs : List Nat                   -- next sequence number of each stream, then of MMAH and of selection commands
  obq : List (Nat × Nat × Nat) := []  -- operand-buffer accesses in issue order: id, first byte, end (R221)
  waits : List (Ctr × Nat) := []    -- phase waits: the counter and its target (R348)
  waitTid : Option Nat := none      -- the thread that supplied them
  ph : Nat := 0                     -- 0 running; 1 between phases, waits not met; 2 its next phase is queued (R349)
  phStop : Option Nat := none       -- its phase record stopped on a fault: the record (R349)
  phSkip : Bool := false            -- that fault was abandoned
  phNext : Nat := 0                 -- lines of the phase record written before it stopped (R159)
  threads : List Thread
  nextBound : Nat := 0
deriving DecidableEq, Repr

/-- A warp on a core (R306, R309). -/
structure Warp where
  core : Nat
  slot : Nat
  id : Nat
  pipe : Nat
  lanes : List (Option Nat)         -- 32 lanes: the TID that stands there
  fresh : Bool := true              -- no instruction issued yet (R44)
  displaced : Bool := false
  last : Nat := 0                   -- the step of its last issue, or of its cast (R309)
  starve : Bool := false            -- its next instruction acts as a marker (R322)
  debug : Bool := false             -- cast by a debug step (R324)
deriving DecidableEq, Repr

/-- The instruction that is executing: the warp, the pc, its length in bytes, the lanes that execute it. -/
structure Cur where
  core : Nat
  slot : Nat
  warp : Nat
  pc : Word
  len : Nat
  act : List (Nat × Nat)            -- (lane, TID), ascending TID
  full : Bool                       -- 32 live threads (R213)
deriving DecidableEq, Repr

/-! ## Memory system -/

/-- Who holds a copy of a line: the L1 of a core, or the L2 of a die (R96). A home line of HBM in the L2 of its own die
has its bytes at the home, so its copy holds none: it takes a way of its set (R98). -/
inductive Holder where
  | l1 (core : Nat)
  | l2 (die : Nat)
deriving DecidableEq, Repr

/-- A copy of a 128-byte line with its byte masks (R96, R97). -/
structure Copy where
  holder : Holder
  line : Nat
  data : BitVec 1024
  valid : BitVec 128
  dirty : BitVec 128
  ct : Nat                          -- consistency type of the page: 0 REL, 1 SEQ, 2 STRM, 3 PRIV (R66)
  hint : Nat := 0                   -- 1: first in line for eviction; 2: last in line for eviction from L1 (R32)
  bad : BitVec 16 := 0              -- its poisoned 8-byte words (R105)
deriving DecidableEq, Repr

/-- A leaf held by the TLBs of a die (R88): the L1 TLB of a core, or the die's shared TLB. -/
structure TlbEntry where
  die : Nat
  core : Option Nat := none         -- `none`: the shared TLB
  asid : Nat
  base : Nat                        -- first VA
  level : Nat                       -- 1: 64 KiB, 2: 512 MiB, 3: 4 TiB
  leaf : Word64
  pte : Nat                         -- where the leaf stands in HBM
  dset : Bool
deriving DecidableEq, Repr

/-- A fetch block held by the instruction cache of a core (R40). -/
structure IBlock where
  core : Nat
  asid : Nat
  va : Nat
  words : List Nat
deriving DecidableEq, Repr

/-! ## Engines -/

/-- A queued or running multiply of a core's matrix engine (R234, R239). -/
structure Mul where
  core : Nat
  slot : Nat
  id : Nat                          -- its place in the operand buffer's order (R221)
  z : Bool
  acc : BitVec 128
  bres : BitVec 128
  gen : Nat                         -- which reservation B is
  stage : Bool                      -- CUR of B as the order has it so far (R236)
  k0 : Nat
  n0 : Nat
  c0 : Nat
  rows : Nat × Nat := (0, 0)        -- the rows of B it reads: the first, and behind the last (R221)
  a : List (List Word)              -- 32 lanes of 16 or 32 registers
  fetch : Option Nat := none        -- `MMAH`: the fetch that must land first (R236)
  started : Bool := false
  result : List (Nat × Byte) := []  -- the window's bytes once computed
deriving DecidableEq, Repr

/-- The operand fetch of an `MMAH` (R236): a copy into a stage of B. -/
structure Fetch where
  core : Nat
  slot : Nat
  id : Nat                          -- its place in the order of R221; its multiply is the next
  bSlot : Nat
  bres : BitVec 128
  gen : Nat
  stage : Bool                      -- CUR of B as the order has it so far
  pc : Word
  cmd : Cmd
deriving DecidableEq, Repr

/-- What an access of the operand buffer that waits behind earlier ones does when its turn comes (R221). -/
inductive ObWork where
  /-- `OBWR`, `OBCLR`, `OBDUP`: bytes of the allocation written. -/
  | write (cells : List (Nat × Byte))
  /-- `OBRD`: for each thread, its lane and its destination register; the accumulator, the type and the column. -/
  | read (ts : List (Nat × Nat × Option Nat)) (acc : BitVec 128) (ty : ObTy) (c0 : Nat)
deriving DecidableEq, Repr

/-- A waiting access of a block's operand buffer (R221). -/
structure ObOp where
  core : Nat
  slot : Nat
  id : Nat
  work : ObWork
deriving DecidableEq, Repr

/-- An accepted selection command (R245), with its progress. -/
structure SelCmd where
  bed : Nat
  core : Nat
  slot : Nat
  seq : Nat
  op : Nat                          -- 0 SELK, 1 SELKS, 2 SELU
  ext : Nat
  desc : BitVec 128
  oo : Nat
  dO : Nat
  pst : Nat
  recs : List Rec                   -- keys, output, payload, payload destination, segment list
  ctr : Ctr
  lines : List (Nat × List (Byte × Bool)) := []  -- the lines of memory read so far, by VA, with poison (R251, R253)
  out : Option (List (Nat × Byte × Bool)) := none
    -- once everything is read: the writes left to do, line by line, as VA, byte and its poison
  passed : Nat := 0                 -- outputs up to the last payload row met out of bounds (R251)
  stopped : Option Nat := none
  dead : Bool := false
deriving DecidableEq, Repr

/-! ## Launches (R337, R346) -/

/-- The state of a launch (R337). -/
inductive LState where | submitted | waiting | ready | running | done | refused | killed
deriving DecidableEq, Repr

/-- A launch the dispatcher holds. -/
structure Launch where
  id : Nat
  lr : BitVec 2048                  -- the launch record, with the bucket's fields put in (R342)
  recVa : Nat
  core : Nat := 0                   -- the submitting core of a `LAUNCH`
  pdim : Option Nat                 -- the bucket's PDIM (R343)
  sregs : List Word
  krecs : List Rec
  st : LState
  exited : Nat := 0                 -- blocks exited (R340)
deriving DecidableEq, Repr

/-- A request of a die dispatcher's queue: a cluster, a phase, or a saved cluster (R346, R350, R380). -/
inductive ReqKind where
  | cluster (launch clid : Nat)
  | phase (core slot : Nat)
  | restore (id : Nat)
deriving DecidableEq, Repr

/-- A queued request (R346, R347). -/
structure Req where
  die : Nat
  kind : ReqKind
  prio : Nat
  since : Nat                       -- the die's cycle count when it entered the queue
  ord : Nat                         -- its age: its place among requests of one priority
  moved : Option (Nat × Nat × Nat) := none  -- where it stands after its 8th failure (R347): the effective priority at
                                    -- which it moved, the place of the youngest behind which it moved, and behind that one
  fails : Nat := 0
  backoff : Bool := false
  due : Nat := 0                    -- the cycle at which its back-off ends
deriving DecidableEq, Repr

/-- The scratchpad and operand-buffer bytes that an exited block still holds for its cluster (R381). -/
structure Area where
  core : Nat
  launch : Nat
  clid : Nat
  scrBase : Nat
  scr : Nat                         -- bytes
  opbBase : Nat
  opb : Nat                         -- bytes
  blk : Block                       -- what is left of the block
deriving DecidableEq, Repr

/-- A cluster saved by a force-save (R378, R380). -/
structure Saved where
  id : Nat
  frame : Nat
  die : Nat
  blks : List Block                 -- by rank
  gone : List Nat := []             -- the ranks whose blocks had exited
  queued : Bool := false
deriving DecidableEq, Repr

/-! ## Faults (R357) -/

/-- A fault record, field by field. -/
structure FRec where
  fid : Nat := 0
  kind : Nat := 0
  cls : Nat := 0
  cause : Nat := 0
  fetch : Bool := false
  noncanon : Bool := false
  malf : Bool := false
  level : Nat := 0
  write : Bool := false
  bound : Bool := false
  nest : Bool := false
  cont : Bool := false
  core : Nat := 0
  bslot : Nat := 0
  asid : Nat := 0
  pc : Nat := 0
  lanemask : Nat := 0
  tid0 : Nat := 0
  eng : Nat := 0
  stream : Nat := 0
  bed : Nat := 0
  bid : Nat := 0
  cmd : Nat := 0
  va : Nat := 0
  aux : Nat := 0
  time : Nat := 0
  pages : List Nat := []            -- the pages listed, ascending
deriving DecidableEq, Repr

/-- A party that a record stopped (R361, R366): threads of a block, or an engine. -/
structure PendRec where
  fr : FRec
  launch : Nat
  tids : List Nat := []
  hits : List (Nat × Nat) := []     -- the lane and the first failing VA of each of these threads
  told : Bool := false              -- a flash-backed record that went to the host after all (R362)
  halted : Bool := false
deriving DecidableEq, Repr

/-- A fill of the Stagehand in flight (R361): the leaf's key and value, the frame once it has one, who joined. -/
structure Fill where
  leafKey : Nat
  leaf : Word64
  frame : Option Nat
  joined : List (Nat × Nat)         -- the joined records, each with the page of it that this fill serves
deriving DecidableEq, Repr

/-- A shootdown in progress (R89). -/
structure Shoot where
  id : Nat
  kind : Nat                        -- 0 range, 1 ASID, 2 all
  asid : Nat
  va : Nat
  pages : Nat
  spans : Option (List (Nat × Nat)) := none  -- the covered frames, from the first die's response on
  acks : List Nat                   -- dies that have acknowledged
  reg : Bool                        -- started by `SHOOTCTL`
deriving DecidableEq, Repr

/-- A record of the I/O command ring that has been read and not yet freed (R396). -/
structure IoCmd where
  hdr : Nat                         -- where the ring's header stands
  off : Nat                         -- ring offset of its record
  len : Nat
  key : Nat                         -- where the record stands
  raw : BitVec 512
  unused : Bool                     -- a skip record, or one of another length: freed only (R443)
  status : Nat := 0                 -- 0 until it has executed
deriving DecidableEq, Repr

/-! ## Registers of the privileged page and the management window (R387, R388) -/

/-- The privileged registers (R387), 64 bits each. -/
structure Priv where
  astbase : Word64 := 0
  fttbase : Word64 := 0
  stripesize : Word64 := 0
  stripebase : List Word64 := [0, 0, 0, 0]
  peerwin : List Word64 := [0, 0, 0, 0]
  swbbase : List Word64 := [0, 0, 0, 0]
  frameop : Word64 := 0
  shootva : Word64 := 0
  shootctl : Word64 := 0
  ffring : List Word64 := [0, 0, 0, 0]
  fring : Word64 := 0
  fringctl : Word64 := 0
  fresp : Word64 := 0
  wdog : Word64 := 0x0F424001       -- LIMIT 0x0F4240 in [31:8], EN 1 (R375)
  preempt : Word64 := 0
  preemptarg : Word64 := 0
  dbgstep : Word64 := 0
  iocmd : Word64 := 0
  iotail : Word64 := 0
deriving DecidableEq, Repr

/-- The management registers (R388, R404, R408). -/
structure Mgmt where
  pwrcap : Word64 := 4200
  pwrstat : Word64 := 0
  therm : Word64 := 0
  hostoor : Word64 := 0
  seccnt : List Word64 := [0, 0, 0, 0]
  detmode : Word64 := 0x0CE40000    -- FREQ 3,300 in [27:16]
  rplbase : Word64 := 0
  rpllen : Word64 := 0
deriving DecidableEq, Repr

/-- Ownership (R390, R391): the owner, the pending claims, whether the claim window is open. -/
structure Owner where
  owner : Option Master := none
  claims : List Master := []
  window : Bool := false
deriving DecidableEq, Repr

/-- Boot (R398 to R401): the last step passed, whether the cores are released, the failed link, the images, the
SPDM sessions by number, the link width. -/
structure Boot where
  stage : Nat := 0
  released : Bool := false
  badLink : Nat := 0
  sessions : List (Nat × BitVec 384) := []
  width : Nat := 16
  mediaReady : Bool := false        -- the flash key is loaded (step 6)
  failed : Nat := 0                 -- the first image that failed verification, 1 to 7, 0 for none (R399)
  images : List Image := []         -- the images that were verified and measured, in the order of R400
  boots : Nat := 0                  -- counts the boots: the alias certificate is issued at each (R401)
  retrain : Bool := false           -- steps 3 to 5 are repeated after a thermal trip (R410)
  hdm : List Nat := []              -- the HDM decoders that the host has committed (R385)
deriving DecidableEq, Repr

/-- The replay log (R406): the next sequence number, the chain value, the running inputs. -/
structure Replay where
  seq : Nat := 0
  chain : BitVec 384 := 0
  inputs : List Byte := []
deriving DecidableEq, Repr

/-- A capability of the SPDM responder (R401). -/
inductive SpdmCap where | cert | chal | meas | keyEx | encrypt | mac
deriving DecidableEq, Repr

/-- An algorithm of the SPDM responder (R401). -/
inductive SpdmAlg where | ecdsaP384 | sha384 | ecdheP384 | aes256Gcm
deriving DecidableEq, Repr

/-- What the outside world has been told: answers to reads and requests, oldest first (R385, R401). -/
inductive Out where
  | bytes (l : List Byte)
  | poisoned
  | word (v : Word64)
  | notReady
  | meas (l : List (BitVec 384)) (sig : BitVec 768)
  | cert (l : List Byte)
  | chal (sig : BitVec 768)
  | sess (id : Nat) (k : BitVec 384)
  | busy
  /-- The SPDM versions, capabilities and algorithms that the responder names (R401). -/
  | versions (l : List Nat)
  | capabilities (l : List SpdmCap)
  | algorithms (l : List SpdmAlg)
  /-- An answer within a session, sealed (R401). -/
  | secured (session : Nat) (l : List Byte)
  /-- A session has ended. -/
  | ended (session : Nat)
  /-- An SPDM request that the responder does not support (R401). -/
  | spdmError
  /-- The report of a link that failed to train, over the management plane (R23, R398). -/
  | linkFailed (link : Nat)
  | msix (vec : Nat)
  /-- A back-invalidate snoop to the host for a 64-byte sector of device memory (R271, R274). -/
  | snoop (sector : Nat)
deriving DecidableEq, Repr

/-! ## The package -/

/-- What moves next: the issue of one warp's next instruction, or a step of an agent or of the outside world. -/
inductive Act where
  | issue (core slot warp : Nat)
  | ev (i : Instr)
deriving DecidableEq, Repr

/-- The state of the package. -/
structure State where
  mem : List Host.Cell := []
  below : List Host.Cell := []      -- bytes as HBM has them below the dirty bytes of the home slices (R98, R274)
  emptyLines : List Nat := []
  poison : List Nat := []           -- keys of poisoned 8-byte words (R105)
  copies : List Copy := []          -- the last used first (R98)
  owned : List (Nat × Nat) := []    -- line and owning core (R287)
  contended : List Nat := []        -- lines of the contention tables, the last used first (R287)
  hostHeld : List (Nat × Bool) := []  -- 64-byte sectors that the host may hold, and whether modified (R272)
  tlb : List TlbEntry := []
  icache : List IBlock := []
  blocks : List Block := []
  warps : List Warp := []
  nextWarp : Nat := 0
  nextTicket : Nat := 0             -- order of parking at full rings (R329)
  cur : Option Cur := none
  steps : List (Nat × Nat × List (Option Nat)) := []  -- warps of a debug step that wait for a warp slot (R306, R324)
  lastCast : List (Nat × Nat) := [] -- per core, the block slot cast last (R306)
  muls : List Mul := []
  fetches : List Fetch := []
  obOps : List ObOp := []           -- operand-buffer accesses that wait (R221)
  nextOb : Nat := 0
  reuse : List (Nat × Nat × Nat × List (Nat × Nat)) := []  -- reuse latches: core, slot, D, lanes and TIDs (R235)
  linebuf : List Rows := []         -- rows the line buffers hold, the newest first (R153)
  turns : List (Nat × Nat × Nat) := []  -- per core, the block slot and stream that its engine served last (R137)
  selq : List SelCmd := []
  launches : List Launch := []
  nextLaunch : Nat := 0
  lrings : List (Nat × Nat × Word64 × Word64) := []  -- ASID, n, LRINGn, TAILn; n from 4 on: the privileged rings (R333)
  badRings : List (Nat × Nat) := []           -- launch rings that wait to be told again (R443)
  consume : List (Nat × Nat × Option Nat) := []  -- doorbells not yet served: ring, and PROD once read (R334)
  reqs : List Req := []
  saved : List Saved := []
  saving : Option (Nat × Nat × Nat) := none  -- a force-save in progress: launch, cluster, frame (R378)
  nextReq : Nat := 0
  areas : List Area := []           -- what exited blocks still hold (R381)
  suspended : List Nat := []        -- ASIDs whose admission is suspended (R377)
  adds : List (Nat × Nat × Bool × Nat × Bool) := []  -- adds due at exits: launch, ASID, PRIVL, VA, whether DONE (R340)
  batch : List (Nat × FRec) := []   -- records in the cores' batches (R359)
  stageq : List FRec := []          -- records at the Stagehand (R360)
  ioq : List (FRec × Bool) := []    -- records waiting on the I/O die, and whether each ends its batch (R365)
  pending : List PendRec := []      -- records that await an answer or a fill
  nextFid : Nat := 0
  fills : List Fill := []
  reserve : List (Nat × Nat) := []  -- die and frame (R364)
  shoots : List Shoot := []
  nextShoot : Nat := 0
  frameop : Option (Nat × Nat × Nat) := none  -- operation, window and frame in progress (R273)
  iocmds : List IoCmd := []
  iotold : Bool := false            -- a doorbell has started the consumption of the I/O ring (R395, R396)
  priv : Priv := {}
  mgmt : Mgmt := {}
  owner : Owner := {}
  boot : Boot := {}
  fused : List Nat := [0, 0, 0, 0, 0, 0, 0]  -- minimum security versions fused in the key store, for each image (R399)
  replay : Replay := {}
  epoch : Nat := 0                  -- the flash epoch (R402)
  flashEpochs : List (Nat × Nat) := []  -- flash pages written, and in which epoch
  clk : List Nat := [100, 100, 100, 100]  -- clocks of the dies in steps of 33 MHz (R409)
  tripped : Bool := false           -- the trip conditions still hold (R410)
  cyc : List Nat := [0, 0, 0, 0]    -- CYC of the dies (R25)
  ns : Nat := 0                     -- TIME (R25)
  msixDue : List Nat := []          -- vectors whose message waits for a host owner (R393)
  hostOut : List Out := []
  now : Nat := 0                    -- MODEL: steps taken
  free : Nat := 0                   -- MODEL: free values drawn
  agenda : List Act := []           -- MODEL: what moves next
deriving DecidableEq, Repr

/-- The machine right after power-on: no block, no warp, nothing listed in memory, every register at its reset value.
Everything else a program needs comes through the host (log entry 2). -/
def State.reset : State := {}

end Sys2Proof.Machine
end

