-- ==== Sys2Proof/Machine/Ops.lean ====
section
/-!
DEFINITION. Ops.lean: the named operations over memory, copies, blocks, threads and registers that the meanings share,
and, once for all instructions, taking a trap and returning from its handler (R356 to R360, R368, R372).
-/
namespace Sys2Proof.Machine

/-- The outcome of a meaning. -/
abbrev Res := Host.Outcome State Fault Refusal

/-! ## Lists by index -/

/-- The elements of a list that satisfy a test, changed. -/
def mapIf {α : Type} (p : α → Bool) (f : α → α) (l : List α) : List α := l.map fun x => if p x then f x else x

/-- A natural number inserted into an ascending list without repeats. -/
def insNat (a : Nat) : List Nat → List Nat
  | [] => [a]
  | x :: r => if a < x then a :: x :: r else if a = x then x :: r else x :: insNat a r

/-- The first `n` bytes of a value, the lowest first. -/
def bytesLE : Nat → Nat → List Byte
  | 0, _ => []
  | n + 1, v => BitVec.ofNat 8 v :: bytesLE n (v / 256)

/-- The value of a list of bytes, the lowest first. -/
def ofBytesLE : List Byte → Nat
  | [] => 0
  | b :: r => b.toNat + 256 * ofBytesLE r

/-! ## Memory: one list of cells in canonical form

The keys lay the address spaces side by side: HBM at 0 (R69), the vaults at 2^40, the scratchpads at 2^41 (512 KiB for
each core), the operand buffers at 2^42 (256 KiB for each core), flash pages at 2^50, host memory at 2^64, peers at
2^65. -/

/-- An unlisted address reads as zero (log entry 1). -/
def memGet : List Host.Cell → Nat → Byte
  | [], _ => 0
  | (k, v) :: r, a => if k = a then v else memGet r a

/-- Write one byte and keep the canonical form: keys rising, no entry zero. -/
def memSet : List Host.Cell → Nat → Byte → List Host.Cell
  | [], a, b => if b = 0 then [] else [(a, b)]
  | (k, v) :: r, a, b =>
    if k = a then (if b = 0 then r else (a, b) :: r)
    else if a < k then (if b = 0 then (k, v) :: r else (a, b) :: (k, v) :: r)
    else (k, v) :: memSet r a b

/-- The canonical form of memory. -/
def Memory.wf : List Host.Cell → Bool
  | [] => true
  | (k, v) :: r => v != 0 && (match r with | [] => true | (k2, _) :: _ => decide (k < k2)) && Memory.wf r

/-- Key of a vault address. -/
def vaultKey (a : Nat) : Nat := 1099511627776 + a
/-- Key of a byte of a core's scratchpad. -/
def scrKey (core off : Nat) : Nat := 2199023255552 + core * 524288 + off
/-- Key of a byte of a core's operand buffer. -/
def opbKey (core off : Nat) : Nat := 4398046511104 + core * 262144 + off
/-- Key of a byte of a flash page. -/
def flashKey (page off : Nat) : Nat := 1125899906842624 + page * 65536 + off
/-- Key of a host physical address. -/
def hostKey (a : Nat) : Nat := 18446744073709551616 + a
/-- Key of a fabric address of a peer. -/
def peerKey (a : Nat) : Nat := 36893488147419103232 + a

/-- Where a key lies. -/
inductive Space where | hbm | vault | scr | opb | flash | host | peer
deriving DecidableEq, Repr

/-- The space of a key. -/
def spaceOf (k : Nat) : Space :=
  if k < 1099511627776 then .hbm
  else if k < 2199023255552 then .vault
  else if k < 4398046511104 then .scr
  else if k < 1125899906842624 then .opb
  else if k < 18446744073709551616 then .flash
  else if k < 36893488147419103232 then .host
  else .peer

/-- The compute die an HBM key is homed on (R69, R71). -/
def homeDie (k : Nat) : Nat := k / 274877906944

/-- Read one byte at its home. -/
def State.rd (s : State) (k : Nat) : Byte := memGet s.mem k
/-- Read `n` bytes at their home as a little-endian number. -/
def State.rdN (s : State) (k : Nat) : Nat → Nat
  | 0 => 0
  | n + 1 => (s.rd k).toNat + 256 * s.rdN (k + 1) n
/-- Read `n` bytes at their home. -/
def State.rdBytes (s : State) (k : Nat) : Nat → List Byte
  | 0 => []
  | n + 1 => s.rd k :: s.rdBytes (k + 1) n

/-- Write a list of bytes from a key on. -/
def memWrite : List Host.Cell → Nat → List Byte → List Host.Cell
  | m, _, [] => m
  | m, k, b :: r => memWrite (memSet m k b) (k + 1) r

/-- Mark the slots of address waits whose word a write touches (R294). -/
def fireSlots (lo hi : Nat) (t : Thread) : Thread :=
  match t.cond with
  | .wings (.address sl d q n) =>
    { t with cond := .wings (.address
        (sl.map fun w => if w.key < hi ∧ lo < w.key + 8 then { w with fired := true } else w) d q n) }
  | _ => t

/-- Mark a counter wait whose word some write has touched and whose target the word now meets (R293). -/
def State.meetTarget (s : State) (touched : Nat → Bool) (t : Thread) : Thread :=
  match t.cond with
  | .wings (.counter key va target met) =>
    { t with cond := .wings (.counter key va target (met || (touched key && decide (target ≤ s.rdN key 8)))) }
  | _ => t

/-- Whether a thread waits on an address or on a counter: a write may fire its slot or meet its target. -/
def Thread.onWord (t : Thread) : Bool :=
  match t.cond with
  | .wings (.address ..) | .wings (.counter ..) => true
  | _ => false

/-- Change the threads that wait on words. -/
def State.atWaiters (s : State) (f : Thread → Thread) : State :=
  { s with blocks := s.blocks.map fun b =>
      if b.threads.any Thread.onWord then { b with threads := b.threads.map f } else b }

/-- Evaluate every waiter of the words that some writes have touched (R293). -/
def State.evalWaiters (s : State) (touched : Nat → Bool) : State := s.atWaiters (s.meetTarget touched)

/-- Whether a copy is a line in the L2 of its own home die: its home slice holds it (R71, R98). -/
def Copy.home (c : Copy) : Bool :=
  match c.holder with
  | .l2 die => spaceOf (c.line * 128) == .hbm && homeDie (c.line * 128) == die
  | .l1 _ => false

/-- What HBM keeps of `n` bytes that are about to be overwritten in their home slice: where the slice holds the line, the
bytes stay dirty there until it writes them back (R98, R274); a line that it does not hold is written in HBM (log entry
86, DESIGN CHOICE). -/
def State.keptBelow (s : State) (k n : Nat) : List Host.Cell :=
  if s.copies.isEmpty then s.below
  else
    s.below ++ (List.range n).filterMap fun i =>
      if s.copies.any (fun c => c.home && c.line == (k + i) / 128) && !(s.below.any fun b => b.1 == k + i) then
        some (k + i, s.rd (k + i))
      else none

/-- Bytes written at their home (R71), the address waits that see them (R294), and the poison that whole words
overwritten lose (R105): one write of an event whose waiters are evaluated when it ends. -/
def State.rawWrite (s : State) (k : Nat) (bs : List Byte) : State :=
  let n := bs.length
  ({ s with
    mem := memWrite s.mem k bs
    below := s.keptBelow k n
    poison := s.poison.filter fun w => !(decide (k ≤ w) && decide (w + 8 ≤ k + n)) } : State).atWaiters (fireSlots k (k + n))

/-- A write of bytes performed at its home: the bytes, and the waiters that see it (R293, R294). -/
def State.homeWrite (s : State) (k : Nat) (bs : List Byte) : State :=
  (s.rawWrite k bs).evalWaiters fun w => decide (w < k + bs.length) && decide (k < w + 8)

/-- A write of an `n`-byte little-endian value performed at its home. -/
def State.homeWriteN (s : State) (k n v : Nat) : State := s.homeWrite k (bytesLE n v)

/-- Separate bytes written one after another, each at its own key. -/
def State.writeCells (s : State) : List (Nat × Byte) → State
  | [] => s
  | (k, b) :: r => (s.rawWrite k [b]).writeCells r

/-- A write of separate bytes; a poisoned word that they overwrite whole is poisoned no more (R105). -/
def State.homeWriteCells (s : State) (cells : List (Nat × Byte)) : State :=
  let s := s.writeCells cells
  ({ s with poison := s.poison.filter fun w =>
      !((List.range 8).all fun i => cells.any fun c => c.1 == w + i) } : State).evalWaiters
    fun w => cells.any fun c => decide (w ≤ c.1) && decide (c.1 < w + 8)

/-! ## Ownership and contention (R286 to R288) -/

/-- A line of HBM is contended, and stands first in its contention table (R287); other lines stand in none. -/
def State.contend (s : State) (line : Nat) : State :=
  if spaceOf (line * 128) = .hbm then { s with contended := line :: s.contended.filter (· != line) } else s

/-- The home recalls the ownership of a line, where somebody holds it, and marks the line contended (R288). -/
def State.recall (s : State) (line : Nat) : State :=
  if s.owned.any fun o => o.1 == line then
    ({ s with owned := s.owned.filter fun o => o.1 != line } : State).contend line
  else s

/-- The home recalls a line for an access of a core, unless that core owns it (R288). -/
def State.recallFor (s : State) (core line : Nat) : State := if s.owned.contains (line, core) then s else s.recall line

/-- The home recalls every owned line that a test selects (R288). -/
def State.recallAll (s : State) (p : Nat → Nat → Bool) : State :=
  (s.owned.filter fun o => p o.1 o.2).foldl (fun s o => s.recall o.1) s

/-- An agent of the I/O die reaches some bytes at their homes: the lines that a core owns there are recalled (R288). -/
def State.recallSpan (s : State) (k n : Nat) : State :=
  s.recallAll fun line _ => decide (k < line * 128 + 128) && decide (line * 128 < k + n)

/-! ## Copies of lines (R96 to R99)

The list of copies holds the last used first: a fill, a hit and a store put the copy in front, and replacement takes the
last (R98, log entry 7). -/

/-- Byte `i` of a line. -/
def lineByte (d : BitVec 1024) (i : Nat) : Byte := d.extractLsb' (8 * i) 8
/-- A line with byte `i` replaced. -/
def setLineByte (d : BitVec 1024) (i : Nat) (b : Byte) : BitVec 1024 :=
  (d &&& ~~~ ((255#1024) <<< (8 * i))) ||| ((b.setWidth 1024) <<< (8 * i))
/-- Bit `i` of a byte mask. -/
def maskBit (m : BitVec 128) (i : Nat) : Bool := m.getLsbD i
/-- A byte mask with bit `i` set. -/
def setMask (m : BitVec 128) (i : Nat) : BitVec 128 := m ||| (1#128 <<< i)
/-- A mask of bytes `lo` to `hi - 1`. -/
def rangeMask (lo hi : Nat) : BitVec 128 := BitVec.ofNat 128 (2 ^ hi - 2 ^ lo)
/-- Every byte of a line. -/
def allBytes : BitVec 128 := BitVec.allOnes 128
/-- The sectors of `n` bytes of the bytes that a mask selects (R99, R109). -/
def sectorsOf (n : Nat) (m : BitVec 128) : BitVec 128 :=
  (List.range (128 / n)).foldl (fun a i => if m &&& rangeMask (n * i) (n * i + n) = 0 then a
    else a ||| rangeMask (n * i) (n * i + n)) 0
/-- The 8-byte words of a line that satisfy a test on their byte masks, one bit for each. -/
def wordsWhere (p : BitVec 128 → Bool) : BitVec 16 :=
  (List.range 16).foldl (fun a w => if p (rangeMask (8 * w) (8 * w + 8)) then a ||| (1#16 <<< w) else a) 0
/-- The words that a byte mask covers whole. -/
def wholeWords (m : BitVec 128) : BitVec 16 := wordsWhere fun r => m &&& r == r
/-- The words that a byte mask touches. -/
def touchedWords (m : BitVec 128) : BitVec 16 := wordsWhere fun r => m &&& r != 0

/-- The copy of a line that a holder has. -/
def State.copy? (s : State) (h : Holder) (line : Nat) : Option Copy :=
  s.copies.find? fun c => c.holder == h && c.line == line
/-- Forget a holder's copy of a line. -/
def State.dropCopy (s : State) (h : Holder) (line : Nat) : State :=
  { s with copies := s.copies.filter fun c => !(c.holder == h && c.line == line) }
/-- Put a copy in front, in place of the holder's copy of that line. -/
def State.putCopy (s : State) (c : Copy) : State :=
  { s with copies := c :: s.copies.filter fun x => !(x.holder == c.holder && x.line == c.line) }
/-- Change a copy where it stands. -/
def State.setCopy (s : State) (c : Copy) : State :=
  { s with copies := mapIf (fun x => x.holder == c.holder && x.line == c.line) (fun _ => c) s.copies }

/-- Whether a copy is held by the L1 of a core. -/
def Copy.inL1 (c : Copy) (core : Nat) : Bool := c.holder == .l1 core
/-- Whether a copy is held by the L2 of a die as a guest line of device memory. -/
def Copy.guest (c : Copy) (die : Nat) : Bool :=
  c.holder == .l2 die && spaceOf (c.line * 128) == .hbm && homeDie (c.line * 128) != die
/-- Whether a copy is a line that the L2 of a die holds for another home: a guest line, or sectors of host memory. -/
def Copy.away (c : Copy) (die : Nat) : Bool := c.guest die || (c.holder == .l2 die && spaceOf (c.line * 128) == .host)

/-- The bytes of a line that a mask selects, with their keys. -/
def maskedCells (line : Nat) (d : BitVec 1024) (m : BitVec 128) : List (Nat × Byte) :=
  ((List.range 128).filter fun i => maskBit m i).map fun i => (line * 128 + i, lineByte d i)

/-- Merge masked bytes into a holder's copy as dirty bytes, making the copy if there is none; `bad` are the poisoned words
among them. -/
def State.mergeDirty (s : State) (h : Holder) (line ct : Nat) (d : BitVec 1024) (m : BitVec 128)
    (bad : BitVec 16 := 0) : State :=
  let c := (s.copy? h line).getD { holder := h, line := line, data := 0, valid := 0, dirty := 0, ct := ct }
  let data := (List.range 128).foldl (fun a i => if maskBit m i then setLineByte a i (lineByte d i) else a) c.data
  s.putCopy { c with data := data, valid := c.valid ||| m, dirty := c.dirty ||| m, ct := ct,
                     bad := (c.bad &&& ~~~ (wholeWords m)) ||| bad }

/-- A line of HBM is used at its home slice: it takes a way of the L2 of its home die (R98); a hint of the access stays
with it, until another (R32). -/
def State.touchHome (s : State) (line ct hint : Nat) : State :=
  let h := Holder.l2 (homeDie (line * 128))
  let was := ((s.copy? h line).map (·.hint)).getD 0
  s.putCopy { holder := h, line := line, data := 0, valid := 0, dirty := 0, ct := ct,
              hint := if hint = 0 then was else hint }

/-- The stream hint of an access reaches a line that stands in the L2 of a die: it is first in line for eviction there
too (R32, R98). -/
def State.firstInL2 (s : State) (die line : Nat) : State :=
  match s.copy? (.l2 die) line with
  | some c => s.setCopy { c with hint := 1 }
  | none => s

/-- Some bytes of a copy are performed at the home of the line; a poisoned word among them takes its poison along
(R105). -/
def State.bringHome (s : State) (c : Copy) (m : BitVec 128) : State :=
  let bad := c.bad &&& touchedWords m
  let s := s.homeWriteCells (maskedCells c.line c.data m)
  if bad = 0 then s else
  { s with poison := (List.range 16).foldl (fun l w => if bad.getLsbD w then insNat (c.line * 128 + 8 * w) l else l) s.poison }

/-- The host, or an agent that reaches host memory otherwise, takes some bytes of a line of it from the L2 of a die: dirty
bytes go home, and with `inv` the bytes are given up (R109). -/
def State.hostTake (s : State) (line : Nat) (m : BitVec 128) (inv : Bool) (die : Nat) : State :=
  match s.copy? (.l2 die) line with
  | none => s
  | some c =>
    let s := if c.dirty &&& m = 0 then s else s.bringHome c (c.dirty &&& m)
    let c := { c with valid := if inv then c.valid &&& ~~~ m else c.valid, dirty := c.dirty &&& ~~~ m }
    if c.valid = 0 then s.dropCopy (.l2 die) line else s.setCopy c

/-- The same for the L2s of every die but one. -/
def State.hostTakeAll (s : State) (line : Nat) (m : BitVec 128) (inv : Bool) (but : Option Nat) : State :=
  [0, 1, 2, 3].foldl (fun s die => if but = some die then s else s.hostTake line (sectorsOf 64 m) inv die) s

/-- Write the masked dirty bytes of a copy one level onward (R97) and leave it clean: from an L1 to its die's L2 (the
home where the die is home, else a guest line or a host sector, which the other dies then give up) or to the vault or
the peer; from an L2 to the home. A write-back that reaches a home recalls the line (R288). Of the hints, the stream
hint goes along (R32). -/
def State.writeOnward (s : State) (c : Copy) (m : BitVec 128) : State :=
  let out := c.dirty &&& m
  let s := s.setCopy { c with dirty := c.dirty &&& ~~~ m }
  if out = 0 then s else
  match c.holder with
  | .l2 _ => (s.recall c.line).bringHome c out
  | .l1 core =>
    let die := core / 128
    let below := fun (s : State) =>
      let s := s.mergeDirty (.l2 die) c.line c.ct c.data out (c.bad &&& touchedWords out)
      if c.hint = 1 then s.firstInL2 die c.line else s
    match spaceOf (c.line * 128) with
    | .hbm =>
      if homeDie (c.line * 128) = die then
        ((s.recallFor core c.line).touchHome c.line c.ct (if c.hint = 1 then 1 else 0)).bringHome c out
      else below s
    | .host => below (s.hostTakeAll c.line out true (some die))
    | _ => s.bringHome c out

/-- Write onward every dirty copy that a test selects, one after another as the list of copies has them: the manual
leaves open in which order the dirty copies of one line on several holders come home (R97, log entry 62). -/
def State.drain (s : State) (p : Copy → Bool) : State :=
  (s.copies.filter fun c => p c && c.dirty != 0).foldl (fun s c => s.writeOnward c allBytes) s

/-- Invalidate every copy that a test selects, writing dirty bytes onward first (R97). -/
def State.invalidate (s : State) (p : Copy → Bool) : State :=
  let s := s.drain p
  { s with
    copies := s.copies.filter fun c => !(p c)
    below := s.below.filter fun b => !(s.copies.any fun c => p c && c.home && c.line == b.1 / 128) }

/-- A cache gives up a copy: dirty bytes go onward first, those of a home line into HBM (R97, R98). -/
def State.evict (s : State) (c : Copy) : State :=
  let s := (s.writeOnward c allBytes).dropCopy c.holder c.line
  { s with below := s.below.filter fun b => !(c.home && c.line == b.1 / 128) }

/-- What a release at a scope does to the copies of the releasing core and its die (R258): PRIV copies stay. -/
def State.releaseCopies (s : State) (core : Nat) (sc : Scope) : State :=
  let die := core / 128
  let s := s.drain fun c => c.inL1 core && c.ct != 3
  match sc with
  | .blk | .cls | .die => s
  | .pkg => s.drain fun c => c.guest die && c.ct != 3
  | .sys => s.drain fun c => c.away die && c.ct != 3

/-- What an acquire at a scope does to the copies of the acquiring core and its die (R259). -/
def State.acquire (s : State) (core : Nat) (sc : Scope) : State :=
  let die := core / 128
  match sc with
  | .blk => s
  | .cls | .die => s.invalidate fun c => c.inL1 core && c.ct == 0
  | .pkg | .sys =>
    let s := s.invalidate fun c => c.inL1 core && c.ct == 0
    s.invalidate fun c => c.guest die && c.ct == 0

/-- Before an access of a core is performed at the home of a line, the core's own dirty bytes of it go home, past the
guest copy of its die, and both copies are given up (R286). -/
def State.giveUp (s : State) (core line : Nat) : State :=
  (s.invalidate fun c => c.line == line && c.inL1 core).invalidate fun c => c.line == line && c.away (core / 128)

/-! ### Capacity (R92, R98) -/

/-- The slice of L2 that a line falls into (R71): bits of its die-local address, five by five, XORed. -/
def homeSlice (k : Nat) : Nat :=
  let d := k % 274877906944
  (List.range 7).foldl (fun a j => a ^^^ (d / 2 ^ (7 + 5 * j) % 32)) 0

/-- Which of some copies, the last used first, replacement takes: one that a hint puts first in line, the least recently
used of the others, at last one that a hint keeps (R32, R98). -/
def victimOf (l : List Copy) : Option Copy :=
  let l := l.reverse
  ((l.find? fun c => c.hint == 1).or (l.find? fun c => c.hint != 2)).or l.head?

/-- Replace copies among those that a test selects until no more than `cap` are left; `n` is how many are too many. -/
def State.evictTo (s : State) (p : Copy → Bool) : Nat → State
  | 0 => s
  | n + 1 =>
    match victimOf (s.copies.filter p) with
    | none => s
    | some c => (s.evict c).evictTo p n

/-- Keep the copies that a test selects within a number. -/
def State.keepWithin (s : State) (p : Copy → Bool) (cap : Nat) : State :=
  s.evictTo p ((s.copies.filter p).length - cap)

/-- Keep L1 data caches within 512 KiB, 4,096 lines, each (R92). -/
def State.trimL1 (s : State) : State :=
  if s.copies.length ≤ 4096 then s
  else
    (s.copies.filterMap fun c => match c.holder with | .l1 core => some core | .l2 _ => none).eraseDups.foldl
      (fun s core => s.keepWithin (fun c => c.inL1 core) 4096) s

/-- Whether a copy stands in a slice of the L2 of a die. The manual hashes a line to a slice at its home die (R71); a
guest line, and a sector of host memory, stand in the slice of the same number on the die that holds them (log entry 7,
DESIGN CHOICE). -/
def Copy.inSlice (c : Copy) (die slice : Nat) : Bool := c.holder == .l2 die && homeSlice (c.line * 128) == slice

/-- Keep every set of L2 within its 16 ways (R98): a die's L2 has 32 slices of 3 MiB, of 1,536 sets each. -/
def State.trimL2 (s : State) : State :=
  if s.copies.length ≤ 16 then s
  else
    ((List.range 128).filter fun i => decide (16 < (s.copies.filter fun c => c.inSlice (i / 32) (i % 32)).length)).foldl
      (fun s i =>
        let mine := fun (c : Copy) => c.inSlice (i / 32) (i % 32)
        let set := fun (c : Copy) => Config.l2Set c.line % 1536
        ((s.copies.filter mine).map set).eraseDups.foldl
          (fun s n => s.keepWithin (fun c => mine c && set c == n) 16) s) s

/-! ## Blocks, threads, warps -/

/-- The block in a slot of a core. -/
def State.block? (s : State) (core slot : Nat) : Option Block :=
  s.blocks.find? fun b => b.core == core && b.slot == slot
/-- Change the block in a slot of a core. -/
def State.modBlock (s : State) (core slot : Nat) (f : Block → Block) : State :=
  { s with blocks := mapIf (fun b => b.core == core && b.slot == slot) f s.blocks }
/-- A thread of a block. -/
def Block.thread? (b : Block) (tid : Nat) : Option Thread := b.threads.find? fun t => t.tid == tid
/-- Change a thread of a block. -/
def Block.modThread (b : Block) (tid : Nat) (f : Thread → Thread) : Block :=
  { b with threads := mapIf (fun t => t.tid == tid) f b.threads }
/-- A thread of the block in a slot of a core. -/
def State.thread? (s : State) (core slot tid : Nat) : Option Thread := (s.block? core slot).bind (·.thread? tid)
/-- Change a thread of the block in a slot of a core. -/
def State.modThread (s : State) (core slot tid : Nat) (f : Thread → Thread) : State :=
  s.modBlock core slot fun b => b.modThread tid f
/-- Whether a thread is live (R304). -/
def Thread.live (t : Thread) : Bool := t.cond != .exited
/-- The die of a block (R14). -/
def Block.die (b : Block) : Nat := b.core / 128
/-- The warp with an identifier. -/
def State.warp? (s : State) (core slot id : Nat) : Option Warp :=
  s.warps.find? fun w => w.core == core && w.slot == slot && w.id == id
/-- The threads that stand in a warp, with their lanes, lanes ascending. -/
def Warp.members (w : Warp) : List (Nat × Nat) :=
  (w.lanes.zipIdx).filterMap fun (o, l) => o.map fun t => (l, t)
/-- Take threads of a block out of the warp they stand in; a warp that has lost its last thread ends (R305). -/
def State.takeOut (s : State) (core slot : Nat) (tids : List Nat) : State :=
  { s with warps :=
      (s.warps.map fun w =>
        if w.core == core && w.slot == slot then
          { w with lanes := w.lanes.map fun o => o.bind fun t => if tids.contains t then none else some t }
        else w).filter fun w => w.lanes.any Option.isSome }

/-- Put values into allocation registers from an index on; what lies beyond the allocation is nothing. -/
def putRegs : List Word → Nat → List Word → List Word
  | rs, _, [] => rs
  | rs, i, v :: vs => putRegs (rs.set i v) (i + 1) vs

/-- Whether a result is an earlier write to the block's register that another writes: block-scope registers take their
writes in issue order (R49). -/
def PTgt.before (q p : PTgt) : Bool :=
  match q, p with
  | .krec i _ m, .krec j _ n => i == j && decide (m < n)
  | .handle i _ m, .handle j _ n => i == j && decide (m < n)
  | _, _ => false

/-- Forget the outstanding results of a block that a result overwrites (R49). -/
def Block.overtake (b : Block) (p : PTgt) : Block :=
  { b with threads := b.threads.map fun t => { t with pend := t.pend.filter fun q => !(q.before p) } }

/-- Land one outstanding result (R42, R43); an earlier write to the same block-scope register is overwritten by it,
landed or not (R49). -/
def landOne (b : Block) (tid : Nat) (p : PTgt) : Block :=
  match p with
  | .regs base vals => b.modThread tid fun t => { t with regs := putRegs t.regs base vals }
  | .krec k v _ => { b.overtake p with krecs := b.krecs.set k v }
  | .obrd base vals => b.modThread tid fun t => { t with regs := putRegs t.regs base vals }
  | .handle h v n => { b.overtake p with handles := b.handles.set h (some v), hdefs := b.hdefs.set h n }
  | .obrdDue _ => b

/-- Whether a result cannot land yet: an `OBRD` whose turn has not come (R221). -/
def PTgt.due (p : PTgt) : Bool :=
  match p with
  | .obrdDue _ => true
  | _ => false

/-- Whether a thread has a result that cannot land yet. Until it has landed the thread has left no warp: it is neither
held, parked, ready for casting nor exited, whatever sent it on its way (R44). -/
def Thread.owes (t : Thread) : Bool := t.pend.any PTgt.due

/-- Land every outstanding result of a thread that can land, oldest first (R44). -/
def landAll (b : Block) (tid : Nat) : Block :=
  match b.thread? tid with
  | none => b
  | some t => (t.pend.foldl (fun b p => landOne b tid p) b).modThread tid fun t => { t with pend := t.pend.filter PTgt.due }

/-! ## Stream written bits (R101, R102) -/

/-- Where the written bit of a line lies: the byte of its die's written-bit area and the bit in it (R102). -/
def swbKey (s : State) (line : Nat) : Option (Nat × Nat) :=
  let k := line * 128
  match spaceOf k with
  | .hbm =>
    let d := homeDie k
    let base := bitsOf (s.priv.swbbase.getD d 0).toNat 37 16 * 65536
    let bitIdx := k % 274877906944 / 128
    some (d * 274877906944 + base + bitIdx / 8, bitIdx % 8)
  | .vault =>
    let a := k - 1099511627776
    let d := a / 1073741824
    let base := bitsOf (s.priv.swbbase.getD d 0).toNat 37 16 * 65536
    let bitIdx := a % 1073741824 / 128
    let hbmBytes := if d < 2 then 134217728 else 268435456
    some (d * 274877906944 + base + hbmBytes + bitIdx / 8, bitIdx % 8)
  | _ => none

/-- The written bit of a line (R102); lines of other spaces have none. -/
def State.written (s : State) (line : Nat) : Bool :=
  match swbKey s line with
  | some (k, i) => (s.rd k).getLsbD i
  | none => false

/-- Set or clear the written bit of a line at its home (R102, R132). -/
def State.setWritten (s : State) (line : Nat) (v : Bool) : State :=
  match swbKey s line with
  | some (k, i) => s.homeWrite k [if v then s.rd k ||| (1#8 <<< i) else s.rd k &&& ~~~ (1#8 <<< i)]
  | none => s

/-! ## Completing maintenance (R128 to R132, R135) -/

/-- Perform one line of a `CWB`, `CINV` or `SARM` issued by a core: `m` is the byte mask of the range in the line. -/
def State.maintLine (s : State) (core op : Nat) (l2 : Bool) (line m : Nat) : State :=
  let die := core / 128
  let mask := BitVec.ofNat 128 m
  match op with
  | 1 =>
    let s := match s.copy? (.l1 core) line with
      | some c => s.writeOnward c mask
      | none => s
    if l2 then
      match s.copy? (.l2 die) line with
      | some c => if c.guest die then s.writeOnward c mask else s
      | none => s
    else s
  | 2 =>
    -- dirty bytes outside the range are written onward first; inside it, only on pages that are not PRIV
    let one := fun (s : State) (h : Holder) =>
      match s.copy? h line with
      | some c => (s.writeOnward c (if c.ct = 3 then ~~~ mask else allBytes)).dropCopy h line
      | none => s
    let s := one s (.l1 core)
    if l2 then
      match s.copy? (.l2 die) line with
      | some c => if c.guest die then one s (.l2 die) else s
      | none => s
    else s
  | _ =>
    -- dirty bytes, if another page type left any, go onward before the copies of every core and die are gone
    let s := s.invalidate fun c => c.line == line && (match c.holder with | .l1 _ => true | .l2 _ => false)
    (s.invalidate fun c => c.line == line).setWritten line false

/-- Complete one maintenance instruction. -/
def State.maintDo (s : State) (core : Nat) (m : Maint) : State :=
  m.lines.foldl (fun s l => s.maintLine core m.op m.l2 l.1 l.2) s

/-- Complete every maintenance instruction of a thread (R135). -/
def State.maintAll (s : State) (core slot tid : Nat) : State :=
  match s.thread? core slot tid with
  | none => s
  | some t =>
    if t.maint.isEmpty then s
    else (t.maint.foldl (fun s m => s.maintDo core m) s).modThread core slot tid fun t => { t with maint := [] }

/-- Whether a maintenance instruction acts on the byte at a key. -/
def Maint.covers (m : Maint) (k : Nat) : Bool := m.lines.any fun l => l.1 == k / 128 && bitAt l.2 (k % 128)

/-- A list cut behind its last element that a test accepts. -/
def cutAfterLast {α : Type} (p : α → Bool) : List α → List α × List α
  | [] => ([], [])
  | x :: r =>
    match cutAfterLast p r with
    | ([], q) => if p x then ([x], q) else ([], x :: q)
    | (a, q) => (x :: a, q)

/-- A thread's maintenance that a test selects is performed, and before it what the thread issued earlier (R135). -/
def State.maintWhere (s : State) (core slot tid : Nat) (p : Maint → Bool) : State :=
  match s.thread? core slot tid with
  | none => s
  | some t =>
    match cutAfterLast p t.maint with
    | ([], _) => s
    | (now, later) => (now.foldl (fun s m => s.maintDo core m) s).modThread core slot tid fun t => { t with maint := later }

/-- A thread accesses the bytes at some keys: its maintenance of any of them is performed before, and with it what it
issued earlier (R115, R266). -/
def State.maintFor (s : State) (core slot tid : Nat) (keys : List Nat) : State :=
  s.maintWhere core slot tid fun m => keys.any m.covers

/-- A release by a thread at a scope (R258): its loads are performed at issue, its maintenance completes, and the
dirty copies of its core and die reach the points of the scope. -/
def State.release (s : State) (core slot tid : Nat) (sc : Scope) : State :=
  (s.maintAll core slot tid).releaseCopies core sc

/-- What the marker and every departure from a warp wait for (R44, R135): outstanding results land, maintenance
completes. -/
def State.settle (s : State) (core slot tid : Nat) : State :=
  (s.maintAll core slot tid).modBlock core slot fun b => landAll b tid

/-! ## Leaving a warp (R305), the pool (R304) -/

/-- Whether a thread of a block has an `OBRD` that still waits for earlier accesses (R221). -/
def State.obWaits (s : State) (core slot tid : Nat) : Bool := (s.thread? core slot tid).any Thread.owes

/-- A thread on its way to a condition: its exit waits for what it is owed (R44). -/
def Thread.goTo (c : Cond) (t : Thread) : Thread := { t with cond := if c == .exited && t.owes then .exiting else c }

/-- Threads leave their warp for a condition, their results landed (R44); who is owed one enters the condition when that
has landed. -/
def State.leave (s : State) (core slot : Nat) (tids : List Nat) (c : Cond) : State :=
  ((tids.foldl (fun s t => s.settle core slot t) s).takeOut core slot tids).modBlock core slot fun b =>
    { b with threads := mapIf (fun t => tids.contains t.tid) (Thread.goTo c) b.threads }

/-- The pool, entered now (R304). -/
def State.poolNow (s : State) : Cond := .pool s.now false

/-- Threads enter the pool as plain threads. -/
def State.toPool (s : State) (core slot : Nat) (tids : List Nat) : State := s.leave core slot tids s.poolNow

/-- A thread parks with a reason (R305 point 4). -/
def State.park (s : State) (core slot tid : Nat) (r : Park) : State := s.leave core slot [tid] (.wings r)

/-- Whether a thread is due at a meeting address (R311). -/
def Thread.due (t : Thread) (j : Word) : Bool :=
  t.live && t.cond != .held j && (t.mr == j || (decide (t.mr.toNat < j.toNat) && decide (t.pc.toNat < j.toNat)))

/-- Release every meeting of a block at which no thread is due any more, and none on its way to be held: the held threads
enter the pool at J + 4 (R44, R313). -/
def releaseMeetings (entry : Nat) (b : Block) : Block :=
  let due := fun (j : Word) => b.threads.any fun t => t.due j || (t.cond == .held j && t.owes)
  { b with threads := b.threads.map fun t =>
      match t.cond with
      | .held j => if due j then t else { t with cond := .pool entry false, pc := j + 4 }
      | _ => t }

/-- Re-examine the meetings of the block in a slot (R313). -/
def State.meet (s : State) (core slot : Nat) : State := s.modBlock core slot (releaseMeetings s.now)

/-- Release every quad of a block whose live members are all parked for a quad meeting at one address: they enter the
pool as one unit (R217). -/
def releaseQuads (entry : Nat) (b : Block) : Block :=
  let members := fun (q : Nat) => b.threads.filter fun t => t.live && t.tid / 4 == q
  let ready := fun (q : Nat) =>
    match members q with
    | [] => false
    | t :: r => (t :: r).all fun u => u.cond == .wings .quad && u.pc == t.pc && !u.owes
  { b with threads := b.threads.map fun t =>
      if t.cond == .wings .quad && ready (t.tid / 4) then
        { t with cond := .pool entry false, quadUnit := true } else t }

/-- Re-examine the quads of the block in a slot (R217). -/
def State.meetQuads (s : State) (core slot : Nat) : State := s.modBlock core slot (releaseQuads s.now)

/-- What happens to a parked thread whose reason clears: it enters the pool, alone; a member of a bound group waits for
the others (R308, R367). -/
def wakeThread (entry : Nat) (t : Thread) : Thread :=
  { t with cond := if t.bound.isSome then .wings .cleared else .pool entry false }

/-- The reason of a parked thread clears. -/
def State.wake (s : State) (core slot tid : Nat) : State := s.modThread core slot tid (wakeThread s.now)

/-- The reasons of every parked thread that a test selects clear. -/
def State.wakeWhere (s : State) (p : Block → Thread → Park → Bool) : State :=
  { s with blocks := s.blocks.map fun b =>
      { b with threads := b.threads.map fun t =>
          match t.cond with
          | .wings r => if p b t r then wakeThread s.now t else t
          | _ => t } }

/-- Whether a waiter is registered on a word of a line (R287). -/
def State.waitedLine (s : State) (line : Nat) : Bool :=
  s.blocks.any fun b => b.threads.any fun t =>
    match t.cond with
    | .wings (.counter k ..) => k / 128 == line
    | .wings (.address sl ..) => sl.any fun w => w.key / 128 == line
    | .wings (.ringFull k ..) => k / 128 == line
    | .wings (.ringEmpty k rec ..) => k / 128 == line || rec / 128 == line
    | _ => false

/-! ### Capacity of contention tables, TLBs and instruction caches (R88, R92, R287) -/

/-- A list, the newest first, with the oldest elements of each group left out beyond a number. -/
def keepNewest {α : Type} (same : α → α → Bool) (cap : Nat) (l : List α) : List α :=
  l.foldl (fun a x => if (a.filter (same x)).length < cap then a ++ [x] else a) []

/-- A list without the first `n` elements that satisfy a test. -/
def dropWhere {α : Type} (p : α → Bool) : Nat → List α → List α
  | 0, l => l
  | _, [] => []
  | n + 1, x :: r => if p x then dropWhere p n r else x :: dropWhere p (n + 1) r

/-- Keep each home slice's contention table within its 1,024 lines: the least recently used without a waiter leave
(R287). -/
def State.trimContended (s : State) : State :=
  if s.contended.length ≤ 1024 then s
  else
    let slice := fun (line : Nat) => homeDie (line * 128) * 32 + homeSlice (line * 128)
    let slices := s.contended.map slice
    ((List.range 128).filter fun i => decide (1024 < slices.count i)).foldl (fun s i =>
      { s with contended :=
          (dropWhere (fun line => slice line == i && !(s.waitedLine line)) (slices.count i - 1024)
            s.contended.reverse).reverse }) s

/-- Keep each core's L1 TLB within 512 entries, each die's shared TLB within 16,384 (R88) and each core's instruction cache
within 128 KiB, 2,048 blocks (R92): the oldest leave (log entry 7). -/
def State.trimTlbs (s : State) : State :=
  { s with
    tlb :=
      if s.tlb.length ≤ 512 then s.tlb
      else
        let l1 := keepNewest (fun (a b : TlbEntry) => a.core.isSome && a.core == b.core) 512 s.tlb
        if l1.length ≤ 16384 then l1
        else keepNewest (fun (a b : TlbEntry) => a.core.isNone && b.core.isNone && a.die == b.die) 16384 l1
    icache :=
      if s.icache.length ≤ 2048 then s.icache
      else keepNewest (fun (a b : IBlock) => a.core == b.core) 2048 s.icache }

/-- What every cache of the package holds beyond its capacity leaves (R88, R92, R98, R287). -/
def State.trim (s : State) : State := s.trimL1.trimL2.trimContended.trimTlbs

/-- Set scratchpad lines full; their parked readers resume (R107). -/
def State.setFull (s : State) (lines : List Nat) : State :=
  ({ s with emptyLines := s.emptyLines.filter fun l => !(lines.contains l) } : State).wakeWhere fun _ _ r =>
    match r with
    | .emptyLine l => lines.contains l
    | _ => false

/-- Set scratchpad lines empty (R107). -/
def State.setEmpty (s : State) (lines : List Nat) : State :=
  { s with emptyLines := lines.foldl (fun l x => insNat x l) s.emptyLines }

/-- A debug step ends once each of its warps has issued (R324): BUSY clears. -/
def State.debugDone (s : State) : State :=
  if !(s.priv.dbgstep.getLsbD 63) || s.warps.any (·.debug) || !s.steps.isEmpty then s
  else
    { s with
      priv := { s.priv with dbgstep := s.priv.dbgstep &&& 0x7FFFFFFFFFFFFFFF }
      blocks := s.blocks.map fun b => { b with threads := b.threads.map fun t => { t with stepping := false } } }

/-! ## Taking a trap (R355 to R360, R368)

One operation for every exception of the machine: what the trap saves, where the thread goes, and which record is
made. -/

/-- An illegal-instruction trap with a subcode (R58). -/
def illegal (sub : Nat) : Trap := { cls := 2, cause := sub }
/-- An alignment trap (R112, R38). -/
def misaligned (va : Nat) : Trap := { cls := 1, va := va }

/-- Whether a user handler may take a trap (R368). -/
def Trap.deliverable (t : Trap) : Bool :=
  t.cls == 1 || t.cls == 2 || t.cls == 3 || t.cls == 4 || t.cls == 7 ||
    (t.cls == 0 && (t.cause == 2 || t.cause == 5 || t.cause == 6))

/-- Record bits [55:36] of a trap (R357, R368): CLASS to CONT. -/
def Trap.bits (t : Trap) (bound nest : Bool) : Nat :=
  t.cls + t.cause * 16 + bit01 t.fetch * 256 + bit01 t.noncanon * 512 + bit01 t.malf * 1024 + t.level * 2048 +
    bit01 t.write * 8192 + bit01 bound * 16384 + bit01 nest * 32768

/-- Whether a thread of a block takes a deliverable trap in its own handler (R368). -/
def toHandler (b : Block) (t : Thread) (tr : Trap) : Bool :=
  tr.deliverable && b.trapv.getLsbD 0 && !t.handler && decide (t.wb.toNat + 120 ≤ b.nregs)

/-- What delivery does to a thread (R368): x116 and x117 save the pc and the record bits, the pair x118 the VA or the
code, the handler flag is set, and the pc goes to `TRAPV`.VEC times 64. -/
def deliverTo (b : Block) (pc : Word) (bound : Bool) (tr : Trap) (t : Thread) : Thread :=
  let v := if tr.cls = 0 ∨ tr.cls = 1 ∨ tr.cls = 4 then tr.va else if tr.cls = 7 then tr.aux else 0
  { t with
    regs := putRegs t.regs (t.wb.toNat + 116)
      [pc, BitVec.ofNat 32 (tr.bits bound false), BitVec.ofNat 32 v, BitVec.ofNat 32 (v / 4294967296)]
    badRegs := t.badRegs.filter fun p => p != (t.wb.toNat + 116) / 2 && p != (t.wb.toNat + 118) / 2
    handler := true
    bound := none
    ring := none
    pc := b.trapv &&& 0xFFFFFFC0 }

/-- The next fault identifier: 32 bits, the counter passing over those of pending records (R357; log entry 13). -/
def State.newFid (s : State) : Nat :=
  (((List.range (s.pending.length + 1)).map fun i => (s.nextFid + i) % 4294967296).find? fun f =>
    !(s.pending.any fun p => p.fr.fid == f)).getD (s.nextFid % 4294967296)

/-- Take the next fault identifier. -/
def State.takeFid (s : State) : Nat × State := (s.newFid, { s with nextFid := (s.newFid + 1) % 4294967296 })

/-- Whether a record goes to the Stagehand (R360). -/
def FRec.flash (r : FRec) : Bool := r.cls == 0 && r.cause == 1 && decide (r.kind ≤ 1)

/-- Some records as one batch: the last of them ends it (R365). -/
def asBatch : List FRec → List (FRec × Bool)
  | [] => []
  | [r] => [(r, true)]
  | r :: l => (r, false) :: asBatch l

/-- Deterministic mode could not keep a rule of R405: DIVERGED is set. -/
def State.diverge (s : State) : State :=
  if s.mgmt.detmode.getLsbD 63 then
    { s with mgmt := { s.mgmt with detmode := s.mgmt.detmode ||| 0x2000000000000000 } }
  else s

/-- Send the batch of a core to the I/O die (R359, R360): flash-backed records to the Stagehand, the others to the
queue of the fault ring, which holds 4,096; while it has no room, they stay in the batch (R365). -/
def State.sendBatch (s : State) (core : Nat) : State :=
  let mine := (s.batch.filter fun p => p.1 == core).map (·.2)
  let host := mine.filter fun r => !r.flash
  let room := decide (s.ioq.length + host.length ≤ 4096)
  { s with
    batch := s.batch.filter fun p => p.1 != core || (!room && !p.2.flash)
    stageq := s.stageq ++ mine.filter FRec.flash
    ioq := s.ioq ++ (if room then asBatch host else []) }

/-- Put a record into a core's batch; the sixteenth sends it (R359). -/
def State.toBatch (s : State) (core : Nat) (r : FRec) : State :=
  let s := { s with batch := s.batch ++ [(core, r)] }
  if 16 ≤ (s.batch.filter fun p => p.1 == core).length then s.sendBatch core else s

/-- Put an event straight on the way to the owner host's fault ring (R360). Where the queue of 4,096 is full, an event of
the I/O die, and a record that the Stagehand gives back (R362), stand in it all the same, behind the others: the manual
gives no other place, and no record is dropped (R365, log entry 74, DESIGN CHOICE). -/
def State.event (s : State) (r : FRec) : State :=
  let (fid, s) := s.takeFid
  let s := { s with ioq := s.ioq ++ [({ r with fid := fid, time := s.ns }, true)] }
  if r.kind = 4 then s.diverge else s

/-- A list of pages, ascending, cut into what one record can list: 32 pages, none more than 32,767 from the first
(R358). -/
def pageRun (base : Nat) : Nat → List Nat → List Nat
  | 0, _ => []
  | _, [] => []
  | n + 1, p :: r => if p ≤ base + 32767 then p :: pageRun base n r else []

/-- Make the records of one (class, cause) of a warp instruction (R357 to R359): one, and further ones with CONT for
pages that do not fit. `ms` holds lane, TID and trap of each member; `fuel` bounds the further records. NEST, like VA,
is that of the lowest TID (log entry 64, DESIGN CHOICE). -/
def State.recordGroup (s : State) (b : Block) (pc : Word) (bound : Bool) :
    Nat → Bool → List (Nat × Nat × Trap) → State
  | 0, _, _ => s
  | _, _, [] => s
  | fuel + 1, cont, ms@((_, _, t0) :: _) =>
    let trans := t0.cls == 0
    let all := ms.foldl (fun l m => insNat (m.2.2.va / 65536) l) []
    let pages := if trans then pageRun (all.headD 0) 32 all else []
    let here := ms.filter fun m => !trans || pages.contains (m.2.2.va / 65536)
    let rest := ms.filter fun m => trans && !(pages.contains (m.2.2.va / 65536))
    let (fid, s) := s.takeFid
    let low := here.foldl (fun a m => Nat.min a m.2.1) 4096
    let lead := (here.find? fun m => m.2.1 == low).map (·.2.2)
    let nest := ((b.thread? low).map (·.handler)).getD false
    let tr := lead.getD t0
    let r : FRec :=
      { fid := fid, kind := 0, cls := t0.cls, cause := t0.cause, fetch := tr.fetch, noncanon := tr.noncanon,
        malf := tr.malf, level := tr.level, write := tr.write, bound := bound, nest := nest, cont := cont,
        core := b.core, bslot := b.slot, asid := b.asid, pc := pc.toNat,
        lanemask := here.foldl (fun a m => a ||| 2 ^ m.1) 0, tid0 := low, bid := b.bid.toNat, va := tr.va,
        aux := tr.aux, time := s.ns, pages := pages }
    let tids := here.map (·.2.1)
    let hits := here.map fun m => (m.1, m.2.2.va)
    let s := { s with pending := s.pending ++ [({ fr := r, launch := b.launch, tids := tids, hits := hits } : PendRec)] }
    let parked := if t0.cls = 5 then Park.debug (some fid) else Park.fault (some fid)
    let s := s.modBlock b.core b.slot fun b =>
      { b with threads := mapIf (fun t => tids.contains t.tid) (fun t => { t with cond := .wings parked }) b.threads }
    (s.toBatch b.core r).recordGroup b pc bound fuel true rest

/-- The traps of one class and cause among the members. -/
def sameKind (k : Nat × Nat) (m : Nat × Nat × Trap) : Bool := m.2.2.cls == k.1 && m.2.2.cause == k.2

/-- Take the traps of one warp instruction (R356): each member (lane, TID, trap) lands its results and leaves its warp;
those whose trap goes to a user handler enter the pool there (R368), once what they are owed has landed, the others park
with reason "fault", or in a debug halt for a breakpoint, with one record for each class and cause (R359). With `bound`, the members park as a
bound group (R308). -/
def State.takeTraps (s : State) (core slot : Nat) (pc : Word) (bound : Bool) (ms : List (Nat × Nat × Trap)) : State :=
  if ms.isEmpty then s else
  let tids := ms.map (·.2.1)
  let s := s.leave core slot tids (.wings (.fault none))
  match s.block? core slot with
  | none => s
  | some b =>
    let goes := fun (m : Nat × Nat × Trap) =>
      match b.thread? m.2.1 with
      | some t => toHandler b t m.2.2
      | none => false
    let dl := ms.filter goes
    let rc := ms.filter fun m => !(goes m)
    let group := if bound && dl.isEmpty then some b.nextBound else none
    let lane := fun tid => ((ms.find? fun m => m.2.1 == tid).map (·.1)).getD 0
    let s := s.modBlock core slot fun b =>
      { b with
        nextBound := b.nextBound + 1
        threads := b.threads.map fun t =>
          match dl.find? fun m => m.2.1 == t.tid with
          | some m =>
            if t.owes then { t with cond := s.poolNow, bound := none, owed := some (pc, bound, m.2.2) }
            else { deliverTo b pc bound m.2.2 t with cond := s.poolNow }
          | none => if tids.contains t.tid then { t with bound := group, homeLane := lane t.tid } else t }
    let kinds := (rc.map fun m => (m.2.2.cls, m.2.2.cause)).eraseDups
    let s := kinds.foldl (fun s k => s.recordGroup b pc group.isSome 33 false (rc.filter (sameKind k))) s
    s.meet core slot

/-- Return from a user trap handler (R372): the handler flag is cleared and the thread goes on at the target. -/
def returnTo (target : Word) (t : Thread) : Thread := { t with handler := false, pc := target }

end Sys2Proof.Machine
end

