-- ==== Sys2Proof/Machine/Operands.lean ====
section
/-!
DEFINITION. Operands.lean: how an instruction reads and writes its operands on each active thread (R41, R45 to R49,
R186), and the ways an instruction acts on the threads of its warp.
-/
namespace Sys2Proof.Machine

/-- An active thread as an instruction sees it: its lane, itself, its block, and `CYC`[31:0] at issue. -/
structure LaneCtx where
  lane : Nat
  t : Thread
  b : Block
  cyc : Nat
deriving DecidableEq, Repr

/-- X(code): the value of a source field code (R45). -/
def LaneCtx.x (c : LaneCtx) (code : Nat) : Word :=
  if code < 120 then c.t.regs.getD (c.t.wb.toNat + code) 0
  else match code with
    | 120 => BitVec.ofNat 32 c.t.tid
    | 121 => BitVec.ofNat 32 c.lane
    | 122 => BitVec.ofNat 32 (c.t.tid / 4)
    | 123 => c.b.bid
    | 124 => BitVec.ofNat 32 c.b.die
    | 125 => BitVec.ofNat 32 c.cyc
    | _ => 0

/-- X(code) as a natural number. -/
def LaneCtx.n (c : LaneCtx) (code : Nat) : Nat := (c.x code).toNat
/-- X(code) as a two's-complement integer. -/
def LaneCtx.i (c : LaneCtx) (code : Nat) : Int := (c.x code).toInt
/-- The pair that a code names (R47); `zr` reads 0. -/
def LaneCtx.pair (c : LaneCtx) (code : Nat) : Nat :=
  if code = 127 then 0 else c.n code + 4294967296 * c.n (code + 1)
/-- The quadruple that a code names (R47); `zr` reads 0. -/
def LaneCtx.quad (c : LaneCtx) (code : Nat) : Nat :=
  if code = 127 then 0 else c.pair code + 18446744073709551616 * c.pair (code + 2)
/-- The registers of a group, the lowest first. -/
def LaneCtx.group (c : LaneCtx) (code n : Nat) : List Word := (List.range n).map fun i => c.x (code + i)

/-- A predicate as a source: `pt` (7) reads true (R49). -/
def Thread.pred (t : Thread) (p : Nat) : Bool := if p = 7 then true else t.preds.getLsbD p
/-- A predicate as a destination: `pt` discards (R49). -/
def Thread.setPred (t : Thread) (p : Nat) (v : Bool) : Thread :=
  if p < 7 then { t with preds := if v then t.preds ||| (1#7 <<< p) else t.preds &&& ~~~ (1#7 <<< p) } else t
/-- The guard {N, P} of R41. -/
def Thread.guard (t : Thread) (n : Bool) (p : Nat) : Bool := t.pred p != n

/-- D := v; `zr` discards (R45). -/
def Thread.setX (t : Thread) (code : Nat) (v : Word) : Thread :=
  if code < 120 then { t with regs := t.regs.set (t.wb.toNat + code) v } else t
/-- D := a natural number, modulo 2^32. -/
def Thread.setN (t : Thread) (code v : Nat) : Thread := t.setX code (BitVec.ofNat 32 v)
/-- A number as `n` words, the lowest first. -/
def wordsOf : Nat → Nat → List Word
  | 0, _ => []
  | n + 1, v => BitVec.ofNat 32 v :: wordsOf n (v / 4294967296)
/-- Consecutive registers from D on; `zr` discards. -/
def Thread.setGroup (t : Thread) (code : Nat) (vs : List Word) : Thread :=
  if code < 120 then { t with regs := putRegs t.regs (t.wb.toNat + code) vs } else t
/-- Pair D := v, modulo 2^64; `zr` discards (R47). -/
def Thread.setPair (t : Thread) (code v : Nat) : Thread := t.setGroup code (wordsOf 2 v)
/-- A variable-latency write of consecutive registers from D on: it lands later in the registers named now (R42). -/
def Thread.later (t : Thread) (code : Nat) (vs : List Word) : Thread :=
  if code < 120 then { t with pend := t.pend ++ [.regs (t.wb.toNat + code) vs] } else t
/-- The sign-extended value of a field of `w` bits (R34). -/
def sextN (w v : Nat) : Int := toSigned w v
/-- The signed byte offset of an optional M or MG prefix (R34). -/
def offImm (off : Option Nat) : Int :=
  match off with
  | none => 0
  | some v => sextN 24 v
/-- The immediate of an RI word (R34), as a 32-bit pattern. -/
def riImm (p : Option Nat) (r : RI) : Word :=
  match p with
  | none => BitVec.ofInt 32 (sextN 10 r.imm)
  | some v => BitVec.ofNat 32 (v % 4194304 * 1024 + r.imm)
/-- The immediate of an RL word (R34), as a 32-bit pattern. -/
def rlImm (p : Option Nat) (r : RL) : Word :=
  match p with
  | none => BitVec.ofInt 32 (sextN 17 r.imm)
  | some v => BitVec.ofNat 32 (v % 32768 * 131072 + r.imm)

/-! ## The active threads -/

/-- `CYC` of the die of a core (R25). -/
def State.cycOf (s : State) (die : Nat) : Nat := s.cyc.getD die 0

/-- The active threads of the executing instruction, ascending TID. -/
def State.lanes (s : State) : List LaneCtx :=
  match s.cur with
  | none => []
  | some c =>
    match s.block? c.core c.slot with
    | none => []
    | some b => c.act.filterMap fun (l, tid) => (b.thread? tid).map fun t =>
        { lane := l, t := t, b := b, cyc := s.cycOf b.die }

/-- One active thread again, as the state now has it. -/
def State.lane? (s : State) (c : Cur) (m : Nat × Nat) : Option LaneCtx :=
  match s.block? c.core c.slot with
  | none => none
  | some b => (b.thread? m.2).map fun t => { lane := m.1, t := t, b := b, cyc := s.cycOf b.die }

/-- The pc after the executing instruction. -/
def Cur.nextPc (c : Cur) : Word := c.pc + BitVec.ofNat 32 c.len

/-- What an instruction makes of one thread of its block: a thread that executes becomes what `f` says, with its pc past
the instruction; a thread that does not execute, or that `good` turns away, stays. -/
def Cur.onThread (c : Cur) (b : Block) (cyc : Nat) (good : LaneCtx → Bool) (f : LaneCtx → Thread) (t : Thread) :
    Thread :=
  match c.act.find? fun m => m.2 == t.tid with
  | some m =>
    let l : LaneCtx := { lane := m.1, t := t, b := b, cyc := cyc }
    if good l then { f l with pc := c.nextPc } else t
  | none => t

/-- Change the active threads that a test admits and move their pc past the executing instruction; the others, which
trap, keep everything (R356). Every source is read before any result is written (R186). -/
def State.vecOf (s : State) (good : LaneCtx → Bool) (f : LaneCtx → Thread) : State :=
  match s.cur with
  | none => s
  | some c =>
    s.modBlock c.core c.slot fun b => { b with threads := b.threads.map (c.onThread b (s.cycOf b.die) good f) }

/-- Act on each active thread alone, and the pc passes the instruction. -/
def State.vec (s : State) (f : LaneCtx → Thread) : State := s.vecOf (fun _ => true) f

/-- Move the pc of some threads past the executing instruction. -/
def State.advance (s : State) (tids : List Nat) : State :=
  match s.cur with
  | none => s
  | some c =>
    s.modBlock c.core c.slot fun b =>
      { b with threads := mapIf (fun t => tids.contains t.tid) (fun t => { t with pc := c.nextPc }) b.threads }

/-- Move the pc of every active thread past the executing instruction. -/
def State.advanceAll (s : State) : State :=
  match s.cur with
  | none => s
  | some c => s.advance (c.act.map (·.2))

/-- Act on the active threads one after another, in ascending TID (R115, R283). -/
def State.eachLane (s : State) (f : State → Cur → LaneCtx → State) : State :=
  match s.cur with
  | none => s
  | some c => c.act.foldl (fun s m =>
      match s.lane? c m with
      | some l => f s c l
      | none => s) s

/-- Take the traps of some active threads of the executing instruction. -/
def State.trapLanes (s : State) (ms : List (Nat × Nat × Trap)) : State :=
  match s.cur with
  | none => s
  | some c => s.takeTraps c.core c.slot c.pc false ms

/-- Act on the active threads one after another, in ascending TID, each of which may trap (R115, R283); the traps are
taken together, so that the instruction makes one record for each class and cause (R359). A launch that one of them kills
acts no further (R105, R382). -/
def State.eachOrTrap (s : State) (f : State → Cur → LaneCtx → State × Option Trap) : State :=
  match s.cur with
  | none => s
  | some c =>
    let r := c.act.foldl (fun (a : State × List (Nat × Nat × Trap)) m =>
      match a.1.lane? c m with
      | none => a
      | some l =>
        if l.t.cond == .exited then a else
        match f a.1 c l with
        | (s, none) => (s, a.2)
        | (s, some t) => (s, a.2 ++ [(m.1, m.2, t)])) (s, [])
    r.1.trapLanes (r.2.filter fun m => (r.1.thread? c.core c.slot m.2.1).any Thread.live)

/-- Take a trap on every thread of the executing warp: a full warp parks as a bound group (R213, R226, R308). -/
def State.trapWarp (s : State) (tr : Trap) : State :=
  match s.cur with
  | none => s
  | some c => s.takeTraps c.core c.slot c.pc c.full (c.act.map fun m => (m.1, m.2, tr))

/-- Whether the executing instruction comes from the lowest-TID active thread: that thread (R49). -/
def State.firstLane (s : State) : Option LaneCtx := s.lanes.head?

/-- A bit of `BSTAT` set by the device (R52). -/
def State.setBstat (s : State) (core slot bit : Nat) : State :=
  s.modBlock core slot fun b => { b with bstat := b.bstat ||| (1#32 <<< bit) }

end Sys2Proof.Machine
end

