-- ==== Sys2Proof/Machine/Flags.lean ====
section
/-!
DEFINITION. Flags.lean: the sticky flags of `FPCTL` (R51) and the rounding direction an instruction uses (R35, R167).
-/
namespace Sys2Proof.Machine

/-- The flags one operation raises (R168). -/
structure Fl where
  nv : Bool := false
  of : Bool := false
  uf : Bool := false
  nx : Bool := false
deriving DecidableEq, Repr

/-- The flags of two operations together. -/
def Fl.or (a b : Fl) : Fl := { nv := a.nv || b.nv, of := a.of || b.of, uf := a.uf || b.uf, nx := a.nx || b.nx }

/-- The flags in their places of `FPCTL`: NX 7, UF 6, OF 5, NV 4 (R51). -/
def Fl.word (f : Fl) : Word :=
  BitVec.ofNat 32 (bit01 f.nx * 128 + bit01 f.uf * 64 + bit01 f.of * 32 + bit01 f.nv * 16)

/-- Raise flags on a thread: they are sticky (R51). -/
def Thread.raise (t : Thread) (f : Fl) : Thread := { t with fpctl := t.fpctl ||| f.word }

/-- Raise NV when a clamp changed a value. -/
def Thread.raiseNV (t : Thread) (b : Bool) : Thread := t.raise { nv := b }

/-- The rounding directions (R167). -/
inductive RMode where | rne | rz | ru | rd
deriving DecidableEq, Repr

/-- The direction in `FPCTL`.RM (R51). -/
def Thread.rmode (t : Thread) : RMode :=
  match t.fpctl.toNat % 4 with
  | 0 => .rne
  | 1 => .rz
  | 2 => .ru
  | _ => .rd

/-- The direction of an instruction: the prefix's, or `FPCTL`.RM (R35). -/
def rmodeOf (t : Thread) (p : RPfx) : RMode :=
  match p.rm with
  | 1 => .rne
  | 2 => .rz
  | 3 => .ru
  | 4 => .rd
  | _ => t.rmode

end Sys2Proof.Machine
end

