-- ==== Sys2Proof/Machine/Float.lean ====
section
/-!
DEFINITION. Float.lean: the floating-point formats and exact arithmetic on them (R163 to R172, R184): a finite value is
a sign, a natural number and a power of two; every result is computed exactly and rounded once.
-/
namespace Sys2Proof.Machine

/-- A floating-point format (R163): fraction bits, bias, the encoding of the largest finite value, the encoding of
infinity where there is one, the canonical NaN, the width. -/
structure Fmt where
  frac : Nat
  bias : Nat
  top : Nat
  inf : Option Nat
  nan : Nat
  width : Nat
deriving DecidableEq, Repr

/-- FP32. -/
def f32 : Fmt := { frac := 23, bias := 127, top := 0x7F7FFFFF, inf := some 0x7F800000, nan := 0x7FC00000, width := 32 }
/-- FP16. -/
def fp16 : Fmt := { frac := 10, bias := 15, top := 0x7BFF, inf := some 0x7C00, nan := 0x7E00, width := 16 }
/-- BF16. -/
def bf16 : Fmt := { frac := 7, bias := 127, top := 0x7F7F, inf := some 0x7F80, nan := 0x7FC0, width := 16 }
/-- E4M3: no infinity, one NaN for each sign. -/
def e4m3 : Fmt := { frac := 3, bias := 7, top := 0x7E, inf := none, nan := 0x7F, width := 8 }
/-- E5M2. -/
def e5m2 : Fmt := { frac := 2, bias := 15, top := 0x7B, inf := some 0x7C, nan := 0x7E, width := 8 }

/-- A value: NaN, an infinity, or (-1)^neg × m × 2^e exactly; a zero keeps its sign. -/
inductive FV where
  | nan
  | inf (neg : Bool)
  | fin (neg : Bool) (m : Nat) (e : Int)
deriving DecidableEq, Repr

/-- The sign bit's weight. -/
def Fmt.signW (f : Fmt) : Nat := 2 ^ (f.width - 1)

/-- The value of an encoding (R163, R165). -/
def Fmt.val (f : Fmt) (v : Nat) : FV :=
  let neg := v / f.signW % 2 == 1
  let a := v % f.signW
  if f.top < a then (if f.inf = some a then .inf neg else .nan)
  else
    let e := a / 2 ^ f.frac
    let m := a % 2 ^ f.frac
    if e = 0 then .fin neg m (1 - (f.bias : Int) - f.frac) else .fin neg (m + 2 ^ f.frac) ((e : Int) - f.bias - f.frac)

/-- The number of bits of a natural number. -/
def bitLen (m : Nat) : Nat := if m = 0 then 0 else Nat.log2 m + 1

/-- m × 2^e rounded to a multiple of 2^q in a direction: the multiple, and whether it is inexact (R167). -/
def roundAt (mode : RMode) (neg : Bool) (m : Nat) (e q : Int) : Nat × Bool :=
  if q ≤ e then (m * 2 ^ (e - q).toNat, false)
  else
    let d := (q - e).toNat
    let lo := m / 2 ^ d
    let r := m % 2 ^ d
    let up := match mode with
      | .rne => decide (2 ^ d < 2 * r) || (2 * r == 2 ^ d && lo % 2 == 1)
      | .rz => false
      | .ru => r != 0 && !neg
      | .rd => r != 0 && neg
    (if up then lo + 1 else lo, r != 0)

/-- What a finite value beyond the largest finite one becomes (R169): `sat` for E4M3 and for E5M2 with `.sat`. -/
def Fmt.over (f : Fmt) (mode : RMode) (neg sat : Bool) : Nat :=
  match f.inf with
  | none => f.top
  | some i =>
    if sat then f.top
    else match mode with
      | .rne => i
      | .rz => f.top
      | .ru => if neg then f.top else i
      | .rd => if neg then i else f.top

/-- Round a nonzero finite value to a format, with its flags (R167 to R169). -/
def Fmt.roundFin (f : Fmt) (mode : RMode) (sat neg : Bool) (m : Nat) (e : Int) : Nat × Fl :=
  let lead : Int := (bitLen m : Int) - 1 + e
  let emin : Int := 1 - f.bias
  let q := (if lead < emin then emin else lead) - f.frac
  let (n, nx) := roundAt mode neg m e q
  let (u, _) := roundAt mode neg m e (lead - f.frac)
  let tiny := decide (lead < emin) && !(decide (u = 2 ^ (f.frac + 1)) && decide (lead + 1 = emin))
  let a : Int := (q + f.frac + f.bias - 1) * (2 ^ f.frac : Nat) + n
  let s := if neg then f.signW else 0
  if (f.top : Int) < a then (s + f.over mode neg sat, { of := true, nx := true })
  else (s + a.toNat, { nx := nx, uf := nx && tiny })

/-- Round a value to a format, with its flags; `sat` selects the saturating E5M2 (R169). -/
def Fmt.round (f : Fmt) (mode : RMode) (sat : Bool) (v : FV) : Nat × Fl :=
  match v with
  | .nan => (f.nan, {})
  | .inf neg =>
    let s := if neg then f.signW else 0
    match f.inf with
    | none => (s + f.top, { nv := true })
    | some i => if sat then (s + f.top, { nv := true }) else (s + i, {})
  | .fin neg m e => if m = 0 then (if neg then f.signW else 0, {}) else f.roundFin mode sat neg m e

/-- The integer (-1)^neg × m scaled to the exponent `e0`, not above `e`. -/
def scaled (neg : Bool) (m : Nat) (e e0 : Int) : Int :=
  let v : Int := ((m * 2 ^ (e - e0).toNat : Nat) : Int)
  if neg then -v else v

/-- The exact sum of finite values as an integer times a power of two. -/
def sumFin : List (Bool × Nat × Int) → Int × Int
  | [] => (0, 0)
  | (neg, m, e) :: r =>
    let (s, es) := sumFin r
    if s = 0 ∧ r.all (fun x => x.2.1 == 0) then (scaled neg m e e, e)
    else
      let e0 := if e < es then e else es
      (scaled neg m e e0 + s * ((2 ^ (es - e0).toNat : Nat) : Int), e0)

/-- The finite values of a list. -/
def finsOf (l : List FV) : List (Bool × Nat × Int) :=
  l.filterMap fun v => match v with | .fin n m e => some (n, m, e) | _ => none

/-- The exact sum of some values and whether it is invalid (∞ − ∞); an exactly zero sum has the sign of R164. -/
def sumOf (mode : RMode) (l : List FV) : FV × Bool :=
  let pos := l.contains (.inf false)
  let neg := l.contains (.inf true)
  let inv := pos && neg
  if l.contains .nan || inv then (.nan, inv)
  else if pos then (.inf false, false)
  else if neg then (.inf true, false)
  else
    let fs := finsOf l
    let (v, e) := sumFin fs
    if v = 0 then
      let allNeg := fs.all fun x => x.1 && x.2.1 == 0
      let allPos := fs.all fun x => !x.1 && x.2.1 == 0
      (.fin (if allNeg then true else if allPos then false else mode == .rd) 0 0, false)
    else (.fin (decide (v < 0)) v.natAbs e, false)

/-- The exact product and whether it is invalid (0 × ∞). -/
def mulOf (a b : FV) : FV × Bool :=
  match a, b with
  | .nan, _ => (.nan, false)
  | _, .nan => (.nan, false)
  | .inf s, .inf t => (.inf (s != t), false)
  | .inf s, .fin t m _ => if m = 0 then (.nan, true) else (.inf (s != t), false)
  | .fin s m _, .inf t => if m = 0 then (.nan, true) else (.inf (s != t), false)
  | .fin s m e, .fin t n g => (.fin (s != t) (m * n) (e + g), false)

/-- The other sign. -/
def FV.negate : FV → FV
  | .nan => .nan
  | .inf n => .inf (!n)
  | .fin n m e => .fin (!n) m e

/-- a × b + c exactly, and whether it is invalid (R168: 0 × ∞ even when the addend is a NaN). -/
def fmaOf (mode : RMode) (a b c : FV) : FV × Bool :=
  let (p, i) := mulOf a b
  let (s, j) := sumOf mode [p, c]
  (s, i || j)

/-- Whether a value is negative infinity, zero or so in the order of two finite or infinite values: a < b. -/
def FV.lt (a b : FV) : Bool :=
  match a, b with
  | .nan, _ => false
  | _, .nan => false
  | .inf n, .inf k => n && !k
  | .inf n, .fin .. => n
  | .fin .., .inf k => !k
  | .fin s m e, .fin t n g =>
    let e0 := if e < g then e else g
    decide (scaled s m e e0 < scaled t n g e0)

/-- Whether a value is a zero. -/
def FV.isZero : FV → Bool
  | .fin _ m _ => m == 0
  | _ => false

/-- Ordered equality; zeros of both signs are equal. -/
def FV.eq (a b : FV) : Bool := a != .nan && b != .nan && !(a.lt b) && !(b.lt a)

/-- Whether a value has its sign set. -/
def FV.neg : FV → Bool
  | .nan => false
  | .inf n => n
  | .fin n _ _ => n

/-- a orders below b where −0.0 lies below +0.0 (R203). -/
def FV.below (a b : FV) : Bool := a.lt b || (a.isZero && b.isZero && a.neg && !b.neg)

/-- The smaller operand, or the one that is no NaN (R203): on encodings of a format. -/
def Fmt.min (f : Fmt) (a b : Nat) : Nat :=
  match f.val a, f.val b with
  | .nan, .nan => f.nan
  | .nan, _ => b
  | _, .nan => a
  | x, y => if y.below x then b else a

/-- The larger operand, or the one that is no NaN (R203). -/
def Fmt.max (f : Fmt) (a b : Nat) : Nat :=
  match f.val a, f.val b with
  | .nan, .nan => f.nan
  | .nan, _ => b
  | _, .nan => a
  | x, y => if x.below y then b else a

/-- A quotient of naturals with `k` more bits than the divisor's, the lowest bit sticky: value × 2^(returned power). -/
def divSticky (m n : Nat) : Nat × Int :=
  let k := bitLen n + 80
  let a := m * 2 ^ k
  (2 * (a / n) + (if a % n = 0 then 0 else 1), -(k : Int) - 1)

/-- a / b: the value up to a sticky bit, and whether it is invalid (R202, R184). -/
def divOf (a b : FV) : FV × Bool :=
  match a, b with
  | .nan, _ => (.nan, false)
  | _, .nan => (.nan, false)
  | .inf _, .inf _ => (.nan, true)
  | .inf s, .fin t _ _ => (.inf (s != t), false)
  | .fin s _ _, .inf t => (.fin (s != t) 0 0, false)
  | .fin s m e, .fin t n g =>
    if n = 0 then (if m = 0 then (.nan, true) else (.inf (s != t), false))
    else if m = 0 then (.fin (s != t) 0 0, false)
    else
      let (q, k) := divSticky m n
      (.fin (s != t) q (k + e - g), false)

/-- The integer square root by bits: `r` so far, trying from bit `k` down. -/
def isqrtFrom (m : Nat) : Nat → Nat → Nat
  | 0, r => r
  | k + 1, r => if (r + 2 ^ k) * (r + 2 ^ k) ≤ m then isqrtFrom m k (r + 2 ^ k) else isqrtFrom m k r

/-- The floor of a square root. -/
def isqrt (m : Nat) : Nat := isqrtFrom m (bitLen m / 2 + 1) 0

/-- m × 2^e under a square root, up to a sticky bit. -/
def sqrtSticky (m : Nat) (e : Int) : Nat × Int :=
  let odd := e % 2 ≠ 0
  let m := (if odd then 2 * m else m) * 2 ^ 120
  let e := (if odd then e - 1 else e) / 2 - 60
  let r := isqrt m
  (2 * r + (if r * r = m then 0 else 1), e - 1)

/-- √a and whether it is invalid (R184, R202). -/
def sqrtOf (a : FV) : FV × Bool :=
  match a with
  | .nan => (.nan, false)
  | .inf n => if n then (.nan, true) else (.inf false, false)
  | .fin n m e =>
    if m = 0 then (a, false)
    else if n then (.nan, true)
    else
      let (r, k) := sqrtSticky m e
      (.fin false r k, false)

/-- A value rounded to an integer in a direction, and whether it was none (R170, R206). -/
def toInt (mode : RMode) (neg : Bool) (m : Nat) (e : Int) : Int × Bool :=
  let (n, nx) := roundAt mode neg m e 0
  (if neg then -(n : Int) else (n : Int), nx)

/-- A value as an integer of a type (R170), with its flags. -/
def FV.asInt (mode : RMode) (lo hi : Int) (v : FV) : Int × Fl :=
  match v with
  | .nan => (0, { nv := true })
  | .inf n => (if n then lo else hi, { nv := true })
  | .fin n m e =>
    let (i, nx) := toInt mode n m e
    if i < lo then (lo, { nv := true })
    else if hi < i then (hi, { nv := true })
    else (i, { nx := nx })

/-- An integer as a value (R171). -/
def ofInt (i : Int) : FV := .fin (decide (i < 0)) i.natAbs 0

/-! ## The approximate functions (R184, R185)

Each is enclosed to far below an ulp in fixed point with `fxp` fractional bits; the hardware's own value stands if it
lies within the bound of R184, else the enclosure's value rounded to nearest stands. -/

/-- Fractional bits of the fixed point. -/
def fxp : Nat := 512
/-- One in fixed point. -/
def fxOne : Nat := 2 ^ fxp

/-- Terms of a power series: `t` is the current term, `z` the multiplier, `den` the divisor of step `k`. -/
def series (z : Nat) (den : Nat → Nat) : Nat → Nat → Nat → Nat
  | 0, _, _ => 0
  | n + 1, k, t => t + series z den n (k + 1) (t * z / fxOne / den k)

/-- Natural logarithm of 2 in fixed point: Σ 2 / ((2k + 1) 3^(2k + 1)). -/
def atanhSeries (z2 : Nat) : Nat → Nat → Nat → Nat
  | 0, _, _ => 0
  | n + 1, k, p => p / (2 * k + 1) + atanhSeries z2 n (k + 1) (p * z2 / fxOne)
/-- ln((1 + z) / (1 - z)) for a fixed-point z. -/
def lnRatio (z : Nat) : Nat := 2 * atanhSeries (z * z / fxOne) 170 0 z
/-- ln 2 in fixed point. -/
def fxLn2 : Nat := lnRatio (fxOne / 3)
/-- 2^f for a fixed-point f below 1. -/
def fxExp2 (f : Nat) : Nat := series (f * fxLn2 / fxOne) (fun k => k) 110 1 fxOne
/-- log2 of a fixed-point m from 1 to below 2. -/
def fxLog2 (m : Nat) : Nat := lnRatio ((m - fxOne) * fxOne / (m + fxOne)) * fxOne / fxLn2

/-- arctan(1/n) in fixed point: the even and the odd terms apart. -/
def atanInv (n : Nat) : Nat → Nat → Nat → Int
  | 0, _, _ => 0
  | c + 1, k, p => (if k % 2 = 0 then ((p / (2 * k + 1) : Nat) : Int) else -((p / (2 * k + 1) : Nat) : Int)) +
      atanInv n c (k + 1) (p / (n * n))
/-- π in fixed point (Machin). -/
def fxPi : Nat := (4 * (4 * atanInv 5 115 0 (fxOne / 5) - atanInv 239 35 0 (fxOne / 239))).toNat

/-- Σ (-1)^k r^(2k + b) / (2k + b)! from a first term, for a fixed-point r². -/
def trigSeries (r2 : Nat) (b : Nat) : Nat → Nat → Nat → Int
  | 0, _, _ => 0
  | n + 1, k, t => (t : Int) - trigSeries r2 b n (k + 1) (t * r2 / fxOne / ((2 * k + 1 + b) * (2 * k + 2 + b)))

/-- sin of a fixed-point angle of absolute value up to π/4. -/
def fxSin (r : Int) : Int :=
  let a := r.natAbs
  let v := trigSeries (a * a / fxOne) 1 55 0 a
  if r < 0 then -v else v
/-- cos of a fixed-point angle of absolute value up to π/4. -/
def fxCos (r : Int) : Int := trigSeries (r.natAbs * r.natAbs / fxOne) 0 55 0 fxOne

/-- sin of a finite value in fixed point; with `shift` 1, cos. -/
def fxTrig (neg : Bool) (m : Nat) (e : Int) (shift : Int) : Int :=
  let x : Int := scaled neg (if 0 ≤ e + fxp then m * 2 ^ (e + fxp).toNat else m / 2 ^ (-(e + fxp)).toNat) 0 0
  let half : Int := (fxPi / 2 : Nat)
  let q := (2 * x + half).fdiv (2 * half)
  let r := x - q * half
  match ((q + shift) % 4).toNat with
  | 0 => fxSin r
  | 1 => fxCos r
  | 2 => -(fxSin r)
  | _ => -(fxCos r)

/-- A fixed-point number times 2^k as a value. -/
def fxVal (v k : Int) : FV := .fin (decide (v < 0)) v.natAbs (k - fxp)

/-- One ulp of an FP32 value near m × 2^e, as a power of two. -/
def ulpExp (m : Nat) (e : Int) : Int :=
  let lead : Int := (bitLen m : Int) - 1 + e
  (if lead < -126 then -126 else lead) - 23

/-- Whether a finite FP32 candidate lies within `n` × 2^u of an enclosed value. The enclosure of a transcendental value is
some 490 bits behind the point off at most, and no FP32 operand brings the value so near to a candidate's bound. -/
def within (n : Nat) (u : Int) (v c : FV) : Bool :=
  match c, v with
  | .fin s m e, .fin t k g =>
    let e0 := if e < g then (if e < u then e else u) else (if g < u then g else u)
    let d := scaled s m e e0 - scaled t k g e0
    decide ((d.natAbs : Int) ≤ scaled false n u e0)
  | _, _ => false

/-- Whether a candidate lies within 2^u of 1 / x: |c x − 1| ≤ 2^u |x|, exactly. -/
def nearRcp (u : Int) (x c : FV) : Bool :=
  match x, c with
  | .fin t m e, .fin s k g =>
    let e0 := min (g + e) (min 0 (u + e))
    decide ((scaled (s != t) (k * m) (g + e) e0 - scaled false 1 0 e0).natAbs ≤ (scaled false m (u + e) e0).natAbs)
  | _, _ => false

/-- Whether a number that is not negative, times 2^e, reaches 1. -/
def reachesOne (a : Nat) (e : Int) : Bool := decide (2 ^ (-e).toNat ≤ a * 2 ^ e.toNat)
/-- Whether a number that is not negative, times 2^e, passes 1. -/
def passesOne (a : Nat) (e : Int) : Bool := decide (2 ^ (-e).toNat < a * 2 ^ e.toNat)

/-- Whether a candidate lies within 2 × 2^u of 1 / √x, for a positive x: x (c − 2^(u+1))² ≤ 1 ≤ x (c + 2^(u+1))², exactly,
where the left side counts for a positive difference alone. -/
def nearRsq (u : Int) (x c : FV) : Bool :=
  match x, c with
  | .fin _ m e, .fin s k g =>
    let e0 := min g u
    let lo := scaled s k g e0 - scaled false 2 u e0
    let hi := scaled s k g e0 + scaled false 2 u e0
    decide (0 ≤ hi) && reachesOne (m * hi.toNat ^ 2) (e + 2 * e0) && !(passesOne (m * lo.toNat ^ 2) (e + 2 * e0))
  | _, _ => false

/-- The exponent of an ulp of an enclosed value. -/
def FV.ulpExp (v : FV) : Int :=
  match v with
  | .fin _ m e => Machine.ulpExp m e
  | _ => 0

/-- The result of an approximate function whose exact result is enclosed: the hardware's value where it keeps the bound
of R184, else the nearest; with the flags of R184. -/
def approxOf (fn x : Nat) (v : FV) (ok : FV → Bool) : Nat × Fl :=
  let (near, fl) := f32.round .rne false v
  let cand := Config.approx fn x
  (if cand < 4294967296 && ok (f32.val cand) then cand else near, { fl with nx := true })

/-- Whether a natural number is a power of two. -/
def isPow2 (m : Nat) : Bool := m != 0 && m == 2 ^ Nat.log2 m

/-- `FRCP` (R184). -/
def rcpOf (x : Nat) : Nat × Fl :=
  match f32.val x with
  | .nan => (f32.nan, {})
  | .inf n => (if n then 0x80000000 else 0, {})
  | .fin n m e =>
    if m = 0 then (if n then 0xFF800000 else 0x7F800000, {})
    else
      let (q, k) := divSticky 1 m
      let v := FV.fin n q (k - e)
      let (b, fl) := f32.round .rne false v
      if isPow2 m && !fl.nx && decide (0x800000 ≤ b % 2147483648) then (b, {}) else approxOf 0 x v (nearRcp v.ulpExp (.fin n m e))

/-- `FRSQ` (R184). -/
def rsqOf (x : Nat) : Nat × Fl :=
  match f32.val x with
  | .nan => (f32.nan, {})
  | .inf n => if n then (f32.nan, { nv := true }) else (0, {})
  | .fin n m e =>
    if m = 0 then (if n then 0xFF800000 else 0x7F800000, {})
    else if n then (f32.nan, { nv := true })
    else
      -- 1 / √(m 2^e) = √(2^k / m) × 2^((−e − k) / 2), with −e − k even
      let k : Nat := if (e + 300) % 2 = 0 then 300 else 301
      let (r, g) := sqrtSticky (2 ^ k / m) 0
      let v := FV.fin false r (g + (-e - k) / 2)
      if isPow2 m && (Nat.log2 m + e) % 2 = 0 then
        (f32.round .rne false (.fin false 1 (-((Nat.log2 m : Int) + e) / 2)))
      else approxOf 1 x v (nearRsq v.ulpExp (.fin n m e))

/-- `FEXP2` (R184). -/
def exp2Of (x : Nat) : Nat × Fl :=
  match f32.val x with
  | .nan => (f32.nan, {})
  | .inf n => (if n then 0 else 0x7F800000, {})
  | .fin n m e =>
    let big := { of := true, nx := true : Fl }
    let small := { uf := true, nx := true : Fl }
    if (FV.fin n m e).lt (.fin false 128 0) then
      if (FV.fin n m e).lt (.fin true 151 0) then (0, small)
      else
        let v := scaled n (if 0 ≤ e + fxp then m * 2 ^ (e + fxp).toNat else m / 2 ^ (-(e + fxp)).toNat) 0 0
        let i := v.fdiv fxOne
        let f := (v - i * fxOne).toNat
        if f = 0 && decide (-149 ≤ i) && decide (e + fxp ≥ 0) then (f32.round .rne false (.fin false 1 i))
        else
          let r := fxVal (fxExp2 f) i
          let (near, _) := f32.round .rne false r
          if near = 0 then (0, small) else approxOf 2 x r (within 2 r.ulpExp r)
    else (0x7F800000, big)

/-- `FLOG2` (R184). -/
def log2Of (x : Nat) : Nat × Fl :=
  match f32.val x with
  | .nan => (f32.nan, {})
  | .inf n => if n then (f32.nan, { nv := true }) else (0x7F800000, {})
  | .fin n m e =>
    if m = 0 then (0xFF800000, {})
    else if n then (f32.nan, { nv := true })
    else
      let l := Nat.log2 m
      let i : Int := (l : Int) + e
      if isPow2 m then f32.round .rne false (ofInt i)
      else
        let r := fxVal (i * fxOne + fxLog2 (m * fxOne / 2 ^ l)) 0
        approxOf 3 x r (if i = 0 ∨ i = -1 then within 1 (-22) r else within 2 r.ulpExp r)

/-- `FSIN` (`shift` 0) and `FCOS` (`shift` 1) (R184). The sine of a nonzero subnormal is nonzero, inexact, and below the
smallest normal after rounding: UF (R168). -/
def trigOf (x : Nat) (shift : Int) : Nat × Fl :=
  match f32.val x with
  | .nan => (f32.nan, {})
  | .inf _ => (f32.nan, { nv := true })
  | .fin n m e =>
    if (FV.fin false 131072 0).lt (.fin false m e) then (f32.nan, { nv := true })
    else if m = 0 then (if shift = 0 then x else 0x3F800000, {})
    else
      let v := fxVal (fxTrig n m e shift) 0
      let (r, fl) := approxOf (if shift = 0 then 4 else 5) x v (within 1 (-21) v)
      (r, { fl with uf := fl.uf || (shift == 0 && (FV.fin false m e).lt (.fin false 1 (-126))) })

/-! ## QC4 (R173 to R176) -/

/-- 256 × L(i), as sign and magnitude (R173). -/
def qc4Level (i : Nat) : Int :=
  [-256, -178, -134, -101, -74, -49, -24, 0, 20, 41, 64, 90, 120, 156, 200, 256].getD i 0

/-- x × S × q / 4096, with the special values of R174 and R223: the value, and whether a zero met an infinity. -/
def scaleValue (x : FV) (sup : FV) (q : Nat) : FV × Bool :=
  if q = 0 then (.fin false 0 0, false)
  else
    let (p, inv) := mulOf x sup
    match p with
    | .fin n m e => (if m = 0 then .fin false 0 0 else .fin n (m * q) (e - 12), inv)
    | p => (p, inv)

/-- The value of a QC4 index (R174). -/
def qc4Value (i : Nat) (sup : FV) (q : Nat) : FV × Bool :=
  scaleValue (.fin (decide (qc4Level i < 0)) (qc4Level i).natAbs (-8)) sup q

/-- |a − b| of two finite values at a common exponent. -/
def distance (a b : FV) : Int × Int :=
  match a, b with
  | .fin s m e, .fin t n g =>
    let e0 := if e < g then e else g
    (((scaled s m e e0 - scaled t n g e0).natAbs : Int), e0)
  | _, _ => (0, 0)

/-- The index of a finite value in a block (R176): the nearest level, the smaller |L| on a tie. -/
def qntIndex (x sup : FV) (q : Nat) : Nat :=
  (List.range 16).foldl (fun best i =>
    let (d, e) := distance x (qc4Value i sup q).1
    let (b, g) := distance x (qc4Value best sup q).1
    let e0 := if e < g then e else g
    let d := d * ((2 ^ (e - e0).toNat : Nat) : Int)
    let b := b * ((2 ^ (g - e0).toNat : Nat) : Int)
    if d < b ∨ (d = b ∧ (qc4Level i).natAbs < (qc4Level best).natAbs) then i else best) 7

/-- The larger magnitude. -/
def maxAbs (l : List FV) : Nat × Int :=
  l.foldl (fun a v => match v with
    | .fin _ m e => if (FV.fin false a.1 a.2).lt (.fin false m e) then (m, e) else a
    | _ => a) (0, 0)

/-- The scale code of a block of finite values against a positive super-scale (R176): min(4095, ceil(4096 m / S)). -/
def qntScale (m : Nat) (e : Int) (sm : Nat) (se : Int) : Nat :=
  if m = 0 then 0
  else
    let e0 := if e + 12 < se then e + 12 else se
    let a := m * 2 ^ (e + 12 - e0).toNat
    let b := sm * 2 ^ (se - e0).toNat
    Nat.min 4095 ((a + b - 1) / b)

/-- `QNT` of a block (R176): the scale code, the index of each value, the flags. -/
def qntBlock (sup : FV) (xs : List FV) : Nat × List Nat × Fl :=
  let bad := match sup with
    | .fin n m e => n || m == 0 || (FV.fin false m e).lt (.fin false 1 (-126))
    | _ => true
  let differs := fun (q : Nat) (i : Nat) (x : FV) => match x with
    | .fin .. => !((qc4Value i sup q).1.eq x)
    | _ => false
  if bad then (0, xs.map fun _ => 7, { nv := true, nx := xs.any (differs 0 7) })
  else
    let (sm, se) := match sup with | .fin _ m e => (m, e) | _ => (1, 0)
    let special := xs.any fun x => match x with | .fin .. => false | _ => true
    let (m, e) := maxAbs xs
    let q := if special then 4095 else qntScale m e sm se
    let idx := fun x => match x with
      | .nan => 7
      | .inf n => if n then 0 else 15
      | x => if q = 0 then 7 else qntIndex x sup q
    (q, xs.map idx, { nv := special, nx := xs.any fun x => differs q (idx x) x })

end Sys2Proof.Machine
end

