-- ==== Sys2Proof/Machine/Trans.lean ====
section
/-!
DEFINITION. Trans.lean: the translation of a line: the page-table walk (R62 to R68), windows and targets (R69 to R74),
flash-backed entries (R75), the frame type table (R77, R78), permissions and the order of checks (R79 to R81), and the
TLBs (R88).
-/
namespace Sys2Proof.Machine

/-- Who asks for a translation: the address space, the privilege of its launch, the die whose shared TLB and the core
whose L1 TLB it uses, and, for a block, the cluster that rank-placed SCR pages resolve through. -/
structure Asker where
  asid : Nat
  priv : Bool
  die : Nat
  ranks : Option (List (Nat × Nat × Nat))
  scr : Nat
  core : Option Nat := none
deriving DecidableEq, Repr

/-- A block as the asker of a translation: its threads and its core's engine. -/
def Block.asker (b : Block) : Asker :=
  { asid := b.asid, priv := b.priv, die := b.die, ranks := some b.ranks, scr := b.scr, core := some b.core }

/-- A block's selection engine as the asker of a translation: a bed has no L1 TLB. -/
def Block.bedAsker (b : Block) : Asker := { b.asker with core := none }

/-- A translated byte: its key, and the page's type, bias and target type. -/
structure Place where
  key : Nat
  ct : Nat
  hb : Bool
  tt : Nat
deriving DecidableEq, Repr

/-- Why a translation fails (R355 class 0), with what the record says of it. -/
structure XFail where
  cause : Nat
  noncanon : Bool := false
  malf : Bool := false
  level : Nat := 0
  mismatch : Option Nat := none        -- AUX of the alias event (R357)
deriving DecidableEq, Repr

/-- The trap that a failing translation gives a thread (R87). -/
def XFail.trap (f : XFail) (va : Nat) (k : AccKind) : Trap :=
  { cls := 0, cause := f.cause, va := va, write := k == .write || k == .atomic || k == .sarm, fetch := k == .fetch,
    noncanon := f.noncanon, malf := f.malf, level := f.level }

/-- Read 8 bytes of HBM under direct placement; a table address beyond the window reads as zero (log entry 19). -/
def State.rdHbm8 (s : State) (a : Nat) : Nat := if a < 1099511627776 then s.rdN a 8 else 0

/-- Bytes of a leaf's page: 64 KiB, 512 MiB, 4 TiB (R64). -/
def pageSize (level : Nat) : Nat :=
  match level with
  | 1 => 65536
  | 2 => 536870912
  | _ => 4398046511104

/-- FRAME of an entry (R66). -/
def pteFrame (e : Nat) : Nat := bitsOf e 55 20
/-- CT of an entry. -/
def pteCt (e : Nat) : Nat := bitsOf e 7 6
/-- TT of an entry. -/
def pteTt (e : Nat) : Nat := bitsOf e 10 8
/-- PL of an entry. -/
def ptePl (e : Nat) : Nat := bitsOf e 12 11

/-- Populated HBM of a die: 128 GiB on a prompt die, 256 GiB on a generation die (R13, R69). -/
def populated (die : Nat) : Nat := if die < 2 then 137438953472 else 274877906944
/-- Start of a die's striped carve (R72). -/
def State.carveBase (s : State) (die : Nat) : Nat := bitsOf (s.priv.stripebase.getD die 0).toNat 37 16 * 65536
/-- Bytes of each die's striped carve (R72). -/
def State.carveSize (s : State) : Nat := bitsOf s.priv.stripesize.toNat 37 16 * 65536

/-- Whether a range of HBM under direct placement lies in populated memory outside the carve of its die (R69). -/
def State.directOk (s : State) (a size : Nat) : Bool :=
  let die := a / 274877906944
  let l := a % 274877906944
  decide (die < 4) && decide (l + size ≤ populated die) &&
    (s.carveSize == 0 || decide (l + size ≤ s.carveBase die) || decide (s.carveBase die + s.carveSize ≤ l))

/-- Whether any byte of a leaf's page falls outside its window (R67, R69, R74); `none` when the asker cannot resolve
the target at all. -/
def State.outOfWindow (s : State) (q : Asker) (e level : Nat) : Bool :=
  let a := pteFrame e * 65536
  let n := pageSize level
  match pteTt e, ptePl e with
  | 0, 0 => !(s.directOk a n)
  | 0, 1 => level != 1 || decide (4 * s.carveSize < a + n)
  | 1, 0 => decide (4294967296 < a + n)
  | 2, 0 =>
    level != 1 || (match q.ranks with
      | none => false
      | some rs => decide (rs.length ≤ pteFrame e / 8) || decide (q.scr * 128 < (pteFrame e % 8 + 1) * 65536))
  | 2, 1 => level != 1 || decide (511 < pteFrame e / 8) || bitAt e 3
  | 3, 0 => false
  | 4, p =>
    let sz := bitsOf (s.priv.peerwin.getD p 0).toNat 63 56
    sz == 0 || decide (2 ^ sz < a + n)
  | _, _ => true

/-- Check 4 of R80 on a leaf (R67). -/
def State.leafMalformed (s : State) (q : Asker) (e level : Nat) : Bool :=
  bitsOf e 59 56 != 0 || bitsOf e 19 17 != 0 ||
    (level == 2 && bitsOf e 32 20 != 0) || (level == 3 && bitsOf e 45 20 != 0) ||
    (bitAt e 13 && pteTt e != 0) || s.outOfWindow q e level

/-- Whether a valid non-leaf entry is malformed (R67); bit 4, A, is excepted. -/
def tableMalformed (e level : Nat) : Bool :=
  level == 1 || bitsOf e 3 1 != 0 || bitsOf e 14 5 != 0 || bitsOf e 19 16 != 0 || bitsOf e 59 56 != 0

/-- Whether an entry with V = 0 and FB = 1 is malformed (R67, R75). -/
def flashMalformed (e level : Nat) : Bool :=
  level != 1 || !(bitAt e 15) || bitsOf e 59 56 != 0 || bitsOf e 19 17 != 0 || pteTt e != 0 ||
    decide (268435456 ≤ pteFrame e)

/-- Whether a target type admits a consistency type (R70), and host bias (R271). -/
def ctAdmitted (e : Nat) : Bool :=
  (match pteTt e with
    | 0 | 1 => true
    | 2 => pteCt e == 0
    | _ => decide (pteCt e < 2)) && (!(bitAt e 13) || decide (pteCt e < 2))

/-- The frame type byte of a leaf's first frame (R77); targets without one have none. -/
def State.frameByte (s : State) (e : Nat) : Option Nat :=
  let base := bitsOf s.priv.fttbase.toNat 55 20 * 65536
  let rd := fun a => if a < 1099511627776 then (s.rd a).toNat else 0
  match pteTt e, ptePl e with
  | 0, 0 => some (rd (base + pteFrame e))
  | 0, _ => some (rd (base + 16777216 + pteFrame e))
  | 1, _ => some (rd (base + 25165824 + pteFrame e))
  | _, _ => none

/-- Check 6 of R80 (R78): the AUX of the alias event where the byte disagrees. -/
def State.aliasOf (s : State) (e : Nat) : Option Nat :=
  match s.frameByte e with
  | none => none
  | some f =>
    if bitAt f 7 && bitsOf f 6 2 == 0 && f % 4 == pteCt e then none
    else some (pteCt e + f % 4 * 4 + bit01 (bitAt f 7) * 16)

/-- Checks 3 and 4 of R80 on one entry of the walk, at `level`, and checks 5 and 6 on the leaf: the leaf, where it
stands and its level. `fuel` is the number of levels left. A walker may keep address-space and non-leaf entries until a
shootdown (R65); this one keeps none and reads each afresh (log entry 7, DESIGN CHOICE). -/
def State.walkFrom (s : State) (q : Asker) (va : Nat) : Nat → Nat → Nat → Except XFail (Nat × Nat × Nat)
  | 0, _, _ => .error { cause := 0 }
  | fuel + 1, table, level =>
    let idx := va / (match level with | 1 => 65536 | 2 => 536870912 | _ => 4398046511104) % 8192
    let at_ := table * 65536 + idx * 8
    let e := s.rdHbm8 at_
    if !(bitAt e 0) then
      if !(bitAt e 16) then .error { cause := 0 }
      else if flashMalformed e level then .error { cause := 0, malf := true, level := level }
      else .error { cause := 1 }
    else if bitAt e 15 then
      if s.leafMalformed q e level then .error { cause := 0, malf := true, level := level }
      else if pteTt e == 2 && ptePl e == 0 && q.ranks == none then .error { cause := 0 }
      else if !(ctAdmitted e) then .error { cause := 4 }
      else match s.aliasOf e with
        | some x => .error { cause := 3, mismatch := some x }
        | none => .ok (e, at_, level)
    else if tableMalformed e level then .error { cause := 0, malf := true, level := level }
    else s.walkFrom q va fuel (pteFrame e) (level - 1)

/-- The walk of a VA: checks 1 to 6 of R80 (R62 to R65). -/
def State.walk (s : State) (q : Asker) (va : Nat) : Except XFail (Nat × Nat × Nat) :=
  if 36028797018963968 ≤ va then .error { cause := 0, noncanon := true }
  else if !(s.priv.astbase.getLsbD 0) then .error { cause := 0 }
  else
    let a := s.rdHbm8 (bitsOf s.priv.astbase.toNat 55 20 * 65536 + q.asid * 8)
    if !(bitAt a 0) || bitsOf a 63 56 != 0 || bitsOf a 19 1 != 0 then .error { cause := 0 }
    else s.walkFrom q va 3 (bitsOf a 55 20) 3

/-- The key of a byte of a leaf's page (R69, R73). -/
def State.leafKey (s : State) (q : Asker) (e off : Nat) : Nat :=
  let a := pteFrame e * 65536 + off
  match pteTt e, ptePl e with
  | 0, 0 => a
  | 0, _ =>
    let g := a / 4096
    let h := (g % 4) ^^^ (g / 4 % 4) ^^^ (g / 16 % 4) ^^^ (g / 64 % 4) ^^^ (g / 256 % 4)
    h * 274877906944 + s.carveBase h + g / 4 * 4096 + a % 4096
  | 1, _ => vaultKey a
  | 2, 0 =>
    let r := (q.ranks.getD []).getD (pteFrame e / 8) (0, 0, 0)
    scrKey r.1 (r.2.2 + pteFrame e % 8 * 65536 + off)
  | 2, _ => scrKey (pteFrame e / 8) (pteFrame e % 8 * 65536 + off)
  | 3, _ => hostKey a
  | _, p => peerKey (bitsOf (s.priv.peerwin.getD p 0).toNat 51 16 * 65536 + a)

/-- Checks 7 to 9 of R80 (R79) on a leaf. -/
def accessCheck (q : Asker) (k : AccKind) (e : Nat) : Option Nat :=
  let w := bitAt e 1
  let perm := (match k with
    | .read | .wait => true
    | .write | .atomic | .sarm => w
    | .fetch => bitAt e 2) && (q.priv || bitAt e 3)
  if !perm then some 2
  else if (k == .atomic || k == .wait) && decide (2 ≤ pteCt e) then some 6
  else if k == .sarm && pteCt e != 2 then some 6
  else none

/-- Whether a TLB entry matches a VA of an asker on its die (R88). -/
def TlbEntry.fits (t : TlbEntry) (q : Asker) (va : Nat) : Bool :=
  t.die == q.die && (t.asid == q.asid || t.leaf.getLsbD 14) &&
    decide (t.base ≤ va) && decide (va < t.base + pageSize t.level)

/-- The TLB entry that matches a VA (R88): in the L1 TLB of the asker's core, or else in the shared TLB of its die. -/
def State.tlbHit (s : State) (q : Asker) (va : Nat) : Option TlbEntry :=
  (s.tlb.find? fun t => t.core.isSome && t.core == q.core && t.fits q va).or
    (s.tlb.find? fun t => t.core.isNone && t.fits q va)

/-- Keep a leaf in the shared TLB of the asker's die and in its core's L1 TLB (R81, R88). -/
def State.keepLeaf (s : State) (q : Asker) (t : TlbEntry) : State :=
  { s with tlb := (if q.core.isSome then [{ t with core := q.core }] else []) ++ { t with core := none } :: s.tlb }

/-- Set a bit of a leaf at its home, with an atomic OR (R81), for which the home recalls the line (R288). -/
def State.orLeaf (s : State) (at_ bit : Nat) : State :=
  let v := s.rdHbm8 at_
  if v / bit % 2 = 1 then s else (s.recall (at_ / 128)).homeWriteN at_ 8 (v + bit)

/-- Find the leaf of a VA: in the TLB, or by a walk that fills it and sets A (R81, R88). A failed walk keeps nothing;
one that fails check 6 places an alias event (R78). -/
def State.leafOf (s : State) (q : Asker) (va : Nat) : State × Except XFail TlbEntry :=
  let hit := if va < 36028797018963968 then s.tlbHit q va else none
  match hit with
  | some t =>
    -- a rank-placed SCR page resolves through the asker's own cluster at every access (R69)
    if pteTt t.leaf.toNat == 2 && ptePl t.leaf.toNat == 0 then
      if q.ranks == none then (s, .error { cause := 0 })
      else if s.outOfWindow q t.leaf.toNat t.level then (s, .error { cause := 0, malf := true, level := t.level })
      else (s, .ok t)
    else (s, .ok t)
  | none =>
    match s.walk q va with
    | .error f =>
      match f.mismatch with
      | some aux => (s.event { kind := 2, asid := q.asid, va := va, aux := aux }, .error f)
      | none => (s, .error f)
    | .ok (e, at_, level) =>
      let t : TlbEntry :=
        { die := q.die, asid := q.asid, base := va / pageSize level * pageSize level, level := level,
          leaf := BitVec.ofNat 64 e, pte := at_, dset := bitAt e 5, core := q.core }
      ((s.orLeaf at_ 16).keepLeaf q t, .ok t)

/-- Translate one line for an access: checks 1 to 9 of R80, A and D set as R81 gives. The place is that of the VA. -/
def State.translate (s : State) (q : Asker) (k : AccKind) (va : Nat) : State × Except XFail Place :=
  match s.leafOf q va with
  | (s, .error f) => (s, .error f)
  | (s, .ok t) =>
    let e := t.leaf.toNat
    match accessCheck q k e with
    | some c => (s, .error { cause := c })
    | none =>
      let needsW := k == .write || k == .atomic || k == .sarm
      let s :=
        if needsW && !t.dset then
          let s := s.orLeaf t.pte 32
          { s with tlb := s.tlb.map fun u => if u == t then { u with dset := true } else u }
        else s
      -- a device access to a HOST or PEER page leaves deterministic mode without its guarantee (R405)
      let s := if 3 ≤ pteTt e then s.diverge else s
      (s, .ok { key := s.leafKey q e (va - t.base), ct := pteCt e, hb := bitAt e 13, tt := pteTt e })

end Sys2Proof.Machine
end

