-- ==== Sys2Proof/Machine/Kill.lean ====
section
/-!
DEFINITION. Kill.lean: the end of a launch at once (R382), which `FRESP`, `PREEMPT`, poison (R105) and a thermal trip
share.
-/
namespace Sys2Proof.Machine

/-- What a kill does to a command of a copy stream or of the operand fetcher: not begun, dropped; stopped, abandoned;
running, it goes on and adds nothing. -/
def killCmd (c : Cmd) : Option Cmd :=
  if !c.begun || c.stopped.isSome then none else some { c with dead := true }

/-- What a kill does to a block: its threads become exited with no further effect, its commands as `killCmd` says; `keep`
are the accesses of its operand buffer that go on besides. -/
def killBlock (keep : List Nat) (b : Block) : Block :=
  let streams := b.streams.map fun q => q.filterMap killCmd
  let keep := keep ++ streams.flatMap fun q => q.map (·.ticket)
  { b with
    ph := 0
    waits := []
    phStop := none
    streams := streams
    obq := b.obq.filter fun e => keep.contains e.1
    threads := b.threads.map fun t => { t with cond := .exited, pend := [], maint := [], bound := none, owed := none } }

/-- Whether a record names threads or an engine of a block (R357). -/
def PendRec.names (p : PendRec) (b : Block) : Bool := b.launch == p.launch && b.bid.toNat == p.fr.bid

/-- The record that a thread's debug halt names (R366). -/
def State.debugFid (s : State) (core slot tid : Nat) : Option Nat :=
  (s.block? core slot).bind fun b =>
    (s.pending.find? fun p => p.names b && p.tids.contains tid && (p.halted || p.fr.cls == 5)).map (·.fr.fid)

/-- The threads of a debug step that stand in the pool or in a warp and that a test selects return to the debug halt
(R324). -/
def State.debugBack (s : State) (p : Block → Thread → Bool) : State :=
  s.blocks.foldl (fun s b =>
    (b.threads.filter fun t => t.stepping && p b t &&
        (match t.cond with
          | .cast | .pool _ _ => true
          | _ => false)).foldl (fun s t => s.park b.core b.slot t.tid (.debug (s.debugFid b.core b.slot t.tid))) s) s

/-- Kill a launch (R382). -/
def State.kill (s : State) (id : Nat) : State :=
  match s.launches.find? fun l => l.id == id with
  | none => s
  | some l =>
    if l.st = .killed ∨ l.st = .done ∨ l.st = .refused then s else
    let mine := fun (core slot : Nat) => s.blocks.any fun b => b.core == core && b.slot == slot && b.launch == id
    let fids := (s.pending.filter fun p => p.launch == id).map (·.fr.fid)
    let muls := s.muls.filter fun m => !(mine m.core m.slot) || m.started
    let fetches := s.fetches.filterMap fun (f : Fetch) =>
      if mine f.core f.slot then (killCmd f.cmd).map fun c => { f with cmd := c } else some f
    let s := { s with
      warps := s.warps.filter fun w => !(mine w.core w.slot)
      steps := s.steps.filter fun w => !(mine w.1 w.2.1)
      muls := muls
      fetches := fetches
      obOps := s.obOps.filter fun r => !(mine r.core r.slot)
      selq := s.selq.filterMap fun (c : SelCmd) =>
        if mine c.core c.slot then 
          (if (c.out.isSome || !c.lines.isEmpty) && c.stopped.isNone then some { c with dead := true } else none) else some c
      reqs := s.reqs.filter fun r => match r.kind with
        | .cluster n _ => n != id
        | .phase c b => !(mine c b)
        | .restore n => !(s.saved.any fun v => v.id == n && v.blks.any fun b => b.launch == id)
      saved := s.saved.filter fun v => !(v.blks.any fun b => b.launch == id)
      pending := s.pending.filter fun p => p.launch != id
      fills := s.fills.map fun (f : Fill) => { f with
        joined := f.joined.filter fun i => !(fids.contains i.1) }
      blocks := mapIf (fun b => b.launch == id) (killBlock ((muls.map fun (m : Mul) => m.id) ++ fetches.map fun (f : Fetch) => f.id)) s.blocks
      launches := mapIf (fun x => x.id == id) (fun x => { x with st := .killed }) s.launches }
    s.debugDone.event { kind := 6, asid := bitsOf l.lr.toNat 183 171 }

/-- The launch of the block in a slot. -/
def State.launchOf (s : State) (core slot : Nat) : Option Nat := (s.block? core slot).map (·.launch)

/-- Whether a byte of a key lies in a poisoned word (R105). -/
def State.poisoned (s : State) (k : Nat) : Bool := s.poison.contains (k / 8 * 8)

/-- A consumer of poison for a block: the launch is killed (R105). -/
def State.consumePoison (s : State) (core slot : Nat) : State :=
  match s.launchOf core slot with
  | some id => s.kill id
  | none => s

end Sys2Proof.Machine
end

