-- ==== Sys2Proof/Machine/Access.lean ====
section
/-!
DEFINITION. Access.lean: one memory access of a warp instruction, step by step (R82 to R87, R110 to R115, R122): buffer
records, offsets, bounds and swizzle; the lines an instruction touches and their translation; reading and writing bytes
at a permitted copy or at the home (R96, R99).
-/
namespace Sys2Proof.Machine

/-! ## Buffer records (R82 to R86) -/

/-- Bits `hi:lo` of a buffer record. -/
def recBits (r : Rec) (hi lo : Nat) : Nat := bitsOf r.toNat hi lo
/-- BASE. -/
def recBase (r : Rec) : Nat := recBits r 54 0
/-- EXTENT. -/
def recExtent (r : Rec) : Nat := recBits r 118 64
/-- TRAP. -/
def recTrap (r : Rec) : Bool := r.getLsbD 135
/-- PITCH. -/
def recPitch (r : Rec) : Nat := recBits r 223 192
/-- ROWW. -/
def recRoww (r : Rec) : Nat := recBits r 255 224
/-- SWZ. -/
def recSwz (r : Rec) : Nat := recBits r 133 131

/-- A malformed record (R83). -/
def recBad (r : Rec) : Bool :=
  recBits r 191 136 != 0 || recBits r 127 119 != 0 || recBits r 63 55 != 0 || decide (5 ≤ recBits r 130 128) ||
    decide (5 ≤ recSwz r) || (recSwz r != 0 && (recBase r % 128 != 0 || recExtent r % 128 != 0)) ||
    (recPitch r != 0 && recRoww r == 0)

/-- The byte offset of an index and an immediate, and the bounds verdict for `n` bytes (R84). -/
def recOffset (r : Rec) (x : Word) (imm : Int) (n : Nat) : Int × Bool :=
  let e : Nat := 2 ^ recBits r 130 128
  let sgn := r.getLsbD 134
  if recPitch r = 0 then
    let i : Int := if sgn then x.toInt else x.toNat
    let o := i * e + imm
    (o, decide (0 ≤ o) && decide (o + n ≤ recExtent r))
  else
    let hi : Int := if sgn then toSigned 16 (x.toNat / 65536) else (x.toNat / 65536 : Nat)
    let lo : Int := if sgn then toSigned 16 (x.toNat % 65536) else (x.toNat % 65536 : Nat)
    let c := lo * e + imm
    let o := hi * recPitch r + c
    (o, decide (0 ≤ hi) && decide (0 ≤ c) && decide (c + n ≤ recRoww r) && decide (o + n ≤ recExtent r))

/-- Swz of R86: o[6:4] is replaced. -/
def swizzle (o mode : Nat) : Nat :=
  let u := o / 16 % 8
  let v := match mode with
    | 1 => u ^^^ (o / 128 % 8)
    | 2 => u ^^^ (o / 256 % 8)
    | 3 => u ^^^ (o / 512 % 8)
    | 4 => u ^^^ (o / 128 % 4)
    | _ => u
  o / 128 * 128 + v * 16 + o % 16

/-- The VA of byte `i` of an in-bounds access at offset `o` (R86). -/
def recVa (r : Rec) (o : Int) (i : Nat) : Nat := recBase r + swizzle (o.toNat + i) (recSwz r)

/-- What the record and the bounds make of one lane's access (R83 to R85, R112). -/
inductive Form where
  | trap (t : Trap)
  | oob
  | acc (vas : List Nat)
deriving DecidableEq, Repr

/-- Steps 3 to 5 of R110 for one lane: `n` bytes at index X(A) and `imm` under a record, with `al` bytes of alignment
(1 for none). -/
def formOf (r : Rec) (x : Word) (imm : Int) (n al : Nat) : Form :=
  if recBad r then .trap (illegal 6)
  else
    let (o, ok) := recOffset r x imm n
    if !ok then (if recTrap r then .trap { cls := 4 } else .oob)
    else
      let va := recVa r o 0
      if va % al ≠ 0 then .trap (misaligned va)
      else .acc ((List.range n).map fun i => recVa r o i)

/-! ## Lines and their translation (R87) -/

/-- An in-bounds access of one lane: its lane, its thread, the VA of each byte. -/
structure LAcc where
  lane : Nat
  tid : Nat
  vas : List Nat
deriving DecidableEq, Repr

/-- The distinct 128-byte VA lines of some VAs, ascending. -/
def linesOf (vas : List Nat) : List Nat := vas.foldl (fun l v => insNat (v / 128) l) []

/-- Translations by line. -/
abbrev LineTab := List (Nat × Except XFail Place)

/-- Translate each line of a list, in ascending order (R87); the misses to one page are one walk (R88): a line of the page
that failed last fails alike. -/
def State.xlatFrom (s : State) (q : Asker) (k : AccKind) : Option (Nat × XFail) → List Nat → State × LineTab
  | _, [] => (s, [])
  | last, l :: r =>
    match last.filter fun x => x.1 == l / 512 with
    | some (pg, f) =>
      let (s, t) := s.xlatFrom q k (some (pg, f)) r
      (s, (l, .error f) :: t)
    | none =>
      let (s, p) := s.translate q k (l * 128)
      let last := match p with
        | .error f => some (l / 512, f)
        | .ok _ => none
      let (s, t) := s.xlatFrom q k last r
      (s, (l, p) :: t)

/-- Translate each line of a list, in ascending order (R87). -/
def State.xlatLines (s : State) (q : Asker) (k : AccKind) (ls : List Nat) : State × LineTab := s.xlatFrom q k none ls

/-- How a line fails whose page has failed in a table before. -/
def LineTab.failed (t : LineTab) (line : Nat) : Option XFail :=
  t.findSome? fun e =>
    match e.2 with
    | .error f => if e.1 / 512 = line / 512 then some f else none
    | .ok _ => none

/-- Translate those of some lines that an instruction has not translated yet (R87); a line of a page that failed before
fails alike (R88). -/
def State.xlatMore (s : State) (q : Asker) (k : AccKind) (t : LineTab) (ls : List Nat) : State × LineTab :=
  let new := ls.filter fun l => !(t.any fun e => e.1 == l)
  let (s, u) := s.xlatLines q k (new.filter fun l => (t.failed l).isNone)
  (s, t ++ u ++ new.filterMap fun l => (t.failed l).map fun f => (l, .error f))

/-- The translation of a line in the table. -/
def LineTab.get (t : LineTab) (line : Nat) : Except XFail Place :=
  match t.find? fun e => e.1 == line with
  | some e => e.2
  | none => .error { cause := 0 }

/-- The first VA of some VAs that lies in a line, or the line's first byte. -/
def firstIn (vas : List Nat) (line : Nat) : Nat :=
  (vas.filter fun v => v / 128 == line).foldl (fun a v => Nat.min a v) (line * 128 + 127)

/-- The lowest byte of an access that lies at or above 2^55: such an access is not translated (R62). -/
def beyond (vas : List Nat) : Option Nat :=
  match vas.filter fun v => decide (36028797018963968 ≤ v) with
  | [] => none
  | v :: r => some (r.foldl Nat.min v)

/-- The trap of an access: a byte at or above 2^55 (R62), or the first failing line, ascending (R87). -/
def LAcc.failure (a : LAcc) (t : LineTab) (k : AccKind) : Option Trap :=
  match beyond a.vas with
  | some v => some (({ cause := 0, noncanon := true } : XFail).trap v k)
  | none =>
    (linesOf a.vas).findSome? fun l =>
      match t.get l with
      | .error f => some (f.trap (firstIn a.vas l) k)
      | .ok _ => none

/-- Every line that some accesses touch, ascending (R87, R111); an access that is not translated touches none (R62). -/
def allLines (as : List LAcc) : List Nat :=
  (as.filter fun a => (beyond a.vas).isNone).foldl (fun l a => (linesOf a.vas).foldl (fun l x => insNat x l) l) []

/-- Where each byte of an access lies. -/
def LAcc.places (a : LAcc) (t : LineTab) : List Place :=
  a.vas.filterMap fun v =>
    match t.get (v / 128) with
    | .ok p => some { p with key := p.key + v % 128 }
    | .error _ => none

/-- The bytes of a VA line that some accesses touch. -/
def bytesIn (as : List LAcc) (line : Nat) : BitVec 128 :=
  as.foldl (fun m a => a.vas.foldl (fun m v => if v / 128 = line then setMask m (v % 128) else m) m) 0

/-! ## Copies a read or a write may use (R96, R99) -/

/-- Whether the L1 of a core may hold a line (R96, R271): for STRM, a written line, clean. -/
def State.l1Holds (s : State) (p : Place) : Bool :=
  !p.hb && (match p.tt with
    | 0 | 1 => p.ct == 0 || p.ct == 3 || (p.ct == 2 && s.written (p.key / 128))
    | 3 | 4 => p.ct == 0
    | _ => false)

/-- Whether the L2 of a die may hold the line besides its home (R96, R109). -/
def l2Holds (p : Place) (die : Nat) : Bool :=
  (p.tt == 0 && homeDie p.key != die) || p.tt == 3

/-- The hint that an access leaves with a copy (R32): once first or last in line, a line stays so until another hint. -/
def Copy.hinted (c : Copy) (h : Nat) : Copy := { c with hint := if h = 0 then c.hint else h }

/-- Whether a holder's copy of a line holds every byte that a mask selects. -/
def State.holdsAll (s : State) (h : Holder) (line : Nat) (m : BitVec 128) : Bool :=
  match s.copy? h line with
  | some c => m &&& ~~~ c.valid == 0
  | none => m == 0

/-- Bring the bytes that a mask selects into a holder's copy (R99): where one of them is missing, every one that is not
dirty is read from the next level through `src`, in one event, so that the bytes stand together as that level has them
(R113, R114); `bad` says which words are poisoned there (R105). A poisoned word keeps its poison as long as dirty bytes of
it stay. The copy is the last used. -/
def State.fillCopy (s : State) (h : Holder) (line ct hint : Nat) (m : BitVec 128) (src : Nat → Byte) (bad : Nat → Bool) :
    State :=
  let c := ((s.copy? h line).getD { holder := h, line := line, data := 0, valid := 0, dirty := 0, ct := ct }).hinted hint
  if m &&& ~~~ c.valid = 0 then s.putCopy c else
  let need := m &&& ~~~ c.dirty
  let data := (List.range 128).foldl (fun a i => if maskBit need i then setLineByte a i (src i) else a) c.data
  let words := touchedWords need
  let ill := (List.range 16).foldl (fun a w => if words.getLsbD w && bad w then a ||| (1#16 <<< w) else a) (0#16)
  s.putCopy { c with data := data, valid := c.valid ||| m, bad := (c.bad &&& ~~~ (words &&& ~~~ (touchedWords c.dirty))) ||| ill }

/-- The byte of a line as a holder's copy has it, or as the level below gives it. -/
def State.copyByte (s : State) (h : Holder) (line i : Nat) (below : Byte) : Byte :=
  match s.copy? h line with
  | some c => if maskBit c.valid i then lineByte c.data i else below
  | none => below

/-- Whether a byte is poisoned as a holder's copy has it, or as the level below has it (R105). -/
def State.copyBad (s : State) (h : Holder) (line i : Nat) (below : Bool) : Bool :=
  match s.copy? h line with
  | some c => if maskBit c.valid i then c.bad.getLsbD (i / 8) else below
  | none => below

/-- The byte below the L1 of a die: its L2's copy, or the home. -/
def State.l2Byte (s : State) (die : Nat) (p : Place) : Byte :=
  let home := s.rd p.key
  if l2Holds p die then s.copyByte (.l2 die) (p.key / 128) (p.key % 128) home else home

/-- Whether that byte is poisoned. -/
def State.l2Bad (s : State) (die : Nat) (p : Place) : Bool :=
  let home := s.poisoned p.key
  if l2Holds p die then s.copyBad (.l2 die) (p.key / 128) (p.key % 128) home else home

/-- Bring the bytes of a line that a mask selects into the L2 of a die, where it may hold them (R96, R98): a guest line
by 32-byte sectors, filled from the home slice, which uses its own line; host memory by 64-byte sectors (R109). `p` is
the place of the line's first byte. -/
def State.fillL2 (s : State) (die : Nat) (p : Place) (hint : Nat) (m : BitVec 128) : State :=
  let line := p.key / 128
  let fill := fun (s : State) (m : BitVec 128) =>
    s.fillCopy (.l2 die) line p.ct hint m (fun i => s.rd (line * 128 + i)) (fun w => s.poisoned (line * 128 + 8 * w))
  match p.tt with
  | 0 =>
    if homeDie p.key = die then s.touchHome line p.ct hint
    else
      let m := sectorsOf 32 m
      fill (if s.holdsAll (.l2 die) line m then s else s.touchHome line p.ct 0) m
  | 3 => fill s (sectorsOf 64 m)
  | _ => s

/-- Bring the sectors of some bytes of a line into the L1 of a core, from the L2 of its die or the home (R99); without
`l1`, into that L2 only. `p` is the place of the line's first byte. -/
def State.fillLine (s : State) (core : Nat) (p : Place) (hint : Nat) (m : BitVec 128) (l1 : Bool) : State :=
  if !(s.l1Holds p) then s else
  let die := core / 128
  let line := p.key / 128
  let want := sectorsOf 32 m
  let s :=
    if l1 && s.holdsAll (.l1 core) line want then (if hint = 1 then s.firstInL2 die line else s)
    else s.fillL2 die p (if hint = 1 then 1 else 0) want
  if l1 then
    s.fillCopy (.l1 core) line p.ct hint want (fun i => s.l2Byte die { p with key := line * 128 + i })
      (fun w => s.l2Bad die { p with key := line * 128 + 8 * w })
  else s

/-- Read one byte as a thread of a core does. -/
def State.readByte (s : State) (core : Nat) (p : Place) : Byte :=
  if s.l1Holds p then s.copyByte (.l1 core) (p.key / 128) (p.key % 128) (s.l2Byte (core / 128) p) else s.rd p.key

/-- Whether a byte is poisoned as a thread of a core reads it (R105). -/
def State.readBad (s : State) (core : Nat) (p : Place) : Bool :=
  if s.l1Holds p then s.copyBad (.l1 core) (p.key / 128) (p.key % 128) (s.l2Bad (core / 128) p) else s.poisoned p.key

/-- Write one byte as a thread of a core does: into its L1 on REL and PRIV lines that caches may hold, else at the
home (R97, R99, R120). -/
def State.writeByte (s : State) (core : Nat) (p : Place) (b : Byte) : State :=
  if p.ct != 2 && s.l1Holds p then
    s.mergeDirty (.l1 core) (p.key / 128) p.ct (setLineByte 0 (p.key % 128) b) (setMask 0 (p.key % 128))
  else s.rawWrite p.key [b]

/-- Bytes written one after another, each at its place. -/
def State.writeEach (s : State) (core : Nat) : List (Place × Byte) → State
  | [] => s
  | (p, b) :: r => (s.writeByte core p b).writeEach core r

/-- Write some bytes, each at its place, and evaluate the waiters of the words that they touch at their homes (R293); a
poisoned word that they overwrite whole is poisoned no more, at its home or in the L1 (R105). -/
def State.writePlaces (s : State) (core : Nat) (l : List (Place × Byte)) : State :=
  let cached := fun (x : Place × Byte) => x.1.ct != 2 && s.l1Holds x.1
  let home := (l.filter fun x => !(cached x)).map fun x => x.1.key
  let own := (l.filter cached).map fun x => x.1.key
  let whole := fun (ks : List Nat) (w : Nat) => (List.range 8).all fun i => ks.contains (w + i)
  let s := s.writeEach core l
  ({ s with
    poison := s.poison.filter fun w => !(whole home w)
    copies := s.copies.map fun c =>
      if c.inL1 core && c.bad != 0 then
        { c with bad := c.bad &&& ~~~ ((List.range 16).foldl
            (fun a w => if whole own (c.line * 128 + 8 * w) then a ||| (1#16 <<< w) else a) (0#16)) }
      else c } : State).evalWaiters fun w => home.any fun k => decide (w ≤ k) && decide (k < w + 8)

/-! ## What an access does before its bytes are performed -/

/-- The host gives up its copy of a sector of device memory in host bias (R271, R274): the bytes that it returns merge at
the home; it may keep a shared copy after a read. The host answers within the step (log entry 61). -/
def State.hostSnoop (s : State) (sector : Nat) (inv : Bool) : State :=
  match s.hostHeld.find? fun h => h.1 == sector with
  | none => s
  | some (_, modified) =>
    if !inv && !modified then s else
    let cells := (List.range 64).filterMap fun i => (Config.hostDirty s.free i).map fun b => (sector * 64 + i, b)
    let s := if modified then { s.homeWriteCells cells with free := s.free + 1 } else s
    let rest := s.hostHeld.filter fun h => h.1 != sector
    { s with
      hostHeld := if inv then rest else (sector, false) :: rest
      hostOut := s.hostOut ++ [.snoop sector] }

/-- An access of an agent reaches the home of some bytes of a line, to read or to write them: a line that another owns is
recalled (R288), in host bias the host's copy is (R271), and the L2s give up host memory that they hold (R109). `core` is
the core that the access comes from, if any; `p` the place of the line's first byte. -/
def State.atHome (s : State) (core : Option Nat) (p : Place) (m : BitVec 128) (write : Bool) : State :=
  let line := p.key / 128
  let s := match core with
    | some x => s.recallFor x line
    | none => s.recall line
  if p.hb then
    [0, 1].foldl (fun s i =>
      if m &&& rangeMask (64 * i) (64 * i + 64) = 0 then s else s.hostSnoop (2 * line + i) write) s
  else if p.tt = 3 then s.hostTakeAll line m write none
  else s

/-- What must stand before a core accesses some bytes of a line (R99, R109, R286, R288): an access that a cache may serve
gives up the L1's copy where it bypasses L1 (R32), takes host memory from other dies, and recalls a line at whose home it
arrives; one that is performed at the home first gives up the copies of its core and die, if it is no plain read, and
then reaches the home. -/
def State.approach (s : State) (core : Nat) (k : AccKind) (bypass : Bool) (p : Place) (m : BitVec 128) : State :=
  let line := p.key / 128
  let die := core / 128
  match k with
  | .read =>
    if s.l1Holds p then
      let s := if bypass then s.invalidate fun c => c.line == line && c.inL1 core else s
      if p.tt = 3 then s.hostTakeAll line m false (some die)
      else if s.holdsAll (.l1 core) line m || (l2Holds p die && s.holdsAll (.l2 die) line m) then s
      else s.recallFor core line
    else s.atHome (some core) p m false
  | .write =>
    if p.ct != 2 && s.l1Holds p then s else (s.giveUp core line).atHome (some core) p m true
  | .wait => (s.giveUp core line).atHome none p m false
  | _ => (s.giveUp core line).atHome (some core) p m true

/-- Before some accesses of the executing instruction are performed: their threads' maintenance of the same bytes is
(R115), and each line is made ready for them. -/
def State.before (s : State) (c : Cur) (k : AccKind) (bypass : Bool) (t : LineTab) (as : List LAcc) : State :=
  let s := as.foldl (fun s a => s.maintFor c.core c.slot a.tid ((a.places t).map (·.key))) s
  (allLines as).foldl (fun s l =>
    match t.get l with
    | .ok p => s.approach c.core k bypass p (bytesIn as l)
    | .error _ => s) s

/-- The scratchpad lines of some places (R107), as numbers over all cores. -/
def scrLines (ps : List Place) : List Nat :=
  (ps.filter fun p => spaceOf p.key == .scr).foldl (fun l p => insNat ((p.key - 2199023255552) / 128) l) []

/-- The first empty scratchpad line among some places (R107). -/
def State.firstEmpty (s : State) (ps : List Place) : Option Nat := (scrLines ps).find? fun l => s.emptyLines.contains l

/-- The first poisoned word among some places, as the home has them (R105). -/
def State.firstPoison (s : State) (ps : List Place) : Option Nat := (ps.find? fun p => s.poisoned p.key).map (·.key)

/-- The scope of the fences that a SEQ access carries (R260): `.sys` on HOST and PEER pages. -/
def seqScope (ps : List Place) : Option Scope :=
  if ps.any fun p => p.ct == 1 then some (if ps.any fun p => p.ct == 1 && decide (3 ≤ p.tt) then .sys else .pkg) else none

end Sys2Proof.Machine
end

