-- ==== Sys2Proof/Machine/LoadStore.lean ====
section
/-!
DEFINITION. LoadStore.lean: loads and stores through a record (R116 to R122) and of the own scratchpad (R123 to R126).
-/
namespace Sys2Proof.Machine

/-! ## The shared front end (R110) -/

/-- Bytes of an access size (R32). -/
def sizeBytes : Size → Nat
  | .n8 | .s8 => 1
  | .n16 | .s16 => 2
  | .w32 => 4
  | .w64 => 8
  | .b128 => 16

/-- The registers that a loaded value fills (R32). -/
def extendTo (sz : Size) (v : Nat) : List Word :=
  match sz with
  | .n8 => [BitVec.ofNat 32 (v % 256)]
  | .s8 => [BitVec.ofInt 32 (toSigned 8 v)]
  | .n16 => [BitVec.ofNat 32 (v % 65536)]
  | .s16 => [BitVec.ofInt 32 (toSigned 16 v)]
  | .w32 => [BitVec.ofNat 32 v]
  | .w64 => wordsOf 2 v
  | .b128 => wordsOf 4 v

/-- What the record makes of each lane's access. -/
abbrev Forms := List (LaneCtx × Form)

/-- The forms of the active threads of the executing instruction. -/
def State.forms (s : State) (k a : Nat) (imm : Int) (n al : Nat) : Forms :=
  s.lanes.map fun c => (c, formOf (c.b.krecs.getD k 0) (c.x a) imm n al)

/-- The same for the threads whose guard holds (R41, R110 step 2). -/
def State.guardedForms (s : State) (r : MG) (imm : Int) (n al : Nat) : Forms :=
  (s.lanes.filter fun c => c.t.guard r.n r.p).map fun c => (c, formOf (c.b.krecs.getD r.k 0) (c.x r.a) imm n al)

/-- The lanes that trap on the record, the bounds or the alignment. -/
def Forms.traps (fs : Forms) : List (Nat × Nat × Trap) :=
  fs.filterMap fun f => match f.2 with | .trap t => some (f.1.lane, f.1.t.tid, t) | _ => none
/-- The lanes out of bounds under a record that does not trap (R85). -/
def Forms.oobs (fs : Forms) : List LaneCtx :=
  fs.filterMap fun f => match f.2 with | .oob => some f.1 | _ => none
/-- The in-bounds accesses. -/
def Forms.accs (fs : Forms) : List LAcc :=
  fs.filterMap fun f => match f.2 with
    | .acc vas => some { lane := f.1.lane, tid := f.1.t.tid, vas := vas }
    | _ => none

/-- The asker of the executing instruction: its block. -/
def State.askerOf (s : State) (c : Cur) : Asker :=
  match s.block? c.core c.slot with
  | some b => b.asker
  | none => { asid := 0, priv := false, die := 0, ranks := none, scr := 0 }

/-- Releases by several threads at one scope. -/
def State.releaseAll (s : State) (core slot : Nat) (sc : Scope) (tids : List Nat) : State :=
  tids.foldl (fun s t => s.release core slot t sc) s

/-- The scopes of the fences that the SEQ accesses among some accesses carry (R260). -/
def seqScopes (t : LineTab) (as : List LAcc) : List (Nat × Scope) :=
  as.filterMap fun a => (seqScope (a.places t)).map fun sc => (a.tid, sc)

/-- The `FENCE.ar` before each SEQ access (R260). -/
def State.seqBefore (s : State) (c : Cur) (l : List (Nat × Scope)) : State :=
  l.foldl (fun s m => (s.release c.core c.slot m.1 m.2).acquire c.core m.2) s
/-- The `FENCE.ar` after each SEQ access (R260). -/
def State.seqAfter (s : State) (c : Cur) (l : List (Nat × Scope)) : State :=
  l.foldl (fun s m => (s.release c.core c.slot m.1 m.2).acquire c.core m.2) s

/-- BSTAT.OOB for lanes out of bounds, BSTAT.SPLIT for accesses performed over two lines (R85, R112). -/
def State.noteBstat (s : State) (c : Cur) (oob : List LaneCtx) (done : List LAcc) : State :=
  let s := if oob.isEmpty then s else s.setBstat c.core c.slot 0
  if done.any fun a => 1 < (linesOf a.vas).length then s.setBstat c.core c.slot 1 else s

/-- The executing instruction has consumed poison, or not: the launch of its block is killed (R105). -/
def State.killIf (s : State) (c : Cur) (bad : Bool) : State := if bad then s.consumePoison c.core c.slot else s

/-- Whether any byte of some accesses is poisoned as the core reads it. -/
def State.readsBad (s : State) (core : Nat) (t : LineTab) (as : List LAcc) : Bool :=
  as.any fun a => (a.places t).any (s.readBad core)

/-! ## Loads (R117, R118) -/

/-- The hint that a load leaves with its lines (R32). -/
def Hint.code (h : Hint) : Nat :=
  match h with
  | .evict => 1
  | .keep => 2
  | .normal | .bypass => 0

/-- Bring the lines that some reads touch into the caches that may hold them: with `.bypass` into L2 only (R32). -/
def State.fillReads (s : State) (core : Nat) (h : Hint) (t : LineTab) (as : List LAcc) : State :=
  (allLines as).foldl (fun s l =>
    match t.get l with
    | .error _ => s
    | .ok p => s.fillLine core p h.code (bytesIn as l) (h != .bypass)) s

/-- The value a lane reads. -/
def State.readAcc (s : State) (core : Nat) (t : LineTab) (a : LAcc) : Nat :=
  ofBytesLE ((a.places t).map fun p => s.readByte core p)

/-- A load: steps 3 to 8 of R110 on the active threads. `give` says what a thread does with the value, `zero` what it
does out of bounds, `h` the cache hint, `acq` the scope of an acquire load; without `spl`, an access over two lines is
not noted. -/
def State.load (s : State) (fs : Forms) (h : Hint) (acq : Option Scope) (give : Nat → Thread → Thread) (zero : Thread → Thread)
    (spl : Bool := true) : State :=
  match s.cur with
  | none => s
  | some c =>
    let as := fs.accs
    let (s, tab) := s.xlatLines (s.askerOf c) .read (allLines as)
    let bad := as.filterMap fun a => (a.failure tab .read).map fun t => (a.lane, a.tid, t)
    let good := as.filter fun a => (a.failure tab .read).isNone
    let waits := good.filterMap fun a => (s.firstEmpty (a.places tab)).map fun l => (a.tid, l)
    let ok := good.filter fun a => (s.firstEmpty (a.places tab)).isNone
    let seqs := seqScopes tab ok
    let s := ((s.before c .read (h == .bypass) tab ok).seqBefore c seqs).fillReads c.core h tab ok
    let bads := s.readsBad c.core tab ok
    let vals := ok.map fun a => (a.tid, s.readAcc c.core tab a)
    let oob := fs.oobs
    let s := s.modBlock c.core c.slot fun b =>
      { b with threads := b.threads.map fun t =>
          match vals.find? fun v => v.1 == t.tid with
          | some v => { give v.2 t with pc := c.nextPc }
          | none => if oob.any fun l => l.t.tid == t.tid then { zero t with pc := c.nextPc } else t }
    let s := s.seqAfter c seqs
    let s := match acq with
      | some sc => if ok.isEmpty && oob.isEmpty then s else s.acquire c.core sc
      | none => s
    let s := s.noteBstat c oob (if spl then ok else [])
    let s := waits.foldl (fun s w => s.park c.core c.slot w.1 (.emptyLine w.2)) s
    (s.trapLanes (fs.traps ++ bad)).killIf c bads

/-- `LD` (R117). -/
def execLd (sz : Size) (ch : Hint) (off : Option Nat) (r : MO) (s : State) : Res :=
  .next (s.load (s.forms r.k r.a (offImm off) (sizeBytes sz) 1) ch none (fun v t => t.later r.d (extendTo sz v))
    (fun t => t.later r.d (extendTo sz 0)))

/-- `LDA` (R118): a naturally aligned load, then an acquire. -/
def execLda (sz : Size) (ch : Hint) (sc : Scope) (off : Nat) (r : MO) (s : State) : Res :=
  .next (s.load (s.forms r.k r.a (sextN 21 off) (sizeBytes sz) (sizeBytes sz)) ch (some sc) (fun v t => t.later r.d (extendTo sz v))
    (fun t => t.later r.d (extendTo sz 0)))

/-! ## Stores (R119 to R122) -/

/-- Whether the STRM request of a VA line fails the home's test (R122), where `ls` are the lines of the instruction: the
line's written bit is set, or an earlier request of the instruction to the same home line sets it: of two VA lines that
are mapped to one, the lower comes first (log entry 83, DESIGN CHOICE). -/
def State.refused (s : State) (t : LineTab) (ls : List Nat) (l : Nat) : Bool :=
  match t.get l with
  | .ok p => p.ct == 2 && (s.written (p.key / 128) || ls.any fun x => decide (x < l) &&
      match t.get x with
      | .ok q => q.ct == 2 && q.key / 128 == p.key / 128
      | .error _ => false)
  | .error _ => false

/-- The first line of an access whose STRM request fails (R122), ascending. -/
def State.rewritten (s : State) (t : LineTab) (ls : List Nat) (a : LAcc) : Option Nat := (linesOf a.vas).find? (s.refused t ls)

/-- The home lines of the STRM requests of some accesses. -/
def strmLines (t : LineTab) (as : List LAcc) : List Nat :=
  (allLines as).filterMap fun l =>
    match t.get l with
    | .ok p => if p.ct == 2 then some (p.key / 128) else none
    | .error _ => none

/-- A store: steps 3 to 8 of R110 on the threads whose guard holds. `data` gives a thread's bytes; `rel` is the scope
of a release store (R121). Lanes write in ascending TID (R115); each STRM line is one request, tested once, and a
thread with a failing request writes nothing (R122). -/
def State.store (s : State) (fs : Forms) (rel : Option Scope) (data : LaneCtx → List Byte) : State :=
  match s.cur with
  | none => s
  | some c =>
    let as := fs.accs
    let (s, tab) := s.xlatLines (s.askerOf c) .write (allLines as)
    let bad := as.filterMap fun a => (a.failure tab .write).map fun t => (a.lane, a.tid, t)
    let good := as.filter fun a => (a.failure tab .write).isNone
    let oob := fs.oobs
    let s := s.before c .write false tab good
    let s := match rel with
      | some sc => s.releaseAll c.core c.slot sc ((good.map fun (a : LAcc) => a.tid) ++ oob.map fun (l : LaneCtx) => l.t.tid)
      | none => s
    let ls := allLines good
    let rewr := good.filterMap fun a => (s.rewritten tab ls a).map fun l =>
      (a.lane, a.tid, ({ cls := 0, cause := 5, va := firstIn a.vas l, write := true } : Trap))
    let ok := good.filter fun a => (s.rewritten tab ls a).isNone
    let seqs := seqScopes tab ok
    let s := s.seqBefore c seqs
    let fresh := (strmLines tab good).filter fun l => !(s.written l)
    let bytesOf := fun tid => ((fs.find? fun f => f.1.t.tid == tid).map fun f => data f.1).getD []
    let s := ok.foldl (fun s a => s.writePlaces c.core ((a.places tab).zip (bytesOf a.tid))) s
    let s := fresh.foldl (fun s l => s.setWritten l true) s
    let s := s.seqAfter c seqs
    let hit := bad ++ rewr
    let s := s.advance ((c.act.map (·.2)).filter fun t =>
      !((fs.traps ++ hit).any fun (m : Nat × Nat × Trap) => m.2.1 == t))
    (s.noteBstat c oob ok).trapLanes (fs.traps ++ hit)

/-- The low `n` bytes of the registers from D on. -/
def dataBytes (n d : Nat) (c : LaneCtx) : List Byte :=
  match n with
  | 8 => bytesLE 8 (c.pair d)
  | 16 => bytesLE 16 (c.quad d)
  | n => bytesLE n (c.n d)

/-- `ST` of 4 or 8 bytes (R120). -/
def execStWord (dbl : Bool) (off : Option Nat) (r : MG) (s : State) : Res :=
  let n := if dbl then 8 else 4
  .next (s.store (s.guardedForms r (offImm off) n 1) none (dataBytes n r.d))

/-- `ST` of 1 or 2 bytes (R120). -/
def execStNarrow (half : Bool) (off : Option Nat) (r : MG) (s : State) : Res :=
  let n := if half then 2 else 1
  .next (s.store (s.guardedForms r (offImm off) n 1) none (dataBytes n r.d))

/-- `ST` of 16 bytes (R120). -/
def execStB128 (off : Option Nat) (r : MG) (s : State) : Res :=
  .next (s.store (s.guardedForms r (offImm off) 16 1) none (dataBytes 16 r.d))

/-- `STR` of 8 bytes (R121): a release, then a naturally aligned store. -/
def execStr64 (sc : Scope) (off : Nat) (r : MG) (s : State) : Res :=
  .next (s.store (s.guardedForms r (sextN 21 off) 8 8) (some sc) (dataBytes 8 r.d))

/-- `STR` of 4 bytes (R121). -/
def execStr32 (sc : Scope) (off : Nat) (r : MG) (s : State) : Res :=
  .next (s.store (s.guardedForms r (sextN 21 off) 4 4) (some sc) (dataBytes 4 r.d))

/-! ## The own scratchpad (R123 to R126) -/

/-- What a scratchpad offset makes of a lane's access of `n` bytes (R123): out of bounds, misaligned (the trap has no
VA), or the offset. -/
inductive SForm where
  | oob
  | bad
  | at (o : Nat)
deriving DecidableEq, Repr

/-- The check of R123: bounds first, then natural alignment (R112). -/
def sForm (b : Block) (o : Int) (n : Nat) : SForm :=
  if o < 0 ∨ (b.scr * 128 : Int) < o + n then .oob
  else if o.toNat % n ≠ 0 then .bad
  else .at o.toNat

/-- The offset of a scratchpad instruction (R123). -/
def scrOffset (c : LaneCtx) (a : Nat) (imm : Int) : Int := (c.n a : Int) + imm

/-- The key of a byte of a block's scratchpad allocation (R106). -/
def Block.scrKey (b : Block) (o : Nat) : Nat := Machine.scrKey b.core (b.scrBase + o)
/-- The line, over all cores, of a byte of a block's scratchpad allocation. -/
def Block.scrLine (b : Block) (o : Nat) : Nat := b.core * 4096 + (b.scrBase + o) / 128

/-- A scratchpad load on the active threads: `find` gives the check of the lane's own offset and the offset it reads
(R124, R125). -/
def State.scrLoad (s : State) (n : Nat) (find : LaneCtx → SForm × Nat) (give : Nat → Thread → Thread) : State :=
  match s.cur with
  | none => s
  | some c =>
    let ls := s.lanes.map fun l => (l, find l)
    let bad := ls.filterMap fun (l, f) => match f.1 with | .bad => some (l.lane, l.t.tid, misaligned 0) | _ => none
    let oob := ls.filterMap fun (l, f) => match f.1 with | .oob => some l | _ => none
    let inb := ls.filterMap fun (l, f) => match f.1 with | .at _ => some (l, f.2) | _ => none
    let waits := inb.filter fun (l, o) => s.emptyLines.contains (l.b.scrLine o)
    let ok := inb.filter fun (l, o) => !(s.emptyLines.contains (l.b.scrLine o))
    let bads := ok.any fun (l, o) => (List.range n).any fun i => s.poisoned (l.b.scrKey o + i)
    let vals := ok.map fun (l, o) => (l.t.tid, s.rdN (l.b.scrKey o) n)
    let s := s.modBlock c.core c.slot fun b =>
      { b with threads := b.threads.map fun t =>
          match vals.find? fun v => v.1 == t.tid with
          | some v => { give v.2 t with pc := c.nextPc }
          | none => if oob.any fun l => l.t.tid == t.tid then { give 0 t with pc := c.nextPc } else t }
    let s := s.noteBstat c oob []
    let s := waits.foldl (fun s (l, o) => s.park c.core c.slot l.t.tid (.emptyLine (l.b.scrLine o))) s
    (s.trapLanes bad).killIf c bads

/-- `LDS` (R124). -/
def execLds (sz : Size) (off : Option Nat) (r : MO) (s : State) : Res :=
  .next (s.scrLoad (sizeBytes sz) (fun c =>
    let o := scrOffset c r.a (offImm off)
    (sForm c.b o (sizeBytes sz), o.toNat)) (fun v t => t.later r.d (extendTo sz v)))

/-- The size of a `TLDS` element as an access size (R125). -/
def tldsSize : TldsSize → Size
  | .n8 => .n8
  | .s8 => .s8
  | .n16 => .n16
  | .s16 => .s16
  | .w32 => .w32

/-- The transposed offset of an element of `e` bytes (R125). -/
def tldsSrc (o e : Nat) : Nat :=
  let w := o % (1024 * e)
  o - w + w % (32 * e) / e * (32 * e) + w / (32 * e) * e

/-- `TLDS` (R125): both the lane's offset and the transposed one are checked. -/
def execTlds (sz : TldsSize) (off : Option Nat) (r : MO) (s : State) : Res :=
  let e := (sizeBytes (tldsSize sz))
  .next (s.scrLoad e (fun c =>
    let o := scrOffset c r.a (offImm off)
    match sForm c.b o e with
    | .at o => (sForm c.b (tldsSrc o e) e, tldsSrc o e)
    | f => (f, 0)) (fun v t => t.later r.d (extendTo (tldsSize sz) v)))

/-- Bytes of an `STS` (R124). -/
def stsBytes : StsSize → Nat
  | .b8 => 1
  | .b16 => 2
  | .b32 => 4
  | .b64 => 8
  | .b128 => 16

/-- `STS` (R124): lanes write in ascending TID, full or empty lines alike. -/
def execSts (sz : StsSize) (off : Option Nat) (r : MG) (s : State) : Res :=
  let n := stsBytes sz
  .next (match s.cur with
    | none => s
    | some c =>
      let ls := (s.lanes.filter fun l => l.t.guard r.n r.p).map fun l => (l, sForm l.b (scrOffset l r.a (offImm off)) n)
      let bad := ls.filterMap fun (l, f) => match f with | .bad => some (l.lane, l.t.tid, misaligned 0) | _ => none
      let oob := ls.filterMap fun (l, f) => match f with | .oob => some l | _ => none
      let s := ls.foldl (fun s (l, f) =>
        match f with
        | .at o => s.homeWrite (l.b.scrKey o) (dataBytes n r.d l)
        | _ => s) s
      let s := s.advance ((c.act.map (·.2)).filter fun t => !(bad.any fun m => m.2.1 == t))
      (s.noteBstat c oob []).trapLanes bad)

end Sys2Proof.Machine
end

