-- ==== Sys2Proof/Machine/Atomics.lean ====
section
/-!
DEFINITION. Atomics.lean: atomics and counter adds (R280 to R290), and who owns a line (R286 to R288).
-/
namespace Sys2Proof.Machine

/-! ## Ownership -/

/-- Take an atomic's line to its place of performance, once what stood in its way is gone (`State.before`; R286, R287): a
quiet device-biased REL line of HBM becomes the requester's, but not in deterministic mode (R405); every other is
performed at its home. A contended line is used in its table. Values stand at the home in either case (log entry 8). -/
def State.placeOf (s : State) (core : Nat) (p : Place) : State :=
  let line := p.key / 128
  if s.contended.contains line then s.contend line
  else if p.tt = 0 ∧ p.ct = 0 ∧ !p.hb ∧ !(s.mgmt.detmode.getLsbD 63) then
    if s.owned.any (fun o => o.1 == line) then s else { s with owned := (line, core) :: s.owned }
  else s.recall line

/-! ## Reaching memory -/

/-- What the translation of some forms gives: the state, the lines, the lanes that fault, the accesses that may go
on. -/
structure Reach where
  s : State
  tab : LineTab
  bad : List (Nat × Nat × Trap)
  good : List LAcc

/-- Translate the accesses of some forms (R80, R87). -/
def State.reach (s : State) (c : Cur) (fs : Forms) (k : AccKind) : Reach :=
  let as := fs.accs
  let (s, tab) := s.xlatLines (s.askerOf c) k (allLines as)
  { s := s, tab := tab,
    bad := as.filterMap fun a => (a.failure tab k).map fun t => (a.lane, a.tid, t),
    good := as.filter fun a => (a.failure tab k).isNone }

/-- Advance every active thread but those that trap, then take the traps. -/
def State.finish (s : State) (c : Cur) (traps : List (Nat × Nat × Trap)) : State :=
  (s.advance ((c.act.map (·.2)).filter fun t => !(traps.any fun m => m.2.1 == t))).trapLanes traps

/-! ## Operations (R281, R282, R285) -/

/-- A sum of atomics: RNE, an exact zero is +0.0 (R285). -/
def atomSum (f : Fmt) (a b : Nat) : Nat :=
  match sumOf .rne [f.val a, f.val b] with
  | (.fin n m e, _) => if m = 0 then 0 else (f.round .rne false (.fin n m e)).1
  | (v, _) => (f.round .rne false v).1

/-- Apply(op, old, v) on `n` bytes (R281). -/
def atomApply (op : AtomOp) (n old v : Nat) : Nat :=
  let w := 8 * n
  match op with
  | .add => (old + v) % 2 ^ w
  | .addF32 => atomSum f32 old v
  | .addBf16x2 =>
    atomSum bf16 (old / 65536) (v / 65536) * 65536 + atomSum bf16 (old % 65536) (v % 65536)
  | .minS => if toSigned w v < toSigned w old then v else old
  | .maxS => if toSigned w old < toSigned w v then v else old
  | .minN => Nat.min old v
  | .maxN => Nat.max old v
  | .minF32 => f32.min old v
  | .maxF32 => f32.max old v
  | .and => old &&& v
  | .or => old ||| v
  | .xor => old ^^^ v
  | .exch => v

/-- An atomic on the threads whose guard holds (R283, R284): in ascending TID, `new` gives the value to write from the
old one (`none` writes nothing), `give` what the thread does with the old value. A poisoned word is consumed, and the
launch killed, before anything is written (R105). -/
def State.atomic (s : State) (fs : Forms) (n : Nat) (new : LaneCtx → Nat → Option Nat)
    (give : Nat → Thread → Thread) : State :=
  match s.cur with
  | none => s
  | some c =>
    let r := s.reach c fs .atomic
    let seqs := seqScopes r.tab r.good
    let s := (r.s.before c .atomic false r.tab r.good).seqBefore c seqs
    if (s.firstPoison (r.good.flatMap fun a => a.places r.tab)).isSome then s.consumePoison c.core c.slot else
    let s := r.good.foldl (fun s a =>
      match a.places r.tab, fs.find? fun f => f.1.t.tid == a.tid with
      | p :: _, some f =>
        let s := s.placeOf c.core p
        let old := s.rdN p.key n
        let s := match new f.1 old with
          | some v => s.rawWrite p.key (bytesLE n v)
          | none => s
        s.modThread c.core c.slot a.tid (give old)
      | _, _ => s) s
    let s := s.evalWaiters fun w => r.good.any fun a => (a.places r.tab).any fun p => decide (w ≤ p.key) && decide (p.key < w + 8)
    let s := fs.oobs.foldl (fun s l => s.modThread c.core c.slot l.t.tid (give 0)) s
    let s := s.seqAfter c seqs
    let s := s.noteBstat c fs.oobs []
    s.finish c (fs.traps ++ r.bad)

/-- The data register or pair of an atomic. -/
def LaneCtx.wide (c : LaneCtx) (dbl : Bool) (code : Nat) : Nat := if dbl then c.pair code else c.n code
/-- Bytes of a 4- or 8-byte operation. -/
def bytes48 (dbl : Bool) : Nat := if dbl then 8 else 4

/-- `ATOM` (R281, R283). -/
def execAtom (op : AtomOp) (dbl : Bool) (off : Nat) (r : MG) (s : State) : Res :=
  let n := bytes48 dbl
  .next (s.atomic (s.guardedForms r (sextN 19 off) n n) n (fun l old => some (atomApply op n old (l.wide dbl r.d)))
    (fun _ t => t))

/-- `ATOMR` (R281, R283): the old value is a variable-latency result. -/
def execAtomr (op : AtomOp) (dbl : Bool) (off : Nat) (r : MG) (s : State) : Res :=
  let n := bytes48 dbl
  .next (s.atomic (s.guardedForms r (sextN 19 off) n n) n (fun l old => some (atomApply op n old (l.wide dbl r.d)))
    (fun old t => t.later r.d (wordsOf (n / 4) old)))

/-- Bytes of a `CAS` (R282). -/
def casBytes (t : CasTy) : Nat :=
  match t with
  | .n32 => 4
  | .n64 => 8
  | .b128 => 16

/-- A group of registers as one number, the lowest first. -/
def LaneCtx.groupNat (c : LaneCtx) (code n : Nat) : Nat :=
  ofBytesLE ((c.group code n).flatMap fun w => bytesLE 4 w.toNat)

/-- `CAS` (R282, R283). -/
def execCas (t : CasTy) (off : Nat) (r : MG) (s : State) : Res :=
  let n := casBytes t
  .next (s.atomic (s.guardedForms r (sextN 19 off) n n) n
    (fun l old => if old = l.groupNat r.d (n / 4) then some (l.groupNat (r.d + n / 4) (n / 4)) else none)
    (fun old t => t.later r.d (wordsOf (n / 4) old)))

/-! ## Counter adds (R289, R290) -/

/-- The release scope of a prefix that has its bit 20 set (R289). -/
def ctrScope (off : Option Nat) : Option Scope :=
  match off with
  | none => none
  | some v => if v / 1048576 % 2 = 1 then Scope.ofCode (v / 2097152 % 8) else none

/-- The signed offset of a counter prefix: its low `w` bits. -/
def ctrOff (off : Option Nat) (w : Nat) : Int :=
  match off with
  | none => 0
  | some v => sextN w v

/-- An add performed at a memory counter's home (R279). -/
def State.counterAdd (s : State) (key v : Nat) : State := s.homeWriteN key 8 ((s.rdN key 8 + v) % 18446744073709551616)
/-- The same as a part of an event, at whose end the waiters are evaluated (R290). -/
def State.rawAdd (s : State) (key v : Nat) : State := s.rawWrite key (bytesLE 8 ((s.rdN key 8 + v) % 18446744073709551616))

/-- `CADD` (R289, R290): the releases of every thread that takes part, those out of bounds included, then the adds in
ascending TID at the home. -/
def execCadd (dbl : Bool) (off : Option Nat) (r : MG) (s : State) : Res :=
  .next (match s.cur with
    | none => s
    | some c =>
      let fs := s.guardedForms r (ctrOff off 20) 8 8
      let q := s.reach c fs .atomic
      let s := q.s.before c .atomic false q.tab q.good
      let s := match ctrScope off with
        | some sc => s.releaseAll c.core c.slot sc
            ((q.good.map fun (a : LAcc) => a.tid) ++ fs.oobs.map fun (l : LaneCtx) => l.t.tid)
        | none => s
      let seqs := seqScopes q.tab q.good
      let s := s.seqBefore c seqs
      if (s.firstPoison (q.good.flatMap fun a => a.places q.tab)).isSome then s.consumePoison c.core c.slot else
      let s := q.good.foldl (fun s a =>
        match a.places q.tab, fs.find? fun f => f.1.t.tid == a.tid with
        | p :: _, some f => (s.recall (p.key / 128)).rawAdd p.key (f.1.wide dbl r.d)
        | _, _ => s) s
      let s := s.evalWaiters fun w => q.good.any fun a => (a.places q.tab).any fun p => p.key == w
      let s := s.seqAfter c seqs
      let s := s.noteBstat c fs.oobs []
      s.finish c (fs.traps ++ q.bad))

/-! ## Events of ownership -/

/-- The home recalls a line (R288). -/
def execOwnershipRecall (line : Nat) (s : State) : Res := .next (s.recall line)

/-- A line leaves the contention table (R287), unless a waiter is registered on it. -/
def execContentionEntryExpiry (line : Nat) (s : State) : Res :=
  .next (if s.waitedLine line then s else { s with contended := s.contended.filter (· != line) })

end Sys2Proof.Machine
end

