-- ==== Sys2Proof/Machine/Casting.lean ====
section
/-!
DEFINITION. Casting.lean: the Casting unit (R304 to R310, R322).
-/
namespace Sys2Proof.Machine

/-- The kind of a group of ready threads (R306), in the order that breaks ties: a bound group, quad units, plain. -/
inductive GKind where
  | bound (g : Nat)
  | quad
  | plain
deriving DecidableEq, Repr

/-- The place of a kind in the order of R306. -/
def GKind.rank : GKind → Nat
  | .bound _ => 0
  | .quad => 1
  | .plain => 2

/-- The kind of a thread in the pool. -/
def Thread.kind (t : Thread) : GKind :=
  match t.bound with
  | some g => .bound g
  | none => if t.quadUnit then .quad else .plain

/-- The pool-entry step of a ready thread. -/
def Thread.ready? (t : Thread) : Option Nat :=
  match t.cond with
  | .pool e true => some e
  | _ => none

/-- Whether a thread may be cast: ready, not on its way back to the debug halt, and, in a bound group, with every other
member ready (R306, R324). -/
def castable (b : Block) (t : Thread) : Bool :=
  t.ready?.isSome && !t.stepping &&
    (match t.bound with
      | none => true
      | some g => b.threads.all fun u => !(u.bound == some g && u.live) || u.ready?.isSome)

/-- A group: its PC, its kind, its age, its lowest TID. -/
structure Group where
  pc : Word
  kind : GKind
  age : Nat
  low : Nat
deriving DecidableEq, Repr

/-- The groups of a block's castable threads (R306). -/
def groupsOf (b : Block) : List Group :=
  let ts := b.threads.filter (castable b)
  ((ts.map fun t => (t.pc, t.kind)).eraseDups).map fun k =>
    let ms := ts.filter fun t => t.pc == k.1 && t.kind == k.2
    { pc := k.1, kind := k.2,
      age := ms.foldl (fun a t => Nat.min a (t.ready?.getD a)) ((ms.head?.bind (·.ready?)).getD 0),
      low := ms.foldl (fun a t => Nat.min a t.tid) ((ms.head?.map (·.tid)).getD 0) }

/-- Whether a group comes before another (R306): least age, lower PC, kind, lowest TID. -/
def Group.before (a b : Group) : Bool :=
  if a.age ≠ b.age then decide (a.age < b.age)
  else if a.pc ≠ b.pc then decide (a.pc.toNat < b.pc.toNat)
  else if a.kind.rank ≠ b.kind.rank then decide (a.kind.rank < b.kind.rank)
  else decide (a.low < b.low)

/-- The first of some groups. -/
def firstGroup : List Group → Option Group
  | [] => none
  | g :: r =>
    match firstGroup r with
    | none => some g
    | some h => if h.before g then some h else some g

/-- Put a thread in a lane if the lane is free. -/
def placeAt (lanes : List (Option Nat)) (l tid : Nat) : Option (List (Option Nat)) :=
  match lanes[l]? with
  | some none => some (lanes.set l (some tid))
  | _ => none

/-- Home lanes first, in ascending TID; who finds it taken is left over (R306). -/
def placeHome : List Nat → List (Option Nat) → List (Option Nat) × List Nat
  | [], ls => (ls, [])
  | t :: r, ls =>
    match placeAt ls (t % 32) t with
    | some ls' => placeHome r ls'
    | none => let (a, rest) := placeHome r ls; (a, t :: rest)

/-- The threads left over take the lowest free lanes (R306). -/
def placeRest : List Nat → List (Option Nat) → List (Option Nat)
  | [], ls => ls
  | t :: r, ls => placeRest r (ls.set (ls.findIdx Option.isNone) (some t))

/-- Lanes of a plain group: its first 32 threads in ascending TID (R306). -/
def placePlain (tids : List Nat) : List (Option Nat) :=
  let (ls, rest) := placeHome (tids.take 32) (List.replicate 32 none)
  placeRest rest ls

/-- Lanes of quad units, in ascending QID: a unit whose four lanes are not free waits (R308). -/
def placeQuads : List Nat → List Nat → List (Option Nat) → List (Option Nat)
  | [], _, ls => ls
  | q :: r, tids, ls =>
    let l0 := 4 * (q % 8)
    if (List.range 4).all fun m => ls.getD (l0 + m) none == none then
      placeQuads r tids ((tids.filter fun t => t / 4 == q).foldl (fun ls t => ls.set (l0 + t % 4) (some t)) ls)
    else placeQuads r tids ls

/-- Lanes of a bound group: those its members held (R308). -/
def placeBound (ts : List Thread) : List (Option Nat) :=
  ts.foldl (fun ls t => ls.set t.homeLane (some t.tid)) (List.replicate 32 none)

/-- The lanes of the warp that a group forms. -/
def lanesOf (b : Block) (g : Group) : List (Option Nat) :=
  let ms := b.threads.filter fun t => castable b t && t.pc == g.pc && t.kind == g.kind
  let tids := ms.foldl (fun l t => insNat t.tid l) []
  match g.kind with
  | .bound _ => placeBound ms
  | .quad => placeQuads ((tids.map (· / 4)).eraseDups) tids (List.replicate 32 none)
  | .plain => placePlain tids

/-- The pipe that a new warp of a core goes to: the fewest warps, then the lowest number (R309). -/
def State.pipeFor (s : State) (core : Nat) : Nat :=
  let n := fun p => (s.warps.filter fun w => w.core == core && w.pipe == p).length
  (List.range 4).foldl (fun best p => if n p < n best then p else best) 0

/-- Cast a set of lanes of a block as a warp (R306, R307). For a debug step the threads of a bound group stay its members
until they issue (R308, R324). -/
def State.cast (s : State) (core slot : Nat) (lanes : List (Option Nat)) (debug : Bool) : State :=
  let w : Warp :=
    { core := core, slot := slot, id := s.nextWarp, pipe := s.pipeFor core, lanes := lanes, last := s.now,
      displaced := (lanes.zipIdx).any (fun p => p.1.any fun t => t % 32 != p.2), debug := debug }
  let tids := lanes.filterMap id
  let placed := fun (t : Thread) => { t with cond := .cast, bound := if debug then t.bound else none, quadUnit := false }
  let s := s.modBlock core slot fun b => { b with threads := mapIf (fun t => tids.contains t.tid) placed b.threads }
  { s with warps := s.warps ++ [w], nextWarp := s.nextWarp + 1 }

/-- The block slot last cast for on a core (R306). -/
def State.castAfter (s : State) (core : Nat) : Nat :=
  ((s.lastCast.find? fun p => p.1 == core).map (·.2)).getD 31

/-- Whether a block's cluster is being saved (R378): its threads are not cast. -/
def State.beingSaved (s : State) (b : Block) : Bool :=
  match s.saving with
  | some (l, c, _) => b.launch == l && b.clid.toNat == c
  | none => false

/-- Whether a core has a warp slot free (R306). -/
def State.warpRoom (s : State) (core : Nat) : Bool := decide ((s.warps.filter fun w => w.core == core).length < 64)

/-- The Casting unit of a core forms at most one warp (R306): not with 64 warps on the core; a warp that a debug step still
waits for, or one for the first block in round-robin order that has a ready thread. -/
def execWarpForm (core : Nat) (s : State) : Res :=
  .next (
    if !(s.warpRoom core) then s else
    match s.steps.find? fun w => w.1 == core with
    | some w =>
      let halted := fun tid => (s.thread? core w.2.1 tid).any fun t => !t.owes && match t.cond with
        | .wings (.debug _) | .wings .cleared => true
        | _ => false
      let lanes := w.2.2.map fun o => o.filter halted
      let s := { s with steps := s.steps.erase w }
      if lanes.any Option.isSome then s.cast core w.2.1 lanes true else s.debugDone
    | none =>
    let k := s.castAfter core
    let order := (List.range 32).map fun i => (k + 1 + i) % 32
    match order.findSome? fun slot =>
        (s.block? core slot).bind fun b => if b.ph = 0 ∧ !(s.beingSaved b) then (firstGroup (groupsOf b)).map fun g => (b, g) else none with
    | none => s
    | some (b, g) =>
      let s := s.cast core b.slot (lanesOf b g) false
      { s with lastCast := (core, b.slot) :: s.lastCast.filter fun p => p.1 != core })

/-- The threads of a block that entered the pool no later than a step become ready, but for one that is owed a result: it
enters when the result has landed (R44). -/
def readyUpTo (e : Nat) (b : Block) : Block :=
  { b with threads := b.threads.map fun t =>
      match t.cond with
      | .pool x _ => if x ≤ e ∧ !t.owes then { t with cond := .pool x true } else t
      | _ => t }

/-- A thread that has been in the pool for 4 cycles becomes ready, and with it every thread of its core that entered the
pool when it did or before (R304, R306, R310). -/
def execPoolReady (core slot tid : Nat) (s : State) : Res :=
  .next (match s.thread? core slot tid with
    | none => s
    | some t =>
      match t.cond with
      | .pool e _ =>
        if t.owes then s
        else { s with blocks := mapIf (fun b => b.core == core) (readyUpTo e) s.blocks }
      | _ => s)

/-- The last member's reason has cleared: a bound group enters the pool as one; a group that a member's exit has broken
enters as plain threads (R308). -/
def execBoundGroupRelease (core slot grp : Nat) (s : State) : Res :=
  .next (s.modBlock core slot fun b =>
    let ms := b.threads.filter fun t => t.bound == some grp
    let broken := ms.any fun t => !t.live
    let whole := ms.all fun t => t.cond == .wings .cleared && !t.owes
    { b with threads := b.threads.map fun t =>
        if t.bound != some grp then t
        else if broken then
          { t with bound := none, cond := if t.cond == .wings .cleared then .pool s.now false else t.cond }
        else if whole then { t with cond := .pool s.now false } else t })

/-- A thread of a core has been ready for 2,048 cycles while the core holds 64 warps: the next instruction of each of
its partial warps counts as marked (R322). -/
def execCastingStarvation (core : Nat) (s : State) : Res :=
  .next (
    let ready := s.blocks.any fun b => b.core == core && b.threads.any fun t => t.ready?.isSome
    if ready && !(s.warpRoom core) then
      let partialOf := fun (w : Warp) => w.core == core && decide (w.members.length < 32)
      { s with warps := mapIf partialOf (fun w => { w with starve := true }) s.warps }
    else s)

end Sys2Proof.Machine
end

