-- ==== Sys2Proof/Machine/IntArith.lean ====
section
/-!
DEFINITION. IntArith.lean: integer arithmetic (R189 to R192).
-/
namespace Sys2Proof

/-- Whether a type of F is signed. -/
def Sg.signed (t : Sg) : Bool := t == .s32
/-- Int(t, v) of a 32-bit value (R189). -/
def Sg.int (t : Sg) (v : Word) : Int := if t.signed then v.toInt else (v.toNat : Int)
/-- Int(t, v) of a pair. -/
def Sg64.int (t : Sg64) (v : Nat) : Int := match t with | .n64 => (v : Int) | .s64 => toSigned 64 v
/-- Whether the type is signed. -/
def Sg64.signed (t : Sg64) : Bool := t == .s64

end Sys2Proof

namespace Sys2Proof.Machine

/-- Bounds of an integer type: signed, width. -/
def intLo (sg : Bool) (w : Nat) : Int := if sg then -((2 ^ (w - 1) : Nat) : Int) else 0
/-- The largest value of an integer type. -/
def intHi (sg : Bool) (w : Nat) : Int := if sg then ((2 ^ (w - 1) : Nat) : Int) - 1 else ((2 ^ w : Nat) : Int) - 1
/-- Sat(t, r) (R8). -/
def clampTo (sg : Bool) (w : Nat) (r : Int) : Int :=
  if r < intLo sg w then intLo sg w else if intHi sg w < r then intHi sg w else r

/-- Write an exact 32-bit result under the effect of R189: clamped with NV under SAT, else modulo 2^32. -/
def Thread.giveInt (t : Thread) (d : Nat) (sat sg : Bool) (r : Int) : Thread :=
  if sat then (t.setN d (wrapNat 32 (clampTo sg 32 r))).raiseNV (clampTo sg 32 r != r)
  else t.setN d (wrapNat 32 r)
/-- The same for a pair (R191). -/
def Thread.giveInt64 (t : Thread) (d : Nat) (sat sg : Bool) (r : Int) : Thread :=
  if sat then (t.setPair d (wrapNat 64 (clampTo sg 64 r))).raiseNV (clampTo sg 64 r != r)
  else t.setPair d (wrapNat 64 r)

/-- The third source: X(C) with CV, else the destination's old value (R189, R200, R202). -/
def LaneCtx.third (c : LaneCtx) (p : Option RPfx) (d : Nat) : Word := c.x (if (pfx p).cv then (pfx p).c else d)

/-- `ADD` (R189). -/
def execAdd (t : Sg) (p : Option RPfx) (r : R3) (s : State) : Res :=
  .next (s.vec fun c => c.t.giveInt r.d (pfx p).sat t.signed (t.int (c.x r.a) + t.int (c.x r.b)))

/-- `ADDI` (R189). -/
def execAddi (p : Option Nat) (r : RI) (s : State) : Res :=
  .next (s.vec fun c => c.t.setX r.d (c.x r.a + riImm p r))

/-- `SUB` (R189). -/
def execSub (t : Sg) (p : Option RPfx) (r : R3) (s : State) : Res :=
  .next (s.vec fun c => c.t.giveInt r.d (pfx p).sat t.signed (t.int (c.x r.a) - t.int (c.x r.b)))

/-- `MUL` (R189). -/
def execMul (t : Sg) (p : Option RPfx) (r : R3) (s : State) : Res :=
  .next (s.vec fun c => c.t.giveInt r.d (pfx p).sat t.signed (t.int (c.x r.a) * t.int (c.x r.b)))

/-- `MULHI` (R189): the floor of the product by 2^32. -/
def execMulhi (t : Sg) (r : R3) (s : State) : Res :=
  .next (s.vec fun c => c.t.setN r.d (wrapNat 32 ((t.int (c.x r.a) * t.int (c.x r.b)).fdiv 4294967296)))

/-- `MAD` (R189). -/
def execMad (t : Sg) (p : Option RPfx) (r : R3) (s : State) : Res :=
  .next (s.vec fun c =>
    c.t.giveInt r.d (pfx p).sat t.signed (t.int (c.x r.a) * t.int (c.x r.b) + t.int (c.third p r.d)))


/-- `ADD64` (R191). -/
def execAdd64 (t : Sg64) (p : Option RPfx) (r : R3) (s : State) : Res :=
  .next (s.vec fun c => c.t.giveInt64 r.d (pfx p).sat t.signed (t.int (c.pair r.a) + t.int (c.pair r.b)))

/-- `SUB64` (R191). -/
def execSub64 (t : Sg64) (p : Option RPfx) (r : R3) (s : State) : Res :=
  .next (s.vec fun c => c.t.giveInt64 r.d (pfx p).sat t.signed (t.int (c.pair r.a) - t.int (c.pair r.b)))

/-- `MUL64` (R191): of pairs modulo 2^64 or saturating, of single registers exact. -/
def execMul64 (t : MulTy) (p : Option RPfx) (r : R3) (s : State) : Res :=
  .next (s.vec fun c =>
    match t with
    | .n64 => c.t.giveInt64 r.d (pfx p).sat false ((c.pair r.a : Int) * c.pair r.b)
    | .s64 => c.t.giveInt64 r.d (pfx p).sat true (toSigned 64 (c.pair r.a) * toSigned 64 (c.pair r.b))
    | .n32 => c.t.setPair r.d (c.n r.a * c.n r.b)
    | .s32 => c.t.setPair r.d (wrapNat 64 (c.i r.a * c.i r.b)))

/-- Quotient and remainder of R190 for a type: signed, width; the borderline cases of its table included. -/
def divRem (sg : Bool) (w a b : Nat) : Nat × Nat :=
  if sg then
    let x := toSigned w a
    let y := toSigned w b
    if y = 0 then (wrapNat w (if 0 ≤ x then intHi true w else intLo true w), a)
    else (wrapNat w (x.tdiv y), wrapNat w (x.tmod y))
  else if b = 0 then (2 ^ w - 1, a)
  else (a / b, a % b)

/-- Quotient and remainder of the operands of an `IDIV` or `IREM`. -/
def LaneCtx.divide (c : LaneCtx) (t : DivTy) (a b : Nat) : Nat × Nat :=
  match t with
  | .n32 => divRem false 32 (c.n a) (c.n b)
  | .s32 => divRem true 32 (c.n a) (c.n b)
  | .n64 => divRem false 64 (c.pair a) (c.pair b)
  | .s64 => divRem true 64 (c.pair a) (c.pair b)

/-- Write a result of the width of a division's type. -/
def Thread.giveDiv (t : Thread) (ty : DivTy) (d v : Nat) : Thread :=
  match ty with
  | .n32 | .s32 => t.setN d v
  | .n64 | .s64 => t.setPair d v

/-- `IDIV` (R190). -/
def execIdiv (t : DivTy) (r : R3) (s : State) : Res :=
  .next (s.vec fun c => c.t.giveDiv t r.d (c.divide t r.a r.b).1)

/-- `IREM` (R190). -/
def execIrem (t : DivTy) (r : R3) (s : State) : Res :=
  .next (s.vec fun c => c.t.giveDiv t r.d (c.divide t r.a r.b).2)

/-- `MIN` (R192). -/
def execMin (t : Sg) (r : R3) (s : State) : Res :=
  .next (s.vec fun c => c.t.setX r.d (if t.int (c.x r.a) ≤ t.int (c.x r.b) then c.x r.a else c.x r.b))

/-- `MAX` (R192). -/
def execMax (t : Sg) (r : R3) (s : State) : Res :=
  .next (s.vec fun c => c.t.setX r.d (if t.int (c.x r.a) ≤ t.int (c.x r.b) then c.x r.b else c.x r.a))

/-- `ABS` (R192). -/
def execAbs (t : AbsTy) (p : Option RPfx) (r : R3) (s : State) : Res :=
  .next (s.vec fun c =>
    match t with
    | .s32 => c.t.giveInt r.d (pfx p).sat true ((c.i r.a).natAbs : Int)
    | .s64 => c.t.giveInt64 r.d (pfx p).sat true ((toSigned 64 (c.pair r.a)).natAbs : Int))

/-- `NEG` (R192). -/
def execNeg (t : AbsTy) (p : Option RPfx) (r : R3) (s : State) : Res :=
  .next (s.vec fun c =>
    match t with
    | .s32 => c.t.giveInt r.d (pfx p).sat true (-(c.i r.a))
    | .s64 => c.t.giveInt64 r.d (pfx p).sat true (-(toSigned 64 (c.pair r.a))))

/-! ## Dot products and widening adds (R200, R201) -/

/-- Byte `i` of a word under an element type: signed or natural. -/
def byteInt (sg : Bool) (v : Word) (i : Nat) : Int :=
  if sg then toSigned 8 (v.toNat / 256 ^ i) else ((v.toNat / 256 ^ i % 256 : Nat) : Int)

/-- `DOT4` (R200). -/
def execDot4 (t : DotTy) (p : Option RPfx) (r : R3) (s : State) : Res :=
  let ta := t == .s8 || t == .s8n8
  let tb := t == .s8 || t == .n8s8
  let sg := t != .n8
  .next (s.vec fun c =>
    let acc : Int := if sg then (c.third p r.d).toInt else ((c.third p r.d).toNat : Int)
    let sum := (List.range 4).foldl (fun a i => a + byteInt ta (c.x r.a) i * byteInt tb (c.x r.b) i) acc
    c.t.giveInt r.d (pfx p).sat sg sum)

/-- `WADD` (R201). -/
def execWadd (t : WaddTy) (p : Option RPfx) (r : R3) (s : State) : Res :=
  let e := (pfx p).ext
  .next (s.vec fun c =>
    let b := c.n r.b
    match t with
    | .n8 => c.t.giveInt r.d (pfx p).sat false ((c.n r.a : Int) + (b / 256 ^ e % 256 : Nat))
    | .s8 => c.t.giveInt r.d (pfx p).sat true (c.i r.a + toSigned 8 (b / 256 ^ e))
    | .n16 => c.t.giveInt r.d (pfx p).sat false ((c.n r.a : Int) + (b / 65536 ^ e % 65536 : Nat))
    | .s16 => c.t.giveInt r.d (pfx p).sat true (c.i r.a + toSigned 16 (b / 65536 ^ e)))

end Sys2Proof.Machine
end

