-- ==== Sys2Proof/Machine/Logic.lean ====
section
/-!
DEFINITION. Logic.lean: logic, shifts, bit fields and moves (R193 to R196).
-/
namespace Sys2Proof.Machine

/-- `AND` (R193). -/
def execAnd (r : R3) (s : State) : Res := .next (s.vec fun c => c.t.setX r.d (c.x r.a &&& c.x r.b))
/-- `OR` (R193). -/
def execOr (r : R3) (s : State) : Res := .next (s.vec fun c => c.t.setX r.d (c.x r.a ||| c.x r.b))
/-- `XOR` (R193). -/
def execXor (r : R3) (s : State) : Res := .next (s.vec fun c => c.t.setX r.d (c.x r.a ^^^ c.x r.b))
/-- `ANDN` (R193). -/
def execAndn (r : R3) (s : State) : Res := .next (s.vec fun c => c.t.setX r.d (c.x r.a &&& ~~~ (c.x r.b)))

/-- The shift amount (R193): X(B), or EXT with `zr` behind a prefix. -/
def LaneCtx.amount (c : LaneCtx) (p : Option RPfx) (r : R3) : Nat :=
  match p with
  | some q => if r.b = 127 then q.ext % 64 else c.n r.b
  | none => c.n r.b

/-- `SHL` (R193). -/
def execShl (p : Option RPfx) (r : R3) (s : State) : Res :=
  .next (s.vec fun c =>
    let n := c.amount p r
    c.t.setX r.d (if n < 32 then c.x r.a <<< n else 0))
/-- `SHR` (R193). -/
def execShr (p : Option RPfx) (r : R3) (s : State) : Res :=
  .next (s.vec fun c =>
    let n := c.amount p r
    c.t.setX r.d (if n < 32 then c.x r.a >>> n else 0))
/-- `SAR` (R193): for 32 or more, all bits equal to X(A)[31]. -/
def execSar (p : Option RPfx) (r : R3) (s : State) : Res :=
  .next (s.vec fun c => c.t.setX r.d ((c.x r.a).sshiftRight (Nat.min (c.amount p r) 32)))
/-- `ROT` (R193). -/
def execRot (p : Option RPfx) (r : R3) (s : State) : Res :=
  .next (s.vec fun c => c.t.setX r.d ((c.x r.a).rotateLeft (c.amount p r % 32)))
/-- `FSHL` (R194). -/
def execFshl (p : RPfx) (r : R3) (s : State) : Res :=
  .next (s.vec fun c =>
    let n := if p.cv then c.n p.c % 32 else p.ext % 32
    c.t.setN r.d ((c.n r.a * 4294967296 + c.n r.b) * 2 ^ n / 4294967296))

/-- The number of 1 bits among the low `w` bits. -/
def popCount : Nat → Nat → Nat
  | 0, _ => 0
  | w + 1, v => v % 2 + popCount w (v / 2)
/-- The number of trailing zeros among the low `w` bits; `w` for 0. -/
def trailingZeros : Nat → Nat → Nat
  | 0, _ => 0
  | w + 1, v => if v % 2 = 1 then 0 else 1 + trailingZeros w (v / 2)
/-- The bits of a `w`-bit value in the other order. -/
def reverseBits : Nat → Nat → Nat
  | 0, _ => 0
  | w + 1, v => v % 2 * 2 ^ w + reverseBits w (v / 2)

/-- `POPC` (R195). -/
def execPopc (r : R3) (s : State) : Res := .next (s.vec fun c => c.t.setN r.d (popCount 32 (c.n r.a)))
/-- `CLZ` (R195). -/
def execClz (r : R3) (s : State) : Res :=
  .next (s.vec fun c => c.t.setN r.d (trailingZeros 32 (reverseBits 32 (c.n r.a))))
/-- `CTZ` (R195). -/
def execCtz (r : R3) (s : State) : Res := .next (s.vec fun c => c.t.setN r.d (trailingZeros 32 (c.n r.a)))
/-- `BREV` (R195). -/
def execBrev (r : R3) (s : State) : Res := .next (s.vec fun c => c.t.setN r.d (reverseBits 32 (c.n r.a)))

/-- First bit and length of the field that X(B) names (R195). -/
def fieldOf (b : Nat) : Nat × Nat :=
  let p := Nat.min (b % 256) 32
  (p, Nat.min (b / 256 % 256) (32 - p))

/-- `BFE` (R195). -/
def execBfe (t : Sg) (r : R3) (s : State) : Res :=
  .next (s.vec fun c =>
    let (p, l) := fieldOf (c.n r.b)
    let v := c.n r.a / 2 ^ p % 2 ^ l
    c.t.setN r.d (if l = 0 then 0 else if t.signed then wrapNat 32 (toSigned l v) else v))

/-- `BFI` (R195). -/
def execBfi (r : R3) (s : State) : Res :=
  .next (s.vec fun c =>
    let (p, l) := fieldOf (c.n r.b)
    let old := c.n r.d
    c.t.setN r.d (if l = 0 then old
      else old - old / 2 ^ p % 2 ^ l * 2 ^ p + c.n r.a % 2 ^ l * 2 ^ p))

/-- `MOV` (R196). -/
def execMov (r : R3) (s : State) : Res := .next (s.vec fun c => c.t.setX r.d (c.x r.a))
/-- `MOVI` (R196). -/
def execMovi (p : Option Nat) (r : RL) (s : State) : Res := .next (s.vec fun c => c.t.setX r.d (rlImm p r))
/-- `MOVHI` (R196). -/
def execMovhi (r : RL) (s : State) : Res :=
  .next (s.vec fun c => c.t.setN r.d (r.imm % 65536 * 65536 + c.n r.d % 65536))

end Sys2Proof.Machine
end

