-- ==== Sys2Proof/Machine/Compare.lean ====
section
/-!
DEFINITION. Compare.lean: compares, select and predicates (R197 to R199).
-/
namespace Sys2Proof

/-- A condition of R197 on two values of `w` bits. -/
def CC.holds (cc : CC) (w a b : Nat) : Bool :=
  match cc with
  | .eq => a == b
  | .ne => a != b
  | .ltS => decide (toSigned w a < toSigned w b)
  | .geS => decide (toSigned w b ≤ toSigned w a)
  | .ltN => decide (a < b)
  | .geN => decide (b ≤ a)

end Sys2Proof

namespace Sys2Proof.Machine

/-- `CMP` (R197): EXT[0] compares pairs. -/
def execCmp (cc : CC) (p : Option RPfx) (r : R3) (s : State) : Res :=
  .next (s.vec fun c =>
    c.t.setPred (r.d % 8)
      (if (pfx p).ext = 1 then cc.holds 64 (c.pair r.a) (c.pair r.b) else cc.holds 32 (c.n r.a) (c.n r.b)))

/-- `CMPI` (R197). -/
def execCmpi (cc : CC) (p : Option Nat) (r : RI) (s : State) : Res :=
  .next (s.vec fun c => c.t.setPred (r.d % 8) (cc.holds 32 (c.n r.a) (riImm p r).toNat))

/-- `SEL` (R198). -/
def execSel (q : Nat) (r : R3) (s : State) : Res :=
  .next (s.vec fun c => c.t.setX r.d (if c.t.pred q then c.x r.a else c.x r.b))

/-- `PAND` (R199). -/
def execPand (r : R3) (s : State) : Res :=
  .next (s.vec fun c => c.t.setPred (r.d % 8) (c.t.pred (r.a % 8) && c.t.pred (r.b % 8)))
/-- `POR` (R199). -/
def execPor (r : R3) (s : State) : Res :=
  .next (s.vec fun c => c.t.setPred (r.d % 8) (c.t.pred (r.a % 8) || c.t.pred (r.b % 8)))
/-- `PXOR` (R199). -/
def execPxor (r : R3) (s : State) : Res :=
  .next (s.vec fun c => c.t.setPred (r.d % 8) (c.t.pred (r.a % 8) != c.t.pred (r.b % 8)))
/-- `PNOT` (R199). -/
def execPnot (r : R3) (s : State) : Res :=
  .next (s.vec fun c => c.t.setPred (r.d % 8) (!(c.t.pred (r.a % 8))))

end Sys2Proof.Machine
end

