-- ==== Sys2Proof/Machine/Control.lean ====
section
/-!
DEFINITION. Control.lean: the control flow of threads (R38, R39, R56, R312 to R320). That the meetings of a block are
examined again after every instruction (R313) is said once, where a warp issues (Machine/Issue.lean).
-/
namespace Sys2Proof.Machine

/-- `NOP` (R56): no effect but the pc's advance. -/
def execNop (s : State) : Res := .next (s.vec fun c => c.t)

/-- The target of a direct branch (R38). -/
def directTarget (pc : Word) (off : Nat) : Word :=
  (pc &&& 0xFFFFFFC0) + BitVec.ofInt 32 (sextN 19 off * 64)

/-- The link of a call (R39): the next fetch block after the call's last word. -/
def linkOf (pc : Word) (len : Nat) : Word :=
  (pc + BitVec.ofNat 32 len + 63) &&& 0xFFFFFFC0

/-- A branch (R315): each active thread whose guard holds goes to its target, the others fall through; a thread that
takes an indirect branch to an offset that is no multiple of 64 traps (R38); a call writes its link (R39). The warp
continues intact only with H = 0 and agreement among the threads that did not trap (R305). -/
def State.branch (s : State) (h : Bool) (n : Bool) (p : Nat) (target : LaneCtx → Word) (call : Bool) : State :=
  match s.cur with
  | none => s
  | some c =>
    let ls := s.lanes
    let bad := fun (l : LaneCtx) => l.t.guard n p && (target l).toNat % 64 != 0
    let ok := ls.filter fun l => !(bad l)
    let goes := fun (l : LaneCtx) => if l.t.guard n p then target l else c.nextPc
    let step1 := fun (l : LaneCtx) =>
      let t := if call && l.t.guard n p then l.t.setX 119 (linkOf c.pc c.len) else l.t
      { t with pc := goes l }
    let s1 := s.modBlock c.core c.slot fun b =>
      { b with threads := b.threads.map fun t =>
          match ok.find? fun l => l.t.tid == t.tid with
          | some l => step1 l
          | none => t }
    let agree := match ok with
      | [] => true
      | l :: r => r.all fun m => goes m == goes l
    let s2 := if h || !agree then s1.toPool c.core c.slot (ok.map fun l => l.t.tid) else s1
    s2.trapLanes ((ls.filter bad).map fun l => (l.lane, l.t.tid, misaligned 0))

/-- `BRA` (R316). -/
def execBra (r : BR) (s : State) : Res :=
  .next (match s.cur with
    | none => s
    | some c => s.branch r.h r.n r.p (fun _ => directTarget c.pc r.off) false)

/-- `BRX` (R316). -/
def execBrx (r : BX) (s : State) : Res := .next (s.branch r.h r.n r.p (fun l => l.x r.a) false)

/-- `CALL` (R316). -/
def execCall (r : BR) (s : State) : Res :=
  .next (match s.cur with
    | none => s
    | some c => s.branch r.h r.n r.p (fun _ => directTarget c.pc r.off) true)

/-- `CALLX` (R316). -/
def execCallx (r : BX) (s : State) : Res := .next (s.branch r.h r.n r.p (fun l => l.x r.a) true)

/-- `RET` (R316): the effect of `BRX`. -/
def execRet (r : BX) (s : State) : Res := .next (s.branch r.h r.n r.p (fun l => l.x r.a) false)

/-- Whether a `JOIN` at J by the active threads `act` has nothing to wait for (R312). -/
def joinFree (b : Block) (j : Word) (ms : List Nat) : Bool :=
  !(b.threads.any fun t => !(ms.contains t.tid) && t.due j) && !(b.threads.any fun t => t.cond == .held j)

/-- `JOIN` (R312, R317): the pc of a held thread is that of the instruction behind (R303). -/
def execJoin (_mark : Bool) (_low : Nat) (s : State) : Res :=
  .next (match s.cur with
    | none => s
    | some c =>
      let ms := (s.lanes.filter fun l => l.t.mr == c.pc).map fun l => l.t.tid
      match s.block? c.core c.slot with
      | none => s
      | some b =>
        if ms.isEmpty || joinFree b c.pc ms then s.advanceAll
        else s.advanceAll.leave c.core c.slot ms (.held c.pc))

/-- `MRSET` (R318): bits [1:0] are dropped. -/
def execMrset (p : Option Nat) (r : RI) (s : State) : Res :=
  .next (s.vec fun c => { c.t with mr := (c.x r.a + riImm p r) &&& 0xFFFFFFFC })

/-- `MRSWAP` (R318): the old MR goes to D, then MR becomes the label's offset. -/
def execMrswap (p : Option Nat) (r : RL) (s : State) : Res :=
  .next (match s.cur with
    | none => s
    | some c => s.vec fun l => { l.t.setX r.d l.t.mr with mr := (c.pc + rlImm p r * 4) &&& 0xFFFFFFFC })

/-- `EXIT` (R319): outstanding results land, the threads are never live again. -/
def execExit (_mark : Bool) (_low : Nat) (s : State) : Res :=
  .next (match s.cur with
    | none => s
    | some c => (s.leave c.core c.slot (c.act.map (·.2)) .exited).meetQuads c.core c.slot)

/-- `WBASE` (R320): a base outside 0 to N - 8 traps with subcode 5 and leaves `WB`. -/
def execWbase (r : RI) (s : State) : Res :=
  let n : Int := sextN 10 r.imm * 8
  let bad := fun (l : LaneCtx) => decide (n < 0) || decide ((l.b.nregs : Int) < n + 8)
  .next ((s.vecOf (fun l => !(bad l)) fun l => { l.t with wb := BitVec.ofInt 32 n }).trapLanes
    ((s.lanes.filter bad).map fun l => (l.lane, l.t.tid, illegal 5)))

end Sys2Proof.Machine
end

