-- ==== Sys2Proof/Machine/FloatInstr.lean ====
section
/-!
DEFINITION. FloatInstr.lean: the FP32 and paired 16-bit instructions (R202 to R207).
-/
namespace Sys2Proof.Machine

/-- X(code) as FP32. -/
def LaneCtx.f (c : LaneCtx) (code : Nat) : FV := f32.val (c.n code)

/-- D := an encoding, flags raised. -/
def Thread.giveF (t : Thread) (d : Nat) (r : Nat × Fl) : Thread := (t.setN d r.1).raise r.2

/-- Round an exact result to FP32 and add NV for an invalid operation (R167, R168). -/
def roundF32 (mode : RMode) (v : FV × Bool) : Nat × Fl :=
  let r := f32.round mode false v.1
  (r.1, r.2.or { nv := v.2 })

/-- `FADD` (R202). -/
def execFadd (p : Option RPfx) (r : R3) (s : State) : Res :=
  .next (s.vec fun c =>
    let m := rmodeOf c.t (pfx p)
    c.t.giveF r.d (roundF32 m (sumOf m [c.f r.a, c.f r.b])))
/-- `FSUB` (R202). -/
def execFsub (p : Option RPfx) (r : R3) (s : State) : Res :=
  .next (s.vec fun c =>
    let m := rmodeOf c.t (pfx p)
    c.t.giveF r.d (roundF32 m (sumOf m [c.f r.a, (c.f r.b).negate])))
/-- `FMUL` (R202). -/
def execFmul (p : Option RPfx) (r : R3) (s : State) : Res :=
  .next (s.vec fun c => c.t.giveF r.d (roundF32 (rmodeOf c.t (pfx p)) (mulOf (c.f r.a) (c.f r.b))))
/-- `FFMA` (R202). -/
def execFfma (p : Option RPfx) (r : R3) (s : State) : Res :=
  .next (s.vec fun c =>
    let m := rmodeOf c.t (pfx p)
    c.t.giveF r.d (roundF32 m (fmaOf m (c.f r.a) (c.f r.b) (f32.val (c.third p r.d).toNat))))
/-- `FSQRT` (R202, R184). -/
def execFsqrt (p : Option RPfx) (r : R3) (s : State) : Res :=
  .next (s.vec fun c => c.t.giveF r.d (roundF32 (rmodeOf c.t (pfx p)) (sqrtOf (c.f r.a))))
/-- `FDIV` (R202, R184). -/
def execFdiv (p : Option RPfx) (r : R3) (s : State) : Res :=
  .next (s.vec fun c => c.t.giveF r.d (roundF32 (rmodeOf c.t (pfx p)) (divOf (c.f r.a) (c.f r.b))))

/-- `FMIN` (R203). -/
def execFmin (r : R3) (s : State) : Res := .next (s.vec fun c => c.t.setN r.d (f32.min (c.n r.a) (c.n r.b)))
/-- `FMAX` (R203). -/
def execFmax (r : R3) (s : State) : Res := .next (s.vec fun c => c.t.setN r.d (f32.max (c.n r.a) (c.n r.b)))

/-- A condition of R204. -/
def fccHolds (cc : FCC) (a b : FV) : Bool :=
  match cc with
  | .eq => a.eq b
  | .ne => !(a.eq b)
  | .lt => a.lt b
  | .le => a.lt b || a.eq b
  | .un => a == .nan || b == .nan
  | .or => a != .nan && b != .nan

/-- `FCMP` (R204). -/
def execFcmp (cc : FCC) (r : R3) (s : State) : Res :=
  .next (s.vec fun c => c.t.setPred (r.d % 8) (fccHolds cc (c.f r.a) (c.f r.b)))

/-- `FRCP` (R205). -/
def execFrcp (r : R3) (s : State) : Res := .next (s.vec fun c => c.t.giveF r.d (rcpOf (c.n r.a)))
/-- `FRSQ` (R205). -/
def execFrsq (r : R3) (s : State) : Res := .next (s.vec fun c => c.t.giveF r.d (rsqOf (c.n r.a)))
/-- `FEXP2` (R205). -/
def execFexp2 (r : R3) (s : State) : Res := .next (s.vec fun c => c.t.giveF r.d (exp2Of (c.n r.a)))
/-- `FLOG2` (R205). -/
def execFlog2 (r : R3) (s : State) : Res := .next (s.vec fun c => c.t.giveF r.d (log2Of (c.n r.a)))
/-- `FSIN` (R205). -/
def execFsin (r : R3) (s : State) : Res := .next (s.vec fun c => c.t.giveF r.d (trigOf (c.n r.a) 0))
/-- `FCOS` (R205). -/
def execFcos (r : R3) (s : State) : Res := .next (s.vec fun c => c.t.giveF r.d (trigOf (c.n r.a) 1))

/-- A value rounded to an integral FP32 value (R206). -/
def rndOf (mode : RMode) (x : Nat) : Nat × Fl :=
  match f32.val x with
  | .nan => (f32.nan, {})
  | .inf _ => (x, {})
  | .fin n m e =>
    let (k, nx) := roundAt mode n m e 0
    ((f32.round mode false (.fin n k 0)).1, { nx := nx })

/-- `FRND` (R206). -/
def execFrnd (p : Option RPfx) (r : R3) (s : State) : Res :=
  .next (s.vec fun c => c.t.giveF r.d (rndOf (rmodeOf c.t (pfx p)) (c.n r.a)))

/-- The format of a paired type. -/
def halfFmt (t : H16) : Fmt := match t with | .f16 => fp16 | .bf16 => Machine.bf16

/-- Apply an operation to the two halves of some words (R207). -/
def halves (fm : Fmt) (mode : RMode) (op : FV → FV → FV → FV × Bool) (a b c : Nat) : Nat × Fl :=
  let one := fun (x y z : Nat) =>
    let v := op (fm.val x) (fm.val y) (fm.val z)
    let r := fm.round mode false v.1
    (r.1, r.2.or { nv := v.2 })
  let lo := one (a % 65536) (b % 65536) (c % 65536)
  let hi := one (a / 65536) (b / 65536) (c / 65536)
  (hi.1 * 65536 + lo.1, lo.2.or hi.2)

/-- `HADD2` (R207). -/
def execHadd2 (t : H16) (p : Option RPfx) (r : R3) (s : State) : Res :=
  .next (s.vec fun c =>
    let m := rmodeOf c.t (pfx p)
    c.t.giveF r.d (halves (halfFmt t) m (fun x y _ => sumOf m [x, y]) (c.n r.a) (c.n r.b) 0))
/-- `HMUL2` (R207). -/
def execHmul2 (t : H16) (p : Option RPfx) (r : R3) (s : State) : Res :=
  .next (s.vec fun c =>
    c.t.giveF r.d (halves (halfFmt t) (rmodeOf c.t (pfx p)) (fun x y _ => mulOf x y) (c.n r.a) (c.n r.b) 0))
/-- `HFMA2` (R207). -/
def execHfma2 (t : H16) (p : Option RPfx) (r : R3) (s : State) : Res :=
  .next (s.vec fun c =>
    let m := rmodeOf c.t (pfx p)
    c.t.giveF r.d (halves (halfFmt t) m (fmaOf m) (c.n r.a) (c.n r.b) (c.third p r.d).toNat))

end Sys2Proof.Machine
end

