-- ==== Sys2Proof/Machine/Convert.lean ====
section
/-!
DEFINITION. Convert.lean: `CVT`, `DQNT`, `PACK` and `UNPK` (R208, R210 to R212).
-/
namespace Sys2Proof.Machine

/-- What a `CVT` type is: an integer of a signedness and width, or a format. -/
inductive CvtKind where
  | int (sg : Bool) (w : Nat)
  | flt (f : Fmt)
deriving DecidableEq, Repr

/-- The kind of a type (R208). -/
def cvtKind (t : CvtTy) : CvtKind :=
  match t with
  | .n8 => .int false 8
  | .s8 => .int true 8
  | .n16 => .int false 16
  | .s16 => .int true 16
  | .n32 => .int false 32
  | .s32 => .int true 32
  | .n64 => .int false 64
  | .s64 => .int true 64
  | .f32 => .flt Machine.f32
  | .f16 => .flt fp16
  | .bf16 => .flt Machine.bf16
  | .e4m3 => .flt Machine.e4m3
  | .e5m2 => .flt Machine.e5m2

/-- The width of a kind. -/
def CvtKind.width : CvtKind → Nat
  | .int _ w => w
  | .flt f => f.width

/-- An integer of a type as it is written: extended by its own type to 32 bits, or 64 (R208). -/
def intBits (w : Nat) (i : Int) : Nat := wrapNat (if w = 64 then 64 else 32) i

/-- A conversion of an encoding (R169 to R172, R208), with its flags. -/
def cvtOf (mode : RMode) (sat : Bool) (td ts : CvtKind) (v : Nat) : Nat × Fl :=
  match td, ts with
  | .flt f, .flt g => if f = g then ((f.round .rne false (g.val v)).1, {}) else f.round mode sat (g.val v)
  | .int sg w, .flt g =>
    let r := (g.val v).asInt mode (intLo sg w) (intHi sg w)
    (intBits w r.1, r.2)
  | .flt f, .int sg w => f.round mode sat (ofInt (if sg then toSigned w v else (v % 2 ^ w : Nat)))
  | .int sg w, .int sg' w' =>
    let i : Int := if sg' then toSigned w' v else (v % 2 ^ w' : Nat)
    if sat then
      let k := clampTo sg w i
      (intBits w k, { nv := k != i })
    else
      let k := wrapNat w i
      (intBits w (if sg then toSigned w k else (k : Int)), {})

/-- `CVT` (R208). -/
def execCvt (td ts : CvtTy) (p : Option RPfx) (r : R3) (s : State) : Res :=
  let kd := cvtKind td
  let ks := cvtKind ts
  let e := (pfx p).ext
  .next (s.vec fun c =>
    let v := if ks.width = 64 then c.pair r.a else c.n r.a / 2 ^ (ks.width * e) % 2 ^ ks.width
    let o := cvtOf (rmodeOf c.t (pfx p)) (pfx p).sat kd ks v
    (if td.is64 then c.t.setPair r.d o.1 else c.t.setN r.d o.1).raise o.2)

/-- The two dequantised elements of a `DQNT` in a format (R210, R174). -/
def dqntOf (f : Fmt) (mode : RMode) (byte q : Nat) (sup : FV) : Nat × Nat × Fl :=
  let one := fun i =>
    let v := qc4Value i sup q
    let o := f.round mode false v.1
    (o.1, o.2.or { nv := v.2 })
  let lo := one (byte % 16)
  let hi := one (byte / 16 % 16)
  (lo.1, hi.1, lo.2.or hi.2)

/-- `DQNT` (R210). -/
def execDqnt (t : DqntTy) (p : Option RPfx) (r : R3) (s : State) : Res :=
  .next (s.vec fun c =>
    let m := rmodeOf c.t (pfx p)
    let byte := c.n r.a / 256 ^ (pfx p).ext % 256
    let sup := f32.val (c.pair r.b % 4294967296)
    let q := c.pair r.b / 4294967296 % 4096
    match t with
    | .f16 =>
      let (lo, hi, fl) := dqntOf fp16 m byte q sup
      (c.t.setN r.d (hi * 65536 + lo)).raise fl
    | .bf16 =>
      let (lo, hi, fl) := dqntOf Machine.bf16 m byte q sup
      (c.t.setN r.d (hi * 65536 + lo)).raise fl
    | .f32 =>
      let (lo, hi, fl) := dqntOf Machine.f32 m byte q sup
      (c.t.setPair r.d (hi * 4294967296 + lo)).raise fl)

/-- The element width of a `PACK` type (R211). -/
def packWidth (t : PackTy) : Nat :=
  match t with
  | .f16 | .bf16 => 16
  | .e4m3 | .e5m2 | .s8 | .n8 => 8
  | .s4 | .n4 => 4

/-- One source of a `PACK`, converted (R211), with its flags. -/
def packOne (t : PackTy) (mode : RMode) (sat : Bool) (v : Word) : Nat × Fl :=
  let clamp := fun (sg : Bool) (w : Nat) =>
    let i : Int := if sg then v.toInt else v.toNat
    let k := clampTo sg w i
    (wrapNat w k, ({ nv := k != i } : Fl))
  match t with
  | .f16 => fp16.round mode false (f32.val v.toNat)
  | .bf16 => Machine.bf16.round mode false (f32.val v.toNat)
  | .e4m3 => Machine.e4m3.round mode false (f32.val v.toNat)
  | .e5m2 => Machine.e5m2.round mode sat (f32.val v.toNat)
  | .s8 => clamp true 8
  | .n8 => clamp false 8
  | .s4 => clamp true 4
  | .n4 => clamp false 4

/-- `PACK` (R211): the bits of D outside the two elements stay. -/
def execPack (t : PackTy) (p : Option RPfx) (r : R3) (s : State) : Res :=
  let w := packWidth t
  let lo := 2 * w * (pfx p).ext
  .next (s.vec fun c =>
    let m := rmodeOf c.t (pfx p)
    let a := packOne t m (pfx p).sat (c.x r.a)
    let b := packOne t m (pfx p).sat (c.x r.b)
    let old := c.n r.d
    let kept := old - old / 2 ^ lo % 2 ^ (2 * w) * 2 ^ lo
    (c.t.setN r.d (kept + (b.1 * 2 ^ w + a.1) * 2 ^ lo)).raise (a.2.or b.2))

/-- One element of an `UNPK`, widened (R212). -/
def unpkOne (t : PackTy) (v : Nat) : Nat :=
  let wide := fun (f : Fmt) => (f32.round .rne false (f.val v)).1
  match t with
  | .f16 => wide fp16
  | .bf16 => wide Machine.bf16
  | .e4m3 => wide Machine.e4m3
  | .e5m2 => wide Machine.e5m2
  | .s8 => wrapNat 32 (toSigned 8 v)
  | .s4 => wrapNat 32 (toSigned 4 v)
  | .n8 | .n4 => v

/-- `UNPK` (R212): no flags. -/
def execUnpk (t : PackTy) (p : Option RPfx) (r : R3) (s : State) : Res :=
  let w := packWidth t
  .next (s.vec fun c =>
    let v := c.n r.a / 2 ^ (2 * w * (pfx p).ext)
    c.t.setPair r.d (unpkOne t (v / 2 ^ w % 2 ^ w) * 4294967296 + unpkOne t (v % 2 ^ w)))

end Sys2Proof.Machine
end

