-- ==== Sys2Proof/Machine/Sync.lean ====
section
/-!
DEFINITION. Sync.lean: waits, named barriers and fences (R291 to R298).
-/
namespace Sys2Proof.Machine

/-! ## Counter waits and address waits (R291 to R294) -/

/-- `CWAIT` (R292): a thread whose word has not reached its target parks and reads again when it resumes; one whose word
lies in an empty scratchpad line parks for that first (R107). -/
def execCwait (n32 : Bool) (off : Option Nat) (r : MO) (s : State) : Res :=
  .next (match s.cur with
    | none => s
    | some c =>
      let fs := s.forms r.k r.a (ctrOff off 20) 8 8
      let q := s.reach c fs .wait
      let waits := q.good.filterMap fun a => (q.s.firstEmpty (a.places q.tab)).map fun l => (a.tid, l)
      let good := q.good.filter fun a => (q.s.firstEmpty (a.places q.tab)).isNone
      let seqs := seqScopes q.tab good
      let s := (q.s.before c .wait false q.tab good).seqBefore c seqs
      let bads := (s.firstPoison (good.flatMap fun a => a.places q.tab)).isSome
      let s := good.foldl (fun s a =>
        match a.places q.tab, fs.find? fun f => f.1.t.tid == a.tid with
        | p :: _, some f =>
          let target := if n32 then f.1.n r.d else f.1.pair r.d
          if target ≤ s.rdN p.key 8 then
            let s := match ctrScope off with
              | some sc => s.acquire c.core sc
              | none => s
            s.advance [a.tid]
          else (s.contend (p.key / 128)).park c.core c.slot a.tid (.counter p.key (a.vas.headD 0) target false)
        | _, _ => s) s
      let s := s.seqAfter c seqs
      let s := (s.noteBstat c fs.oobs []).advance (fs.oobs.map fun l => l.t.tid)
      let s := waits.foldl (fun s w => s.park c.core c.slot w.1 (.emptyLine w.2)) s
      (s.trapLanes (fs.traps ++ q.bad)).killIf c bads)

/-- What one slot of a `WAITA` is on a thread: disarmed by bounds, a trap, or a word. -/
def slotForm (c : LaneCtx) (r : MO) (imm : Int) (i : Nat) : Form :=
  formOf (c.b.krecs.getD r.k 0) (c.x (r.a + i)) imm 8 8

/-- The slots that the mask of a `WAITA` arms (R291). -/
def armedSlots (off : Option Nat) : List Nat :=
  match off with
  | none => [0, 1, 2, 3]
  | some v => (List.range 4).filter fun i => bitAt v (16 + i)

/-- What the slots of a `WAITA` have come to on one lane so far (R294): the first trap, whether a slot was out of bounds,
and the words, each with its slot. -/
structure SlotLane where
  l : LaneCtx
  trap : Option Trap := none
  oob : Bool := false
  words : List (Nat × LAcc) := []
deriving DecidableEq, Repr

/-- Form the word of one slot on a lane that has not trapped. -/
def SlotLane.form (r : MO) (imm : Int) (i : Nat) (x : SlotLane) : SlotLane :=
  if x.trap.isSome then x
  else match slotForm x.l r imm i with
    | .trap t => { x with trap := some t }
    | .oob => { x with oob := true }
    | .acc vas => { x with words := x.words ++ [(i, { lane := x.l.lane, tid := x.l.t.tid, vas := vas })] }

/-- Check one slot of every lane that has not trapped (R294): the lines of its words are translated once for the whole
instruction (R87), a failing one traps its threads. -/
def State.checkSlot (q : Asker) (r : MO) (imm : Int) (a : State × LineTab × List SlotLane) (i : Nat) :
    State × LineTab × List SlotLane :=
  let ls := a.2.2.map (SlotLane.form r imm i)
  let here := fun (x : SlotLane) => if x.trap.isSome then none else (x.words.find? fun w => w.1 == i).map (·.2)
  let (s, tab) := a.1.xlatMore q .wait a.2.1 (allLines (ls.filterMap here))
  (s, tab, ls.map fun x => { x with trap := x.trap.or ((here x).bind fun w => w.failure tab .wait) })

/-- Arm the words of one thread (R294), each where it lies: a SEQ access has its fences before and after it (R260). -/
def State.armSlots (s : State) (c : Cur) (l : LaneCtx) (a : Nat) (ws : List (Nat × Nat × Place)) :
    State × List WaSlot :=
  let seq := fun (w : Nat × Nat × Place) => seqScope [w.2.2]
  let fences := ws.filterMap fun w => (seq w).map fun sc => (l.t.tid, sc)
  let s := s.maintFor c.core c.slot l.t.tid (ws.map fun w => w.2.2.key)
  let s := ws.foldl (fun s w =>
    (s.approach c.core .wait false { w.2.2 with key := w.2.2.key / 128 * 128 } (rangeMask (w.2.1 % 128) (w.2.1 % 128 + 8))).contend
      (w.2.2.key / 128)) s
  let s := s.seqBefore c fences
  (s.seqAfter c fences, ws.map fun w =>
    { idx := w.1, key := w.2.2.key, va := w.2.1, fired := s.rdN w.2.2.key 4 != l.n (a + 4 + w.1), seq := seq w })

/-- The acquire of a wait that has one. -/
def State.acquireIf (s : State) (core : Nat) (sc : Option Scope) : State :=
  match sc with
  | some x => s.acquire core x
  | none => s

/-- `WAITA` (R294): a trap on any slot arms none; a thread one of whose words lies in an empty scratchpad line parks for
that first (R107). -/
def execWaita (off : Option Nat) (r : MO) (s : State) : Res :=
  .next (match s.cur with
    | none => s
    | some c =>
      let (s, tab, ls) := (armedSlots off).foldl (State.checkSlot (s.askerOf c) r (ctrOff off 16))
        (s, [], s.lanes.map fun l => { l := l })
      s.eachOrTrap fun s c l =>
        match ls.find? fun x => x.l.t.tid == l.t.tid with
        | none => (s, none)
        | some x =>
          match x.trap with
          | some t => (s, some t)
          | none =>
            let words := x.words.flatMap fun w => ((w.2.places tab).take 1).map fun p => (w.1, w.2.vas.headD 0, p)
            let places := words.map fun w => w.2.2
            match s.firstEmpty places with
            | some line => (s.park c.core c.slot l.t.tid (.emptyLine line), none)
            | none =>
              let s := if x.oob then s.setBstat c.core c.slot 0 else s
              let (s, ws) := s.armSlots c l r.a words
              let bad := (s.firstPoison places).isSome
              let give := fun (s : State) (v : Word) =>
                (s.modThread c.core c.slot l.t.tid fun t => t.later r.d [v]).advance [l.t.tid]
              let acq := ctrScope off
              match ws, (ws.find? fun w => w.fired) with
              | [], _ => (give s 0xFFFFFFFF, none)
              | _, some w => ((give (s.acquireIf c.core acq) (BitVec.ofNat 32 w.idx)).killIf c bad, none)
              | _, none =>
                let dst := if r.d < 120 then some (l.t.wb.toNat + r.d) else none
                ((s.park c.core c.slot l.t.tid (.address ws dst acq c.nextPc)).killIf c bad, none))

/-! ## Named barriers (R295, R296) -/

/-- The value of a named barrier. -/
def Block.barr (b : Block) (i : Nat) : Nat := (b.barrs.getD i 0).toNat

/-- Every waiter of a barrier whose target is met takes its acquire and enters the pool, all at once (R296). -/
def State.wakeBarrier (s : State) (core slot i : Nat) : State :=
  match s.block? core slot with
  | none => s
  | some b =>
    let met := fun (t : Thread) =>
      match t.cond with
      | .wings (.barrier j target _) => j == i && decide (target ≤ b.barr i)
      | _ => false
    let s := (b.threads.filter met).foldl (fun s t =>
      match t.cond with
      | .wings (.barrier _ _ sc) => s.acquire core sc
      | _ => s) s
    s.modBlock core slot fun b => { b with threads := mapIf met (wakeThread s.now) b.threads }

/-- An add to a named barrier at its core (R279), and what it wakes. -/
def State.barrierAdd (s : State) (core slot i v : Nat) : State :=
  (s.modBlock core slot fun b =>
    { b with barrs := b.barrs.set i (b.barrs.getD i 0 + BitVec.ofNat 64 v) }).wakeBarrier core slot i

/-- The scope of a barrier or ring prefix, or a default (R295, R328). -/
def extScope (p : Option RPfx) (dflt : Scope) : Scope :=
  match p with
  | none => dflt
  | some q => (Scope.ofCode (q.ext % 8)).getD dflt

/-- `BADD` (R296): a release by each thread, then one event of all the adds. -/
def execBadd (p : Option RPfx) (r : R3) (s : State) : Res :=
  .next (match s.cur with
    | none => s
    | some c =>
      let sum := s.lanes.foldl (fun a l => a + l.n r.b) 0
      ((s.releaseAll c.core c.slot (extScope p .blk) (c.act.map (·.2))).advanceAll).barrierAdd c.core c.slot (r.d % 64) sum)

/-- `BWAIT` (R296). -/
def execBwait (p : Option RPfx) (r : R3) (s : State) : Res :=
  let sc := extScope p .blk
  .next (s.eachLane fun s c l =>
    let s := s.advance [l.t.tid]
    if l.pair r.a ≤ l.b.barr (r.d % 64) then s.acquire c.core sc
    else s.park c.core c.slot l.t.tid (.barrier (r.d % 64) (l.pair r.a) sc))

/-- `BARV` (R296): the release and the add, then every thread parks; whom the event satisfies is released at once. -/
def execBarv (p : Option RPfx) (r : R3) (s : State) : Res :=
  .next (match s.cur with
    | none => s
    | some c =>
      let sc := extScope p .blk
      let ls := s.lanes
      let sum := ls.foldl (fun a l => a + l.n r.b) 0
      let s := (s.releaseAll c.core c.slot sc (c.act.map (·.2))).advanceAll
      let s := ls.foldl (fun s l =>
        s.park c.core c.slot l.t.tid (.barrier (r.d % 64) (l.pair r.a) sc)) s
      s.barrierAdd c.core c.slot (r.d % 64) sum)

/-! ## Fences (R297, R298) -/

/-- `FENCE` (R298). -/
def execFence (k : FenceKind) (r : R3) (s : State) : Res :=
  let sc := (Scope.ofCode (r.d % 8)).getD .blk
  .next ((s.eachLane fun s c l =>
    match k with
    | .rel => s.release c.core c.slot l.t.tid sc
    | .acq => s.acquire c.core sc
    | .ar => (s.release c.core c.slot l.t.tid sc).acquire c.core sc).advanceAll)

/-! ## Resuming waiters (R293) -/

/-- Whether CONS of the ring at a header has moved since a reservation parked (R329). -/
def State.consMoved (s : State) (key cons : Nat) : Bool := s.rdN (key + 24) 8 != cons

/-- Whether the reservation with some place in the order of parking still waits at a ring, to hold others back (R329). -/
def State.ringHolds (s : State) (key place : Nat) : Bool :=
  s.blocks.any fun b => b.threads.any fun t => t.live && t.ring == some (key, place)

/-- Whether a reservation that parked at a ring before a place in the order of parking, or before any other if none is
given, has its space to try or is on its way to try it (R329). -/
def State.ringAhead (s : State) (key : Nat) (place : Option Nat) : Bool :=
  s.blocks.any fun b => b.threads.any fun t =>
    (t.ring.any fun r => r.1 == key && place.all fun n => decide (r.2 < n)) &&
      (match t.cond with
        | .pool _ _ | .cast => true
        | .wings (.ringFull k _ cons _ behind) => s.consMoved k cons && behind.all fun n => !(s.ringHolds k n)
        | _ => false)

/-- Whether the reason of a parked thread of a block has cleared, as the homes stand. A word that a waiter is registered
on is known by the place it had when the waiter parked; the manual does not say whether a registration goes along where
its page migrates (R91), and here it stays (log entry 87, DESIGN CHOICE). -/
def State.cleared (s : State) (b : Block) (r : Park) : Bool :=
  match r with
  | .counter key _ target met => met || decide (target ≤ s.rdN key 8)
  | .address sl .. => sl.any (·.fired)
  | .barrier i target _ => decide (target ≤ b.barr i)
  | .ringFull key _ cons ticket behind =>
    s.consMoved key cons && !(s.ringAhead key (some ticket)) && behind.all fun n => !(s.ringHolds key n)
  | .ringEmpty key rec _ prod word => s.rdN (key + 16) 8 != prod || s.rdN rec 8 != word
  | _ => false

/-- The fired words of an address wait that has an acquire are read at their homes, those of SEQ pages with their fences
(R260, R264, R294). -/
def State.readFired (s : State) (core slot tid : Nat) (sl : List WaSlot) (acq : Option Scope) : State :=
  if acq.isNone then s
  else ((sl.filter (·.fired)).filterMap (·.seq)).foldl (fun s sc => (s.release core slot tid sc).acquire core sc) s

/-- Resume a parked thread whose reason has cleared and whose results have landed (R44, R293): an address wait delivers
its slot and goes on behind the instruction (R294), which may release a meeting (R313), a barrier wait takes its acquire
(R296), the others read again. -/
def State.resume (s : State) (core slot tid : Nat) : State :=
  match s.block? core slot with
  | none => s
  | some b =>
    match b.thread? tid with
    | none => s
    | some t =>
      match t.cond with
      | .wings r =>
        if !(s.cleared b r) || t.owes then s
        else match r with
          | .address sl dst acq next =>
            let i := ((sl.find? (·.fired)).map (·.idx)).getD 0
            ((((s.readFired core slot tid sl acq).acquireIf core acq).modThread core slot tid fun t =>
              { t with pc := next, regs := match dst with
                | some d => putRegs t.regs d [BitVec.ofNat 32 i]
                | none => t.regs }).wake core slot tid).meet core slot
          | .barrier _ _ sc => (s.acquire core sc).wake core slot tid
          | _ => s.wake core slot tid
      | _ => s

/-- A home resumes a waiter whose reason has cleared (R293). -/
def execWaiterWake (core slot tid : Nat) (s : State) : Res := .next (s.resume core slot tid)

/-- A slice without free waiter records polls a waited word in their place (R293). -/
def execSlicePoll (core slot tid : Nat) (s : State) : Res := .next (s.resume core slot tid)

/-- The I/O die polls a waited word of host or peer memory (R293). -/
def execIoDiePoll (core slot tid : Nat) (s : State) : Res := .next (s.resume core slot tid)

/-- One outstanding result of a thread lands, if it can (R42, R43). -/
def execVariableResultLands (core slot tid k : Nat) (s : State) : Res :=
  .next (match s.thread? core slot tid with
    | none => s
    | some t =>
      match t.pend[k]? with
      | none | some (.obrdDue _) => s
      | some p => s.modBlock core slot fun b => landOne (b.modThread tid fun t => { t with pend := t.pend.eraseIdx k }) tid p)

end Sys2Proof.Machine
end

