-- ==== Sys2Proof/Machine/OpBuffer.lean ====
section
/-!
DEFINITION. OpBuffer.lean: reservations of the operand buffer (R220 to R225), duplication maps (R231), and the order of
a block's accesses (R221): an access whose bytes an earlier one still holds waits, and is performed when its turn comes.
-/
namespace Sys2Proof.Machine

/-! ## The reservation record (R222, R223) -/

/-- Bits of a reservation record. -/
def rvBits (r : BitVec 128) (hi lo : Nat) : Nat := bitsOf r.toNat hi lo
/-- FMT. -/
def rvFmt (r : BitVec 128) : Nat := rvBits r 23 20
/-- ATY. -/
def rvAty (r : BitVec 128) : Nat := rvBits r 95 92
/-- DIMK; for an accumulator, M. -/
def rvDimK (r : BitVec 128) : Nat := rvBits r 47 32
/-- DIMN. -/
def rvDimN (r : BitVec 128) : Nat := rvBits r 63 48
/-- ROW0. -/
def rvRow0 (r : BitVec 128) : Nat := rvBits r 9 0
/-- NROW. -/
def rvNrow (r : BitVec 128) : Nat := rvBits r 19 10
/-- Whether the reservation is an accumulator. -/
def rvAcc (r : BitVec 128) : Bool := decide (rvFmt r < 2)
/-- Element width in bits. -/
def rvWidth (r : BitVec 128) : Nat :=
  if rvFmt r < 2 then 32 else if rvFmt r = 6 ∨ rvFmt r = 7 then 16 else if rvFmt r = 8 then 4 else 8
/-- Length of the contiguous dimension. -/
def rvCn (r : BitVec 128) : Nat := if r.getLsbD 24 then rvDimN r else rvDimK r
/-- Number of lines. -/
def rvLn (r : BitVec 128) : Nat := if r.getLsbD 24 then rvDimK r else rvDimN r
/-- Line pitch in bytes: a multiple of 16. -/
def rvPitch (r : BitVec 128) : Nat := (rvCn r * rvWidth r + 127) / 128 * 16
/-- Bytes of one stage. -/
def rvStage (r : BitVec 128) : Nat := rvLn r * rvPitch r
/-- First byte of a stage. -/
def rvStart (r : BitVec 128) (cur : Bool) : Nat :=
  if cur then (rvRow0 r * 512 + rvStage r + 511) / 512 * 512 else rvRow0 r * 512
/-- The end of the last stage. -/
def rvEnd (r : BitVec 128) : Nat := rvStart r (r.getLsbD 26) + rvStage r
/-- Blocks of 64 elements. -/
def rvBlocks (r : BitVec 128) : Nat := rvLn r * (rvCn r / 64)
/-- Map segments. -/
def rvSegs (r : BitVec 128) : Nat := (rvDimK r + 1023) / 1024
/-- Byte of the scale codes, of the super-scales and of the map. -/
def rvSc (r : BitVec 128) : Nat := rvBits r 77 64 * 16
/-- Byte of the super-scales. -/
def rvSs (r : BitVec 128) : Nat := rvBits r 109 96 * 16
/-- Byte of the map. -/
def rvDm (r : BitVec 128) : Nat := rvBits r 123 110 * 16

/-- K of an instruction, A registers of a lane and accumulator format that a B format admits with an A type (R225). -/
def admitted (fmt aty : Nat) : Option (Nat × Nat × Nat) :=
  if (fmt = 2 ∨ fmt = 3 ∨ fmt = 8) ∧ (aty = 2 ∨ aty = 3) then some (64, 16, 0)
  else if (fmt = 4 ∨ fmt = 5) ∧ (aty = 4 ∨ aty = 5) then some (64, 16, 1)
  else if fmt = 6 ∧ aty = 6 then some (32, 16, 0)
  else if fmt = 7 ∧ aty = 7 then some (32, 16, 0)
  else if fmt = 8 ∧ aty = 6 then some (64, 32, 0)
  else none

/-- A malformed reservation record against a block's allocation and live slots (R224). -/
def rvBad (b : Block) (r : BitVec 128) : Bool :=
  let blk := r.getLsbD 25
  let stg := r.getLsbD 26
  let dmv := r.getLsbD 127
  let fmt := rvFmt r
  let row := rvRow0 r
  let n := rvNrow r
  rvBits r 126 124 != 0 || rvBits r 91 78 != 0 || rvBits r 31 27 != 0 || decide (9 ≤ fmt) ||
    rvDimN r == 0 || (!(rvAcc r) && rvDimK r == 0) ||
    n == 0 || decide (b.opb / 512 < row + n) || decide ((row + n) * 512 < rvEnd r) ||
    (b.slots.any fun s => s.live && decide (row < rvRow0 s.rv + rvNrow s.rv) && decide (rvRow0 s.rv < row + n)) ||
    (rvAcc r && (!(r.getLsbD 24) || rvDimK r != 32 || blk || stg || dmv || rvAty r != 0)) ||
    (blk && fmt != 2 && fmt != 3 && fmt != 8) || (!blk && fmt == 8) || (blk && rvCn r % 64 != 0) ||
    (!(rvAcc r) && (admitted fmt (rvAty r)).isNone) ||
    (blk && (decide (b.opb < rvSc r + (3 * rvBlocks r + 1) / 2) ||
      decide (b.opb < rvSs r + 4 * ((rvBlocks r + 127) / 128)))) ||
    (dmv && decide (b.opb < rvDm r + 64 * rvSegs r))

/-! ## Bytes of an allocation -/

/-- Key of a byte of a block's allocation. -/
def Block.obKey (b : Block) (off : Nat) : Nat := opbKey b.core (b.opbBase + off)

/-- The bits of the element at position `p` of line `l` of a stage (R223). -/
def State.elemBits (s : State) (b : Block) (r : BitVec 128) (cur : Bool) (l p : Nat) : Nat :=
  let w := rvWidth r
  let k := b.obKey (rvStart r cur + l * rvPitch r + w * p / 8)
  if w = 4 then (s.rd k).toNat / 16 ^ (p % 2) % 16 else s.rdN k (w / 8)

/-- The scale code and the super-scale of the block that position `p` of line `l` belongs to (R223, R175). -/
def State.elemScale (s : State) (b : Block) (r : BitVec 128) (l p : Nat) : Nat × FV :=
  let i := l * (rvCn r / 64) + p / 64
  (s.rdN (b.obKey (rvSc r + 3 * i / 2)) 2 / 16 ^ (i % 2) % 4096, f32.val (s.rdN (b.obKey (rvSs r + 4 * (i / 128))) 4))

/-- The format of a floating-point FMT or ATY code. -/
def fmtOf (code : Nat) : Fmt :=
  match code with
  | 2 => e4m3
  | 3 => e5m2
  | 6 => bf16
  | 7 => fp16
  | _ => f32

/-- Line and position of element (k, n) (R223). -/
def rvAt (r : BitVec 128) (k n : Nat) : Nat × Nat := if r.getLsbD 24 then (k, n) else (n, k)

/-- The value of element (k, n) of a floating-point or QC4 B reservation from its bits (R223). -/
def State.bitsVal (s : State) (b : Block) (r : BitVec 128) (k n bits : Nat) : FV :=
  let (l, p) := rvAt r k n
  if rvFmt r = 8 then
    let (q, sup) := s.elemScale b r l p
    (qc4Value bits sup q).1
  else
    let v := (fmtOf (rvFmt r)).val bits
    if r.getLsbD 25 then
      let (q, sup) := s.elemScale b r l p
      (scaleValue v sup q).1
    else v

/-! ## Duplication maps (R231) -/

/-- The 32 entries of a map segment. -/
def State.mapEntries (s : State) (b : Block) (r : BitVec 128) (seg : Nat) : List Nat :=
  (List.range 32).map fun l => s.rdN (b.obKey (rvDm r + 64 * seg + 2 * l)) 2

/-- The split channels that some entries list. -/
def splitsOf (es : List Nat) : List Nat := es.takeWhile fun e => e != 65535

/-- Whether a list rises strictly. -/
def rising : List Nat → Bool
  | [] => true
  | a :: r => (match r with | [] => true | c :: _ => decide (a < c)) && rising r

/-- The content rule of a segment. -/
def segOk (es : List Nat) : Bool :=
  let sp := splitsOf es
  rising sp && (sp.all fun e => decide (e < 1024)) && (es.drop sp.length).all fun e => e == 65535

/-- A map: for each segment, its rows, its split channels, and whether it meets the content rule. -/
def State.mapOf (s : State) (b : Block) (r : BitVec 128) : List (Nat × List Nat × Bool) :=
  if r.getLsbD 127 then
    (List.range (rvSegs r)).map fun i =>
      let es := s.mapEntries b r i
      (Nat.min 1024 (rvDimK r - 1024 * i), splitsOf es, segOk es)
  else [(rvDimK r, [], true)]

/-- The length of expanded K. -/
def mapLen (m : List (Nat × List Nat × Bool)) : Nat := m.foldl (fun a x => a + x.1 + x.2.1.length) 0

/-- The original row of an expanded position, and which copy it is: 0 none, 1 the first, 2 the second. -/
def origFrom : List (Nat × List Nat × Bool) → Nat → Nat → Nat × Nat
  | [], base, e => (base + e, 0)
  | (rows, sp, _) :: rest, base, e =>
    if e < rows + sp.length then
      let n := (sp.zipIdx.filter fun x => decide (x.1 + x.2 < e)).length
      let copy := if sp.zipIdx.any (fun x => x.1 + x.2 == e) then 1
        else if sp.zipIdx.any (fun x => x.1 + x.2 + 1 == e) then 2 else 0
      (base + (e - n), copy)
    else origFrom rest (base + rows) (e - (rows + sp.length))

/-! ## Ranges of bytes (R221) -/

/-- The 32 row slices of an accumulator's columns from `c0` on. -/
def accRanges (r : BitVec 128) (c0 n : Nat) : List (Nat × Nat) :=
  (List.range 32).map fun i =>
    let a := rvStart r false + i * rvPitch r
    (a + 4 * c0, a + 4 * Nat.min (c0 + n) (rvDimN r))

/-- The range of a stage, or of both where the order does not give the stage yet. -/
def stageRanges (r : BitVec 128) (stage known : Bool) : List (Nat × Nat) :=
  if known then [(rvStart r stage, rvStart r stage + rvStage r)]
  else [(rvStart r false, rvStart r false + rvStage r), (rvStart r true, rvStart r true + rvStage r)]

/-- The window of B that a multiply reads, from some rows of it, the first and behind the last: its lines, the first and
behind the last, and its positions within each. -/
def windowBox (r : BitVec 128) (rows : Nat × Nat) (n0 : Nat) : (Nat × Nat) × (Nat × Nat) :=
  let cols := (n0, Nat.min (n0 + 128) (rvDimN r))
  if r.getLsbD 24 then (rows, cols) else (cols, rows)

/-- The bytes of a window in a stage. -/
def windowRanges (r : BitVec 128) (stage : Bool) (rows : Nat × Nat) (n0 : Nat) : List (Nat × Nat) :=
  let w := rvWidth r
  let ((l0, l1), (p0, p1)) := windowBox r rows n0
  (List.range (l1 - l0)).map fun i =>
    let a := rvStart r stage + (l0 + i) * rvPitch r
    (a + w * p0 / 8, a + (w * p1 + 7) / 8)

/-- The scale codes and super-scales of a window's blocks, line by line, and the map: what a multiply reads beside the
window (R221, R223). -/
def sideRanges (r : BitVec 128) (rows : Nat × Nat) (n0 : Nat) : List (Nat × Nat) :=
  let ((l0, l1), (p0, p1)) := windowBox r rows n0
  (if r.getLsbD 25 && decide (p0 < p1) then
    (List.range (l1 - l0)).flatMap fun i =>
      let lo := (l0 + i) * (rvCn r / 64) + p0 / 64
      let hi := (l0 + i) * (rvCn r / 64) + (p1 - 1) / 64
      [(rvSc r + 3 * lo / 2, rvSc r + 3 * hi / 2 + 2), (rvSs r + 4 * (lo / 128), rvSs r + 4 * (hi / 128) + 4)] else []) ++
  (if r.getLsbD 127 then [(rvDm r, rvDm r + 64 * rvSegs r)] else [])

/-- Whether the earlier accesses of R221 whose bytes overlap a range have been performed. -/
def Block.obClear (b : Block) (id lo hi : Nat) : Bool :=
  b.obq.all fun e => decide (id ≤ e.1) || decide (e.2.2 ≤ lo) || decide (hi ≤ e.2.1)

/-- Whether an access may be performed: each of its ranges is clear. -/
def Block.obTurn (b : Block) (id : Nat) : Bool := (b.obq.filter fun e => e.1 == id).all fun e => b.obClear id e.2.1 e.2.2

/-! ## Accesses that wait, and their turn -/

/-- One column of an accumulator as a type of `OBRD` (R237). -/
def obrdElem (ty : ObTy) (isInt : Bool) (bits : Nat) : Nat :=
  let v := if isInt then ofInt (toSigned 32 bits) else f32.val bits
  match ty with
  | .b32 => bits
  | .bf16 => (bf16.round .rne false v).1
  | .f16 => (fp16.round .rne false v).1
  | .e4m3 => (e4m3.round .rne false v).1

/-- Bits of a column type. -/
def obWidth (ty : ObTy) : Nat :=
  match ty with
  | .b32 => 32
  | .bf16 | .f16 => 16
  | .e4m3 => 8

/-- The registers that an `OBRD` gives the thread in a lane (R237); columns beyond DIMN read as zero. -/
def State.obrdRegs (s : State) (b : Block) (acc : BitVec 128) (ty : ObTy) (c0 lane : Nat) : List Word :=
  let per := 32 / obWidth ty
  (List.range 16).map fun i => BitVec.ofNat 32 ((List.range per).foldl (fun a j =>
    let col := c0 + i * per + j
    let v := if col < rvDimN acc then obrdElem ty (rvFmt acc == 1) (s.elemBits b acc false lane col) else 0
    a + v * 2 ^ (obWidth ty * j)) 0)

/-- The first poisoned word in some ranges of an allocation (R105). -/
def State.obPoison (s : State) (b : Block) (rs : List (Nat × Nat)) : Option Nat :=
  s.poison.find? fun w => rs.any fun r => decide (w < b.obKey r.2) && decide (b.obKey r.1 < w + 8)

/-- A thread that has left its warp, now that the last result it was owed has landed: it enters the pool, or exits, and
takes the trap that its handler is owed (R44, R368). -/
def Block.arrive (now : Nat) (b : Block) (t : Thread) : Thread :=
  if t.owes then t else
  let t := match t.cond with
    | .pool _ _ => { t with cond := .pool now false }
    | .exiting => { t with cond := .exited, owed := none }
    | _ => t
  match t.owed with
  | some (pc, bound, tr) => { deliverTo b pc bound tr t with owed := none }
  | none => t

/-- What an `OBRD`, by its number, gives a thread (R237): a result that lands, for a thread in a warp; one that has left
it has the result at once (R44). -/
def Block.giveObrd (now id d : Nat) (vs : List Word) (b : Block) (t : Thread) : Thread :=
  if t.cond == .cast then { t with pend := t.pend.map fun p => if p == .obrdDue id then .obrd d vs else p }
  else
    b.arrive now { t with
      pend := t.pend.filter fun p => p != .obrdDue id
      regs := putRegs t.regs d vs }

/-- Perform an access whose turn has come; a thread that consumes poison kills its launch. Threads that were owed the
result go where they were on their way to, and meetings and quads are examined again (R44, R217, R313). -/
def State.obPerform (s : State) (b : Block) (op : ObOp) : State :=
  let rs := (b.obq.filter fun e => e.1 == op.id).map fun e => (e.2.1, e.2.2)
  let s := { s with obOps := s.obOps.filter fun o => o.id != op.id }
  let s := s.modBlock op.core op.slot fun b => { b with obq := b.obq.filter fun e => e.1 != op.id }
  match op.work with
  | .write cells => s.homeWriteCells (cells.map fun x => (b.obKey x.1, x.2))
  | .read ts acc ty c0 =>
    match s.obPoison b rs with
    | some _ => s.consumePoison op.core op.slot
    | none =>
      let s := ts.foldl (fun s t =>
        match t.2.2 with
        | none => s
        | some d =>
          let vs := s.obrdRegs b acc ty c0 t.2.1
          s.modThread op.core op.slot t.1 (b.giveObrd s.now op.id d vs)) s
      (s.meet op.core op.slot).meetQuads op.core op.slot

/-- Perform every waiting access of a block whose turn has come, in issue order (R221). -/
def State.obFlush (s : State) (core slot : Nat) : State :=
  (s.obOps.filter fun o => o.core == core && o.slot == slot).foldl (fun s op =>
    match s.block? core slot with
    | none => s
    | some b => if b.obTurn op.id then s.obPerform b op else s) s

/-- An access of a block has been performed, or will never be: those behind it go on. -/
def State.obDone (s : State) (core slot id : Nat) : State :=
  (s.modBlock core slot fun b => { b with obq := b.obq.filter fun e => e.1 != id }).obFlush core slot

/-- What a waiting access owes a thread. -/
def ObWork.owe (w : ObWork) (id : Nat) (t : Thread) : Thread :=
  match w with
  | .read ts .. =>
    if ts.any fun x => x.1 == t.tid && x.2.2.isSome then { t with pend := t.pend ++ [.obrdDue id] } else t
  | .write _ => t

/-- Issue an access: it takes its place in the order, and is performed at once if nothing holds its bytes. -/
def State.obIssue (s : State) (core slot : Nat) (rs : List (Nat × Nat)) (w : ObWork) : State :=
  let id := s.nextOb
  let op : ObOp := { core := core, slot := slot, id := id, work := w }
  let s := s.modBlock core slot fun b =>
    { b with obq := b.obq ++ rs.map (fun r => (id, r.1, r.2)), threads := b.threads.map (w.owe id) }
  ({ s with nextOb := id + 1, obOps := s.obOps ++ [op] } : State).obFlush core slot

end Sys2Proof.Machine
end

