-- ==== Sys2Proof/Machine/Engine.lean ====
section
/-!
DEFINITION. Engine.lean: what the block transfer engine's instructions and the copies of the operand buffer share:
layout records and boxes (R142 to R145), counter specifications (R141), submission (R139), and carrying a command out
line by line (R137, R150 to R160).
-/
namespace Sys2Proof.Machine

/-! ## Layout records (R142 to R145) -/

/-- Bits of a layout record. -/
def layBits (l : Layout) (hi lo : Nat) : Nat := bitsOf l.toNat hi lo
/-- NDIM. -/
def layNdim (l : Layout) : Nat := layBits l 67 64
/-- E = 2^ESZ. -/
def layE (l : Layout) : Nat := 2 ^ layBits l 74 72
/-- SIZEi. -/
def laySize (l : Layout) (i : Nat) : Nat := layBits l (159 + 32 * i) (128 + 32 * i)
/-- BOXi. -/
def layBox (l : Layout) (i : Nat) : Nat := layBits l (1311 + 32 * i) (1280 + 32 * i)
/-- STRIDEi. -/
def layStride (l : Layout) (i : Nat) : Int := toSigned 64 (layBits l (575 + 64 * i) (512 + 64 * i))
/-- ORIGINi. -/
def layOrigin (l : Layout) (i : Nat) : Int := toSigned 32 (layBits l (1695 + 32 * i) (1664 + 32 * i))

/-- The elements of the box. -/
def boxElems (l : Layout) : Nat := (List.range (layNdim l)).foldl (fun a i => a * layBox l i) 1
/-- The bytes of the box. -/
def boxBytes (l : Layout) : Nat := layE l * boxElems l

/-- A malformed layout record (R143). -/
def layBad (l : Layout) : Bool :=
  let nd := layNdim l
  layBits l 127 83 != 0 || layBits l 81 81 != 0 || layBits l 79 75 != 0 || layBits l 71 68 != 0 ||
    layBits l 63 55 != 0 || nd == 0 || decide (12 < nd) || decide (4 < layBits l 74 72) ||
    (layBits l 82 82 == 1 && layBits l 80 80 == 0) ||
    ((List.range nd).any fun i => laySize l i == 0 || layBox l i == 0) ||
    ((List.range 12).any fun i => decide (nd ≤ i) &&
      (laySize l i != 0 || layBox l i != 0 || layStride l i != 0 || layOrigin l i != 0)) ||
    decide (524288 < boxBytes l)

/-- Reflect of R144. -/
def reflect (c : Int) (size : Nat) (rep : Bool) : Int :=
  let s : Int := size
  if rep then
    let m := c.fmod (2 * s)
    if m < s then m else 2 * s - 1 - m
  else if size = 1 then 0
  else
    let m := c.fmod (2 * s - 2)
    if m < s then m else 2 * s - 2 - m

/-- The box index of an element in each dimension, dimension 0 fastest (R145). -/
def boxIndex (l : Layout) (p : Nat) : Nat → Nat → List Nat
  | 0, _ => []
  | n + 1, i => p % layBox l i :: boxIndex l (p / layBox l i) n (i + 1)

/-- The coordinates of an element of the box under two deltas (R144). -/
def coordsOf (l : Layout) (d0 d1 : Int) (p : Nat) : List Int :=
  (boxIndex l p (layNdim l) 0).zipIdx.map fun x =>
    layOrigin l x.2 + (if x.2 = 0 then d0 else if x.2 = 1 then d1 else 0) + (x.1 : Int)

/-- The VA of coordinates in the tensor (R144). -/
def coordVa (l : Layout) (cs : List Int) : Int :=
  cs.zipIdx.foldl (fun a x => a + x.1 * layStride l x.2) (layBits l 54 0 : Int)

/-- Whether coordinates lie in the tensor. -/
def inTensor (l : Layout) (cs : List Int) : Bool :=
  cs.zipIdx.all fun x => decide (0 ≤ x.1) && decide (x.1 < (laySize l x.2 : Int))

/-- The VA an element is read from (R144): none for a zero-filled one. -/
def readVa (l : Layout) (d0 d1 : Int) (p : Nat) : Option Int :=
  let cs := coordsOf l d0 d1 p
  if inTensor l cs then some (coordVa l cs)
  else if layBits l 80 80 = 0 then none
  else some (coordVa l (cs.zipIdx.map fun x => reflect x.1 (laySize l x.2) (layBits l 82 82 == 1)))

/-- The VA an element is written to (R144): none where it is discarded. -/
def writeVa (l : Layout) (d0 d1 : Int) (p : Nat) : Option Int :=
  let cs := coordsOf l d0 d1 p
  if inTensor l cs then some (coordVa l cs) else none

/-- The VA of byte `i` of an element of `e` bytes at an exact VA (R144): an element with a byte below zero or at or above
2^55 is not translated (R62), so that each of its bytes stands beyond the address space. -/
def elemVa (v : Int) (e i : Nat) : Nat :=
  if v < 0 then 36028797018963968 + ((v + (i : Int)) % 36028797018963968).toNat
  else if 36028797018963968 < v + (e : Int) then Nat.max 36028797018963968 (v.toNat + i)
  else v.toNat + i

/-! ## Counter specifications (R141) -/

/-- Whether a counter specification is well formed (R141). -/
def ctrOk (b : Block) (w : Word) : Bool :=
  let kreg := bitsOf w.toNat 30 26
  if w.getLsbD 31 then !(recBad (b.krecs.getD kreg 0))
  else kreg == 0 && bitsOf w.toNat 25 6 == 0 && decide (bitsOf w.toNat 5 0 < b.bars)

/-- What checking a counter gives (step 5 of R139). -/
inductive CtrCheck where
  | oob
  | trap (t : Trap)
  | ok (c : Ctr)
deriving DecidableEq, Repr

/-- Resolve and check a well-formed counter specification (step 5 of R139). -/
def State.checkCtr (s : State) (b : Block) (w : Word) : State × CtrCheck :=
  if !(w.getLsbD 31) then (s, .ok (.barrier (bitsOf w.toNat 5 0)))
  else
    let r := b.krecs.getD (bitsOf w.toNat 30 26) 0
    let o := bitsOf w.toNat 25 0 * 8
    if recExtent r < o + 8 then (s, if recTrap r then .trap { cls := 4 } else .oob)
    else
      let va := recVa r o 0
      if va % 8 ≠ 0 then (s, .trap (misaligned va))
      else
        match s.translate b.asker .atomic (va / 128 * 128) with
        | (s, .error f) => (s, .trap (f.trap va .atomic))
        | (s, .ok _) => (s, .ok (.mem va))

/-- The same for an optional specification. -/
def State.checkCtrOpt (s : State) (b : Block) (w : Option Word) : State × CtrCheck :=
  match w with
  | none => (s, .ok .none)
  | some w => s.checkCtr b w

/-- The counter specification that a prefix names (R141). -/
def ctrWord (l : LaneCtx) (p : RPfx) : Option Word := if p.cv then some (l.x p.c) else none

/-! ## Submission (R139) -/

/-- What a thread asks the engine for: the command, whether it is malformed, whether an offset is misaligned, whether a
range passes the allocation, and the stream. -/
structure Ask where
  cmd : Layout → Cmd
  handle : Nat
  q : Nat
  bad : Bool
  skew : Bool
  fits : Layout → Bool
  empties : Layout → List Nat       -- scratchpad lines that acceptance marks empty
  ob : Layout → Option (Nat × Nat)  -- operand-buffer bytes the command accesses

/-- What submission comes to. -/
inductive Sub where
  | trap (t : Trap)
  | dropped
  | full
  | accepted
deriving DecidableEq, Repr

/-- Put an accepted command on its stream (step 7 of R139); it takes its place in the order of R221. -/
def State.accept (s : State) (core slot q : Nat) (c : Cmd) (empties : List Nat) (ob : Option (Nat × Nat)) : State :=
  let s := { s with nextOb := s.nextOb + 1 }
  let s := s.modBlock core slot fun b =>
    { b with
      streams := b.streams.set q (b.streams.getD q [] ++ [c])
      seqs := b.seqs.set q (b.seqs.getD q 0 + 1)
      obq := match ob with
        | some r => b.obq ++ [(c.ticket, r.1, r.2)]
        | none => b.obq }
  s.setEmpty empties

/-- Steps 2 to 7 of R139 for one thread. -/
def State.submit (s : State) (l : LaneCtx) (p : RPfx) (k : Ask) : State × Sub :=
  let w := ctrWord l p
  match l.b.handles.getD k.handle none with
  | none => (s, .trap (illegal 6))
  | some lay =>
    if layBad lay || k.bad || !(w.all fun w => ctrOk l.b w) then (s, .trap (illegal 6))
    else if k.skew then (s, .trap (misaligned 0))
    else if !(k.fits lay) then (s.setBstat l.b.core l.b.slot 0, .dropped)
    else
      match s.checkCtrOpt l.b w with
      | (s, .oob) => (s.setBstat l.b.core l.b.slot 0, .dropped)
      | (s, .trap t) => (s, .trap t)
      | (s, .ok ctr) =>
        if 8 ≤ (l.b.streams.getD k.q []).length then (s, .full)
        else
          let c : Cmd := { k.cmd lay with ctr := ctr, seq := l.b.seqs.getD k.q 0, ticket := s.nextOb,
                                          hdef := l.b.hdefs.getD k.handle 0 }
          (s.accept l.b.core l.b.slot k.q c (k.empties lay) (k.ob lay), .accepted)

/-- A copy instruction: each active thread submits its own command, in ascending TID (R139). -/
def State.copyInstr (s : State) (p : RPfx) (ask : LaneCtx → Ask) : State :=
  s.eachOrTrap fun s c l =>
    match s.submit l p (ask l) with
    | (s, .trap t) => (s, some t)
    | (s, .full) => (s.park c.core c.slot l.t.tid (.stream (p.ext % 4)), none)
    | (s, _) => (s.advance [l.t.tid], none)

/-- The scratchpad lines of a core that `n` bytes from an offset cover. -/
def lineSpan (core base off n : Nat) : List Nat :=
  if n = 0 then []
  else
    let first := (base + off) / 128
    (List.range ((base + off + n - 1) / 128 + 1 - first)).map fun i => core * 4096 + first + i

/-! ## Carrying a command out (R150 to R158) -/

/-- Where a byte comes from. -/
inductive Src where
  | zero
  | va (v : Nat)
  | key (k : Nat)
  | held (b : Byte) (bad : Bool)
deriving DecidableEq, Repr

/-- Where a byte goes. -/
inductive Dst where
  | va (v : Nat)
  | key (k : Nat)
deriving DecidableEq, Repr

/-- One unit of a command's work: the bytes of one destination line. -/
abbrev Moves := List (Dst × Src)

/-- Whether a command walks a coordinate list (R151). -/
def Cmd.listed (c : Cmd) : Bool := c.kind == .gather || c.kind == .scatter

/-- The deltas of entry `e` of a command: of its list as read so far, none for a hole (R151); else its own. -/
def Cmd.deltas (c : Cmd) (e : Nat) : Option (Int × Int) :=
  if c.listed then
    match c.ents[e]? with
    | none => none
    | some (x, y) => if x = 2147483648 ∧ y = 2147483648 then none else some (toSigned 32 x, toSigned 32 y)
  else some (toSigned 32 c.d0, toSigned 32 c.d1)

/-- The entries of a command. -/
def Cmd.entries (c : Cmd) : Nat := if c.listed then c.num else 1

/-- Bytes that a command moves: its counter add for each target (R150 to R153). -/
def Cmd.bytes (c : Cmd) : Nat := c.entries * boxBytes c.lay

/-- Whether a command writes memory. -/
def Cmd.stores (c : Cmd) : Bool := c.kind == .tst || c.kind == .scatter || c.kind == .obst

/-- What a command finds when it goes for its next line. -/
inductive NextLine where
  /-- A line of its list is empty: it waits (R154). -/
  | wait
  /-- A word of its list is poisoned: it consumes it (R105). -/
  | poison
  /-- Nothing is left. -/
  | done
  | line (c : Cmd) (ms : Moves)
deriving DecidableEq, Repr

/-- Read the list of a command up to `want` entries, one 16-byte unit after another, as its lines are full (R151, R154):
none where a line is empty, or where a word is poisoned. `fuel` is how many entries may be missing. -/
def State.readEnts (s : State) (b : Block) (want : Nat) : Nat → Cmd → Except NextLine Cmd
  | 0, c => .ok c
  | fuel + 1, c =>
    let e := c.ents.length
    if !c.listed || decide (want ≤ e) then .ok c
    else
      let k := b.scrKey (c.lst + 8 * e)
      let n := Nat.min (if k % 16 = 0 then 2 else 1) (c.num - e)
      if s.emptyLines.contains (b.scrLine (c.lst + 8 * e)) then .error .wait
      else if (List.range n).any fun i => s.poisoned (k + 8 * i) then .error .poison
      else
        let read := (List.range n).map fun i => (s.rdN (k + 8 * i) 4, s.rdN (k + 8 * i + 4) 4)
        s.readEnts b want fuel { c with ents := c.ents ++ read }

/-- The byte of the line buffer that a `WCPY` takes for packed byte `j`, if it takes the row from there (R153): its
predecessor on the stream used the same definition of the handle and differs in dimension 1 alone. -/
def State.retained (s : State) (b : Block) (q : Nat) (c : Cmd) (j : Nat) : Option (Byte × Bool) :=
  match s.linebuf.find? fun r => r.core == b.core && r.slot == b.slot && r.q == q with
  | none => none
  | some r =>
    let shift := toSigned 32 c.d1 - toSigned 32 r.d1
    let row := layE c.lay * layBox c.lay 0
    let box1 := layBox c.lay 1
    let b1 := j / row % box1
    if r.hdef == c.hdef && r.lay == c.lay && r.d0 == c.d0 && decide (2 ≤ layNdim c.lay) && decide (0 < shift) &&
        decide ((b1 : Int) + shift < box1) && Config.retains c.ticket (j / row)
    then r.bytes[j + shift.toNat * row]? else none

/-- The source of packed byte `j` of a command that reads the tensor (R144, R151). -/
def State.srcOf (s : State) (b : Block) (q : Nat) (c : Cmd) (j : Nat) : Src :=
  let n := boxBytes c.lay
  let e := layE c.lay
  match c.deltas (j / n) with
  | none => .zero
  | some (d0, d1) =>
    match (if c.kind == .wcpy then s.retained b q c j else none) with
    | some v => .held v.1 v.2
    | none =>
      match readVa c.lay d0 d1 (j % n / e) with
      | none => .zero
      | some v => .va (elemVa v e (j % e))

/-- The key of packed byte `j` on the engine's side: own scratchpad or operand buffer. -/
def Cmd.sideKey (b : Block) (c : Cmd) (j : Nat) : Nat :=
  match c.kind with
  | .obld | .obst => opbKey b.core (b.opbBase + c.off + j)
  | _ => b.scrKey (c.off + j)

/-- How many destination lines a command that fills scratchpad or operand buffer has. -/
def Cmd.fillLines (b : Block) (c : Cmd) : Nat :=
  if c.bytes = 0 ∨ (c.kind = .mcast ∧ c.targets = []) then 0
  else
    let k0 := Cmd.sideKey b c 0
    (k0 + c.bytes - 1) / 128 + 1 - k0 / 128

/-- The packed bytes that the next destination line of such a command holds: the first, and behind the last. -/
def Cmd.fillSpan (b : Block) (c : Cmd) : Nat × Nat :=
  let k0 := Cmd.sideKey b c 0
  (Nat.max k0 ((k0 / 128 + c.next) * 128) - k0, Nat.min (k0 + c.bytes) ((k0 / 128 + c.next + 1) * 128) - k0)

/-- The moves of that line, in the own allocation. -/
def State.fillMoves (s : State) (b : Block) (q : Nat) (c : Cmd) : Moves :=
  let (lo, hi) := c.fillSpan b
  (List.range (hi - lo)).map fun i => (.key (Cmd.sideKey b c 0 + lo + i), s.srcOf b q c (lo + i))

/-- The byte moves of one entry of a command that writes the tensor, in packed order. Of two elements at one VA (a stride
of 0) the later in this order stands (log entry 63, DESIGN CHOICE). -/
def Cmd.entryMoves (c : Cmd) (e : Nat) : List (Nat × Nat) :=
  match c.deltas e with
  | none => []
  | some (d0, d1) =>
    (List.range (boxElems c.lay)).flatMap fun p =>
      match writeVa c.lay d0 d1 p with
      | none => []
      | some v => (List.range (layE c.lay)).map fun (i : Nat) =>
          (elemVa v (layE c.lay) i, e * boxBytes c.lay + p * layE c.lay + i)

/-- The destination lines of one entry of such a command (R151, R155): they are served in ascending order (log entry 84,
DESIGN CHOICE). -/
def Cmd.entryLines (b : Block) (c : Cmd) (e : Nat) : List Moves :=
  let ms := c.entryMoves e
  let lines := ms.foldl (fun l m => insNat (m.1 / 128) l) []
  lines.map fun x => (ms.filter fun m => m.1 / 128 == x).map fun m => (.va m.1, .key (Cmd.sideKey b c m.2))

/-- The next destination line of a command that writes the tensor, entry by entry. -/
def State.nextStore (s : State) (b : Block) : Nat → Cmd → NextLine
  | 0, _ => .done
  | fuel + 1, c =>
    if c.entries ≤ c.ent then .done
    else
      match s.readEnts b (c.ent + 1) (c.ent + 1) c with
      | .error r => r
      | .ok c =>
        match (c.entryLines b c.ent)[c.next - c.base]? with
        | some ms => .line c ms
        | none => s.nextStore b fuel { c with ent := c.ent + 1, base := c.next }

/-- The next destination line of a command, with the command once what it needs of its list is read. -/
def State.nextLine (s : State) (b : Block) (q : Nat) (c : Cmd) : NextLine :=
  if c.cut then .done
  else if c.stores then s.nextStore b (c.entries + 1) c
  else if c.fillLines b ≤ c.next then .done
  else
    let want := ((c.fillSpan b).2 - 1) / boxBytes c.lay + 1
    match s.readEnts b want want c with
    | .error r => r
    | .ok c => .line c (s.fillMoves b q c)

/-- Whether every destination line of a command has been served. -/
def State.allServed (s : State) (b : Block) (q : Nat) (c : Cmd) : Bool := s.nextLine b q c == .done

/-- The moves of a command's next destination line; none where it waits or is through. -/
def State.unitMoves (s : State) (b : Block) (q : Nat) (c : Cmd) : Moves :=
  match s.nextLine b q c with
  | .line _ ms => ms
  | _ => []

/-- The VA lines that some moves read or write. -/
def moveLines (ms : Moves) (src : Bool) : List Nat :=
  ms.foldl (fun l m =>
    if src then (match m.2 with | .va v => insNat (v / 128) l | _ => l)
    else (match m.1 with | .va v => insNat (v / 128) l | _ => l)) []

/-- The key of a source byte. -/
def Src.keyIn (x : Src) (t : LineTab) : Option Nat :=
  match x with
  | .va v => match t.get (v / 128) with
    | .ok p => some (p.key + v % 128)
    | .error _ => none
  | .key k => some k
  | _ => none

/-- The first line of a table that fails, with its failure. -/
def firstFail (t : LineTab) : Option (Nat × XFail) :=
  t.findSome? fun e => match e.2 with | .error f => some (e.1, f) | .ok _ => none

/-- Poison the words that some bytes taken from poisoned words are written to (R105). -/
def State.carryPoison (s : State) (ws : List (Nat × Bool)) : State :=
  if ws.any (·.2) then
    { s with poison := ws.foldl (fun l w => if w.2 then insNat (w.1 / 8 * 8) l else l) s.poison }
  else s

/-- An engine fault record (R159, R357): it goes into the core's batch, and a party waits on it. -/
def State.engineFault (s : State) (b : Block) (r : FRec) : Nat × State :=
  let (fid, s) := s.takeFid
  let r := { r with fid := fid, kind := 1, core := b.core, bslot := b.slot, asid := b.asid, bid := b.bid.toNat,
                    time := s.ns, pages := [r.va / 65536] }
  (fid, ({ s with pending := s.pending ++ [{ fr := r, launch := b.launch }] } : State).toBatch b.core r)

/-- The engine fault record of a failing line (R159, R253): `fr` names the engine and the command. -/
def XFail.engineRec (f : XFail) (fr : FRec) (line : Nat) (write : Bool) : FRec :=
  { fr with cause := f.cause, noncanon := f.noncanon, malf := f.malf, level := f.level, write := write,
            va := line * 128 % 36028797018963968 }

/-- Replace a command of a stream. -/
def Block.setCmd (b : Block) (q : Nat) (c : Cmd) : Block :=
  { b with streams := b.streams.set q (mapIf (fun x => x.ticket == c.ticket) (fun _ => c) (b.streams.getD q [])) }

/-- Take a command from its stream. -/
def Block.dropCmd (b : Block) (q ticket : Nat) : Block :=
  { b with streams := b.streams.set q ((b.streams.getD q []).filter fun x => x.ticket != ticket) }

/-! ### Source units (R113, R154) -/

/-- The 16-byte unit of a key that a command has read and still holds. -/
def Cmd.unit? (c : Cmd) (u : Nat) : Option (List (Byte × Bool)) := (c.units.find? fun x => x.1 == u).map (·.2.1)

/-- The 16-byte units that some moves read. -/
def unitsOf (t : LineTab) (ms : Moves) : List Nat :=
  ms.foldl (fun l m => match m.2.keyIn t with | some k => insNat (k / 16) l | none => l) []

/-- A 16-byte unit as its home has it, read in one event. -/
def State.readUnit (s : State) (u : Nat) : List (Byte × Bool) :=
  (List.range 16).map fun i => (s.rd (16 * u + i), s.poisoned (16 * u + i))

/-- Read the units that some moves need and that the command does not hold. -/
def State.takeUnits (s : State) (t : LineTab) (ms : Moves) (c : Cmd) : Cmd :=
  let new := (unitsOf t ms).filter fun u => (c.unit? u).isNone
  { c with units := c.units ++ new.map fun u => (u, s.readUnit u, 0) }

/-- The value and the poison of a source byte, once its unit is held; a zero-filled byte is 0. -/
def Cmd.byteOf (c : Cmd) (t : LineTab) (x : Src) : Byte × Bool :=
  match x with
  | .held b bad => (b, bad)
  | x => match x.keyIn t with
    | some k => ((c.unit? (k / 16)).getD []).getD (k % 16) (0, false)
    | none => (0, false)

/-- Forget the units of which some moves have taken the last byte. -/
def Cmd.dropUnits (c : Cmd) (t : LineTab) (ms : Moves) : Cmd :=
  let keys := ms.filterMap fun m => m.2.keyIn t
  let marked := c.units.map fun x =>
    (x.1, x.2.1, keys.foldl (fun m k => if k / 16 = x.1 then m ||| 2 ^ (k % 16) else m) x.2.2)
  { c with units := marked.filter fun x => x.2.2 != 65535 }

/-- The source keys of some moves whose scratchpad lines are empty, and which the command does not hold, make the engine
wait (R154). -/
def State.srcEmpty (s : State) (t : LineTab) (ms : Moves) (c : Cmd) : Bool :=
  ms.any fun m => match m.2.keyIn t with
    | some k => spaceOf k == .scr && (c.unit? (k / 16)).isNone && s.emptyLines.contains ((k - 2199023255552) / 128)
    | none => false

/-- The engine's access reaches the home of some lines (R154, R155, R271, R288). -/
def State.reachHomes (s : State) (t : LineTab) (write : Bool) (bytes : Nat → BitVec 128) : State :=
  t.foldl (fun s e => match e.2 with
    | .ok p => s.atHome none p (bytes e.1) write
    | .error _ => s) s

/-- The bytes of a VA line that some moves read or write. -/
def moveBytes (ms : Moves) (src : Bool) (line : Nat) : BitVec 128 :=
  ms.foldl (fun m x =>
    let hit := fun (v : Nat) => if v / 128 = line then setMask m (v % 128) else m
    if src then (match x.2 with | .va v => hit v | _ => m) else (match x.1 with | .va v => hit v | _ => m)) 0

/-- Write one line of a fill: own allocation, or each target's (R152); the lines go full (R156). -/
def State.landFill (s : State) (b : Block) (c : Cmd) (cells : List (Nat × Byte)) (poi : List (Nat × Bool)) :
    State :=
  match c.kind with
  | .obld => (s.homeWriteCells cells).carryPoison poi
  | .mcast =>
    c.targets.foldl (fun s t =>
      let mv := fun k => scrKey t.1 (t.2.2 + (k - scrKey b.core b.scrBase))
      let moved := cells.map fun x => (mv x.1, x.2)
      let lines := moved.foldl (fun l x => insNat ((x.1 - 2199023255552) / 128) l) []
      ((s.homeWriteCells moved).carryPoison (poi.map fun x => (mv x.1, x.2))).setFull lines) s
  | _ =>
    let lines := cells.foldl (fun l x => insNat ((x.1 - 2199023255552) / 128) l) []
    ((s.homeWriteCells cells).carryPoison poi).setFull lines

/-- The command stops at a failing line (R159): the state with its record and the command. `fr` is the engine fault record
but for what the line gives. A killed command is abandoned there, and its record awaits no answer (R382). -/
def State.stopCmd (s : State) (b : Block) (c : Cmd) (fr : FRec) (line : Nat) (f : XFail) (write : Bool) : State × Cmd :=
  let (fid, s) := s.engineFault b (f.engineRec fr line write)
  if c.dead then ({ s with pending := s.pending.filter fun p => p.fr.fid != fid }, { c with cut := true })
  else (s, { c with stopped := some fid })

/-- Serve the next destination line of a command (R137, R150 to R159): the state and the command after it. The lines that it
reads are translated before the line that it writes (log entry 84, DESIGN CHOICE). -/
def State.serveOne (s : State) (b : Block) (q : Nat) (c : Cmd) (fr : FRec) : State × Cmd :=
  let c := { c with begun := true }
  match s.nextLine b q c with
  | .wait | .done => (s, c)
  | .poison => (s, { c with cut := c.dead })
  | .line c ms =>
    let (s, st) := s.xlatLines b.asker .read (moveLines ms true)
    match firstFail st with
    | some (l, f) => s.stopCmd b c fr l f false
    | none =>
      if s.srcEmpty st ms c then (s, c)
      else
        let (s, dt) := s.xlatLines b.asker .write (moveLines ms false)
        let bad := dt.findSome? fun e => match e.2 with
          | .ok p => if p.ct == 2 && s.written (p.key / 128) then some (e.1, ({ cause := 5 } : XFail)) else none
          | .error f => some (e.1, f)
        match bad with
        | some (l, f) => s.stopCmd b c fr l f true
        | none =>
          let s := s.reachHomes st false (moveBytes ms true)
          let c := s.takeUnits st ms c
          let bytes := ms.map fun m => c.byteOf st m.2
          let keys := ms.map fun m => match m.1 with
            | .key k => k
            | .va v => ((Src.va v).keyIn dt).getD 0
          let poi := keys.zip (bytes.map (·.2))
          let cells := keys.zip (bytes.map (·.1))
          let done := { c.dropUnits st ms with next := c.next + 1, got := if c.kind == .wcpy then c.got ++ bytes else [] }
          let s := s.reachHomes dt true (moveBytes ms false)
          let s :=
            if c.stores then
              let s := dt.foldl (fun s e => match e.2 with
                | .ok p => if p.ct = 2 then s.setWritten (p.key / 128) true else s
                | .error _ => s) s
              (s.homeWriteCells cells).carryPoison poi
            else s.landFill b c cells poi
          (s, done)

/-! ### Which stream is served (R137) -/

/-- Serve the next destination line of the command at the head of a stream; one that consumes poison kills its launch
(R105). -/
def State.serveLine (s : State) (b : Block) (q : Nat) (c : Cmd) : State :=
  let r := s.serveOne b q c { stream := q, cmd := c.seq }
  let t := if s.nextLine b q c == .poison && !c.dead then s.consumePoison b.core b.slot
    else r.1.modBlock b.core b.slot fun b => b.setCmd q r.2
  { t with turns := (b.core, b.slot, q) :: t.turns.filter fun x => x.1 != b.core }

/-- Whether a stream has work that can go on: its command is not stopped, has a line left that waits on no line of its
list, and, where it accesses the operand buffer, its turn there has come (R221). -/
def State.hasWork (s : State) (b : Block) (q : Nat) : Bool :=
  match b.streams.getD q [] with
  | [] => false
  | c :: _ =>
    let side := c.kind == .obld || c.kind == .obst
    c.stopped.isNone && !(side && !(b.obClear c.ticket c.off (c.off + c.bytes))) &&
      (match s.nextLine b q c with
        | .poison => true
        | .line .. => true
        | _ => false)

/-- Whether it is the turn of a stream in the round-robin of its core's engine (R137): no other stream of the core that has
work stands between the one served last and it. -/
def State.hasTurn (s : State) (b : Block) (q : Nat) : Bool :=
  let place := fun (slot q : Nat) => 4 * slot + q
  let last := ((s.turns.find? fun x => x.1 == b.core).map fun x => place x.2.1 x.2.2).getD 127
  let ahead := fun (slot q : Nat) => (place slot q + 127 - last) % 128
  !(s.blocks.any fun x => x.core == b.core && (List.range 4).any fun p =>
      decide (ahead x.slot p < ahead b.slot q) && s.hasWork x p)

/-- The engine serves one destination line of a stream's first command, when the stream has work and its turn has come
(R137). -/
def execCopyLineServe (core slot q : Nat) (s : State) : Res :=
  .next (match s.block? core slot with
    | none => s
    | some b =>
      match b.streams.getD q [] with
      | [] => s
      | c :: _ => if s.hasWork b q && s.hasTurn b q then s.serveLine b q c else s)

/-! ### Completion (R157) -/

/-- One add to a counter that a command of a block names (R157), at a barrier of the block or at the counter's home: the
add translates afresh, and an address that fails is given back (R90, R159, log entry 36). -/
def State.ctrAdd (s : State) (b : Block) (ctr : Ctr) (n : Nat) : State × Option (Nat × XFail) :=
  match ctr with
  | .none => (s, none)
  | .barrier i => (s.barrierAdd b.core b.slot i n, none)
  | .mem va =>
    match s.translate b.asker .atomic (va / 128 * 128) with
    | (s, .error f) => (s, some (va / 128, f))
    | (s, .ok p) =>
      let s := s.atHome none p (rangeMask (va % 128) (va % 128 + 8)) true
      if s.poisoned (p.key + va % 128) then (s.consumePoison b.core b.slot, none)
      else (s.counterAdd (p.key + va % 128) n, none)

/-- Whether a block stands on a place as a rank of another block's cluster. -/
def Block.mate (b x : Block) : Bool := x.launch == b.launch && x.clid == b.clid

/-- The adds of a completed command (R157): one of its bytes; of an `MCPY` one for each target, at a barrier of the target's
own block, unless that block has exited, or at the one memory counter (R152). -/
def State.ctrAdds (s : State) (b : Block) (c : Cmd) : State × Option (Nat × XFail) :=
  if c.kind == .mcast then
    c.targets.foldl (fun r t =>
      match r.2, c.ctr with
      | some f, _ => (r.1, some f)
      | none, .barrier i =>
        match r.1.block? t.1 t.2.1 with
        | some x => if b.mate x then (r.1.barrierAdd t.1 t.2.1 i c.bytes, none) else r
        | none => r
      | none, ctr => r.1.ctrAdd b ctr c.bytes) (s, none)
  else s.ctrAdd b c.ctr c.bytes

/-- The line buffer no longer holds rows of a stream (R153). -/
def State.dropRows (s : State) (core slot q : Nat) : State :=
  { s with linebuf := s.linebuf.filter fun r => !(r.core == core && r.slot == slot && r.q == q) }

/-- The rows that a completed `WCPY` leaves in its core's line buffer of 64 KiB (R137, R153): the oldest rows of the core
that find no room there are dropped. -/
def State.keepRows (s : State) (b : Block) (q : Nat) (c : Cmd) : State :=
  if c.kind == .wcpy then
    let s := s.dropRows b.core b.slot q
    if c.bytes ≤ 65536 then
      let mine : Rows := { core := b.core, slot := b.slot, q := q, hdef := c.hdef, lay := c.lay, d0 := c.d0, d1 := c.d1,
                           bytes := c.got }
      { s with linebuf := ((mine :: s.linebuf).foldl (fun (a : List Rows × Nat) r =>
          if r.core != b.core then (a.1 ++ [r], a.2)
          else if a.2 + r.bytes.length ≤ 65536 then (a.1 ++ [r], a.2 + r.bytes.length) else a) ([], 0)).1 }
    else s
  else s

/-- A command whose destination bytes have all been performed completes (R157): its adds, its place freed, the rows it
leaves in the line buffer (R153), its place in the order of R221. An add whose address fails to translate stops it
(R159). -/
def execCopyComplete (core slot q : Nat) (s : State) : Res :=
  .next (match s.block? core slot with
    | none => s
    | some b =>
      match b.streams.getD q [] with
      | [] => s
      | c :: _ =>
        if c.stopped.isSome || !(s.allServed b q c) then s
        else
          match (if c.dead then (s, none) else s.ctrAdds b c) with
          | (s, some (line, f)) =>
            let r := s.stopCmd b c { stream := q, cmd := c.seq } line f true
            r.1.modBlock core slot fun b => b.setCmd q r.2
          | (s, none) =>
            (((s.modBlock core slot fun b => b.dropCmd q c.ticket).obDone core slot c.ticket).keepRows b q c))

end Sys2Proof.Machine
end

