-- ==== Sys2Proof/Machine/Copy.lean ====
section
/-!
DEFINITION. Copy.lean: the instructions of the block transfer engine (R146, R148 to R153).
-/
namespace Sys2Proof.Machine

/-- Whether `n` bytes from a scratchpad offset lie in the block's allocation (R139, step 4). A command of no entries whose
empty range starts beyond the allocation does not fit either (R151, R162; log entry 73, DESIGN CHOICE). -/
def Block.scrFits (b : Block) (off n : Nat) : Bool := decide (off + n ≤ b.scr * 128)

/-- A command of one box between the tensor and the own scratchpad (R150, R153). -/
def boxAsk (k : CmdKind) (p : RPfx) (r : R3) (l : LaneCtx) : Ask :=
  let off := l.n r.a
  { cmd := fun lay => { kind := k, seq := 0, ticket := 0, lay := lay, off := off, d0 := l.pair r.b % 4294967296,
                        d1 := l.pair r.b / 4294967296, ctr := .none }
    handle := r.d % 16, q := p.ext % 4, bad := false, skew := off % 16 != 0
    fits := fun lay => l.b.scrFits off (boxBytes lay)
    empties := fun lay => if k == .tst then [] else lineSpan l.b.core l.b.scrBase off (boxBytes lay)
    ob := fun _ => none }

/-- `TCPY.ld` (R150). -/
def execTcpyLd (p : RPfx) (r : R3) (s : State) : Res := .next (s.copyInstr p (boxAsk .tld p r))
/-- `TCPY.st` (R150). -/
def execTcpySt (p : RPfx) (r : R3) (s : State) : Res := .next (s.copyInstr p (boxAsk .tst p r))
/-- `WCPY` (R153). -/
def execWcpy (p : RPfx) (r : R3) (s : State) : Res := .next (s.copyInstr p (boxAsk .wcpy p r))

/-- A command that walks a coordinate list (R151). -/
def listAsk (k : CmdKind) (p : RPfx) (r : R3) (l : LaneCtx) : Ask :=
  let off := l.n r.a
  let lst := l.pair r.b % 4294967296
  let n := l.pair r.b / 4294967296
  { cmd := fun lay => { kind := k, seq := 0, ticket := 0, lay := lay, off := off, d0 := 0, d1 := 0, lst := lst, num := n,
                        ctr := .none }
    handle := r.d % 16, q := p.ext % 4, bad := decide (65536 < n), skew := off % 16 != 0 || lst % 8 != 0
    fits := fun lay => l.b.scrFits off (n * boxBytes lay) && l.b.scrFits lst (8 * n)
    empties := fun lay => if k == .scatter then [] else lineSpan l.b.core l.b.scrBase off (n * boxBytes lay)
    ob := fun _ => none }

/-- `GCPY.gather` (R151). -/
def execGcpyGather (p : RPfx) (r : R3) (s : State) : Res := .next (s.copyInstr p (listAsk .gather p r))
/-- `GCPY.scatter` (R151). -/
def execGcpyScatter (p : RPfx) (r : R3) (s : State) : Res := .next (s.copyInstr p (listAsk .scatter p r))

/-- The target ranks of a mask (R152). -/
def maskRanks (mask : Nat) : List Nat := (List.range 64).filter fun i => bitAt mask i

/-- A multicast (R152). -/
def castAsk (p : RPfx) (r : R3) (l : LaneCtx) : Ask :=
  let off := l.n r.a
  let v := l.quad r.b
  let mask := v / 18446744073709551616
  let ts := (maskRanks mask).filterMap fun i => l.b.ranks[i]?
  { cmd := fun lay => { kind := .mcast, seq := 0, ticket := 0, lay := lay, off := off, d0 := v % 4294967296,
                        d1 := v / 4294967296 % 4294967296, targets := ts, ctr := .none }
    handle := r.d % 16, q := p.ext % 4, bad := decide (2 ^ l.b.clsize.toNat ≤ mask), skew := off % 16 != 0
    fits := fun lay => l.b.scrFits off (boxBytes lay)
    empties := fun lay => ts.flatMap fun t => lineSpan t.1 t.2.2 off (boxBytes lay)
    ob := fun _ => none }

/-- `MCPY` (R152). -/
def execMcpy (p : RPfx) (r : R3) (s : State) : Res := .next (s.copyInstr p (castAsk p r))

/-- `THND` (R146): the lowest-TID active thread alone loads the handle. Its 256 bytes always lie over two lines, and
`BSTAT`.SPLIT stays as it is (R435; log entry 89, DEDUCED). -/
def execThnd (r : R3) (s : State) : Res :=
  let fs := (s.forms (r.b % 32) r.a 0 256 64).take 1
  let others := (s.lanes.drop 1).map fun l => l.t.tid
  let give := fun (v : Nat) (t : Thread) => { t with pend := t.pend ++ [.handle (r.d % 16) (BitVec.ofNat 2048 v) s.now] }
  .next ((s.load fs .normal none give (give 0) false).advance others)

/-- A place of a stream frees and a thread parked on it resumes (R139). -/
def execStreamPlaceFrees (core slot tid : Nat) (s : State) : Res :=
  .next (match s.block? core slot with
    | none => s
    | some b =>
      match (b.thread? tid).map fun (t : Thread) => t.cond with
      | some (.wings (.stream q)) => if (b.streams.getD q []).length < 8 then s.wake core slot tid else s
      | _ => s)

end Sys2Proof.Machine
end

