-- ==== Sys2Proof/Machine/CrossLane.lean ====
section
/-!
DEFINITION. CrossLane.lean: the collectives of the vector unit and the quad instructions (R209, R213 to R218). That a
collective needs a full warp is checked at issue (Machine/Issue.lean).
-/
namespace Sys2Proof.Machine

/-- The values that some code has on the lanes of the executing warp. -/
def State.laneWords (s : State) (a : Nat) : List (Nat × Word) := s.lanes.map fun c => (c.lane, c.x a)
/-- The value of one lane. -/
def laneAt (l : List (Nat × Word)) (i : Nat) : Word := ((l.find? fun p => p.1 == i).map (·.2)).getD 0

/-- The source lane of a `SHFL` (R214); `none` outside 0 to 31. -/
def shflSrc (m : ShflMode) (l : Nat) (b : Word) : Option Nat :=
  match m with
  | .idx => some (b.toNat % 32)
  | .up => if b.toNat ≤ l then some (l - b.toNat) else none
  | .down => if l + b.toNat < 32 then some (l + b.toNat) else none
  | .xor => some (l ^^^ (b.toNat % 32))

/-- `SHFL` (R214). -/
def execShfl (m : ShflMode) (r : R3) (s : State) : Res :=
  let tab := s.laneWords r.a
  .next (s.vec fun c =>
    match shflSrc m c.lane (c.x r.b) with
    | some i => c.t.setX r.d (laneAt tab i)
    | none => c.t.setX r.d (c.x r.a))

/-- `VOTE` (R215). -/
def execVote (v : VoteKind) (r : R3) (s : State) : Res :=
  let ps := s.lanes.map fun c => (c.lane, c.t.pred (r.a % 8))
  .next (s.vec fun c =>
    match v with
    | .any => c.t.setPred (r.d % 8) (ps.any (·.2))
    | .all => c.t.setPred (r.d % 8) (ps.all (·.2))
    | .ballot => c.t.setN r.d (ps.foldl (fun a p => if p.2 then a ||| 2 ^ p.1 else a) 0))

/-- The reduction of R216 over some words, with the rounding direction of `.add.f32`, and its flags. -/
def redOf (o : RedOp) (mode : RMode) (l : List Word) : Nat × Fl :=
  let fold := fun (f : Word → Word → Word) =>
    match l with
    | [] => 0
    | x :: r => (r.foldl f x).toNat
  match o with
  | .addN32 => (l.foldl (fun a x => a + x.toNat) 0 % 4294967296, {})
  | .minS32 => (fold fun a x => if x.toInt < a.toInt then x else a, {})
  | .maxS32 => (fold fun a x => if a.toInt < x.toInt then x else a, {})
  | .minN32 => (fold fun a x => if x.toNat < a.toNat then x else a, {})
  | .maxN32 => (fold fun a x => if a.toNat < x.toNat then x else a, {})
  | .addF32 => roundF32 mode (sumOf mode (l.map fun x => f32.val x.toNat))
  | .minF32 => (fold fun a x => BitVec.ofNat 32 (f32.min a.toNat x.toNat), {})
  | .maxF32 => (fold fun a x => BitVec.ofNat 32 (f32.max a.toNat x.toNat), {})

/-- `WRED` (R216): `.add.f32` rounds as the prefix or the lowest-TID thread says. -/
def execWred (o : RedOp) (p : Option RPfx) (r : R3) (s : State) : Res :=
  let mode := (s.firstLane.map fun c => rmodeOf c.t (pfx p)).getD .rne
  let v := redOf o mode ((s.laneWords r.a).map (·.2))
  .next (s.vec fun c => c.t.giveF r.d v)

/-- The two values a lane gives to a `QNT` (R209). -/
def qntPair (t : QntTy) (c : LaneCtx) (a : Nat) : List FV :=
  match t with
  | .f32 => [f32.val (c.pair a % 4294967296), f32.val (c.pair a / 4294967296)]
  | .f16 => [fp16.val (c.n a % 65536), fp16.val (c.n a / 65536)]
  | .bf16 => [Machine.bf16.val (c.n a % 65536), Machine.bf16.val (c.n a / 65536)]

/-- The lanes of the executing warp in ascending lane number. -/
def State.byLane (s : State) : List LaneCtx :=
  (List.range 32).filterMap fun i => s.lanes.find? fun c => c.lane == i

/-- `QNT` (R209): one block of 64 values, against the super-scale of lane 0. -/
def execQnt (t : QntTy) (r : R3) (s : State) : Res :=
  let ls := s.byLane
  let sup := ((ls.head?).map fun c => f32.val (c.n r.b)).getD .nan
  let (q, idx, fl) := qntBlock sup (ls.flatMap fun c => qntPair t c r.a)
  .next (s.vec fun c =>
    (c.t.setN r.d (q * 256 + idx.getD (2 * c.lane + 1) 0 * 16 + idx.getD (2 * c.lane) 0)).raise fl)

/-! ## Quads (R217, R218) -/

/-- Whether the quad of a thread stands in the executing warp: every live member at lane 4j + m (R217). -/
def quadStands (b : Block) (c : Cur) (q : Nat) : Bool :=
  b.threads.all fun t =>
    !(t.tid / 4 == q && t.live) || c.act.contains (4 * (q % 8) + t.tid % 4, t.tid)

/-- X(code) of the four members of a quad; a helper reads 0 (R217; log entry 20). -/
def quadWords (ls : List LaneCtx) (q a : Nat) : List Word :=
  (List.range 4).map fun m => ((ls.find? fun c => c.t.tid == 4 * q + m).map fun c => c.x a).getD 0

/-- A quad instruction (R217): `f` gives what a member writes from the members' values; the threads of quads that do
not stand in the warp park. -/
def State.quad (s : State) (a : Nat) (f : List LaneCtx → List Word → LaneCtx → Thread) : State :=
  match s.cur with
  | none => s
  | some c =>
    match s.block? c.core c.slot with
    | none => s
    | some b =>
      let ls := s.lanes
      let stays := fun (l : LaneCtx) => quadStands b c (l.t.tid / 4)
      let s1 := s.modBlock c.core c.slot fun b =>
        { b with threads := b.threads.map fun t =>
            match ls.find? fun l => l.t.tid == t.tid && stays l with
            | some l =>
              let mates := ls.filter fun m => m.t.tid / 4 == t.tid / 4
              { f mates (quadWords ls (t.tid / 4) a) l with pc := c.nextPc }
            | none => t }
      let away := (ls.filter fun l => !(stays l)).map fun l => l.t.tid
      if away.isEmpty then s1 else (s1.leave c.core c.slot away (.wings .quad)).meetQuads c.core c.slot

/-- `QSWP` (R218). -/
def execQswp (x : QswpKind) (r : R3) (s : State) : Res :=
  let k := match x with | .x1 => 1 | .x2 => 2 | .x3 => 3
  .next (s.quad r.a fun _ vs l => l.t.setX r.d (vs.getD ((l.t.tid % 4) ^^^ k) 0))

/-- `QBCST` (R218). -/
def execQbcst (m : Nat) (r : R3) (s : State) : Res :=
  .next (s.quad r.a fun _ vs l => l.t.setX r.d (vs.getD m 0))

/-- `QRED` (R218): `.add.f32` rounds as the prefix or the quad's lowest-TID live member says. -/
def execQred (o : RedOp) (p : Option RPfx) (r : R3) (s : State) : Res :=
  .next (s.quad r.a fun mates vs l =>
    let mode := (mates.head?.map fun c => rmodeOf c.t (pfx p)).getD .rne
    l.t.giveF r.d (redOf o mode vs))

end Sys2Proof.Machine
end

