-- ==== Sys2Proof/Machine/Matrix.lean ====
section
/-!
DEFINITION. Matrix.lean: the matrix engine and the instructions of the operand buffer (R226 to R239), with the
arithmetic of R180, R181 and R183.
-/
namespace Sys2Proof.Machine

/-- The thread that stands in lane 0, from which the ten instructions read their operands (R226). -/
def State.lane0 (s : State) : Option LaneCtx := s.lanes.find? fun l => l.lane == 0

/-- One of the ten instructions (R226): `f` gives the state after it, or none where a check fails, which traps the
whole warp with subcode 6. -/
def State.matrixInstr (s : State) (f : LaneCtx → Option State) : State :=
  match s.lane0 with
  | none => s
  | some l =>
    match f l with
    | some t => t.advanceAll
    | none => s.trapWarp (illegal 6)

/-- A slot of a block. -/
def Block.obSlot (b : Block) (i : Nat) : ObSlot := b.slots.getD i {}

/-! ## Reservations (R228 to R231) -/

/-- `OBRES` (R228). -/
def execObres (r : R3) (s : State) : Res :=
  .next (s.matrixInstr fun l =>
    let rv := BitVec.ofNat 128 (l.quad r.a)
    if (l.b.obSlot (r.d % 16)).live || rvBad l.b rv then none
    else
      let s1 := s.modBlock l.b.core l.b.slot fun b =>
        { b with slots := b.slots.set (r.d % 16) { live := true, rv := rv, cur := false, gen := s.nextOb } }
      some { s1 with nextOb := s.nextOb + 1 })

/-- `OBREL` (R229). -/
def execObrel (r : R3) (s : State) : Res :=
  .next (s.matrixInstr fun l =>
    some (s.modBlock l.b.core l.b.slot fun b =>
      { b with slots := b.slots.set (r.d % 16) { b.obSlot (r.d % 16) with live := false } }))

/-- `OBCLR` (R230): every byte of the slot's rows, those too in which a scale, super-scale or map area lies (log entry 65,
DESIGN CHOICE: the rule zeroes every byte of the rows and leaves the areas alone, and R224 lets them overlap). -/
def execObclr (r : R3) (s : State) : Res :=
  .next (s.matrixInstr fun l =>
    let o := l.b.obSlot (r.d % 16)
    if !o.live then none
    else
      let lo := rvRow0 o.rv * 512
      let n := rvNrow o.rv * 512
      some (s.obIssue l.b.core l.b.slot [(lo, lo + n)] (.write ((List.range n).map fun i => (lo + i, 0)))))

/-- `OBDUP` (R231): the entries of the 32 lanes. -/
def execObdup (p : RPfx) (r : R3) (s : State) : Res :=
  .next (s.matrixInstr fun l =>
    let o := l.b.obSlot (r.d % 16)
    let seg := p.ext % 64
    let es := (List.range 32).map fun i => ((s.lanes.find? fun c => c.lane == i).map fun c => c.n r.a % 65536).getD 0
    if !o.live || !(o.rv.getLsbD 127) || decide (rvSegs o.rv ≤ seg) || !(segOk es) then none
    else
      let lo := rvDm o.rv + 64 * seg
      some (s.obIssue l.b.core l.b.slot [(lo, lo + 64)]
        (.write ((es.flatMap fun e => bytesLE 2 e).zipIdx.map fun x => (lo + x.2, x.1)))))

/-! ## Arithmetic (R180, R181, R183) -/

/-- A half of a split element in its format (R183): for integers the first or the second half. -/
def halved (aty copy bits : Nat) : Nat :=
  if copy = 0 then bits
  else if aty = 4 ∨ aty = 5 then
    let x : Int := if aty = 4 then toSigned 8 bits else bits
    let h := x.fdiv 2
    wrapNat 8 (if copy = 1 then h else x - h)
  else
    let f := fmtOf aty
    match f.val bits with
    | .fin n m e => (f.round .rne false (.fin n m (e - 1))).1
    | v => (f.round .rne false v).1

/-- Element `e` of a lane's A registers (R232). -/
def aBits (aty : Nat) (regs : List Word) (e : Nat) : Nat :=
  if aty = 6 ∨ aty = 7 then (regs.getD (e / 2) 0).toNat / 65536 ^ (e % 2) % 65536
  else (regs.getD (e / 4) 0).toNat / 256 ^ (e % 4) % 256

/-- The value of infinities of E4M3, which has none, aside: an encoding of an A type. -/
def aVal (aty bits : Nat) : FV := (fmtOf aty).val bits

/-- The groups of 16 products of one output element (R180). -/
def mmaF : Nat → Nat → List (FV × FV) → Nat
  | 0, acc, _ => acc
  | g + 1, acc, l =>
    let s := (f32.round .rne false (sumOf .rne ((l.take 16).map fun x => (mulOf x.1 x.2).1)).1).1
    mmaF g (f32.round .rne false (sumOf .rne [f32.val acc, f32.val s]).1).1 (l.drop 16)

/-- One output element of an integer multiply (R181). -/
def mmaI (acc : Nat) (l : List (Int × Int)) : Nat :=
  wrapNat 32 (l.foldl (fun a x => a + x.1 * x.2) (acc : Int))

/-- An 8-bit integer of a type code. -/
def int8Of (code bits : Nat) : Int := if code = 4 then toSigned 8 bits else bits

/-- What a B element is in a multiply: outside the matrix a zero (R234); an element of a row that its map places beyond
DIMK, whose value the manual does not state, is free (log entry 17). -/
inductive BElem where
  | pad
  | at (k n : Nat)
  | open (i : Nat)
deriving DecidableEq, Repr

/-- The bits of a B element; its k and n where it has a place. -/
def State.bBits (s : State) (b : Block) (m : Mul) (x : BElem) : Nat :=
  match x with
  | .pad => 0
  | .at k n =>
    let (l, p) := rvAt m.bres k n
    s.elemBits b m.bres m.stage l p
  | .open i => Config.freeWord (s.free + i) % 2 ^ rvWidth m.bres

/-- The value of a B element. -/
def State.bValue (s : State) (b : Block) (m : Mul) (x : BElem) : FV :=
  match x with
  | .pad => .fin false 0 0
  | .at k n => s.bitsVal b m.bres k n (s.bBits b m x)
  | .open _ => if rvFmt m.bres = 8 then (qc4Value (s.bBits b m x) (.fin false 1 0) 4096).1
      else (fmtOf (rvFmt m.bres)).val (s.bBits b m x)

/-- The bytes of the accumulator window that a multiply writes (R234). A bad segment counts where an element of the
window is sought in it or behind it (log entry 66, DESIGN CHOICE). -/
def State.mulResult (s : State) (b : Block) (m : Mul) : List (Nat × Byte) :=
  let aty := rvAty m.bres
  let kb := ((admitted (rvFmt m.bres) aty).map (·.1)).getD 0
  let isInt := rvFmt m.acc == 1
  let map := s.mapOf b m.bres
  let kx := mapLen map
  let ks := (List.range kb).map fun e => if m.k0 + e < kx then some (origFrom map 0 (m.k0 + e)) else none
  let segBad := map.zipIdx.any fun x => !x.1.2.2 && ks.any fun k => k.any fun o => decide (x.2 ≤ o.1 / 1024)
  let elem := fun (e j : Nat) =>
    match ks.getD e none with
    | none => BElem.pad
    | some (k, _) =>
      if rvDimN m.bres ≤ m.n0 + j then .pad
      else if rvDimK m.bres ≤ k then .open (128 * e + j)
      else .at k (m.n0 + j)
  let rows := (List.range 32).map fun i => (List.range kb).map fun e =>
    halved aty (((ks.getD e none).map (·.2)).getD 0) (aBits aty (m.a.getD i []) e)
  let cols := (List.range 128).map fun j => (List.range kb).map fun e => elem e j
  let place := fun (i j v : Nat) =>
    (bytesLE 4 v).zipIdx.map fun x => (rvStart m.acc false + i * rvPitch m.acc + 4 * (m.c0 + j) + x.2, x.1)
  let c := fun (i j : Nat) => if m.z then 0 else s.elemBits b m.acc false i (m.c0 + j)
  if segBad then
    (List.range 32).flatMap fun i => (List.range 128).flatMap fun j => place i j (if isInt then 0 else f32.nan)
  else if isInt then
    let ra := rows.map fun r => r.map fun v => int8Of aty v
    let cb := cols.map fun l => l.map fun x => int8Of (rvFmt m.bres) (s.bBits b m x)
    ra.zipIdx.flatMap fun r => cb.zipIdx.flatMap fun l => place r.2 l.2 (mmaI (c r.2 l.2) (r.1.zip l.1))
  else
    let ra := rows.map fun r => r.map fun v => aVal aty v
    let cb := cols.map fun l => l.map fun x => s.bValue b m x
    ra.zipIdx.flatMap fun r => cb.zipIdx.flatMap fun l => place r.2 l.2 (mmaF (kb / 16) (c r.2 l.2) (r.1.zip l.1))

/-! ## `MMA` and `MMAH` (R232 to R236, R239) -/

/-- Multiplies that a core's engine has accepted and not begun. -/
def State.mulsWaiting (s : State) (core : Nat) : Nat := (s.muls.filter fun m => m.core == core && !m.started).length

/-- The A registers of the 32 lanes, in lane order. -/
def State.aRegs (s : State) (d n : Nat) : List (List Word) :=
  (List.range 32).map fun i => ((s.lanes.find? fun c => c.lane == i).map fun c => c.group d n).getD []

/-- The reuse latch after an instruction (R235): set by U, released otherwise. It changes issue cost only. -/
def State.latch (s : State) (core slot d : Nat) (u : Bool) : State :=
  let lanes := ((s.cur.map (·.act)).getD [])
  let others := s.reuse.filter fun x => x.1 != core
  { s with reuse := if u then (core, slot, d, lanes) :: others else others }

/-- Whether a core's engine queue has no place for a multiply: the warp whose `MMA` or `MMAH` finds it so is held at issue
(R239). -/
def State.mulsFull (s : State) (core : Nat) : Bool := decide (4 ≤ s.mulsWaiting core)

/-- What `MMA` and `MMAH` share: the full queue, which holds the warp at issue (R239), the slots and R225, the group's place
and size, the accumulator's window. Where several checks fail the manual gives no order among them: the model makes them
in this one (log entry 81, DESIGN CHOICE). `f` checks the rest and gives the multiply's origins, or none. -/
def State.mulInstr (s : State) (z : Bool) (p : RPfx) (r : R3)
    (f : LaneCtx → ObSlot → Nat → Option (Mul → State)) : State :=
  match s.lane0 with
  | none => s
  | some l =>
    if s.mulsFull l.b.core then s
    else
      let a := l.b.obSlot (p.ext % 16)
      let o := l.b.obSlot (p.ext / 16 % 16)
      if !a.live || !o.live || !(rvAcc a.rv) || rvAcc o.rv then s.trapWarp (illegal 6)
      else
        match admitted (rvFmt o.rv) (rvAty o.rv) with
        | none => s.trapWarp (illegal 6)
        | some (kb, n, facc) =>
          let c0 := l.n r.b % 65536
          if facc ≠ rvFmt a.rv then s.trapWarp (illegal 6)
          else if 120 < r.d + n then s.trapWarp (illegal 4)
          else if s.lanes.any fun c => decide (c.b.nregs < c.t.wb.toNat + r.d + n) then s.trapWarp (illegal 5)
          else if c0 % 16 ≠ 0 ∨ rvDimN a.rv < c0 + 128 then s.trapWarp (illegal 6)
          else
            match f l o kb with
            | none => s.trapWarp (illegal 6)
            | some g =>
              let m : Mul :=
                { core := l.b.core, slot := l.b.slot, id := s.nextOb, z := z, acc := a.rv, bres := o.rv, gen := o.gen,
                  stage := o.cur, k0 := 0, n0 := 0, c0 := c0, a := s.aRegs r.d n }
              ((g m).latch l.b.core l.b.slot r.d (bitAt p.ext 8)).advanceAll

/-- The rows of B that a multiply reads from expanded row `k0` on, through a map (R231): the first, and behind the last. -/
def rowSpan (map : List (Nat × List Nat × Bool)) (dimK k0 kb : Nat) : Nat × Nat :=
  ((origFrom map 0 k0).1, Nat.min dimK ((origFrom map 0 (Nat.min (k0 + kb) (mapLen map) - 1)).1 + 1))

/-- The bytes of B that a multiply reads (R221): of a stage, or of either stage where a fetch decides which it will be. -/
def bRanges (r : BitVec 128) (stage known : Bool) (rows : Nat × Nat) (n0 : Nat) : List (Nat × Nat) :=
  if known || !(r.getLsbD 26) then windowRanges r stage rows n0
  else windowRanges r false rows n0 ++ windowRanges r true rows n0

/-- The buffer as the writes that wait will leave it (R221), and whether a range of an allocation will stand so: not where
an earlier copy or multiply is still to write into the range. -/
def State.obView (s : State) (b : Block) (lo hi : Nat) : State × Bool :=
  let meets := fun (id : Nat) => b.obq.any fun e => e.1 == id && decide (e.2.1 < hi) && decide (lo < e.2.2)
  let here := fun (core slot : Nat) => core == b.core && slot == b.slot
  let copies := b.streams.any fun q => q.any fun c => c.kind == .obld && meets c.ticket
  let fetches := s.fetches.any fun f => here f.core f.slot && meets f.id
  let muls := s.muls.any fun m => here m.core m.slot &&
    (accRanges m.acc m.c0 128).any fun e => decide (e.1 < hi) && decide (lo < e.2)
  ((s.obOps.filter fun o => here o.core o.slot).foldl (fun s o => match o.work with
    | .write cells => s.writeCells (cells.map fun x => (b.obKey x.1, x.2))
    | .read .. => s) s, !(copies || fetches || muls))

/-- The map of a reservation as the accesses before the next one leave it (R221, R231), and whether that is sure: where an
earlier copy or multiply is still to write there, it is the map as the other accesses leave it. -/
def State.mapView (s : State) (b : Block) (r : BitVec 128) : List (Nat × List Nat × Bool) × Bool :=
  if r.getLsbD 127 then
    let (v, sure) := s.obView b (rvDm r) (rvDm r + 64 * rvSegs r)
    (v.mapOf b r, sure)
  else (s.mapOf b r, true)

/-- The rows of B that a multiply of `kb` rows from `k0` on may read: those that the map gives, or any (R221, R231). -/
def State.rowsOf (s : State) (b : Block) (r : BitVec 128) (k0 kb : Nat) : Nat × Nat :=
  match s.mapView b r with
  | (map, true) => rowSpan map (rvDimK r) k0 kb
  | (_, false) => (0, rvDimK r)

/-- Enqueue a multiply with its ranges (R221). -/
def State.pushMul (s : State) (m : Mul) (rs : List (Nat × Nat)) : State :=
  let s := s.modBlock m.core m.slot fun b => { b with obq := b.obq ++ rs.map fun r => (m.id, r.1, r.2) }
  { s with muls := s.muls ++ [m], nextOb := m.id + 1 }

/-- Whether a fetch that may still change the stage of a reservation is in flight. -/
def State.fetching (s : State) (gen : Nat) : Bool := s.fetches.any fun f => f.gen == gen

/-- `MMA` (R234). Its check of `k0` is made at issue, which waits for nothing (R221), against the map as the accesses before
it leave it; where a copy or a multiply has still to write the map, against the map without those bytes (log entry 67,
DESIGN CHOICE). -/
def execMma (z : Bool) (p : RPfx) (r : R3) (s : State) : Res :=
  .next (s.mulInstr z p r fun l o kb =>
    let k0 := l.n r.a % 65536
    let n0 := l.n r.a / 65536
    if mapLen (s.mapView l.b o.rv).1 ≤ k0 ∨ rvDimN o.rv ≤ n0 then none
    else some fun m =>
      let rows := s.rowsOf l.b o.rv k0 kb
      s.pushMul { m with k0 := k0, n0 := n0, rows := rows }
        (accRanges m.acc m.c0 128 ++ sideRanges m.bres rows n0 ++
          bRanges m.bres m.stage (!(s.fetching o.gen)) rows n0))

/-- `MMAH` (R236): the fetch and, behind it, the multiply. -/
def execMmah (z : Bool) (p : RPfx) (r : R3) (s : State) : Res :=
  .next (s.mulInstr z p r fun l o kb =>
    match l.b.handles.getD (l.n r.b / 65536 % 16) none with
    | none => none
    | some lay =>
      let esz := layBits lay 74 72
      if layBad lay || boxBytes lay != rvStage o.rv || esz != (if rvWidth o.rv = 16 then 1 else 0) then none
      else some fun m =>
        let known := !(o.rv.getLsbD 26) || !(s.fetching o.gen)
        let target := o.rv.getLsbD 26 && !o.cur
        let rows := s.rowsOf l.b o.rv 0 kb
        let c : Cmd := { kind := .obld, seq := l.b.seqs.getD 4 0, ticket := m.id, lay := lay, off := 0,
                         d0 := l.pair r.a % 4294967296, d1 := l.pair r.a / 4294967296, ctr := .none }
        let ft : Fetch := { core := m.core, slot := m.slot, id := m.id, bSlot := p.ext / 16 % 16, bres := o.rv,
                            gen := o.gen, stage := o.cur, pc := ((s.cur.map (·.pc)).getD 0), cmd := c }
        let fr := stageRanges o.rv target known
        let s := s.modBlock m.core m.slot fun b =>
          { b with obq := b.obq ++ fr.map (fun x => (m.id, x.1, x.2)), seqs := b.seqs.set 4 (b.seqs.getD 4 0 + 1) }
        let s := { s with fetches := s.fetches ++ [ft] }
        s.pushMul { m with id := m.id + 1, fetch := some m.id, k0 := 0, n0 := 0, rows := rows }
          (accRanges m.acc m.c0 128 ++ sideRanges m.bres rows 0 ++ bRanges m.bres target known rows 0))

/-- The stage that a fetch fills (R236). -/
def Fetch.target (f : Fetch) : Bool := f.bres.getLsbD 26 && !f.stage

/-- Serve the lines of a fetch one after another until it stops: of the moments at which R154 lets a copy read its lines,
this one step (log entry 51, DESIGN CHOICE). -/
def State.fetchLines (s : State) (b : Block) (f : Fetch) : Nat → Cmd → State × Cmd
  | 0, c => (s, c)
  | n + 1, c =>
    if c.stopped.isSome || s.allServed b 0 c then (s, c)
    else
      let r := s.serveOne b 0 c { eng := 1, cmd := c.seq, pc := f.pc.toNat }
      r.1.fetchLines b f n r.2

/-- What waits on a reservation whose stage the order now gives needs the bytes of that stage only (R221): the multiplies
and the fetches before which no fetch of it is left but, for the multiply of an `MMAH`, its own, which fills the stage
that the multiply reads. -/
def State.narrow (s : State) (gen : Nat) (b : Block) : Block :=
  let mine := s.fetches.filter fun f => f.gen == gen
  let one := fun (q : List (Nat × Nat × Nat)) (id : Nat) (rs : List (Nat × Nat)) =>
    q.filter (fun e => e.1 != id) ++ rs.map fun r => (id, r.1, r.2)
  let sure := fun (m : Mul) => m.gen == gen && !m.started &&
    mine.all fun f => decide (m.id ≤ f.id) || m.fetch == some f.id
  let stage := fun (m : Mul) => ((mine.find? fun f => m.fetch == some f.id).map Fetch.target).getD m.stage
  let q := (s.muls.filter sure).foldl (fun q m =>
    one q m.id (accRanges m.acc m.c0 128 ++ sideRanges m.bres m.rows m.n0 ++
      bRanges m.bres (stage m) true m.rows m.n0)) b.obq
  { b with obq := (mine.filter fun f => mine.all fun x => decide (f.id ≤ x.id)).foldl (fun q f =>
      one q f.id (stageRanges f.bres f.target true)) q }

/-- A fetch has landed (R236): CUR becomes its stage, for the slot and for whatever was issued behind it. -/
def State.fetchLand (s : State) (f : Fetch) : State :=
  let t := f.target
  let s := s.modBlock f.core f.slot fun b =>
    { b with slots := b.slots.map fun o => if o.gen == f.gen then { o with cur := t } else o }
  let s := { s with
    fetches := (s.fetches.filter fun (x : Fetch) => x.id != f.id).map fun (x : Fetch) =>
      if x.gen == f.gen && decide (f.id < x.id) then { x with stage := t } else x
    muls := s.muls.map fun (m : Mul) =>
      let m := if m.gen == f.gen && decide (f.id < m.id) && !m.started then { m with stage := t } else m
      if m.fetch == some f.id then { m with fetch := none } else m }
  (s.modBlock f.core f.slot (s.narrow f.gen)).obDone f.core f.slot f.id

/-- A fetch that the driver abandons (R236): CUR stays, the multiply is not performed. -/
def State.fetchAbandon (s : State) (f : Fetch) : State :=
  let s := { s with fetches := s.fetches.filter fun (x : Fetch) => x.id != f.id,
                    muls := s.muls.filter fun (m : Mul) => m.fetch != some f.id }
  ((s.modBlock f.core f.slot (s.narrow f.gen)).obDone f.core f.slot f.id).obDone f.core f.slot (f.id + 1)

/-- The operand fetcher copies the oldest fetch of a block that is neither stopped nor waiting (R236): it must be the
first of its reservation, and its stage must be clear (R221). -/
def execMmahFetchLanded (core slot : Nat) (s : State) : Res :=
  .next (match s.block? core slot with
    | none => s
    | some b =>
      let ready := fun (f : Fetch) =>
        f.core == core && f.slot == slot && f.cmd.stopped.isNone &&
        !(s.fetches.any fun x => x.gen == f.gen && decide (x.id < f.id)) &&
        b.obClear f.id (rvStart f.bres f.target) (rvStart f.bres f.target + rvStage f.bres)
      match s.fetches.find? ready with
      | none => s
      | some f =>
        let c := { f.cmd with off := rvStart f.bres f.target }
        let (s, c) := s.fetchLines b f (c.fillLines b + 1) c
        if c.cut then s.fetchAbandon f
        else if s.allServed b 0 c then s.fetchLand f
        else { s with fetches := mapIf (fun (x : Fetch) => x.id == f.id) (fun x => { x with cmd := c }) s.fetches })

/-- The engine of a core begins its next multiply, in issue order, when its interlocks are clear (R239): the result is
that of the buffer as the order has it now. -/
def execEngineMultiply (core : Nat) (s : State) : Res :=
  .next (match s.muls.find? fun m => m.core == core && !m.started with
    | none => s
    | some m =>
      match s.block? core m.slot with
      | none => { s with muls := s.muls.filter fun (x : Mul) => x.id != m.id }
      | some b =>
        if m.fetch.isSome || !(b.obTurn m.id) then s
        else
          let window := accRanges m.acc m.c0 128
          let rs := ((b.obq.filter fun e => e.1 == m.id).map fun e => (e.2.1, e.2.2)).filter
            fun e => !(m.z && window.contains e)
          match s.obPoison b rs with
          | some _ => s.consumePoison core m.slot
          | none =>
            let cells := s.mulResult b m
            { s with
              free := s.free + 8192
              muls := mapIf (fun (x : Mul) => x.id == m.id) (fun x => { x with started := true, result := cells }) s.muls })

/-- A multiply's window lands (R239). -/
def execMultiplyLands (core : Nat) (s : State) : Res :=
  .next (match s.muls.find? fun m => m.core == core && m.started with
    | none => s
    | some m =>
      let s := { s with muls := s.muls.filter fun (x : Mul) => x.id != m.id }
      match s.block? core m.slot with
      | none => s
      | some b => (s.homeWriteCells (m.result.map fun x => (b.obKey x.1, x.2))).obDone core m.slot m.id)

/-- A place of the engine's queue is free and a warp held at issue goes on (R239): its instruction issues again, which
is the issue of that warp; the event itself leaves everything as it stands. -/
def execEngineQueuePlaceFrees (_core _slot : Nat) (s : State) : Res := .next s

/-! ## `OBRD` and `OBWR` (R237) -/

/-- Columns of a lane. -/
def obCols (t : ObTy) : Nat := 16 * (32 / obWidth t)

/-- `OBRD`. -/
def execObrd (t : ObTy) (r : R3) (s : State) : Res :=
  .next (s.matrixInstr fun l =>
    let o := l.b.obSlot (r.a % 16)
    let c0 := l.n r.b % 65536
    if !o.live || !(rvAcc o.rv) || c0 % 16 != 0 || decide (rvDimN o.rv ≤ c0) then none
    else
      let ts := s.lanes.map fun c => (c.t.tid, c.lane, if r.d < 120 then some (c.t.wb.toNat + r.d) else none)
      some (s.obIssue l.b.core l.b.slot (accRanges o.rv c0 (obCols t)) (.read ts o.rv t c0)))

/-- Whether a type is admitted for `OBWR` to an accumulator (R237). -/
def obwrOk (t : ObTy) (acc : BitVec 128) : Bool := t == .b32 || rvFmt acc == 0

/-- The FP32 or INT32 bits of one column that `OBWR` writes: the bits, or an exact widening. -/
def obwrElem (t : ObTy) (v : Nat) : Nat :=
  match t with
  | .b32 => v
  | .bf16 => (f32.round .rne false (bf16.val v)).1
  | .f16 => (f32.round .rne false (fp16.val v)).1
  | .e4m3 => (f32.round .rne false (e4m3.val v)).1

/-- The bytes that the lanes of an `OBWR` write: columns beyond DIMN are not written. -/
def obwrCells (t : ObTy) (acc : BitVec 128) (c0 lane : Nat) (regs : List Word) : List (Nat × Byte) :=
  let w := obWidth t
  let per := 32 / w
  (List.range (obCols t)).flatMap fun j =>
    if rvDimN acc ≤ c0 + j then []
    else
      let v := obwrElem t ((regs.getD (j / per) 0).toNat / 2 ^ (w * (j % per)) % 2 ^ w)
      (bytesLE 4 v).zipIdx.map fun x => (rvStart acc false + lane * rvPitch acc + 4 * (c0 + j) + x.2, x.1)

/-- `OBWR`. -/
def execObwr (t : ObTy) (r : R3) (s : State) : Res :=
  .next (s.matrixInstr fun l =>
    let o := l.b.obSlot (r.a % 16)
    let c0 := l.n r.b % 65536
    if !o.live || !(rvAcc o.rv) || c0 % 16 != 0 || decide (rvDimN o.rv ≤ c0) || !(obwrOk t o.rv) then none
    else
      let cells := s.lanes.flatMap fun c => obwrCells t o.rv c0 c.lane (c.group r.d 16)
      some (s.obIssue l.b.core l.b.slot (accRanges o.rv c0 (obCols t)) (.write cells)))

/-- An `OBRD` result lands in its thread's registers (R237): accesses whose turn has come are performed, then the
thread's oldest such result lands. -/
def execObrdLands (core slot tid : Nat) (s : State) : Res :=
  .next (
    let s := s.obFlush core slot
    match s.thread? core slot tid with
    | none => s
    | some t =>
        let mine := fun (p : PTgt) => match p with
        | .obrd .. => true
        | _ => false
      match t.pend.findIdx? mine with
      | none => s
      | some k =>
        match t.pend[k]? with
        | none => s
        | some p => s.modBlock core slot fun b =>
            (landOne b tid p).modThread tid fun t => { t with pend := t.pend.eraseIdx k })

/-! ## `OBLD` and `OBST` (R238) -/

/-- The command of an `OBLD` or `OBST`. -/
def bufAsk (k : CmdKind) (p : RPfx) (r : R3) (l : LaneCtx) : Ask :=
  let off := l.n r.a
  { cmd := fun lay => { kind := k, seq := 0, ticket := 0, lay := lay, off := off, d0 := l.pair r.b % 4294967296,
                        d1 := l.pair r.b / 4294967296, ctr := .none }
    handle := r.d % 16, q := p.ext % 4, bad := false, skew := off % 16 != 0
    fits := fun lay => decide (off + boxBytes lay ≤ l.b.opb)
    empties := fun _ => []
    ob := fun lay => some (off, off + boxBytes lay) }

/-- Park a whole warp with one reason, as a bound group (R226, R308). -/
def State.parkWarp (s : State) (c : Cur) (why : Park) : State :=
  let tids := c.act.map (·.2)
  let s := s.leave c.core c.slot tids (.wings why)
  s.modBlock c.core c.slot fun b =>
    { b with
      nextBound := b.nextBound + 1
      threads := b.threads.map fun t =>
        match c.act.find? fun m => m.2 == t.tid with
        | some m => { t with bound := some b.nextBound, homeLane := m.1 }
        | none => t }

/-- One submission for the warp, with the operands of lane 0 (R238). -/
def State.bufInstr (s : State) (k : CmdKind) (p : RPfx) (r : R3) : State :=
  match s.lane0, s.cur with
  | some l, some c =>
    match s.submit l p (bufAsk k p r l) with
    | (s, .trap t) => s.trapWarp t
    | (s, .full) => s.parkWarp c (.stream (p.ext % 4))
    | (s, _) => s.advanceAll
  | _, _ => s

/-- `OBLD`. -/
def execObld (p : RPfx) (r : R3) (s : State) : Res := .next (s.bufInstr .obld p r)
/-- `OBST`. -/
def execObst (p : RPfx) (r : R3) (s : State) : Res := .next (s.bufInstr .obst p r)

end Sys2Proof.Machine
end

