-- ==== Sys2Proof/Machine/Rings.lean ====
section
/-!
DEFINITION. Rings.lean: rings and the four ring instructions (R326 to R332).
-/
namespace Sys2Proof.Machine

/-! ## Headers and records (R326, R327) -/

/-- A well-formed ring header: the buffer's base, its size, PROD and CONS. -/
structure Ring where
  base : Nat
  size : Nat
  prod : Nat
  cons : Nat
deriving DecidableEq, Repr

/-- The header at a key, as its home has it; none where it is malformed (R326). -/
def State.ringHdr (s : State) (key : Nat) : Option Ring :=
  let b := s.rdN key 8
  let lg := s.rdN (key + 8) 8
  let prod := s.rdN (key + 16) 8
  let cons := s.rdN (key + 24) 8
  if 36028797018963968 ≤ b ∨ b % 64 ≠ 0 ∨ lg < 8 ∨ 32 < lg ∨ 256 ≤ s.rdN (key + 32) 32 ∨ prod % 8 ≠ 0 ∨ cons % 8 ≠ 0 ∨
      prod < cons ∨ 2 ^ lg < prod - cons then none
  else some { base := b, size := 2 ^ lg, prod := prod, cons := cons }

/-- LEN of a record header. -/
def recLen (h : Nat) : Nat := h % 4294967296
/-- TYPE of a record header. -/
def recType (h : Nat) : Nat := bitsOf h 39 32
/-- READY of a record header. -/
def recReady (h : Nat) : Bool := bitAt h 63

/-- Whether a record at CONS can be freed: the test of R332. -/
def lenOk (g : Ring) (off len : Nat) : Bool := len != 0 && len % 8 == 0 && decide (off % g.size + len ≤ g.size)

/-- Write PROD at a header's home. -/
def State.setProd (s : State) (key v : Nat) : State := s.homeWriteN (key + 16) 8 (v % 18446744073709551616)
/-- Write CONS at a header's home. -/
def State.setCons (s : State) (key v : Nat) : State := s.homeWriteN (key + 24) 8 (v % 18446744073709551616)

/-! ## A thread's ring (R328) -/

/-- What a thread finds of the ring it names: a trap, out of bounds, or the header's place and VA and the ring. -/
inductive RingForm where
  | trap (t : Trap)
  | oob
  | ok (p : Place) (va : Nat) (g : Ring)
deriving DecidableEq, Repr

/-- The bytes `lo` to `lo + n - 1` of a line, from a VA in it on. -/
def byteSpan (va n : Nat) : BitVec 128 := rangeMask (va % 128) (va % 128 + n)

/-- The fences that a ring's access to a SEQ page carries (R260, R264). -/
def State.ringFence (s : State) (c : Cur) (tid : Nat) (p : Place) : State :=
  match seqScope [p] with
  | some sc => (s.release c.core c.slot tid sc).acquire c.core sc
  | none => s

/-- Reach the ring header that a record register names, checked at offset 0 for 64 bytes. -/
def State.ringOf (s : State) (c : Cur) (l : LaneCtx) (k : Nat) : State × RingForm :=
  match formOf (l.b.krecs.getD k 0) 0 0 64 64 with
  | .trap t => (s, .trap t)
  | .oob => (s, .oob)
  | .acc vas =>
    let va := vas.headD 0
    match s.translate l.b.asker .atomic (va / 128 * 128) with
    | (s, .error f) => (s, .trap (f.trap va .atomic))
    | (s, .ok p) =>
      let s := (s.approach c.core .atomic false p (byteSpan va 64)).ringFence c l.t.tid p
      let p := { p with key := p.key + va % 128 }
      match s.ringHdr p.key with
      | none => (s, .trap (illegal 6))
      | some g => (s, .ok p va g)

/-- What a pass of a ring instruction comes to; a trap with the VAs of the record headers sought. -/
inductive RingRes where
  | trap (t : Trap) (vas : List Nat)
  | poison
  | done (off : Nat)
  | park (r : Park)
  | oob
deriving DecidableEq, Repr

/-- Reach the record header at an offset of a ring: its key. `seen` are the VAs that the pass has sought before. -/
def State.ringRec (s : State) (c : Cur) (l : LaneCtx) (g : Ring) (off : Nat) (seen : List Nat) : State × Except RingRes Nat :=
  let va := g.base + off % g.size
  match s.translate l.b.asker .atomic (va / 128 * 128) with
  | (s, .error f) => (s, .error (.trap (f.trap va .atomic) (seen ++ [va])))
  | (s, .ok p) => ((s.approach c.core .atomic false p (byteSpan va 8)).ringFence c l.t.tid p, .ok (p.key + va % 128))

/-- The loop of `RRES` (R329): a skip record where the length would wrap, then the record's header before PROD. `place` is
where the reservation stands in the order of parking, should it park. -/
def State.ringReserve (s : State) (c : Cur) (l : LaneCtx) (key va n place : Nat) : Nat → List Nat → State × RingRes
  | 0, _ => (s, .oob)
  | fuel + 1, seen =>
    match s.ringHdr key with
    | none => (s, .trap (illegal 6) seen)
    | some g =>
      let p := g.prod % g.size
      let free := g.size - (g.prod - g.cons)
      let full : State × RingRes := (s.contend (key / 128), .park (.ringFull key va g.cons place))
      if g.size < p + n then
        if g.size - p ≤ free then
          match s.ringRec c l g g.prod seen with
          | (s, .error t) => (s, t)
          | (s, .ok rk) =>
            ((s.homeWriteN rk 8 (g.size - p + 4294967296 + 9223372036854775808)).setProd key
              (g.prod + (g.size - p))).ringReserve c l key va n place fuel (seen ++ [g.base + g.prod % g.size])
        else full
      else if n ≤ free then
        match s.ringRec c l g g.prod seen with
        | (s, .error t) => (s, t)
        | (s, .ok rk) => ((s.homeWriteN rk 8 n).setProd key (g.prod + n), .done g.prod)
      else full

/-- The loop of `RGET` (R331): skip records are consumed. The record of an empty ring is not accessed. -/
def State.ringGet (s : State) (c : Cur) (l : LaneCtx) (key va : Nat) : Nat → List Nat → State × RingRes
  | 0, _ => (s, .oob)
  | fuel + 1, seen =>
    match s.ringHdr key with
    | none => (s, .trap (illegal 6) seen)
    | some g =>
      if g.prod = g.cons then
        (s.contend (key / 128), .park (.ringEmpty key (key + 16) va g.prod (s.rdN (key + 16) 8)))
      else
        match s.ringRec c l g g.cons seen with
        | (s, .error t) => (s, t)
        | (s, .ok rk) =>
          let h := s.rdN rk 8
          if s.poisoned rk then (s, .poison)
          else if !(recReady h) then ((s.contend (key / 128)).contend (rk / 128), .park (.ringEmpty key rk va g.prod h))
          else if recType h = 1 ∧ lenOk g g.cons (recLen h) then
            ((s.homeWriteN rk 8 0).setCons key (g.cons + recLen h)).ringGet c l key va fuel
              (seen ++ [g.base + g.cons % g.size])
          else (s, .done g.cons)

/-- Translate some lines for atomic accesses that come to nothing: what their walks leave behind stays (R78, R81). -/
def State.walks (s : State) (q : Asker) (vas : List Nat) : State :=
  vas.foldl (fun s va => (s.translate q .atomic (va / 128 * 128)).1) s

/-- A thread parks at a ring, and keeps its place among the reservations (R329). -/
def State.ringPark (s : State) (c : Cur) (tid : Nat) (r : Park) : State :=
  (s.park c.core c.slot tid r).modThread c.core c.slot tid fun t =>
    { t with ring := match r with
      | .ringFull key _ _ place _ => some (key, place)
      | _ => none }

/-- One ring instruction of one thread: `f` acts on the ring found, `give` says what the thread receives. A thread that
traps has changed nothing but what its walks leave; one whose ring record is out of bounds sets `BSTAT`.OOB and does
nothing else, no release either (R84, R85; log entry 68, DESIGN CHOICE). -/
def State.ringLane (s : State) (c : Cur) (l : LaneCtx) (k : Nat) (f : State → Place → Nat → Ring → State × RingRes)
    (give : Nat → Thread → Thread) : State × Option Trap :=
  let tid := l.t.tid
  let placeless := fun (s : State) => s.modThread c.core c.slot tid fun t => { t with ring := none }
  match s.ringOf c l k with
  | (s, .trap t) => (placeless s, some t)
  | (s, .oob) => (((placeless s).setBstat c.core c.slot 0).modThread c.core c.slot tid (give 0) |>.advance [tid], none)
  | (s, .ok p va g) =>
    if (s.firstPoison ((List.range 64).map fun i => { p with key := p.key + i })).isSome then
      (s.consumePoison c.core c.slot, none)
    else
      match f s p va g with
      | (_, .trap t vas) => (placeless (s.walks l.b.asker vas), some t)
      | (s, .poison) => (s.consumePoison c.core c.slot, none)
      | (s, .done off) => ((placeless (s.ringFence c tid p)).modThread c.core c.slot tid (give off) |>.advance [tid], none)
      | (s, .oob) => ((s.setBstat c.core c.slot 0).advance [tid], none)
      | (s, .park r) => (s.ringPark c tid r, none)

/-- The last of the earlier threads of the executing instruction that have parked for a ring with this header: its place
in the order of parking (R329). -/
def State.heldBack (s : State) (c : Cur) (key tid : Nat) : Option Nat :=
  (c.act.filterMap fun m =>
    if tid ≤ m.2 then none else
    match (s.thread? c.core c.slot m.2).map fun (t : Thread) => t.cond with
    | some (.wings (.ringFull k _ _ place _)) => if k = key then some place else none
    | _ => none).getLast?

/-- `RRES` (R329). A reservation that parks keeps its place until it has reserved, and holds back the later threads of the
instruction as long; one that comes while an earlier one has its space to try parks too, and goes on as soon as that one
has tried. -/
def execRres (r : R3) (s : State) : Res :=
  .next (s.eachOrTrap fun s c l =>
    let n := l.n r.a
    s.ringLane c l (r.b % 32) (fun s p va g =>
      let own := (l.t.ring.filter fun x => x.1 == p.key).map (·.2)
      let place := own.getD s.nextTicket
      let s := if own.isSome then s else { s with nextTicket := s.nextTicket + 1 }
      if n < 8 ∨ g.size < n ∨ n % 8 ≠ 0 then (s, .trap (illegal 6) [])
      else if let some first := s.heldBack c p.key l.t.tid then (s, .park (.ringFull p.key va g.cons place (some first)))
      else if s.ringAhead p.key own then (s, .park (.ringFull p.key va (g.cons + 1) place))
      else s.ringReserve c l p.key va n place 3 [])
      (fun off t => t.later r.d (wordsOf 2 off)))

/-- `RCOM` (R330): a release, then byte 7 of the record's header. -/
def execRcom (p : Option RPfx) (r : R3) (s : State) : Res :=
  let sc := extScope p .pkg
  .next (s.eachOrTrap fun s c l =>
    let off := l.pair r.a
    s.ringLane c l (r.b % 32) (fun s _ _ g =>
      if off % 8 ≠ 0 then (s, .trap (misaligned (g.base + off % g.size)) [])
      else
        match s.ringRec c l g off [] with
        | (s, .error t) => (s, t)
        | (s, .ok rk) => ((s.release c.core c.slot l.t.tid sc).homeWrite (rk + 7) [0x80], .done 0))
      (fun _ t => t))

/-- `RGET` (R331): an acquire with the read of READY. -/
def execRget (p : Option RPfx) (r : R3) (s : State) : Res :=
  let sc := extScope p .pkg
  .next (s.eachOrTrap fun s c l =>
    s.ringLane c l (r.b % 32) (fun s p va g =>
      match s.ringGet c l p.key va ((g.prod - g.cons) / 8 + 2) [] with
      | (s, .done off) => (s.acquire c.core sc, .done off)
      | x => x)
      (fun off t => t.later r.d (wordsOf 2 off)))

/-- `RFRE` (R332). -/
def execRfre (p : Option RPfx) (r : R3) (s : State) : Res :=
  let sc := extScope p .pkg
  .next (s.eachOrTrap fun s c l =>
    let off := l.pair r.a
    s.ringLane c l (r.b % 32) (fun s p _ g =>
      if off ≠ g.cons then (s.release c.core c.slot l.t.tid sc, .oob)
      else
        match s.ringRec c l g off [] with
        | (s, .error t) => (s, t)
        | (s, .ok rk) =>
          if s.poisoned rk then (s, .poison)
          else
            let s := s.release c.core c.slot l.t.tid sc
            let len := recLen (s.rdN rk 8)
            if lenOk g off len then ((s.homeWriteN rk 8 0).setCons p.key (g.cons + len), .done 0)
            else (s, .oob))
      (fun _ t => t))

end Sys2Proof.Machine
end

