-- ==== Sys2Proof/Machine/Launch.lean ====
section
/-!
DEFINITION. Launch.lean: the package dispatcher's launches (R333 to R343): launch records, refusals, shape buckets, the
counter area, the `LAUNCH` instruction, launch rings, and the adds at block exits.
-/
namespace Sys2Proof.Machine

/-! ## The launch record (R335) -/

/-- Bits of a launch record. -/
def lrBits (l : BitVec 2048) (hi lo : Nat) : Nat := bitsOf l.toNat hi lo
/-- GRIDX, GRIDY, GRIDZ multiplied: the blocks of the launch. -/
def lrBlocks (l : BitVec 2048) : Nat := lrBits l 223 192 * lrBits l 255 224 * lrBits l 287 256
/-- ASID. -/
def lrAsid (l : BitVec 2048) : Nat := lrBits l 183 171
/-- PRIVL. -/
def lrPriv (l : BitVec 2048) : Bool := l.getLsbD 170
/-- CLSIZE. -/
def lrCl (l : BitVec 2048) : Nat := lrBits l 163 157
/-- NTID. -/
def lrNtid (l : BitVec 2048) : Nat := lrBits l 107 96
/-- `.regs`. -/
def lrRegs (l : BitVec 2048) : Nat := lrBits l 114 108 * 8
/-- SHAPEi. -/
def lrShape (l : BitVec 2048) (i : Nat) : Nat := lrBits l (799 + 32 * i) (768 + 32 * i)
/-- WVAi. -/
def lrWva (l : BitVec 2048) (i : Nat) : Nat := lrBits l (950 + 128 * i) (896 + 128 * i)
/-- WTGi. -/
def lrWtg (l : BitVec 2048) (i : Nat) : Nat := lrBits l (1023 + 128 * i) (960 + 128 * i)
/-- The clusters of the launch. -/
def lrClusters (l : BitVec 2048) : Nat := lrBlocks l / lrCl l
/-- The dies of DIEMASK, ascending (R344). -/
def lrDies (l : BitVec 2048) : List Nat := (List.range 4).filter fun d => l.getLsbD (164 + d)
/-- Bytes of the counter area (R339). -/
def lrCntBytes (l : BitVec 2048) : Nat := 40 + 8 * lrClusters l

/-- The reserved bits of a record, as pairs of high and low bit. -/
def lrReserved : List (Nat × Nat) :=
  [(2047, 1544), (1471, 1463), (959, 951), (1087, 1079), (1215, 1207), (1343, 1335), (767, 717), (703, 695),
   (639, 631), (575, 567), (511, 503), (447, 439), (383, 375), (319, 288), (191, 184), (127, 121), (63, 55)]

/-- Code 1 of R336 on the configuration fields: a field outside its limits. -/
def configBad (l : BitVec 2048) : Bool :=
  let regs := lrBits l 114 108
  lrBits l 287 256 == 0 || lrBits l 255 224 == 0 || lrBits l 223 192 == 0 || lrCl l == 0 || decide (64 < lrCl l) ||
    decide (48 < lrBits l 156 151) || decide (512 < lrBits l 150 141) || decide (4096 < lrBits l 140 128) ||
    decide (32 < lrBits l 120 115) || decide (lrRegs l < lrBits l 120 115) || decide (regs < 2) || decide (64 < regs) ||
    lrNtid l == 0 || decide (2048 < lrNtid l) || lrBits l 95 64 % 64 != 0 ||
    decide (4294967295 < lrBlocks l) || lrBlocks l % lrCl l != 0

/-- Code 1 of R336. -/
def recordBad (l : BitVec 2048) : Bool :=
  (lrReserved.any fun r => lrBits l r.1 r.2 != 0) || configBad l || decide (64 < lrBits l 716 710) ||
    decide (32 < lrBits l 709 704) || lrBits l 54 0 % 64 != 0 || lrBits l 566 512 % 64 != 0 ||
    lrBits l 502 448 % 64 != 0 || lrBits l 167 164 == 0 || (lrBits l 1462 1408 != 0 && lrBits l 1535 1472 == 0)

/-- Code 4 of R336: a block that no empty core fits. -/
def tooBig (l : BitVec 2048) : Bool :=
  decide (262144 < lrNtid l * lrRegs l) || (decide (256 < lrBits l 150 141) && lrBits l 167 166 != 0)

/-! ## Shape buckets (R342) -/

/-- Whether an entry is in use and takes a launch's shape. -/
def bucketFits (l : BitVec 2048) (e : Nat) : Bool :=
  bitAt e 391 && (List.range 4).all fun d =>
    decide (bitsOf e (31 + 64 * d) (64 * d) ≤ lrShape l d) && decide (lrShape l d ≤ bitsOf e (63 + 64 * d) (32 + 64 * d))

/-- Replace bits `hi:lo` of a number. -/
def putBits (v hi lo x : Nat) : Nat := v - bitsOf v hi lo * 2 ^ lo + x % 2 ^ (hi + 1 - lo) * 2 ^ lo

/-- A record with a bucket's fields put in. -/
def withBucket (l : BitVec 2048) (e : Nat) : BitVec 2048 :=
  let v := putBits l.toNat 95 64 (bitsOf e 287 256)
  let v := putBits v 107 96 (bitsOf e 299 288)
  let v := putBits v 114 108 (bitsOf e 306 300)
  let v := putBits v 120 115 (bitsOf e 312 307)
  let v := putBits v 156 151 (bitsOf e 325 320)
  let v := putBits v 150 141 (bitsOf e 335 326)
  let v := putBits v 140 128 (bitsOf e 348 336)
  BitVec.ofNat 2048 (putBits v 223 192 (bitsOf e 383 352))

/-- A chosen bucket that breaks the limits (code 5 of R336). -/
def bucketBad (l : BitVec 2048) (e : Nat) : Bool :=
  bitsOf e 511 392 != 0 || bitsOf e 390 386 != 0 || bitsOf e 351 349 != 0 || bitsOf e 319 313 != 0 ||
    configBad (withBucket l e) || tooBig (withBucket l e)

/-! ## The dispatcher's accesses (R339) -/

/-- The dispatcher as the asker of a translation: it belongs to no cluster and to no die. -/
def dispAsker (asid : Nat) (priv : Bool) : Asker := { asid := asid, priv := priv, die := 4, ranks := none, scr := 0 }

/-- A translation of the dispatcher, which keeps no entry. -/
def State.dispXlat (s : State) (q : Asker) (k : AccKind) (va : Nat) : State × Except XFail Place :=
  let (t, r) := s.translate q k (va / 128 * 128)
  ({ t with tlb := s.tlb }, r.map fun p => { p with key := p.key + va % 128 })

/-- Hand a flash-backed line of the dispatcher to the Stagehand, once for each page (R339, R361). -/
def State.stageAsk (s : State) (asid va launch : Nat) : State :=
  if s.pending.any fun p => p.fr.kind == 1 && p.fr.asid == asid && p.fr.va / 65536 == va / 65536 then s
  else
    let (fid, s) := s.takeFid
    let r : FRec := { fid := fid, kind := 1, cause := 1, asid := asid, va := va / 128 * 128, time := s.ns,
                      pages := [va / 65536] }
    { s with pending := s.pending ++ [({ fr := r, launch := launch } : PendRec)], stageq := s.stageq ++ [r] }

/-- What a read or a check of the dispatcher gives: wait for a fill, a failure, bytes of which a word is poisoned, or
the bytes. -/
inductive DispRes where
  | wait
  | fail
  | poison (l : List Byte)
  | ok (l : List Byte)
deriving DecidableEq, Repr

/-- Translate and read the lines of a range, one after another, with what is poisoned in them: `n` lines from a VA's line
on. -/
def State.dispLines (s : State) (q : Asker) (k : AccKind) (launch : Nat) :
    Nat → Nat → State × Except DispRes (List (Byte × Bool))
  | 0, _ => (s, .ok [])
  | n + 1, line =>
    match s.dispXlat q k (line * 128) with
    | (s, .error f) =>
      if f.cause = 1 then (s.stageAsk q.asid (line * 128) launch, .error .wait) else (s, .error .fail)
    | (s, .ok p) =>
      let s := s.atHome none p allBytes false
      match s.dispLines q k launch n (line + 1) with
      | (t, .ok l) => (t, .ok ((s.rdBytes p.key 128).zipIdx.map (fun x => (x.1, s.poisoned (p.key + x.2))) ++ l))
      | x => x

/-- Read `n` bytes at a VA as the dispatcher does. -/
def State.dispRead (s : State) (q : Asker) (k : AccKind) (launch va n : Nat) : State × DispRes :=
  if n = 0 then (s, .ok [])
  else
    match s.dispLines q k launch ((va + n - 1) / 128 + 1 - va / 128) (va / 128) with
    | (s, .ok l) =>
      let here := (l.drop (va % 128)).take n
      let bytes := here.map (·.1)
      (s, if here.any (·.2) then .poison bytes else .ok bytes)
    | (s, .error e) => (s, e)

/-! ## Submission (R336, R337) -/

/-- Place a "launch refused" event (R336). -/
def State.refuse (s : State) (asid va code core : Nat) : State :=
  s.event { kind := 3, cause := code, asid := asid, aux := va, core := core }

/-- Change a launch. -/
def State.modLaunch (s : State) (id : Nat) (f : Launch → Launch) : State :=
  { s with launches := mapIf (fun x => x.id == id) f s.launches }
/-- A launch by its number. -/
def State.launch? (s : State) (id : Nat) : Option Launch := s.launches.find? fun l => l.id == id

/-- Whether a launch is live: accepted and not ended (R337). -/
def Launch.isLive (l : Launch) : Bool :=
  match l.st with
  | .submitted | .waiting | .ready | .running => true
  | _ => false

/-- Whether the entry of an address space is valid (R63). -/
def State.asidOk (s : State) (asid : Nat) : Bool :=
  let a := s.rdHbm8 (bitsOf s.priv.astbase.toNat 55 20 * 65536 + asid * 8)
  s.priv.astbase.getLsbD 0 && bitAt a 0 && bitsOf a 63 56 == 0 && bitsOf a 19 1 == 0

/-- Codes 1 to 4 of R336: `own` is the submitter's address space and whether it is privileged. -/
def State.earlyCode (s : State) (l : BitVec 2048) (own : Nat) (priv : Bool) : Nat :=
  if recordBad l then 1
  else if !(s.asidOk (lrAsid l)) || (!priv && own != lrAsid l) then 2
  else if lrPriv l && !priv then 3
  else if tooBig l then 4
  else 0

/-- Choose the bucket of a launch (R342): wait, refuse with a code, or the record and its PDIM. A poisoned word of what the
dispatcher reads for a launch kills it (R105). -/
def State.chooseBucket (s : State) (x : Launch) : State × Except (Option Nat) (BitVec 2048 × Option Nat) :=
  let tab := lrBits x.lr 438 384
  if tab = 0 then (s, .ok (x.lr, none))
  else
    match s.dispRead (dispAsker (lrAsid x.lr) (lrPriv x.lr)) .read x.id tab 512 with
    | (s, .wait) => (s, .error none)
    | (s, .fail) => (s, .error (some 7))
    | (s, .poison _) => (s.kill x.id, .error none)
    | (s, .ok bytes) =>
      let es := (List.range 8).map fun i => ofBytesLE ((bytes.drop (64 * i)).take 64)
      match es.find? (bucketFits x.lr) with
      | none => (s, .error (some 5))
      | some e => (s, if bucketBad x.lr e then .error (some 5) else .ok (withBucket x.lr e, some (bitsOf e 385 384)))

/-- Check 6 of R336: a scene group that already holds four live launches (R352). -/
def State.sceneFull (s : State) (x : Launch) : Bool :=
  let sc := lrBits x.lr 1543 1536
  sc != 0 && decide (4 ≤ (s.launches.filter fun y =>
    y.isLive && y.id != x.id && lrBits y.lr 1543 1536 == sc && lrAsid y.lr == lrAsid x.lr).length)

/-- Read the tables and check the counter area and the waits (code 7, R339): wait, fail, or both tables. -/
def State.launchTables (s : State) (x : Launch) (l : BitVec 2048) : State × Except Bool (List Word × List Rec) :=
  let q := dispAsker (lrAsid l) (lrPriv l)
  let kc := lrBits l 709 704
  let sc := lrBits l 716 710
  match s.dispRead q .read x.id (lrBits l 630 576) (32 * kc) with
  | (s, .wait) => (s, .error false)
  | (s, .fail) => (s, .error true)
  | (s, .poison _) => (s.kill x.id, .error false)
  | (s, .ok kb) =>
    match s.dispRead q .read x.id (lrBits l 694 640) (4 * sc) with
    | (s, .wait) => (s, .error false)
    | (s, .fail) => (s, .error true)
    | (s, .poison _) => (s.kill x.id, .error false)
    | (s, .ok sb) =>
      match s.dispRead q .atomic x.id (lrBits l 566 512) (lrCntBytes l) with
      | (s, .wait) => (s, .error false)
      | (s, .fail) => (s, .error true)
      | (s, _) =>
        let waits := (List.range 4).filter fun i => lrWva l i != 0
        let r := waits.foldl (fun (a : State × DispRes) i =>
          match a.2 with
          | .ok _ => a.1.dispRead q .wait x.id (lrWva l i) 8
          | _ => a) (s, .ok [])
        match r with
        | (s, .wait) => (s, .error false)
        | (s, .fail) => (s, .error true)
        | (s, .poison _) => (s.kill x.id, .error false)
        | (s, .ok _) =>
          (s, .ok ((List.range sc).map (fun i => BitVec.ofNat 32 (ofBytesLE ((sb.drop (4 * i)).take 4))),
            (List.range kc).map fun i => BitVec.ofNat 256 (ofBytesLE ((kb.drop (32 * i)).take 32))))

/-- A list filled up with a default to a length. -/
def padTo {α : Type} (n : Nat) (d : α) (l : List α) : List α := l ++ List.replicate (n - l.length) d

/-- Take a launch out of Submitted where everything it needs can be read (R337): the code of its refusal, or 0, which a
submission that waits for a fill gives too: a cause found after the fill is told by the event alone (log entry 69, DESIGN
CHOICE). -/
def State.takeLaunch (s : State) (x : Launch) : State × Nat :=
  let refused := fun (s : State) (code : Nat) =>
    ((s.modLaunch x.id fun y => { y with st := .refused }).refuse (lrAsid x.lr) x.recVa code x.core, code)
  match s.chooseBucket x with
  | (s, .error none) => (s, 0)
  | (s, .error (some c)) => refused s (if c = 7 ∧ s.sceneFull x then 6 else c)
  | (s, .ok (l, pdim)) =>
    if s.sceneFull x then refused s 6
    else
      match s.launchTables x l with
      | (s, .error false) => (s, 0)
      | (s, .error true) => refused s 7
      | (s, .ok (sr, kr)) =>
        (s.modLaunch x.id fun y =>
          { y with lr := l, pdim := pdim, sregs := padTo 64 0 sr, krecs := padTo 32 0 kr, st := .waiting }, 0)

/-- Hand a record to the dispatcher: the code of R336. -/
def State.submitLaunch (s : State) (l : BitVec 2048) (recVa own core : Nat) (priv : Bool) : State × Nat :=
  let code := s.earlyCode l own priv
  if code ≠ 0 then (s.refuse (lrAsid l) recVa code core, code)
  else
    let x : Launch := { id := s.nextLaunch, lr := l, recVa := recVa, core := core, pdim := none, sregs := [], krecs := [],
                        st := .submitted }
    ({ s with launches := s.launches ++ [x], nextLaunch := s.nextLaunch + 1 } : State).takeLaunch x

/-! ## `LAUNCH` (R341) -/

/-- What a thread's `LAUNCH` does with the record it reads (R341), which it reads as `LD` does (R117): with the fences of a
SEQ page, `BSTAT`.SPLIT for its lines, and a kill where a word is poisoned. -/
def State.launchFrom (s : State) (c : Cur) (l : LaneCtx) (r : R3) (tab : LineTab) (a : LAcc) : State :=
  let seqs := seqScopes tab [a]
  let s := ((s.before c .read false tab [a]).seqBefore c seqs).fillReads c.core .normal tab [a]
  if s.readsBad c.core tab [a] then s.consumePoison c.core c.slot
  else
    let v := s.readAcc c.core tab a
    let s := (s.seqAfter c seqs).noteBstat c [] [a]
    let (s, code) := s.submitLaunch (BitVec.ofNat 2048 v) (a.vas.headD 0) l.b.asid c.core l.b.priv
    (s.modThread c.core c.slot l.t.tid fun t => t.later r.d [BitVec.ofNat 32 code]).advance [l.t.tid]

/-- `LAUNCH`: each active thread, in ascending TID. -/
def execLaunch (r : R3) (s : State) : Res :=
  .next (s.eachOrTrap fun s0 c l =>
    let rc := l.b.krecs.getD (r.b % 32) 0
    match formOf rc (l.x r.a) 0 256 1 with
    | .trap t => (s0, some t)
    | .oob =>
      let s := (s0.release c.core c.slot l.t.tid .pkg).setBstat c.core c.slot 0
      ((s.modThread c.core c.slot l.t.tid fun t => t.later r.d [8]).advance [l.t.tid], none)
    | .acc vas =>
      if (recOffset rc (l.x r.a) 0 256).1 % 64 ≠ 0 then (s0, some (misaligned (vas.headD 0)))
      else
        let s := s0.release c.core c.slot l.t.tid .pkg
        let a : LAcc := { lane := l.lane, tid := l.t.tid, vas := vas }
        let (s, tab) := s.xlatLines l.b.asker .read (linesOf vas)
        match a.failure tab .read with
        | some t => (s, some t)
        | none =>
          match s.firstEmpty (a.places tab) with
          | some line => (s.park c.core c.slot l.t.tid (.emptyLine line), none)
          | none => (s.launchFrom c l r tab a, none))

/-! ## Waiting and Ready (R337 to R339) -/

/-- The waits of a launch as they stand: wait, fail, or whether all are met. -/
def State.launchWaits (s : State) (x : Launch) : List Nat → State × Except Bool Bool
  | [] => (s, .ok true)
  | i :: rest =>
    if lrWva x.lr i = 0 then s.launchWaits x rest
    else
      match s.dispRead (dispAsker (lrAsid x.lr) (lrPriv x.lr)) .wait x.id (lrWva x.lr i) 8 with
      | (s, .wait) => (s, .error false)
      | (s, .fail) => (s, .error true)
      | (s, .poison _) => (s.kill x.id, .error false)
      | (s, .ok b) => if lrWtg x.lr i ≤ ofBytesLE b then s.launchWaits x rest else (s, .ok false)

/-- A launch ends Refused with code 7 (R339). -/
def State.refuseLate (s : State) (x : Launch) : State :=
  (s.modLaunch x.id fun y => { y with st := .refused }).refuse (lrAsid x.lr) x.recVa 7 x.core

/-- A Submitted launch reads what it still needs; a Waiting one whose waits are all met becomes Ready (R337). -/
def execLaunchWaitsMet (id : Nat) (s : State) : Res :=
  .next (match s.launch? id with
    | none => s
    | some x =>
      match x.st with
      | .submitted => (s.takeLaunch x).1
      | .waiting =>
        match s.launchWaits x [0, 1, 2, 3] with
        | (s, .error false) => s
        | (s, .error true) => s.refuseLate x
        | (s, .ok met) => if met then s.modLaunch id fun y => { y with st := .ready } else s
      | _ => s)

/-- Write zeros over the counter area, line by line: wait, fail or done. -/
def State.zeroArea (s : State) (x : Launch) (base stop : Nat) : Nat → Nat → State × Except Bool Unit
  | 0, _ => (s, .ok ())
  | n + 1, line =>
    match s.dispXlat (dispAsker (lrAsid x.lr) (lrPriv x.lr)) .atomic (line * 128) with
    | (s, .error f) => if f.cause = 1 then (s.stageAsk (lrAsid x.lr) (line * 128) x.id, .error false) else (s, .error true)
    | (s, .ok p) =>
      let lo := Nat.max base (line * 128)
      let hi := Nat.min stop (line * 128 + 128)
      ((s.atHome none p (rangeMask (lo % 128) (lo % 128 + (hi - lo))) true).homeWrite (p.key + lo % 128) (List.replicate (hi - lo) 0)).zeroArea x base stop n (line + 1)

/-- The request of cluster `c` of a launch, for the `c`-th die in turn (R344, R346). -/
def State.clusterReq (s : State) (x : Launch) (c : Nat) : Req :=
  let ds := lrDies x.lr
  let d := ds.getD (c % ds.length) 0
  { die := d, kind := .cluster x.id c, prio := lrBits x.lr 169 168, since := s.cycOf d, ord := s.nextReq + c }

/-- A Ready launch: its counter area is zeroed and its clusters are queued at their dies (R337, R338). -/
def execLaunchReady (id : Nat) (s : State) : Res :=
  .next (match s.launch? id with
    | none => s
    | some x =>
      if x.st ≠ .ready then s
      else
        let base := lrBits x.lr 566 512
        let stop := base + lrCntBytes x.lr
        match s.zeroArea x base stop ((stop - 1) / 128 + 1 - base / 128) (base / 128) with
        | (s, .error false) => s
        | (s, .error true) => s.refuseLate x
        | (s, .ok _) =>
          let n := lrClusters x.lr
          let rs := (List.range n).map fun c => s.clusterReq x c
          ({ s with reqs := s.reqs ++ rs, nextReq := s.nextReq + n } : State).modLaunch id
            fun y => { y with st := .running })

/-! ## The adds at exits (R340) -/

/-- The adds that the exit of a block causes; the last block of its launch adds to DONE. -/
def exitAdds (x : Launch) (b : Block) : List (Nat × Nat × Bool × Nat × Bool) :=
  let one := fun (va : Nat) (last : Bool) => (x.id, lrAsid x.lr, lrPriv x.lr, va, last)
  let area := lrBits x.lr 566 512
  [one area false, one (area + 8 + 8 * b.die) false, one (area + 40 + 8 * b.clid.toNat) false] ++
    (if x.exited + 1 = lrBlocks x.lr ∧ lrBits x.lr 374 320 ≠ 0 then [one (lrBits x.lr 374 320) true] else [])

/-- Perform one add at its counter's home; a page that the Stagehand must fill first puts it back; any other failure
places a completion event. -/
def State.exitAdd (s : State) (a : Nat × Nat × Bool × Nat × Bool) : State :=
  let (launch, asid, priv, va, _) := a
  match s.dispXlat (dispAsker asid priv) .atomic va with
  | (s, .error f) =>
    if f.cause = 1 then { s.stageAsk asid va launch with adds := s.adds ++ [a] }
    else s.event { kind := 8, cause := f.cause, asid := asid, va := va, write := true }
  | (s, .ok p) => (s.atHome none p (byteSpan p.key 8) true).counterAdd p.key 1

/-- The dispatcher performs the next add that is due: one of DONE after every area add of its launch. -/
def execBlockExitAdds (s : State) : Res :=
  .next (
    let ripe := fun (a : Nat × Nat × Bool × Nat × Bool) =>
      !a.2.2.2.2 || !(s.adds.any fun b => b.1 == a.1 && !b.2.2.2.2)
    match s.adds.find? ripe with
    | none => s
    | some a => ({ s with adds := s.adds.erase a } : State).exitAdd a)

/-! ## Launch rings (R333, R334, R443) -/

/-- The registers of a launch ring: LRINGn and TAILn. -/
def State.lring (s : State) (asid n : Nat) : Word64 × Word64 :=
  match s.lrings.find? fun r => r.1 == asid && r.2.1 == n with
  | some r => r.2.2
  | none => (0, 0)

/-- Set the registers of a launch ring. -/
def State.setLring (s : State) (asid n : Nat) (v : Word64 × Word64) : State :=
  { s with lrings := (asid, n, v) :: s.lrings.filter fun r => !(r.1 == asid && r.2.1 == n) }

/-- Change the first element of a list that a test selects, or take it out. -/
def atFirst {α : Type} (p : α → Bool) (f : α → Option α) : List α → List α
  | [] => []
  | x :: r => if p x then (f x).toList ++ r else x :: atFirst p f r

/-- Tell the dispatcher about a ring: it is served again, and a doorbell waits to be served, behind those written before it
(R334, R405, R443). -/
def State.tell (s : State) (asid n : Nat) : State :=
  { s with badRings := s.badRings.filter fun r => r != (asid, n), consume := s.consume ++ [(asid, n, none)] }

/-- Stop serving the first doorbell of a ring. -/
def State.untell (s : State) (asid n : Nat) : State :=
  { s with consume := atFirst (fun c => c.1 == asid && c.2.1 == n) (fun _ => none) s.consume }

/-- A consumer meets a bad launch ring (R443): a ring event, and nothing more from it until told again. -/
def State.ringBad (s : State) (asid n cause va off : Nat) : State :=
  let s := ({ s with consume := s.consume.filter fun c => !(c.1 == asid && c.2.1 == n) } : State).event { kind := 7, cause := cause, asid := asid, va := va, aux := if cause = 2 then off else 0 }
  { s with badRings := (asid, n) :: s.badRings }

/-- Whether the replay log is being written (R406, R407): capture and deterministic mode are on, the log is not full. -/
def State.capturing (s : State) : Bool :=
  s.mgmt.detmode.getLsbD 1 && s.mgmt.detmode.getLsbD 63 && !(s.mgmt.detmode.getLsbD 60)

/-- Input bytes for the running hash of the replay log (R406). -/
def State.replayInput (s : State) (bs : List Byte) : State :=
  if s.capturing then { s with replay := { s.replay with inputs := s.replay.inputs ++ bs } } else s

/-- The replay-log entry of a consumed record (R406), written before its launch is Submitted; a log without room stops
capture (R407). -/
def State.logEntry (s : State) (asid n : Nat) (rec_ : List Byte) : State :=
  if !s.capturing then s
  else
    let off := s.replay.seq * 512
    if s.mgmt.rpllen.toNat < off + 512 then
      { s with mgmt := { s.mgmt with detmode := s.mgmt.detmode ||| 0x1000000000000000 } }
    else
      let src := (if 4 ≤ n then 9223372036854775808 else 0) + n % 4 * 65536 + asid
      let body := bytesLE 8 s.replay.seq ++ bytesLE 8 src ++ bytesLE 8 s.ns ++
        bytesLE 48 (Config.digest s.replay.inputs).toNat ++ bytesLE 8 0 ++ rec_ ++ bytesLE 120 0
      let chain := Config.digest (bytesLE 48 s.replay.chain.toNat ++ body)
      let base := bitsOf s.mgmt.rplbase.toNat 41 16 * 65536
      let s := (s.recallSpan (base + off) 512).homeWrite (base + off) (body ++ bytesLE 48 chain.toNat)
      { s with replay := { seq := s.replay.seq + 1, chain := chain, inputs := [] } }

/-- Consume the record at CONS of a ring whose header has been read: `key` is the header's key. A poisoned record is taken
as it stands: there is no consuming block whose launch to kill (log entry 90, DESIGN CHOICE). -/
def State.consumeRecord (s : State) (q : Asker) (asid n key va : Nat) (g : Ring) : State :=
  match s.dispXlat q .atomic (g.base + g.cons % g.size) with
  | (s, .error f) =>
    if f.cause = 1 then s.stageAsk asid (g.base + g.cons % g.size) s.nextLaunch else s.ringBad asid n 1 va 0
  | (s, .ok p) =>
    let s := s.atHome none p (byteSpan p.key 8) true
    let h := s.rdN p.key 8
    let len := recLen h
    if !(recReady h) then s
    else if !(lenOk g g.cons len) then s.ringBad asid n 2 va g.cons
    else
      let free := fun (s : State) => (s.homeWriteN p.key 8 0).setCons key (g.cons + len)
      if recType h = 1 then free s
      else if len ≠ 264 then (free s).refuse asid (g.base + g.cons % g.size + 8) 1 0
      else
        match s.dispRead q .read s.nextLaunch (g.base + g.cons % g.size) 264 with
        | (s, .wait) => s
        | (s, .fail) => s.ringBad asid n 1 va 0
        | (s, .poison bytes) | (s, .ok bytes) =>
          let s := (free s).logEntry asid n bytes
          (s.submitLaunch (BitVec.ofNat 2048 (ofBytesLE (bytes.drop 8))) (g.base + g.cons % g.size + 8) asid 0
            (decide (4 ≤ n))).1

/-- Whether the dispatcher may serve a doorbell now: while deterministic mode is active, the first that was written
(R405). -/
def State.bellTurn (s : State) (asid n : Nat) : Bool :=
  !(s.mgmt.detmode.getLsbD 63) || (match s.consume with
    | c :: _ => c.1 == asid && c.2.1 == n
    | [] => false)

/-- The package dispatcher consumes the next record of a ring whose doorbell it serves, until CONS reaches PROD as it
read it (R334). -/
def execLaunchRingConsume (asid n : Nat) (s : State) : Res :=
  .next (match s.consume.find? fun c => c.1 == asid && c.2.1 == n with
    | none => s
    | some (_, _, target) =>
      let reg := (s.lring asid n).1
      if !(s.bellTurn asid n) then s
      else if !(reg.getLsbD 0) || s.badRings.contains (asid, n) then s.untell asid n
      else
        let q := dispAsker asid (decide (4 ≤ n))
        let va := bitsOf reg.toNat 54 6 * 64
        match s.dispXlat q .atomic va with
        | (s, .error f) => if f.cause = 1 then s.stageAsk asid va s.nextLaunch else s.ringBad asid n 1 va 0
        | (s, .ok p) =>
          let s := s.atHome none p (byteSpan p.key 64) true
          match s.ringHdr p.key with
          | none => s.ringBad asid n 0 va 0
          | some g =>
            let stop := target.getD g.prod
            let mine := fun (c : Nat × Nat × Option Nat) => c.1 == asid && c.2.1 == n
            let s := { s with consume := atFirst mine (fun _ => some (asid, n, some stop)) s.consume }
            if stop ≤ g.cons then s.untell asid n else s.consumeRecord q asid n p.key va g)

/-- Whether a master may write the ring control page of an address space, one of 8,192 in BAR2, or the privileged rings
(R333, R386, R392). -/
def State.mayRing (s : State) (m asid n : Nat) : Bool :=
  if 4 ≤ n then s.owner.owner == some m else decide (m < 65536) && decide (asid < 8192)

/-- What the ring control pages read at an offset of BAR2 (R333, R386). -/
def State.readRings (s : State) (off : Nat) : Nat :=
  let asid := off / 4096
  let o := off % 4096
  if 8192 ≤ asid ∨ o % 8 ≠ 0 then 0
  else if o < 0x20 then (s.lring asid (o / 8)).1.toNat
  else if 0x40 ≤ o ∧ o < 0x60 then (s.lring asid ((o - 0x40) / 8)).2.toNat
  else 0

/-- A write of TAILn (R333): the last value stands, and the dispatcher is told. -/
def execTailDoorbell (m : Master) (asid n v : Nat) (s : State) : Res :=
  .next (
    if !(s.mayRing m asid n) then s
    else
      let r := s.lring asid n
      (s.setLring asid n (r.1, BitVec.ofNat 64 v)).tell asid n)

/-- A write of LRINGn (R333): HDR and EN; the consumer is told again where the ring was bad (R443). -/
def execLringWrite (m : Master) (asid n v : Nat) (s : State) : Res :=
  .next (
    if !(s.mayRing m asid n) then s
    else
      let r := s.lring asid n
      let s := s.setLring asid n (BitVec.ofNat 64 (bitsOf v 54 6 * 64 + v % 2), r.2)
      if s.badRings.contains (asid, n) then s.tell asid n else s)

end Sys2Proof.Machine
end

