-- ==== Sys2Proof/Machine/Placement.lean ====
section
/-!
DEFINITION. Placement.lean: the die dispatchers (R344 to R347, R352), phases and `YIELD` (R348 to R351), and block exit
(R381).
-/
namespace Sys2Proof.Machine

/-! ## Capacity (R345) -/

/-- Whether a block still holds its thread slots and registers: not between phases, not exited. -/
def Block.holdsThreads (b : Block) : Bool := b.ph == 0 && b.threads.any Thread.live

/-- The blocks of a core. -/
def State.blocksOn (s : State) (core : Nat) : List Block := s.blocks.filter fun b => b.core == core

/-- Whether `n` bytes from an offset are free of some ranges. -/
def rangeFree (used : List (Nat × Nat)) (off n : Nat) : Bool :=
  used.all fun u => decide (off + n ≤ u.1) || decide (u.1 + u.2 ≤ off)

/-- The lowest offset at which `n` contiguous bytes are free (the dispatcher's free choice, R106): 0 or the end of a
used range. -/
def firstFit (used : List (Nat × Nat)) (size n : Nat) : Option Nat :=
  let cands := (used.map fun u => u.1 + u.2).foldl (fun l x => insNat x l) [0]
  cands.find? fun o => decide (o + n ≤ size) && rangeFree used o n

/-- The scratchpad ranges in use on a core. -/
def State.scrUsed (s : State) (core : Nat) : List (Nat × Nat) :=
  ((s.blocksOn core).map fun b => (b.scrBase, b.scr * 128)) ++
    ((s.areas.filter fun a => a.core == core).map fun a => (a.scrBase, a.scr))
/-- The operand-buffer ranges in use on a core. -/
def State.opbUsed (s : State) (core : Nat) : List (Nat × Nat) :=
  ((s.blocksOn core).map fun b => (b.opbBase, b.opb)) ++
    ((s.areas.filter fun a => a.core == core).map fun a => (a.opbBase, a.opb))

/-- Bytes of a core's operand buffer: 256 KiB on a prompt core, 128 KiB on a generation core. -/
def opbSize (core : Nat) : Nat := if core / 128 < 2 then 262144 else 131072

/-- A sum over a list. -/
def sumBy {α : Type} (f : α → Nat) (l : List α) : Nat := l.foldl (fun a x => a + f x) 0

/-- Whether a core has thread slots and registers free for `n` threads of `regs` registers. -/
def State.threadRoom (s : State) (core n regs : Nat) : Bool :=
  let bs := (s.blocksOn core).filter Block.holdsThreads
  decide (sumBy (fun (b : Block) => b.ntid.toNat) bs + n ≤ 2048) &&
    decide (sumBy (fun (b : Block) => b.ntid.toNat * b.nregs) bs + n * regs ≤ 262144)

/-- The named barriers that a block still holds: its own until its threads have exited, then those that commands not yet
completed name (R381). -/
def State.barsHeld (s : State) (b : Block) : Nat :=
  if b.ph ≠ 0 ∨ b.threads.any Thread.live then b.bars
  else
    let named := fun (c : Ctr) (i : Nat) => c == .barrier i
    ((List.range b.bars).filter fun i =>
      (b.streams.any fun q => q.any fun c => named c.ctr i && c.kind != .mcast) ||
        (s.selq.any fun c => c.core == b.core && c.slot == b.slot && named c.ctr i) ||
        (s.blocks.any fun x => x.streams.any fun q => q.any fun c =>
          named c.ctr i && c.targets.any fun t => t.1 == b.core && t.2.1 == b.slot)).length

/-- Where a block would go on a core that has capacity for it (R345): its slot, and its scratchpad and operand-buffer
offsets. -/
def State.roomFor (s : State) (core ntid regs scr opb bars : Nat) : Option (Nat × Nat × Nat) :=
  let bs := s.blocksOn core
  match (List.range 32).find? (fun i => !(bs.any fun b => b.slot == i)) with
  | none => none
  | some slot =>
    if !(s.threadRoom core ntid regs) || decide (48 < sumBy s.barsHeld bs + bars) then none
    else
      match firstFit (s.scrUsed core) 524288 scr, firstFit (s.opbUsed core) (opbSize core) opb with
      | some a, some o => some (slot, a, o)
      | _, _ => none

/-! ## The queue of a die (R346, R352) -/

/-- The launch that a request belongs to. -/
def State.reqLaunch (s : State) (r : Req) : Option Launch :=
  match r.kind with
  | .cluster l _ => s.launch? l
  | .phase core slot => (s.block? core slot).bind fun b => s.launch? b.launch
  | .restore id => (s.saved.find? fun v => v.id == id).bind fun v => (v.blks.head?).bind fun b => s.launch? b.launch

/-- Effective priority. -/
def State.effPrio (s : State) (r : Req) : Nat := Nat.min 3 (r.prio + (s.cycOf r.die - r.since) / 1048576)

/-- Where a request stands among those of its effective priority: by its age, or, as long as it has the priority at which it
moved back, behind those that it moved behind (R346, R347). -/
def State.reqPlace (s : State) (r : Req) : Nat × Nat :=
  match r.moved with
  | some (prio, place, behind) => if s.effPrio r = prio then (place, behind) else (r.ord, 0)
  | none => (r.ord, 0)

/-- Whether one request stands before another. -/
def State.reqBefore (s : State) (a b : Req) : Bool :=
  let p := s.reqPlace a
  let q := s.reqPlace b
  if s.effPrio a = s.effPrio b then decide (p.1 < q.1) || (p.1 == q.1 && decide (p.2 < q.2)) else decide (s.effPrio b < s.effPrio a)

/-- Whether a request waits for nothing but capacity: its ASID is not suspended (R377), its phase record has not stopped on
a fault (R349). -/
def State.admissible (s : State) (r : Req) : Bool :=
  (match s.reqLaunch r with
    | some l => !(s.suspended.contains (lrAsid l.lr))
    | none => true) &&
  (match r.kind with
    | .phase core slot => (s.block? core slot).all fun b => b.phStop.isNone
    | _ => true)

/-- Whether the dispatcher may attempt a request: one that is not backing off either. -/
def State.attemptable (s : State) (r : Req) : Bool := !r.backoff && s.admissible r

/-- The fullness of a scene's input ring, as a fraction (R352). -/
def State.fullness (s : State) (x : Launch) : Nat × Nat :=
  let ring := lrBits x.lr 1462 1408
  if ring = 0 then (1, 1)
  else
    match (s.dispXlat (dispAsker (lrAsid x.lr) (lrPriv x.lr)) .read ring).2 with
    | .error _ => (0, 1)
    | .ok p =>
      match s.ringHdr p.key with
      | none => (0, 1)
      | some g => (g.prod - g.cons, lrBits x.lr 1535 1472)

/-- The first of some requests in the order of the queue. -/
def State.firstReq (s : State) (l : List Req) : Option Req :=
  l.foldl (fun a r => match a with
    | none => some r
    | some x => if s.reqBefore r x then some r else some x) none

/-- The request that a die's dispatcher attempts next. -/
def State.headReq (s : State) (die : Nat) : Option Req :=
  let q := s.reqs.filter fun r => r.die == die && s.attemptable r
  match s.firstReq q with
  | none => none
  | some h =>
    match s.reqLaunch h with
    | none => some h
    | some x =>
      let scene := lrBits x.lr 1543 1536
      if scene = 0 then some h
      else
        let peers := s.launches.filter fun y =>
          y.isLive && lrBits y.lr 1543 1536 == scene && lrAsid y.lr == lrAsid x.lr
        let oldest := fun (y : Launch) =>
          s.firstReq (q.filter fun r => s.effPrio r == s.effPrio h &&
            ((s.reqLaunch r).map fun (z : Launch) => z.id) == some y.id)
        let best := peers.foldl (fun (a : Option (Req × Nat × Nat × Nat)) y =>
          match oldest y with
          | none => a
          | some r =>
            let f := s.fullness y
            match a with
            | none => some (r, f.1, f.2, y.id)
            | some (_, n, d, id) =>
              if f.1 * d > n * f.2 ∨ (f.1 * d = n * f.2 ∧ y.id < id) then some (r, f.1, f.2, y.id) else a) none
        some ((best.map fun x => x.1).getD h)

/-- What a scene's headers that a die's dispatcher reads leave behind, where they do not fail (R81, R352). -/
def State.readScene (s : State) (die : Nat) : State :=
  match (s.firstReq (s.reqs.filter fun r => r.die == die && s.attemptable r)).bind s.reqLaunch with
  | none => s
  | some x =>
    let scene := lrBits x.lr 1543 1536
    if scene = 0 then s
    else
      (s.launches.filter fun y => y.isLive && lrBits y.lr 1543 1536 == scene && lrAsid y.lr == lrAsid x.lr &&
        lrBits y.lr 1462 1408 != 0).foldl (fun s y =>
          match s.dispXlat (dispAsker (lrAsid y.lr) (lrPriv y.lr)) .read (lrBits y.lr 1462 1408) with
          | (s, .error _) => s
          | (s, .ok p) => s.atHome none p (byteSpan p.key 64) false) s

/-- A failed attempt (R347): the request backs off for 256 cycles of its die, twice as long after each further failure;
after its 8th failure it moves behind every younger request of its effective priority, and keeps its age. -/
def State.reqFails (s : State) (r : Req) : State :=
  let r2 := { r with fails := (r.fails + 1) % 8, backoff := true, due := s.cycOf r.die + 256 * 2 ^ r.fails }
  let peers := s.reqs.filter fun x => x.die == r.die && s.effPrio x == s.effPrio r && s.reqBefore r x
  let last := peers.foldl (fun a x => Nat.max a (s.reqPlace x).1) (s.reqPlace r).1
  let r2 := if r.fails + 1 = 8 ∧ peers ≠ [] then { r2 with moved := some (s.effPrio r, last, s.nextReq) } else r2
  { s with reqs := s.reqs.map fun x => if x == r then r2 else x, nextReq := s.nextReq + 1 }

/-- The back-off of one of a die's requests ends (R347): of the one whose time comes first. -/
def execPlacementBackoffExpiry (die : Nat) (s : State) : Res :=
  .next (
    let waiting := s.reqs.filter fun r => r.die == die && r.backoff
    let first := waiting.foldl (fun (a : Option Req) r => match a with
      | none => some r
      | some x => if r.due < x.due then some r else some x) none
    match first with
    | none => s
    | some r => { s with reqs := s.reqs.map fun x => if x == r then { r with backoff := false } else x })

/-! ## Placing a cluster (R347) -/

/-- Clear the bytes of a new allocation: they read 0, its lines are full, nothing in it is poisoned (R106, R220). -/
def State.clearAlloc (s : State) (lo n : Nat) (lines : List Nat) : State :=
  { s with
    mem := s.mem.filter fun c => !(decide (lo ≤ c.1) && decide (c.1 < lo + n))
    poison := s.poison.filter fun w => !(decide (lo ≤ w) && decide (w < lo + n))
    emptyLines := s.emptyLines.filter fun l => !(lines.contains l) }

/-- A place chosen for a block: core, slot, scratchpad and operand-buffer offsets. -/
structure Spot where
  core : Nat
  slot : Nat
  scr : Nat
  opb : Nat
deriving DecidableEq, Repr

/-- The cores of a hardware cluster with capacity, in ascending order, and where a block would go on each. -/
def State.spots (s : State) (die hw ntid regs scr opb bars : Nat) : List Spot :=
  (List.range 64).filterMap fun i =>
    let core := die * 128 + hw * 64 + i
    (s.roomFor core ntid regs scr opb bars).map fun x => { core := core, slot := x.1, scr := x.2.1, opb := x.2.2 }

/-- The places of a whole cluster of `n` blocks on a die: hardware cluster 0, else 1, else none. -/
def State.clusterSpots (s : State) (die n ntid regs scr opb bars : Nat) : Option (List Spot) :=
  let a := s.spots die 0 ntid regs scr opb bars
  if n ≤ a.length then some (a.take n)
  else
    let b := s.spots die 1 ntid regs scr opb bars
    if n ≤ b.length then some (b.take n) else none

/-- Whether a thread starts with `p0` true (R343). -/
def startsTrue (x : Launch) (gidx tid : Nat) : Bool :=
  match x.pdim with
  | none => true
  | some d => decide (gidx * lrNtid x.lr + tid < lrShape x.lr d)

/-- The block of rank `r` of cluster `c` of a launch, at a place (R303, R338). -/
def newBlock (now : Nat) (x : Launch) (c r : Nat) (p : Spot) (ranks : List (Nat × Nat × Nat)) : Block :=
  let l := x.lr
  let bid := c * lrCl l + r
  let gx := lrBits l 223 192
  let gy := lrBits l 255 224
  let w := fun (n : Nat) => BitVec.ofNat 32 n
  { core := p.core, slot := p.slot, launch := x.id, bid := w bid, clrank := w r, clsize := w (lrCl l), clid := w c,
    gidx := w (bid % gx), gidy := w (bid / gx % gy), gidz := w (bid / (gx * gy)), ntid := w (lrNtid l),
    asid := lrAsid l, priv := lrPriv l, codebase := BitVec.ofNat 64 (lrBits l 54 0),
    shape := (List.range 4).map fun i => w (lrShape l i), nregs := lrRegs l, bars := lrBits l 156 151,
    carry := lrBits l 120 115, scr := lrBits l 140 128, opb := lrBits l 150 141 * 512, scrBase := p.scr,
    opbBase := p.opb, ranks := ranks, sregs := x.sregs, krecs := x.krecs, handles := List.replicate 16 none,
    barrs := List.replicate 48 0, slots := List.replicate 16 {}, streams := [[], [], [], []],
    seqs := [0, 0, 0, 0, 0, 0],
    threads := (List.range (lrNtid l)).map fun t =>
      { tid := t, cond := .pool now false, pc := w (lrBits l 95 64), regs := List.replicate (lrRegs l) 0,
        preds := if startsTrue x (bid % gx) t then 1 else 0 } }

/-- Commit a block: its allocations are cleared, its core takes the dispatcher's acquire (R337). -/
def State.commitBlock (s : State) (b : Block) : State :=
  let s := s.clearAlloc (scrKey b.core b.scrBase) (b.scr * 128) (lineSpan b.core b.scrBase 0 (b.scr * 128))
  let s := s.clearAlloc (opbKey b.core b.opbBase) b.opb []
  ({ s with blocks := s.blocks ++ [b] } : State).acquire b.core .pkg

/-- Attempt a cluster of a launch. -/
def State.placeCluster (s : State) (r : Req) (x : Launch) (c : Nat) : State :=
  let l := x.lr
  match s.clusterSpots r.die (lrCl l) (lrNtid l) (lrRegs l) (lrBits l 140 128 * 128) (lrBits l 150 141 * 512)
      (lrBits l 156 151) with
  | none => s.reqFails r
  | some ps =>
    let ranks := ps.map fun p => (p.core, p.slot, p.scr)
    let s := { s with reqs := s.reqs.erase r }
    ps.zipIdx.foldl (fun s p => s.commitBlock (newBlock s.now x c p.2 p.1 ranks)) s

/-! ## Phases (R348 to R350) -/

/-- Bytes of a phase record. -/
def phaseBytes (b : Block) : Nat := (320 + 4 * b.ntid.toNat * b.carry + 63) / 64 * 64

/-- A wait as the phase record holds it. -/
def waitAddr (c : Ctr) : Nat :=
  match c with
  | .none => 0
  | .barrier b => b
  | .mem va => va + 9223372036854775808

/-- The phase record of a block (R349). -/
def phaseRecord (b : Block) : List Byte :=
  let w := fun i => (b.waits[i]?).getD (.none, 0)
  let body := bytesLE 4 (b.phaseno.toNat + 1) ++ bytesLE 4 b.bstat.toNat ++ bytesLE 4 b.trapv.toNat ++
    bytesLE 4 b.waits.length ++ bytesLE 8 (waitAddr (w 0).1) ++ bytesLE 8 (w 0).2 ++ bytesLE 8 (waitAddr (w 1).1) ++
    bytesLE 8 (w 1).2 ++ bytesLE 16 0 ++ (b.sregs.flatMap fun v => bytesLE 4 v.toNat) ++
    ((List.range b.ntid.toNat).flatMap fun t =>
      match b.thread? t with
      | some x => (List.range b.carry).flatMap fun i => bytesLE 4 (x.regs.getD i 0).toNat
      | none => bytesLE (4 * b.carry) 0)
  body ++ List.replicate (phaseBytes b - body.length) 0

/-- Where a block's phase record lies. -/
def State.phaseVa (s : State) (b : Block) : Nat :=
  match s.launch? b.launch with
  | some x => lrBits x.lr 502 448 + b.bid.toNat * phaseBytes b
  | none => 0

/-- Write bytes to the lines of a range, one after another: the failing line if there is one; with `skip`, a failing
line is passed over. -/
def State.writeLines (s : State) (b : Block) (skip : Bool) (va : Nat) (bs : List Byte) :
    Nat → Nat → State × Option (Nat × XFail)
  | 0, _ => (s, none)
  | n + 1, line =>
    let lo := Nat.max va (line * 128)
    let hi := Nat.min (va + bs.length) (line * 128 + 128)
    match s.translate b.asker .write (line * 128) with
    | (s, .error f) => if skip then s.writeLines b skip va bs n (line + 1) else (s, some (line, f))
    | (s, .ok p) =>
      if p.ct = 2 ∧ s.written (p.key / 128) then
        (if skip then s.writeLines b skip va bs n (line + 1) else (s, some (line, { cause := 5 })))
      else
        let s := s.atHome none p (rangeMask (lo % 128) (lo % 128 + (hi - lo))) true
        let s := if p.ct = 2 then s.setWritten (p.key / 128) true else s
        (s.homeWrite (p.key + lo % 128) ((bs.drop (lo - va)).take (hi - lo))).writeLines b skip va bs n (line + 1)

/-- Read the lines of a range, one after another; with `skip`, the bytes of a failing line are free values (log
entry 17). It ends at a failing line, or at a poisoned word. -/
def State.readLines (s : State) (b : Block) (skip : Bool) (va len : Nat) :
    Nat → Nat → State × Except (Option (Nat × XFail)) (List Byte)
  | 0, _ => (s, .ok [])
  | n + 1, line =>
    let lo := Nat.max va (line * 128)
    let hi := Nat.min (va + len) (line * 128 + 128)
    match s.translate b.asker .read (line * 128) with
    | (s, .error f) =>
      if skip then
        let bs := (List.range (hi - lo)).map fun i => BitVec.ofNat 8 (Config.freeWord (s.free + i))
        match ({ s with free := s.free + 128 } : State).readLines b skip va len n (line + 1) with
        | (s, .ok r) => (s, .ok (bs ++ r))
        | x => x
      else (s, .error (some (line, f)))
    | (s, .ok p) =>
      let s := s.atHome none p (rangeMask (lo % 128) (lo % 128 + (hi - lo))) false
      if (List.range (hi - lo)).any fun i => s.poisoned (p.key + lo % 128 + i) then (s, .error none)
      else
      match s.readLines b skip va len n (line + 1) with
      | (t, .ok r) => (t, .ok (s.rdBytes (p.key + lo % 128) (hi - lo) ++ r))
      | x => x

/-- Stop a block's phase record on a failing line (R349): an engine fault. -/
def State.phaseFault (s : State) (b : Block) (line : Nat) (f : XFail) (write : Bool) : State :=
  let (fid, s) := s.engineFault b (f.engineRec { eng := 3 } line write)
  s.modBlock b.core b.slot fun b => { b with phStop := some fid }

/-- What the boundary leaves of a thread: saved at its pc, its registers freed, its handler flag cleared (R349,
R368). -/
def atBoundary (t : Thread) : Thread :=
  let next := match t.cond with
    | .wings (.phase n) => n
    | .wings (.yield n) => n
    | _ => t.pc
  { t with regs := [], badRegs := [], handler := false, pc := next }

/-- A thread at a `YIELD` goes on behind it (R351). -/
def yieldOn (entry : Nat) (t : Thread) : Thread :=
  match t.cond with
  | .wings (.yield n) => wakeThread entry { t with pc := n }
  | _ => t

/-- The words that some VAs of a block lie in are poisoned at their homes (R105). -/
def State.poisonVas (s : State) (b : Block) (vas : List Nat) : State :=
  vas.foldl (fun s va =>
    match s.translate b.asker .write (va / 128 * 128) with
    | (s, .ok p) => { s with poison := insNat ((p.key + va % 128) / 8 * 8) s.poison }
    | (s, .error _) => s) s

/-- Where the phase record at a VA holds the poisoned registers that it carries (R105). -/
def poisonCarried (b : Block) (va : Nat) : List Nat :=
  b.threads.flatMap fun t => (t.badRegs.filter fun p => decide (2 * p < b.carry)).map fun p =>
    va + 320 + 4 * (t.tid * b.carry + 2 * p)

/-- Take the boundary of a block (R349): the phase record, a release at `.pkg`, then thread slots and registers are
freed. Where the record stopped on a line, it goes on there (R159). -/
def State.boundary (s : State) (b : Block) : State :=
  let s := s.releaseCopies b.core .pkg
  let va := s.phaseVa b
  let bs := phaseRecord b
  match s.writeLines b b.phSkip va bs ((va + bs.length - 1) / 128 + 1 - va / 128 - b.phNext) (va / 128 + b.phNext) with
  | (s, some (l, f)) =>
    (s.phaseFault b l f true).modBlock b.core b.slot fun b => { b with phNext := l - va / 128 }
  | (s, none) =>
    (s.poisonVas b (poisonCarried b va)).modBlock b.core b.slot fun b =>
      { b with ph := 1, phSkip := false, phNext := 0, threads := b.threads.map atBoundary }

/-- Whether a thread is parked at a phase boundary, and whether at a `YIELD`. -/
def Thread.atPhase (t : Thread) : Bool :=
  match t.cond with
  | .wings (.phase _) => true
  | _ => false
/-- Whether a thread is parked at a `YIELD`. -/
def Thread.atYield (t : Thread) : Bool :=
  match t.cond with
  | .wings (.yield _) => true
  | _ => false

/-- Whether the capacity that a block's boundary frees would let its die's dispatcher admit a request of at least the
block's priority (R351), one that is backing off too. -/
def State.yieldTakes (s : State) (b : Block) : Bool :=
  let prio := ((s.launch? b.launch).map fun x => lrBits x.lr 169 168).getD 0
  let freed := s.modBlock b.core b.slot fun b => { b with ph := 1 }
  s.reqs.any fun r => r.die == b.die && decide (prio ≤ s.effPrio r) && s.admissible r &&
    (match r.kind, s.reqLaunch r with
      | .cluster _ _, some x =>
        let l := x.lr
        (freed.clusterSpots r.die (lrCl l) (lrNtid l) (lrRegs l) (lrBits l 140 128 * 128) (lrBits l 150 141 * 512)
          (lrBits l 156 151)).isSome
      | .phase core slot, _ =>
        (match s.block? core slot with
          | some p => freed.threadRoom core p.ntid.toNat p.nregs
          | none => false)
      | .restore id, _ =>
        (match s.saved.find? fun v => v.id == id with
          | some v => (match v.blks.head? with
            | some p => (freed.clusterSpots r.die v.blks.length p.ntid.toNat p.nregs (p.scr * 128) p.opb p.bars).isSome
            | none => false)
          | none => false)
      | _, _ => false)

/-- Examine a block after its threads have moved (R348, R351): the boundary is taken when every live thread is parked
at a `PHASE` or a `YIELD`, one of them at a `PHASE`; where all yield, the dispatcher decides. -/
def State.phaseCheck (s : State) (core slot : Nat) : State :=
  match s.block? core slot with
  | none => s
  | some b =>
    let live := b.threads.filter Thread.live
    if b.ph ≠ 0 ∨ b.phStop.isSome ∨ live.isEmpty ∨ !(live.all fun t => (t.atPhase || t.atYield) && !t.owes) then s
    else if live.any Thread.atPhase || s.yieldTakes b then s.boundary b
    else s.modBlock core slot fun b => { b with threads := b.threads.map (yieldOn s.now) }

/-- The waits that the prefix of a `PHASE` announces. -/
def phaseWaits (p : Option RPfx) : Nat :=
  match p with
  | none => 0
  | some q => q.ext % 4

/-- Resolve the waits of one thread (R348): a trap, or the counters with their targets. -/
def State.resolveWaits (s : State) (l : LaneCtx) (a : Nat) : Nat → Nat → State × Except Trap (List (Ctr × Nat))
  | 0, _ => (s, .ok [])
  | n + 1, i =>
    let w := l.x (a + 4 * i)
    if !(ctrOk l.b w) then (s, .error (illegal 6))
    else
      match s.checkCtr l.b w with
      | (s, .oob) => (s, .error { cls := 4 })
      | (s, .trap t) => (s, .error t)
      | (s, .ok c) =>
        match s.resolveWaits l a n (i + 1) with
        | (s, .ok r) => (s, .ok ((c, l.n (a + 4 * i + 1) + 4294967296 * l.n (a + 4 * i + 2)) :: r))
        | x => x

/-- `PHASE` (R348): each thread parks; the lowest TID among the arrivals supplies the waits. A thread that is the lowest so
far has its waits checked at its own issue, whoever arrives later (log entry 70, DESIGN CHOICE). -/
def execPhase (p : Option RPfx) (r : R3) (s : State) : Res :=
  .next (s.eachOrTrap fun s c l =>
    let lowest := match l.b.waitTid with
      | none => true
      | some t => decide (l.t.tid < t)
    let go := fun (s : State) => s.park c.core c.slot l.t.tid (.phase (c.pc + BitVec.ofNat 32 c.len))
    if !lowest then (go s, none)
    else
      match s.resolveWaits l r.a (phaseWaits p) 0 with
      | (s, .error t) => (s, some t)
      | (s, .ok ws) => (go (s.modBlock c.core c.slot fun b => { b with waits := ws, waitTid := some l.t.tid }), none))

/-- `YIELD` (R351): each thread parks. -/
def execYield (_r : R3) (s : State) : Res :=
  .next (s.eachLane fun s c l => s.park c.core c.slot l.t.tid (.yield (c.pc + BitVec.ofNat 32 c.len)))

/-- Whether some waits of a block between phases are met (R350). A memory counter is translated each time that it is read
(R90): a page that the Stagehand must fill is handed to it, and a wait that fails otherwise is not met (log entry 36). -/
def State.phaseReady (s : State) (b : Block) : List (Ctr × Nat) → State × Bool
  | [] => (s, true)
  | (.none, _) :: r => s.phaseReady b r
  | (.barrier i, n) :: r => if n ≤ b.barr i then s.phaseReady b r else (s, false)
  | (.mem va, n) :: r =>
    match s.translate b.asker .wait (va / 128 * 128) with
    | (s, .error f) => (if f.cause = 1 then s.stageAsk b.asid va b.launch else s, false)
    | (s, .ok p) =>
      let s := s.atHome none p (byteSpan va 8) false
      if s.poisoned (p.key + va % 128) then (s.consumePoison b.core b.slot, false)
      else if n ≤ s.rdN (p.key + va % 128) 8 then s.phaseReady b r else (s, false)

/-- The first of some blocks whose waits are met, with the state that the reading of the counters leaves. -/
def State.findReady (s : State) : List Block → State × Option Block
  | [] => (s, none)
  | b :: r =>
    match s.phaseReady b b.waits with
    | (s, true) => (s, some b)
    | (s, false) => s.findReady r

/-- A word of some bytes. -/
def wordIn (bs : List Byte) (off : Nat) : Word := BitVec.ofNat 32 (ofBytesLE ((bs.drop off).take 4))

/-- A thread at the start of a later phase (R350): the carry set from the record, everything else as at block start but
its pc. -/
def phaseThread (now : Nat) (b : Block) (x : Option Launch) (bs : List Byte) (t : Thread) : Thread :=
  let regs := (List.range b.nregs).map fun i =>
    if i < b.carry then wordIn bs (320 + 4 * (t.tid * b.carry + i)) else 0
  let p0 := (x.map fun y => startsTrue y b.gidx.toNat t.tid).getD true
  if !t.live then { t with regs := regs }
  else { t with cond := .pool now false, regs := regs, mr := 0, wb := 0, fpctl := 0, preds := if p0 then 1 else 0 }

/-- Enter a queued phase (R350): the acquire, the record read back, the threads into the pool. -/
def State.enterPhase (s : State) (r : Req) (b : Block) : State :=
  if !(s.threadRoom b.core b.ntid.toNat b.nregs) then s.reqFails r
  else
    let s := s.acquire b.core .pkg
    let va := s.phaseVa b
    let n := phaseBytes b
    match s.readLines b b.phSkip va n ((va + n - 1) / 128 + 1 - va / 128) (va / 128) with
    | (s, .error (some (l, f))) => s.phaseFault b l f false
    | (s, .error none) => s.consumePoison b.core b.slot
    | (s, .ok bs) =>
      let x := s.launch? b.launch
      let s := { s with reqs := s.reqs.erase r }
      s.modBlock b.core b.slot fun b =>
        { b with ph := 0, phSkip := false, waits := [], waitTid := none, phaseno := wordIn bs 0, bstat := wordIn bs 4,
                 trapv := wordIn bs 8, sregs := (List.range 64).map fun i => wordIn bs (64 + 4 * i),
                 threads := b.threads.map (phaseThread s.now b x bs) }

/-- What happens next to a launch's phases (R349, R350): a boundary whose record was stopped is taken again once the
driver has answered; a block whose waits are met enters its die's queue; a phase at the head of its queue is entered. -/
def execPhaseEntry (id : Nat) (s : State) : Res :=
  .next (
    let mine := s.blocks.filter fun b => b.launch == id && b.phStop.isNone
    let stalled := fun (b : Block) =>
      b.ph == 0 && (b.threads.any Thread.live) &&
        (b.threads.all fun t => !t.live || ((t.atPhase || t.atYield) && !t.owes))
    match mine.find? stalled with
    | some b => s.phaseCheck b.core b.slot
    | none =>
      match s.findReady (mine.filter fun b => b.ph == 1) with
      | (s, some b) =>
        let prio := ((s.launch? id).map fun x => lrBits x.lr 169 168).getD 0
        let r : Req := { die := b.die, kind := .phase b.core b.slot, prio := prio, since := s.cycOf b.die, ord := s.nextReq }
        let s := s.modBlock b.core b.slot fun b => { b with ph := 2 }
        { s with reqs := s.reqs ++ [r], nextReq := s.nextReq + 1 }
      | (s, none) =>
        let head := fun (b : Block) =>
          b.ph == 2 && ((s.headReq b.die).map fun (r : Req) => r.kind) == some (ReqKind.phase b.core b.slot)
        match mine.find? head with
        | none => s
        | some b =>
          let s := s.readScene b.die
          match s.headReq b.die with
          | none => s
          | some r => if r.kind = .phase b.core b.slot then s.enterPhase r b else s)

/-! ## Exit (R381) -/

/-- Whether a command of any block writes into a block as a multicast target. -/
def State.castInto (s : State) (core slot : Nat) : Bool :=
  s.blocks.any fun b => b.streams.any fun q => q.any fun c =>
    c.targets.any fun t => t.1 == core && t.2.1 == slot

/-- Whether every command that a block has accepted has completed, and every command into it has landed. -/
def State.blockQuiet (s : State) (b : Block) : Bool :=
  let here := fun (core slot : Nat) => core == b.core && slot == b.slot
  (b.streams.all fun q => q.isEmpty) && !(s.muls.any fun m => here m.core m.slot) &&
    !(s.fetches.any fun f => here f.core f.slot) && !(s.obOps.any fun o => here o.core o.slot) &&
    !(s.selq.any fun c => here c.core c.slot) && !(s.castInto b.core b.slot)

/-- The areas of a cluster are freed once every block of it has exited (R381). -/
def State.freeAreas (s : State) (launch clid : Nat) : State :=
  let left := s.blocks.any (fun b => b.launch == launch && b.clid.toNat == clid) ||
    s.saved.any fun v => v.blks.any fun b => b.launch == launch && b.clid.toNat == clid
  if left then s else { s with areas := s.areas.filter fun a => !(a.launch == launch && a.clid == clid) }

/-- Count an exited block of a launch (R337, R340). -/
def State.countExit (s : State) (b : Block) : State :=
  match s.launch? b.launch with
  | none => s
  | some x =>
    if x.st ≠ .running then s
    else
      let s := { s with adds := s.adds ++ exitAdds x b }
      s.modLaunch x.id fun y =>
        { y with exited := y.exited + 1, st := if y.exited + 1 = lrBlocks y.lr then .done else y.st }

/-- What is left of a block that has exited: its scratchpad and operand buffer, held for its cluster (R381). -/
def State.toArea (s : State) (b : Block) : State :=
  let husk := { b with handles := List.replicate 16 none, slots := List.replicate 16 {},
                       threads := b.threads.map fun t => { t with regs := [], badRegs := [] } }
  let a : Area := { core := b.core, launch := b.launch, clid := b.clid.toNat, scrBase := b.scrBase, scr := b.scr * 128,
                    opbBase := b.opbBase, opb := b.opb, blk := husk }
  { s with
    blocks := s.blocks.filter fun x => !(x.core == b.core && x.slot == b.slot)
    areas := a :: s.areas
    linebuf := s.linebuf.filter fun r => !(r.core == b.core && r.slot == b.slot) }

/-- A block whose threads have all exited and whose commands have completed leaves its core (R381): its writes reach the
homes before the adds that cover them (R340), its scratchpad and operand buffer are held for its cluster. -/
def execBlockExit (core slot : Nat) (s : State) : Res :=
  .next (match s.block? core slot with
    | none => s
    | some b =>
      if (b.threads.any Thread.live) || !(s.blockQuiet b) then s
      else
        let s := (s.releaseCopies core .pkg).toArea b
        (s.countExit b).freeAreas b.launch b.clid.toNat)

end Sys2Proof.Machine
end

