-- ==== Sys2Proof/Machine/Selection.lean ====
section
/-!
DEFINITION. Selection.lean: the selection engines of the beds (R241 to R254).
-/
namespace Sys2Proof.Machine

/-! ## The descriptor (R242 to R244) -/

/-- Bits of a descriptor. -/
def seBits (d : BitVec 128) (hi lo : Nat) : Nat := bitsOf d.toNat hi lo
/-- N. -/
def seN (d : BitVec 128) : Nat := seBits d 24 0
/-- K. -/
def seK (d : BitVec 128) : Nat := seBits d 42 32
/-- PB. -/
def sePb (d : BitVec 128) : Nat := seBits d 55 43
/-- Segments of a `SELKS`; 1 otherwise. -/
def seSegs (op : Nat) (d : BitVec 128) : Nat := if op = 1 then seBits d 63 56 + 1 else 1
/-- KOFS. -/
def seKofs (d : BitVec 128) : Nat := seBits d 127 96
/-- Bytes of a key (R244). -/
def keySize (op ext : Nat) : Nat := if op = 2 then (if ext % 4 < 2 then 4 else 8) else if ext % 4 = 1 then 2 else 4
/-- Bytes of an entry of `SELU` (R245). -/
def entrySize (ext : Nat) : Nat := if ext % 4 < 2 then 8 else 16

/-- Offset of the payload row of key `j` (R244). -/
def rowOff (ext pst j : Nat) : Nat :=
  if bitAt ext 3 then j / 15 * 65536 + 61440 + 256 * (j % 15) else j * pst

/-- A descriptor that breaks R243. -/
def descBad (op ext : Nat) (d : BitVec 128) : Bool :=
  let k := seK d
  seBits d 95 89 != 0 || seBits d 31 25 != 0 || decide (16777216 < seN d) ||
    sePb d % 16 != 0 || decide ((if bitAt ext 3 then 256 else 4096) < sePb d) ||
    (if op = 2 then k != 0 else k == 0 || decide (1024 < k)) ||
    (op != 1 && (seBits d 63 56 != 0 || seBits d 88 84 != 0))

/-- The record registers of a descriptor: keys, output, payload, payload destination, segment list. -/
def seRegs (d : BitVec 128) : List Nat := [seBits d 68 64, seBits d 73 69, seBits d 78 74, seBits d 83 79, seBits d 88 84]

/-- Whether a command uses one of those records (R243). -/
def seUses (op : Nat) (d : BitVec 128) (i : Nat) : Bool :=
  decide (i < 2) || (i == 4 && op == 1) || ((i == 2 || i == 3) && sePb d != 0)

/-- The pairs or rows a command writes at most: K for each segment, or N. -/
def seRows (op : Nat) (d : BitVec 128) : Nat := if op = 2 then seN d else seK d * seSegs op d

/-- Bytes of the pairs or entries (R245). -/
def seOutBytes (op ext : Nat) (d : BitVec 128) : Nat :=
  if op = 2 then 16 + seN d * entrySize ext else 8 * seRows op d

/-- The byte count of a command (R248 to R250). -/
def seBytes (op ext : Nat) (d : BitVec 128) : Nat := seOutBytes op ext d + sePb d * seRows op d

/-! ## Acceptance (R245) -/

/-- Whether the engine of a bed has a place for a core (R246): 32 commands, 4 of one core. -/
def State.selPlace (s : State) (core : Nat) : Bool :=
  let q := s.selq.filter fun c => c.bed == core / 16
  decide (q.length < 32) && decide ((q.filter fun c => c.core == core).length < 4)

/-- Steps 2 to 7 of R245 for one thread. -/
def State.selSubmit (s : State) (l : LaneCtx) (op : Nat) (p : RPfx) (r : R3) : State × Sub :=
  let d := BitVec.ofNat 128 (l.quad r.d)
  let recs := (seRegs d).map fun k => l.b.krecs.getD k 0
  let w := ctrWord l p
  let oo := l.n r.a
  let dO := l.pair r.b % 4294967296
  let pst := l.pair r.b / 4294967296
  let ext := p.ext
  let pb := sePb d
  let rc := fun i => recs.getD i 0
  if descBad op ext d || recs.zipIdx.any (fun x => seUses op d x.2 && recBad x.1) || !(w.all fun w => ctrOk l.b w) then
    (s, .trap (illegal 6))
  else if seKofs d % keySize op ext ≠ 0 ∨ oo % (if op = 2 then 16 else 8) ≠ 0 ∨
      (pb ≠ 0 ∧ (dO % 16 ≠ 0 ∨ (!(bitAt ext 3) ∧ pst % 16 ≠ 0))) then (s, .trap (misaligned 0))
  else if recExtent (rc 0) < seKofs d + seN d * keySize op ext ∨ recExtent (rc 1) < oo + seOutBytes op ext d ∨
      (op = 1 ∧ recExtent (rc 4) < 4 * (seSegs op d + 1)) ∨
      (pb ≠ 0 ∧ recExtent (rc 3) < dO + pb * seRows op d) then
    (s.setBstat l.b.core l.b.slot 0, .dropped)
  else
    match s.checkCtrOpt l.b w with
    | (s, .oob) => (s.setBstat l.b.core l.b.slot 0, .dropped)
    | (s, .trap t) => (s, .trap t)
    | (s, .ok ctr) =>
      if !(s.selPlace l.b.core) then (s, .full)
      else
        let c : SelCmd :=
          { bed := l.b.core / 16, core := l.b.core, slot := l.b.slot, seq := l.b.seqs.getD 5 0, op := op, ext := ext,
            desc := d, oo := oo, dO := dO, pst := pst, recs := recs, ctr := ctr }
        let s := s.modBlock l.b.core l.b.slot fun b => { b with seqs := b.seqs.set 5 (b.seqs.getD 5 0 + 1) }
        ({ s with selq := s.selq ++ [c] }, .accepted)

/-- A selection instruction: each active thread submits its own command, in ascending TID (R241). -/
def State.selInstr (s : State) (op : Nat) (p : RPfx) (r : R3) : State :=
  s.eachOrTrap fun s c l =>
    match s.selSubmit l op p r with
    | (s, .trap t) => (s, some t)
    | (s, .full) => (s.park c.core c.slot l.t.tid .selQueue, none)
    | (s, _) => (s.advance [l.t.tid], none)

/-- `SELK` (R248). -/
def execSelk (p : RPfx) (r : R3) (s : State) : Res := .next (s.selInstr 0 p r)
/-- `SELKS` (R249). -/
def execSelks (p : RPfx) (r : R3) (s : State) : Res := .next (s.selInstr 1 p r)
/-- `SELU` (R250). -/
def execSelu (p : RPfx) (r : R3) (s : State) : Res := .next (s.selInstr 2 p r)

/-- A place frees and a parked thread resumes (R245 step 6). -/
def execSelectionQueuePlaceFrees (core slot tid : Nat) (s : State) : Res :=
  .next (match s.thread? core slot tid with
    | none => s
    | some t => if t.cond == .wings .selQueue && s.selPlace core then s.wake core slot tid else s)

/-! ## Ranking (R247) -/

/-- A key as the order compares it: none for a NaN. -/
def keyRank (op ext bits : Nat) : Option Int :=
  let flt := fun (f : Fmt) =>
    let m := bits % f.signW
    if f.val bits == .nan then none else some (if f.signW ≤ bits then -(m : Int) - 1 else (m : Int))
  if op = 2 then
    match ext % 4 with
    | 0 => some (toSigned 32 bits)
    | 2 => some (toSigned 64 bits)
    | _ => some bits
  else
    match ext % 4 with
    | 0 => flt f32
    | 1 => flt bf16
    | 2 => some (toSigned 32 bits)
    | _ => some bits

/-- Better(p, q) of R247 on (index, key); `lo` for `.min`. -/
def better (lo : Bool) (p q : Nat × Option Int) : Bool :=
  match p.2, q.2 with
  | none, some _ => false
  | some _, none => true
  | none, none => decide (p.1 < q.1)
  | some a, some b => if a = b then decide (p.1 < q.1) else if lo then decide (a < b) else decide (b < a)

/-- A pair put into its place in a ranked list. -/
def rankInto (lo : Bool) (p : Nat × Option Int) : List (Nat × Option Int) → List (Nat × Option Int)
  | [] => [p]
  | q :: r => if better lo p q then p :: q :: r else q :: rankInto lo p r

/-- The k best pairs in rank order. -/
def rankBest (lo : Bool) (k : Nat) (ps : List (Nat × Option Int)) : List (Nat × Option Int) :=
  ps.foldl (fun l p => (rankInto lo p l).take k) []

/-- A distinct value of `SELU`: its place in the order, its bits, its count, its lowest index. -/
abbrev Distinct := Int × Nat × Nat × Nat

/-- A key counted into the ascending list of distinct values. -/
def countInto (v : Int) (bits j : Nat) : List Distinct → List Distinct
  | [] => [(v, bits, 1, j)]
  | d :: r =>
    if v < d.1 then (v, bits, 1, j) :: d :: r
    else if v = d.1 then (d.1, d.2.1, d.2.2.1 + 1, d.2.2.2) :: r
    else d :: countInto v bits j r

/-! ## Running a command (R251 to R253) -/

/-- What stops a command on its way: a failing line, or an empty scratchpad line to wait for. -/
inductive SelStop where
  | fail (line : Nat) (f : XFail)
  | wait
deriving DecidableEq, Repr

/-- Read the lines of a list that a command has not read yet, one after another, at their homes (R251, R253). -/
def State.selLines (s : State) (b : Block) (c : SelCmd) : List Nat → State × SelCmd × Option SelStop
  | [] => (s, c, none)
  | l :: r =>
    if c.lines.any fun x => x.1 == l then s.selLines b c r
    else
      match s.translate b.bedAsker .read (l * 128) with
      | (s, .error f) => (s, c, some (.fail l f))
      | (s, .ok p) =>
        if (s.firstEmpty [p]).isSome then (s, c, some .wait)
        else
          let s := s.atHome none p allBytes false
          let bytes := (List.range 128).map fun i => (s.rd (p.key + i), s.poisoned (p.key + i))
          s.selLines b { c with lines := c.lines ++ [(l, bytes)] } r

/-- The byte at a VA as a command has read it, with poison. -/
def SelCmd.byteAt (c : SelCmd) (va : Nat) : Byte × Bool :=
  (((c.lines.find? fun x => x.1 == va / 128).map (·.2)).getD []).getD (va % 128) (0, false)

/-- Read `n` bytes at an offset of a record (R244, R251). -/
def State.selRead (s : State) (b : Block) (c : SelCmd) (r : Rec) (o n : Nat) :
    State × SelCmd × Except SelStop (List (Byte × Bool)) :=
  let vas := (List.range n).map fun i => recVa r o i
  match s.selLines b c (linesOf vas) with
  | (s, c, some e) => (s, c, .error e)
  | (s, c, none) => (s, c, .ok (vas.map c.byteAt))

/-- One output of a command: bytes at an offset of the output record, or the payload row of a key (none: zeros) at an
offset of the destination record. -/
inductive SelOut where
  | bytes (off : Nat) (l : List Byte)
  | row (off : Nat) (j : Option Nat)
deriving DecidableEq, Repr

/-- The pairs and rows of one segment (R248, R249): `base` is its first place among all. -/
def segOut (c : SelCmd) (keys : List Nat) (base lo hi : Nat) : List SelOut :=
  let k := seK c.desc
  let pb := sePb c.desc
  let best := rankBest (bitAt c.ext 2) k
    ((List.range (hi - lo)).map fun i => (lo + i, keyRank c.op c.ext (keys.getD (lo + i) 0)))
  (List.range k).flatMap fun r =>
    let at_ := base + r
    match best[r]? with
    | some p =>
      SelOut.bytes (c.oo + 8 * at_) (bytesLE 4 p.1 ++ bytesLE 4 (keys.getD p.1 0)) ::
        (if pb = 0 then [] else [.row (c.dO + pb * at_) (some p.1)])
    | none =>
      SelOut.bytes (c.oo + 8 * at_) (bytesLE 4 4294967295 ++ bytesLE 4 0) ::
        (if pb = 0 then [] else [.row (c.dO + pb * at_) none])

/-- The outputs of a `SELU` (R250). -/
def seluOut (c : SelCmd) (keys : List Nat) : List SelOut :=
  let ds := keys.zipIdx.foldl (fun l x => countInto ((keyRank 2 c.ext x.1).getD 0) x.1 x.2 l) []
  let es := entrySize c.ext
  SelOut.bytes c.oo (bytesLE 16 ds.length) ::
    ds.zipIdx.flatMap fun x =>
      SelOut.bytes (c.oo + 16 + x.2 * es) (bytesLE (es / 2) x.1.2.1 ++ bytesLE (es / 2) x.1.2.2.1) ::
        (if sePb c.desc = 0 then [] else [.row (c.dO + x.2 * sePb c.desc) (some x.1.2.2.2)])

/-- The outputs of a command from its keys and its segment boundaries. -/
def selOutputs (c : SelCmd) (keys bounds : List Nat) : List SelOut :=
  if c.op = 2 then seluOut c keys
  else if c.op = 0 then segOut c keys 0 0 (seN c.desc)
  else (List.range (seSegs 1 c.desc)).flatMap fun i =>
    let lo := bounds.getD i 0
    let hi := bounds.getD (i + 1) 0
    if hi < lo ∨ seN c.desc < hi then segOut c keys (seK c.desc * i) 0 0 else segOut c keys (seK c.desc * i) lo hi

/-- Read the payload rows of some outputs, of which `n` stand before, and give every output as bytes at VAs, with poison
(R251): a row out of bounds is zeros and sets BSTAT.OOB, once, when the command comes to it. -/
def State.selBytes (s : State) (b : Block) (c : SelCmd) (n : Nat) :
    List SelOut → State × SelCmd × Except SelStop (List (Nat × Byte × Bool))
  | [] => (s, c, .ok [])
  | o :: rest =>
    let here : State × SelCmd × Except SelStop (List (Nat × Byte × Bool)) :=
      match o with
      | .bytes off l => (s, c, .ok (l.zipIdx.map fun x => (recVa (c.recs.getD 1 0) off x.2, x.1, false)))
      | .row off j =>
        let pb := sePb c.desc
        let dst := fun i => recVa (c.recs.getD 3 0) off i
        let zero := (List.range pb).map fun i => (dst i, (0 : Byte), false)
        match j with
        | none => (s, c, .ok zero)
        | some j =>
          let src := rowOff c.ext c.pst j
          if recExtent (c.recs.getD 2 0) < src + pb then
            (if n < c.passed then s else s.setBstat b.core b.slot 0, { c with passed := Nat.max c.passed (n + 1) }, .ok zero)
          else
            match s.selRead b c (c.recs.getD 2 0) src pb with
            | (s, c, .ok l) => (s, c, .ok (l.zipIdx.map fun x => (dst x.2, x.1)))
            | (s, c, .error e) => (s, c, .error e)
    match here with
    | (s, c, .error e) => (s, c, .error e)
    | (s, c, .ok l) =>
      match s.selBytes b c (n + 1) rest with
      | (s, c, .error e) => (s, c, .error e)
      | (s, c, .ok r) => (s, c, .ok (l ++ r))

/-- Writes in order of their lines. A command meets the lines of its keys, of its list and of its rows in the order in which
it uses them, and those it writes in ascending order (log entry 85, DESIGN CHOICE). -/
def byLine (l : List (Nat × Byte × Bool)) : List (Nat × Byte × Bool) :=
  (linesOf (l.map fun x => x.1)).flatMap fun n => l.filter fun x => x.1 / 128 == n

/-- The numbers of `n` bytes each that some bytes hold. -/
def numsOf (n : Nat) (l : List Byte) : Nat → List Nat
  | 0 => []
  | k + 1 => ofBytesLE (l.take n) :: numsOf n (l.drop n) k

/-- Whether two commands are one: a block numbers its commands. -/
def SelCmd.same (c x : SelCmd) : Bool := x.core == c.core && x.slot == c.slot && x.seq == c.seq

/-- Put a command back where it stands in its bed's queue. -/
def State.setSel (s : State) (c : SelCmd) : State := { s with selq := mapIf c.same (fun _ => c) s.selq }

/-- Take a command from its bed's queue. -/
def State.dropSel (s : State) (c : SelCmd) : State := { s with selq := s.selq.filter fun x => !(c.same x) }

/-- Stop a bed's command on a failing line (R253); a killed one is abandoned there (R382). -/
def State.selStop (s : State) (b : Block) (c : SelCmd) (line : Nat) (f : XFail) (write : Bool) : State :=
  let (fid, s) := s.engineFault b (f.engineRec { eng := 2, bed := c.bed, cmd := c.seq } line write)
  if c.dead then { s.dropSel c with pending := s.pending.filter fun p => p.fr.fid != fid }
  else s.setSel { c with stopped := some fid }

/-- A command stops on its way: at a failing line, or before an empty scratchpad line (R154, R253). -/
def State.selHalt (s : State) (b : Block) (c : SelCmd) (e : SelStop) : State :=
  match e with
  | .fail l f => s.selStop b c l f false
  | .wait => s.setSel c

/-- A command consumes poison: its launch is killed (R105); a killed command is abandoned. -/
def State.selPoison (s : State) (c : SelCmd) : State :=
  if c.dead then s.dropSel c else (s.setSel c).consumePoison c.core c.slot

/-- The writes of a command, line by line (R252): what is left, and the failing line if there is one. Of two outputs that
overlap in memory, the later in the list stands (log entry 85, DESIGN CHOICE). -/
def State.selWrite (s : State) (b : Block) : Nat → List (Nat × Byte × Bool) →
    State × List (Nat × Byte × Bool) × Option (Nat × XFail)
  | 0, out => (s, out, none)
  | _, [] => (s, [], none)
  | n + 1, out@((va, _, _) :: _) =>
    let line := va / 128
    match s.translate b.bedAsker .write (line * 128) with
    | (s, .error f) => (s, out, some (line, f))
    | (s, .ok p) =>
      if p.ct = 2 ∧ s.written (p.key / 128) then (s, out, some (line, { cause := 5 }))
      else
        let now := out.filter fun x => x.1 / 128 == line
        let s := s.atHome none p (now.foldl (fun m x => setMask m (x.1 % 128)) 0) true
        let s := if p.ct = 2 then s.setWritten (p.key / 128) true else s
        let s := (s.homeWriteCells (now.map fun x => (p.key + x.1 % 128, x.2.1))).carryPoison
          (now.map fun x => (p.key + x.1 % 128, x.2.2))
        s.selWrite b n (out.filter fun x => x.1 / 128 != line)

/-- Perform the writes of a bed's command. -/
def State.selFinish (s : State) (b : Block) (c : SelCmd) (out : List (Nat × Byte × Bool)) : State :=
  match s.selWrite b (out.length + 1) out with
  | (s, rest, none) => s.setSel { c with out := some rest }
  | (s, rest, some (l, f)) => s.selStop b { c with out := some rest } l f true

/-- The engine of a bed carries out its first command (R246 to R253): it reads the keys, the list and the rows, ranks,
and writes; it stops at a failing line, from which it goes on, and waits for an empty scratchpad line. A poisoned key or
list kills the launch (R105). -/
def execSelectionCommandRun (bed : Nat) (s : State) : Res :=
  .next (match s.selq.find? fun c => c.bed == bed with
    | none => s
    | some c =>
      match s.block? c.core c.slot with
      | none => s.dropSel c
      | some b =>
        if c.stopped.isSome then s
        else
          match c.out with
          | some out => s.selFinish b c out
          | none =>
            let ks := keySize c.op c.ext
            match s.selRead b c (c.recs.getD 0 0) (seKofs c.desc) (seN c.desc * ks) with
            | (s, c, .error e) => s.selHalt b c e
            | (s, c, .ok kb) =>
              let segs := if c.op = 1 then 4 * (seSegs 1 c.desc + 1) else 0
              match s.selRead b c (c.recs.getD 4 0) 0 segs with
              | (s, c, .error e) => s.selHalt b c e
              | (s, c, .ok lb) =>
                if (kb ++ lb).any fun x => x.2 then s.selPoison c
                else
                  let keys := numsOf ks (kb.map fun x => x.1) (seN c.desc)
                  let bounds := numsOf 4 (lb.map fun x => x.1) (segs / 4)
                  match s.selBytes b c 0 (selOutputs c keys bounds) with
                  | (s, c, .error e) => s.selHalt b c e
                  | (s, c, .ok out) => s.selFinish b c (byLine out))

/-- A bed's first command has performed every write: its add, and the next command begins (R246, R252). An add whose
address fails to translate stops it (R253). -/
def execSelectionComplete (bed : Nat) (s : State) : Res :=
  .next (match s.selq.find? fun c => c.bed == bed with
    | none => s
    | some c =>
      match s.block? c.core c.slot with
      | none => s.dropSel c
      | some b =>
        if c.out = some [] ∧ c.stopped = none then
          if c.dead then s.dropSel c
          else
            match s.ctrAdd b c.ctr (seBytes c.op c.ext c.desc) with
            | (s, some (line, f)) => s.selStop b c line f true
            | (s, none) => s.dropSel c
        else s)

end Sys2Proof.Machine
end

