-- ==== Sys2Proof/Machine/Records.lean ====
section
/-!
DEFINITION. Records.lean: fault records on their way (R357 to R366): the batches, the fault ring in host memory, the
watchdog (R375), and the owner host's answers.
-/
namespace Sys2Proof.Machine

/-! ## Who may write a register (R392, R5) -/

/-- Whether a master owns the device. -/
def State.owns (s : State) (m : Nat) : Bool := s.owner.owner == some m

/-- A register with the fields of a mask taken from a written value. -/
def putFields (old : Word64) (v : Nat) (mask : Word64) : Word64 := (old &&& ~~~ mask) ||| (BitVec.ofNat 64 v &&& mask)

/-- BUSY, bit 63 of a command register. -/
def busyBit : Word64 := 0x8000000000000000
/-- ERR, bit 62 of a command register. -/
def errBit : Word64 := 0x4000000000000000

/-! ## The record in memory (R357) -/

/-- A fault record as a number of 1,024 bits. -/
def FRec.bits (r : FRec) : Nat :=
  let f := fun (v lo w : Nat) => v % 2 ^ w * 2 ^ lo
  let base := r.pages.headD 0
  f r.fid 0 32 + f r.kind 32 4 + f r.cls 36 4 + f r.cause 40 4 + f (bit01 r.fetch) 44 1 + f (bit01 r.noncanon) 45 1 +
  f (bit01 r.malf) 46 1 + f r.level 47 2 + f (bit01 r.write) 49 1 + f (bit01 r.bound) 50 1 + f (bit01 r.nest) 51 1 +
  f (bit01 r.cont) 52 1 + f r.core 56 9 + f r.bslot 65 11 + f r.asid 76 13 + f r.pc 96 32 + f r.lanemask 128 32 +
  f r.tid0 160 11 + f r.eng 171 2 + f r.stream 173 2 + f r.bed 175 5 + f r.bid 192 32 + f r.cmd 224 32 +
  f r.va 256 55 + f r.aux 320 64 + f r.time 384 64 + f r.pages.length 467 6 + f base 473 39 +
  (r.pages.zipIdx.foldl (fun a p => a + f (p.1 - base) (512 + 16 * p.2) 16) 0)

/-! ## The fault ring (R365) -/

/-- Where the header of the fault ring stands: a host physical address. -/
def State.fringKey (s : State) : Nat := hostKey (bitsOf s.priv.fring.toNat 63 6 * 64)

/-- An agent of the I/O die reaches `n` bytes at their homes: lines that a core owns are recalled (R288), and the L2s give
up what they hold of host memory, dirty bytes first (R109, R257). -/
def State.ioReaches (s : State) (k n : Nat) (write : Bool) : State :=
  let inLine := fun (line : Nat) => rangeMask (k - Nat.min k (line * 128)) (Nat.min 128 (k + n - line * 128))
  if spaceOf k = .host then
    let lines := ((s.copies.map (·.line)).filter fun l => decide (k < l * 128 + 128) && decide (l * 128 < k + n)).eraseDups
    lines.foldl (fun s l => s.hostTakeAll l (inLine l) write none) s
  else s.recallSpan k n

/-- The header of the fault ring as read now: HDRERR says whether it was malformed. -/
def State.readFring (s : State) : State × Option Ring :=
  if !(s.priv.fring.getLsbD 0) then
    ({ s with priv := { s.priv with fringctl := s.priv.fringctl &&& ~~~ 0x80000000#64 } }, none)
  else
    let s := s.ioReaches s.fringKey 64 false
    match s.ringHdr s.fringKey with
    | none => ({ s with priv := { s.priv with fringctl := s.priv.fringctl ||| 0x80000000#64 } }, none)
    | some g => ({ s with priv := { s.priv with fringctl := s.priv.fringctl &&& ~~~ 0x80000000#64 } }, some g)

/-- Write a value of `n` bytes at its home as an agent of the I/O die does. -/
def State.ioWriteN (s : State) (k n v : Nat) : State := (s.ioReaches k n true).homeWriteN k n v

/-- Reserve `n` bytes of a ring whose records stand at keys, with a skip record where the length would wrap (R329): the
record's key, or none where the ring is full. -/
def State.reserveAt (s : State) (hdr : Nat) (at_ : Nat → Nat) (n : Nat) : Nat → State × Option Nat
  | 0 => (s, none)
  | fuel + 1 =>
    match s.ringHdr hdr with
    | none => (s, none)
    | some g =>
      let p := g.prod % g.size
      let free := g.size - (g.prod - g.cons)
      if g.size < p + n then
        if g.size - p ≤ free then
          ((s.ioWriteN (at_ (g.base + p)) 8 (g.size - p + 4294967296 + 9223372036854775808)).ioWriteN (hdr + 16) 8
            ((g.prod + (g.size - p)) % 18446744073709551616)).reserveAt hdr at_ n fuel
        else (s, none)
      else if n ≤ free then
        ((s.ioWriteN (at_ (g.base + p)) 8 n).ioWriteN (hdr + 16) 8 ((g.prod + n) % 18446744073709551616),
          some (at_ (g.base + p)))
      else (s, none)

/-- An MSI-X message on a vector: sent to a host owner, else due when a host becomes owner (R393). -/
def State.msix (s : State) (vec : Nat) : State :=
  match s.owner.owner with
  | some m => if m < 65536 then { s with hostOut := s.hostOut ++ [.msix vec] }
    else { s with msixDue := insNat vec s.msixDue }
  | none => { s with msixDue := insNat vec s.msixDue }

/-- The I/O die writes the next waiting record; the last of a batch sends its message (R365). -/
def execFaultRingWrite (s : State) : Res :=
  .next (match s.ioq with
    | [] => s
    | (r, last) :: rest =>
      match s.readFring with
      | (s, none) => s
      | (s, some _) =>
        match s.reserveAt s.fringKey hostKey 136 3 with
        | (s, none) => s
        | (s, some k) =>
          let s := (s.ioWriteN (k + 8) 128 r.bits).ioWriteN (k + 7) 1 128
          let s := { s with ioq := rest }
          if last then s.msix (bitsOf s.priv.fringctl.toNat 42 32) else s)

/-- A write of `FRING` (R365): the header is read again. -/
def execFringWrite (m : Master) (v : Nat) (s : State) : Res :=
  .next (
    if !(s.owns m) then s
    else ({ s with priv := { s.priv with fring := putFields s.priv.fring v 0xFFFFFFFFFFFFFFC1 } } : State).readFring.1)

/-- The window of a core's batch closes (R359). -/
def execFaultBatchSend (core : Nat) (s : State) : Res := .next (s.sendBatch core)

/-! ## The watchdog (R367, R375) -/

/-- The condition code of a parked thread (R367); a member of a bound group that waits for the others stands like one
that a pre-emption parked. -/
def parkCode (r : Park) : Nat :=
  match r with
  | .fault _ => 0
  | .counter .. => 1
  | .address .. => 2
  | .barrier .. => 3
  | .stream _ => 4
  | .selQueue => 5
  | .emptyLine _ => 6
  | .quad => 7
  | .ringFull .. => 8
  | .ringEmpty .. => 9
  | .phase _ => 10
  | .yield _ => 11
  | .debug _ => 12
  | .shootdown _ => 13
  | .preempt => 14
  | .cleared => 14

/-- The condition code and the AUX of a watchdog record (R357, R375); none where the condition never expires. -/
def watchOf (c : Cond) : Option (Nat × Nat) :=
  match c with
  | .held j => some (15, j.toNat)
  | .wings (.counter _ va _ _) => some (1, va)
  | .wings (.address sl ..) =>
    let low := sl.foldl (fun (a : Option WaSlot) w => match a with
      | none => some w
      | some x => if w.idx < x.idx then some w else some x) none
    some (2, (low.map (·.va)).getD 0)
  | .wings (.ringFull _ va ..) => some (8, va)
  | .wings (.ringEmpty _ _ va ..) => some (9, va)
  | .wings r => if 1 ≤ parkCode r ∧ parkCode r ≤ 11 then some (parkCode r, 0) else none
  | _ => none

/-- PC of a watchdog record (R357): the `JOIN` at which a thread is held, else the thread's PC (log entry 4, DEDUCED). -/
def Thread.watchPc (t : Thread) : Word :=
  match t.cond with
  | .held j => j
  | _ => t.pc

/-- The threads of a list that wait in a condition with one code and one AUX: one record, in which the lowest TID
stands; each of them leaves its condition (R375). -/
def State.expire (s : State) (b : Block) (code aux : Nat) (tids : List Nat) : State :=
  let low := tids.foldl Nat.min 4096
  let t := b.thread? low
  let (fid, s) := s.takeFid
  let r : FRec := { fid := fid, cls := 6, cause := code, nest := (t.map fun (t : Thread) => t.handler).getD false, core := b.core,
                    bslot := b.slot, asid := b.asid, pc := ((t.map Thread.watchPc).getD 0).toNat, tid0 := low, bid := b.bid.toNat, aux := aux, time := s.ns }
  let s := { s with pending := s.pending ++ [({ fr := r, launch := b.launch, tids := tids } : PendRec)] }
  let gone := fun (t : Thread) => { t with left := some t.cond, cond := .wings (.fault (some fid)) }
  let s := s.modBlock b.core b.slot fun b =>
    { b with threads := mapIf (fun (t : Thread) => tids.contains t.tid) gone b.threads }
  s.toBatch b.core r

/-- Some threads of a block have stayed in one condition for the limit, found in one check: they trap with class 6 and
leave their conditions; those of one code and one AUX share a record (R375). -/
def execWatchdogExpiry (core slot : Nat) (tids : List Nat) (s : State) : Res :=
  .next (
    if !(s.priv.wdog.getLsbD 0) then s else
    match s.block? core slot with
    | none => s
    | some b =>
      if b.ph ≠ 0 then s else
      let wait := fun (t : Thread) => if tids.contains t.tid ∧ !t.owes then (watchOf t.cond).map fun k => (k, t.tid) else none
      let found := b.threads.filterMap wait
      let kinds := (found.map fun p => p.1).eraseDups
      let s := kinds.foldl (fun s k =>
        s.expire b k.1 k.2 ((found.filter fun p => p.1 == k).map fun p => p.2)) s
      (s.meet core slot).phaseCheck core slot)

/-! ## Resuming what a record stopped (R160, R361, R366) -/

/-- A thread that a record stopped goes on: into the condition that the watchdog took it from, else into the pool. -/
def resumeThread (entry fid : Nat) (t : Thread) : Thread :=
  match t.cond with
  | .wings (.fault f) | .wings (.debug f) =>
    if f != some fid then t
    else match t.left with
      | some c => { t with cond := c, left := none }
      | none => wakeThread entry t
  | _ => t

/-- Change the block that a record names, on its core or saved. -/
def State.modNamed (s : State) (p : PendRec) (f : Block → Block) : State :=
  { s with
    blocks := mapIf p.names f s.blocks
    saved := s.saved.map fun (v : Saved) => { v with blks := mapIf p.names f v.blks } }

/-- Re-examine the empty scratchpad lines, the meetings, the quads and the phase that threads of the block that a record
names may be back at: a thread whose line has become full meanwhile goes on (R367). -/
def State.recheck (s : State) (p : PendRec) : State :=
  match s.blocks.find? p.names with
  | some b =>
    let s := s.wakeWhere fun x _ r =>
      match r with
      | .emptyLine l => x.core == b.core && x.slot == b.slot && !(s.emptyLines.contains l)
      | _ => false
    ((s.meet b.core b.slot).meetQuads b.core b.slot).phaseCheck b.core b.slot
  | none => s

/-- Some threads of a record go on. -/
def State.resumeThreads (s : State) (p : PendRec) (tids : List Nat) : State :=
  (s.modNamed p fun b =>
    { b with threads := mapIf (fun t => tids.contains t.tid) (resumeThread s.now p.fr.fid) b.threads }).recheck p

/-- A stopped command goes on at its failing line. -/
def unstop (fid : Nat) (c : Cmd) : Cmd := if c.stopped == some fid then { c with stopped := none } else c

/-- The commands and the phase record of a block that a record stopped go on. -/
def Block.unstop (fid : Nat) (b : Block) : Block :=
  { b with
    streams := b.streams.map fun q => q.map (Machine.unstop fid)
    phStop := if b.phStop == some fid then none else b.phStop }

/-- Change every block, on its core or saved. -/
def State.everyBlock (s : State) (f : Block → Block) : State :=
  { s with
    blocks := s.blocks.map f
    saved := s.saved.map fun (v : Saved) => { v with blks := v.blks.map f } }

/-- The engine that a record stopped goes on (R160); for a block between phases that is saved, when it is restored
(R378). -/
def State.resumeEngine (s : State) (fid : Nat) : State :=
  let s := s.everyBlock (Block.unstop fid)
  { s with
    fetches := s.fetches.map fun (f : Fetch) => { f with cmd := unstop fid f.cmd }
    selq := s.selq.map fun (c : SelCmd) => if c.stopped == some fid then { c with stopped := none } else c }

/-- The stream of a block whose first command a record stopped. -/
def Block.stoppedOn (b : Block) (fid : Nat) : Option (Nat × Cmd) :=
  (List.range 4).findSome? fun q =>
    match b.streams.getD q [] with
    | c :: _ => if c.stopped == some fid then some (q, c) else none
    | [] => none

/-- The engine that a record stopped gives up its command (R160, R236, R253, R349): no counter add. A launch whose
dispatcher access is given up before it runs is refused (R339). -/
def State.abandonEngine (s : State) (p : PendRec) : State :=
  let fid := p.fr.fid
  match s.blocks.findSome? fun b => (b.stoppedOn fid).map fun x => (b, x) with
  | some (b, q, c) =>
    -- the rows of an earlier `WCPY` are no longer those of the stream's previous one (R153)
    let s := if c.kind = .wcpy then s.dropRows b.core b.slot q else s
    (s.modBlock b.core b.slot fun b => b.dropCmd q c.ticket).obDone b.core b.slot c.ticket
  | none =>
    match s.fetches.find? fun f => f.cmd.stopped == some fid with
    | some f => s.fetchAbandon f
    | none =>
      match s.selq.find? fun c => c.stopped == some fid with
      | some c => s.dropSel c
      | none =>
        let mine := fun (b : Block) => b.phStop == some fid
        if s.blocks.any mine || s.saved.any fun v => v.blks.any mine then
          s.everyBlock fun b => if mine b then { b with phStop := none, phSkip := true } else b
        else
          match s.launch? p.launch with
          | some x =>
            if x.st = .submitted ∨ x.st = .waiting ∨ x.st = .ready then s.refuseLate x else s
          | none => s

/-! ## `FRESP` (R366) -/

/-- A write of `FRESP` by a master: `f` gives the effect on the record named, or refuses the action. -/
def State.answer (s : State) (m fid : Nat) (f : State → PendRec → Option State) : State :=
  if !(s.owns m) then s else
  let set := fun (s : State) (err : Bool) =>
    { s with priv := { s.priv with fresp := if err then 0x8000000000000000 else 0 } }
  match s.pending.find? fun p => p.fr.fid == fid with
  | none => set s true
  | some p =>
    match f s p with
    | none => set s true
    | some t => set t false

/-- Forget a record that has been answered. -/
def State.dropRec (s : State) (p : PendRec) : State :=
  { s with pending := s.pending.filter fun x => x.fr.fid != p.fr.fid }

/-- A retry: the record's threads go on, or the engine does. -/
def execFrespRetry (m : Master) (fid : Nat) (s : State) : Res :=
  .next (s.answer m fid fun s p =>
    some (if p.fr.kind = 0 then (s.dropRec p).resumeThreads p p.tids else (s.dropRec p).resumeEngine fid))

/-- An abandon: only of an engine record. -/
def execFrespAbandon (m : Master) (fid : Nat) (s : State) : Res :=
  .next (s.answer m fid fun s p => if p.fr.kind = 0 then none else some ((s.dropRec p).abandonEngine p))

/-- A kill of the record's launch (R382). -/
def execFrespKill (m : Master) (fid : Nat) (s : State) : Res :=
  .next (s.answer m fid fun s p => some ((s.dropRec p).kill p.launch))

/-- A halt: the record's threads stand in debug halt, and it stays pending. -/
def execFrespHalt (m : Master) (fid : Nat) (s : State) : Res :=
  .next (s.answer m fid fun s p =>
    if p.fr.kind ≠ 0 then none
    else
      let s := { s with pending := mapIf (fun (x : PendRec) => x.fr.fid == fid) (fun x => { x with halted := true }) s.pending }
      some (s.modNamed p fun b =>
        { b with threads := b.threads.map fun (t : Thread) =>
            if t.cond == .wings (.fault (some fid)) then { t with cond := .wings (.debug (some fid)) } else t }))

end Sys2Proof.Machine
end

