-- ==== Sys2Proof/Machine/Stagehand.lean ====
section
/-!
DEFINITION. Stagehand.lean: the service of flash-backed pages on the I/O die (R75, R76, R361 to R364, R443), and flash
pages as they read (R402).
-/
namespace Sys2Proof.Machine

/-- Whether `n` bytes at an HBM address lie in the populated memory of one die (R13, R69). -/
def hbmPopulated (a n : Nat) : Bool :=
  decide (a / 274877906944 < 4) && decide (a % 274877906944 + n ≤ populated (a / 274877906944))

/-! ## Flash pages -/

/-- A byte of a flash page: as written, or, where an erase epoch has passed since, one that bears no relation to it
(R402, log entry 12). -/
def State.flashByte (s : State) (page off : Nat) : Byte :=
  let e := ((s.flashEpochs.find? fun p => p.1 == page).map (·.2)).getD 0
  if e = s.epoch then s.rd (flashKey page off) else Config.erased (page * 65536 + off) s.epoch

/-- The bytes of a flash page. -/
def State.flashPage (s : State) (page : Nat) : List Byte := (List.range 65536).map fun i => s.flashByte page i

/-- Whether a flash page is uncorrectable: a word of it is poisoned. -/
def State.flashBad (s : State) (page : Nat) : Bool :=
  s.poison.any fun w => decide (flashKey page 0 ≤ w) && decide (w < flashKey (page + 1) 0)

/-! ## Rings of the I/O die in HBM (R363, R395, R443) -/

/-- Meet a bad ring: a ring event that names the header, and nothing more from the ring until it is told again. `n` is
the ring's number among the launch rings' keys: 8192 + d for the free-frame rings, 8200 for the I/O command ring. -/
def State.devRingBad (s : State) (n cause hdr off : Nat) : State :=
  let s := s.event { kind := 7, cause := cause, va := hdr, aux := if cause = 2 then off else 0 }
  { s with badRings := (n, 0) :: s.badRings }

/-- A ring of the I/O die is told again. -/
def State.devRingTold (s : State) (n : Nat) : State := { s with badRings := s.badRings.filter fun r => r != (n, 0) }

/-- Free the record of `len` bytes at CONS, whose header stands at `k` (R332), both recalled first (R288). -/
def State.freeRecord (s : State) (hdr k cons len : Nat) : State :=
  (((s.recallSpan k 8).recallSpan hdr 64).homeWriteN k 8 0).setCons hdr (cons + len)

/-- The header address of a register laid out as `FFRINGd`. -/
def ringAt (r : Word64) : Nat := bitsOf r.toNat 41 6 * 64

/-- A Stagehand event that names a frame (R361, R362, R364). -/
def State.frameEvent (s : State) (frame : Nat) : State := s.event { kind := 5, aux := frame * 65536 }

/-- Take the next frame of a die's free-frame ring as `RGET` and `RFRE` do (R363). -/
def State.ringFrame (s : State) (die : Nat) : Nat → State × Option Nat
  | 0 => (s, none)
  | fuel + 1 =>
    let reg := s.priv.ffring.getD die 0
    let h := ringAt reg
    if !(reg.getLsbD 0) || s.badRings.contains (8192 + die, 0) then (s, none)
    else
      let s := s.recallSpan h 64
      match if hbmPopulated h 64 then s.ringHdr h else none with
      | none => (s.devRingBad (8192 + die) 0 h 0, none)
      | some g =>
        let k := g.base + g.cons % g.size
        if g.prod = g.cons then (s, none)
        else if !(hbmPopulated k 16) then (s.devRingBad (8192 + die) 1 h 0, none)
        else
          let s := s.recallSpan k 16
          let w := s.rdN k 8
          if !(recReady w) then (s, none)
          else if !(lenOk g g.cons (recLen w)) then (s.devRingBad (8192 + die) 2 h g.cons, none)
          else
            let frame := s.rdN (k + 8) 8 % 68719476736
            let s := s.freeRecord h k g.cons (recLen w)
            if recType w = 1 ∨ recLen w ≠ 16 then s.ringFrame die fuel
            else if frame * 65536 / 274877906944 = die ∧ hbmPopulated (frame * 65536) 65536 then (s, some frame)
            else (s.frameEvent frame).ringFrame die fuel

/-- Take a frame for a fill on a die: of the reserve first (R364), then of the ring. -/
def State.takeFrame (s : State) (die : Nat) : State × Option Nat :=
  match s.reserve.find? fun r => r.1 == die with
  | some r => ({ s with reserve := s.reserve.erase r }, some r.2)
  | none =>
    let n := match s.ringHdr (ringAt (s.priv.ffring.getD die 0)) with
      | some g => (g.prod - g.cons) / 8
      | none => 0
    s.ringFrame die (n + 2)

/-! ## Fills (R361) -/

/-- The flash-backed leaf of a VA as the tables stand, and where it stands, if there is a well-formed one. -/
def State.flashLeaf (s : State) (va : Nat) : Nat → Nat → Nat → Option (Nat × Nat)
  | 0, _, _ => none
  | fuel + 1, table, level =>
    let k := table * 65536 + va / pageSize level % 8192 * 8
    let e := s.rdHbm8 k
    if bitAt e 0 then
      if bitAt e 15 || tableMalformed e level then none else s.flashLeaf va fuel (pteFrame e) (level - 1)
    else if bitAt e 16 && !(flashMalformed e level) then some (k, e)
    else none

/-- The same from the root of an address space (R63). -/
def State.flashLeafOf (s : State) (asid va : Nat) : Option (Nat × Nat) :=
  if s.asidOk asid ∧ va < 36028797018963968 then
    let a := s.rdHbm8 (bitsOf s.priv.astbase.toNat 55 20 * 65536 + asid * 8)
    s.flashLeaf va 3 (bitsOf a 55 20) 3
  else none

/-- The threads of a record that failed on a page, and the others: each with its lane and its failing VA. -/
def PendRec.onPage (p : PendRec) (page : Nat) : List (Nat × Nat × Nat) × List (Nat × Nat × Nat) :=
  (p.tids.zip p.hits).partition fun y => y.2.2 / 65536 == page

/-- A pending record of some threads. -/
def PendRec.ofThreads (p : PendRec) (l : List (Nat × Nat × Nat)) : PendRec :=
  { p with tids := l.map (·.1), hits := l.map (·.2) }

/-- Change the pending record with an identifier. -/
def State.setPending (s : State) (fid : Nat) (p : PendRec) : State :=
  { s with pending := mapIf (fun (y : PendRec) => y.fr.fid == fid) (fun _ => p) s.pending }

/-- What a record waited for on one page is there: its threads of that page, or its engine, go on. -/
def State.resumePage (s : State) (x : Nat × Nat) : State :=
  match s.pending.find? fun p => p.fr.fid == x.1 with
  | none => s
  | some p =>
    if p.fr.kind = 1 then (s.dropRec p).resumeEngine x.1
    else
      let (here, left) := p.onPage x.2
      let s := if left.isEmpty then s.dropRec p else s.setPending x.1 (p.ofThreads left)
      s.resumeThreads p (here.map (·.1))

/-- The waiting fill of a die gets a frame if there is one. -/
def State.feedFill (s : State) (die : Nat) : State :=
  match s.fills.find? fun f => f.frame.isNone && ptePl f.leaf.toNat == die with
  | none => s
  | some f =>
    match s.takeFrame die with
    | (s, none) => s
    | (s, some fr) =>
      { s with fills := mapIf (fun (x : Fill) => x.leafKey == f.leafKey) (fun x => { x with frame := some fr }) s.fills }

/-- The Stagehand meets one page of a record: it joins a fill, starts one, or finds nothing to fill and lets the record
go on. -/
def State.servePage (s : State) (r : FRec) (page : Nat) : State :=
  match s.flashLeafOf r.asid (page * 65536) with
  | none => s.resumePage (r.fid, page)
  | some (k, e) =>
    if s.fills.any fun f => f.leafKey == k then
      { s with fills := mapIf (fun (f : Fill) => f.leafKey == k) (fun f => { f with joined := f.joined ++ [(r.fid, page)] }) s.fills }
    else
      let (s, fr) := s.takeFrame (ptePl e)
      let f : Fill := { leafKey := k, leaf := BitVec.ofNat 64 e, frame := fr, joined := [(r.fid, page)] }
      let s := { s with fills := s.fills ++ [f] }
      if fr.isNone then s.event { kind := 5, aux := ptePl e } else s

/-- Whether the Stagehand can meet a page of a record now: it needs no fill, joins one, or finds room for one among the 256
(R361). -/
def State.canServe (s : State) (r : FRec) (page : Nat) : Bool :=
  match s.flashLeafOf r.asid (page * 65536) with
  | none => true
  | some (k, _) => (s.fills.any fun f => f.leafKey == k) || decide (s.fills.length < 256)

/-- Meet the pages of a record that the Stagehand can meet: the others are left. -/
def State.servePages (s : State) (r : FRec) : List Nat → State × List Nat
  | [] => (s, [])
  | p :: l =>
    if s.canServe r p then (s.servePage r p).servePages r l
    else
      let (s, left) := s.servePages r l
      (s, p :: left)

/-- The Stagehand gives frames to the fills that wait for one, and serves the first record that it can serve, or what it can
of it, with at most 256 fills in flight (R361, R362); it runs once boot has loaded the flash key (R398). -/
def execStagehandFill (s : State) : Res :=
  .next (
    if !s.boot.mediaReady then s else
    let s := [0, 1, 2, 3].foldl (fun s d => s.feedFill d) s
    let live := fun (r : FRec) => s.pending.any fun p => p.fr.fid == r.fid
    match s.stageq.find? fun r => !(live r) || r.pages.any (s.canServe r) with
    | none => s
    | some r =>
      if !(live r) then { s with stageq := s.stageq.erase r }
      else
        let (t, left) := s.servePages r r.pages
        if left.isEmpty then { t with stageq := s.stageq.erase r }
        else { t with stageq := mapIf (fun (x : FRec) => x.fid == r.fid) (fun x => { x with pages := left }) s.stageq })

/-- The record of some threads of a record, all on one page: what R357 and R358 say of the threads is theirs. -/
def FRec.ofThreads (r : FRec) (fid page : Nat) (l : List (Nat × Nat × Nat)) (nest : Nat → Bool) : FRec :=
  let low := l.foldl (fun a y => Nat.min a y.1) 4096
  { r with
    fid := fid
    nest := nest low
    lanemask := l.foldl (fun a y => a ||| 2 ^ y.2.1) 0
    tid0 := low
    va := ((l.find? fun y => y.1 == low).map (·.2.2)).getD r.va
    pages := [page] }

/-- What joined a fill goes to the owner host after all (R362): an engine's record, or the faults of the threads that
waited for the page. Where other threads of their record wait for other pages, these have a record of their own, with an
identifier of its own (log entry 13). -/
def State.toHost (s : State) (x : Nat × Nat) : State :=
  match s.pending.find? fun p => p.fr.fid == x.1 with
  | none => s
  | some p =>
    if p.told then s
    else if p.fr.kind = 1 then ({ s with ioq := s.ioq ++ [(p.fr, true)] } : State).setPending x.1 { p with told := true }
    else
      let (here, left) := p.onPage x.2
      if here.isEmpty then s else
      let nest := fun tid => (((s.blocks ++ s.saved.flatMap (·.blks)).find? p.names).bind fun b => b.thread? tid).any (·.handler)
      if left.isEmpty then
        let r := p.fr.ofThreads x.1 x.2 here nest
        ({ s with ioq := s.ioq ++ [(r, true)] } : State).setPending x.1 { p with fr := r, told := true }
      else
        let (fid, s) := s.takeFid
        let r := p.fr.ofThreads fid x.2 here nest
        let q : PendRec := { (p.ofThreads here) with fr := r, told := true }
        let s := s.setPending x.1 (p.ofThreads left)
        let s := { s with ioq := s.ioq ++ [(r, true)], pending := s.pending ++ [q] }
        let mine := fun (t : Thread) => q.tids.contains t.tid && t.cond == .wings (.fault (some x.1))
        s.modNamed p fun b =>
          { b with threads := mapIf mine (fun t => { t with cond := .wings (.fault (some fid)) }) b.threads }

/-- The leaf as a fill writes it: V = 1, FB = 0, PL = 0, A = 0, D = 0, the new frame (R76). -/
def filledLeaf (e frame : Nat) : Nat :=
  putBits (putBits (putBits (putBits (putBits e 0 0 1) 16 16 0) 12 11 0) 5 4 0) 55 20 frame

/-- Steps 1 to 3 of R76: the page, the frame type byte, the written bits of a STRM page. -/
def State.fillFrame (s : State) (e frame : Nat) : State :=
  let bytes := s.flashPage (pteFrame e)
  let s := ((s.recallSpan (frame * 65536) 65536).replayInput bytes).homeWrite (frame * 65536) bytes
  let ftt := bitsOf s.priv.fttbase.toNat 55 20 * 65536 + frame
  let s := if ftt < 1099511627776 then (s.recallSpan ftt 1).homeWrite ftt [BitVec.ofNat 8 (128 + pteCt e)] else s
  if pteCt e = 2 then (List.range 512).foldl (fun s i => s.setWritten (frame * 512 + i) true) s else s

/-- A fill ends: the leaf is swapped and the joined parties go on; with an uncorrectable page the frame goes into the
reserve and the joined records to the owner host (R361, R362, R364). -/
def execStagehandFillComplete (k : Nat) (ok : Bool) (s : State) : Res :=
  .next (match s.fills.find? fun f => f.leafKey == k with
    | none => s
    | some f =>
      match f.frame with
      | none => s
      | some fr =>
        let e := f.leaf.toNat
        let s := { s with fills := s.fills.filter fun (x : Fill) => x.leafKey != k }
        if !ok || s.flashBad (pteFrame e) then
          let die := ptePl e
          let s := if (s.reserve.filter fun r => r.1 == die).length < 16 then { s with reserve := s.reserve ++ [(die, fr)] }
            else s.frameEvent fr
          f.joined.foldl (fun s x => s.toHost x) (s.event { kind := 4, aux := pteFrame e })
        else
          let s := s.fillFrame e fr
          let s := s.recallSpan k 8
          let s := if s.rdHbm8 k = e then s.homeWriteN k 8 (filledLeaf e fr) else s.frameEvent fr
          f.joined.foldl (fun s x => s.resumePage x) s)

/-- A write of `FFRINGd` (R363, R364): the ring is told again; EN = 0 empties the reserve. -/
def execFfringWrite (m : Master) (die v : Nat) (s : State) : Res :=
  .next (
    if !(s.owns m) || decide (4 ≤ die) then s
    else
      let s := { s with priv := { s.priv with
        ffring := s.priv.ffring.set die (putFields (s.priv.ffring.getD die 0) v 0x000003FFFFFFFFC1) } }
      let s := s.devRingTold (8192 + die)
      if v % 2 = 1 then s
      else
        let mine := s.reserve.filter fun r => r.1 == die
        mine.foldl (fun s r => s.frameEvent r.2) { s with reserve := s.reserve.filter fun r => r.1 != die })

end Sys2Proof.Machine
end

