-- ==== Sys2Proof/Machine/System.lean ====
section
/-!
DEFINITION. System.lean: the system instructions (R369 to R374) and the shootdowns they and the driver start (R89).
-/
namespace Sys2Proof.Machine

/-- `TRAP` (R370). -/
def execTrap (r : SY) (s : State) : Res :=
  .next (s.trapLanes (s.lanes.map fun l => (l.lane, l.t.tid, { cls := 7, aux := r.imm })))

/-- `BKPT` (R371): the record names the instruction, the threads stand behind it in a debug halt. -/
def execBkpt (r : SY) (s : State) : Res :=
  .next (s.advanceAll.trapLanes (s.lanes.map fun l => (l.lane, l.t.tid, { cls := 5, aux := r.imm })))

/-- `RTT` (R372): the return from a user trap handler; the warp dissolves. -/
def execRtt (r : SY) (s : State) : Res :=
  .next (match s.cur with
    | none => s
    | some c =>
      let bad := fun (l : LaneCtx) => l.n r.a % 4 != 0
      let ok := s.lanes.filter fun l => !(bad l)
      let s1 := s.modBlock c.core c.slot fun b =>
        { b with threads := b.threads.map fun t =>
            match ok.find? fun l => l.t.tid == t.tid with
            | some l => returnTo (l.x r.a) t
            | none => t }
      (s1.toPool c.core c.slot (ok.map fun l => l.t.tid)).trapLanes
        ((s.lanes.filter bad).map fun l => (l.lane, l.t.tid, misaligned 0)))

/-! ## Shootdowns -/

/-- Start a shootdown (R89): its number, and the state with it running. -/
def State.startShoot (s : State) (kind asid va pages : Nat) (reg : Bool) : Nat × State :=
  (s.nextShoot,
    { s with
      nextShoot := s.nextShoot + 1
      shoots := s.shoots ++ [{ id := s.nextShoot, kind := kind, asid := asid, va := va, pages := pages, acks := [],
                               reg := reg }] })

/-- The code of a kind of `TLBI` (R373). -/
def tlbiCode (k : TlbiKind) : Nat :=
  match k with
  | .range => 0
  | .asid => 1
  | .all => 2

/-- `TLBI` (R373): subcode 7 in a user launch; each active thread, in ascending TID, starts its shootdown and parks
behind the instruction until it completes. -/
def execTlbi (k : TlbiKind) (r : SY) (s : State) : Res :=
  .next (s.eachOrTrap fun s c l =>
    let va := l.pair r.a
    if !l.b.priv then (s, some (illegal 7))
    else if k = .range ∧ va % 65536 ≠ 0 then (s, some (misaligned va))
    else if k = .range ∧ l.n (r.a + 2) = 0 then (s.advance [l.t.tid], none)
    else
      let hi := if r.a = 127 then 0 else l.n (r.a + 3)
      let (id, s) := s.startShoot (tlbiCode k) (hi % 8192) va (l.n (r.a + 2)) false
      ((s.advance [l.t.tid]).park c.core c.slot l.t.tid (.shootdown id), none))

/-- The leaf that the tables name for a VA, its V bit aside, as a shootdown reads it at its home (R89). -/
def State.rawLeaf (s : State) (va : Nat) : Nat → Nat → Nat → Option (Nat × Nat)
  | 0, _, _ => none
  | fuel + 1, table, level =>
    let e := s.rdHbm8 (table * 65536 + va / pageSize level % 8192 * 8)
    if bitAt e 15 then (if !(bitAt e 0) && bitAt e 16 then none else some (e, level))
    else if bitAt e 0 && level != 1 then s.rawLeaf va fuel (pteFrame e) (level - 1)
    else none

/-- The ranges of keys that a leaf's page covers. -/
def State.leafSpan (s : State) (e level : Nat) : List (Nat × Nat) :=
  let q : Asker := { asid := 0, priv := true, die := 0, ranks := none, scr := 0 }
  if pteTt e = 0 ∧ ptePl e = 1 then (List.range 16).map fun i => (s.leafKey q e (4096 * i), 4096)
  else [(s.leafKey q e 0, pageSize level)]

/-- Whether a TLB entry is covered by a shootdown (R89). -/
def Shoot.covers (h : Shoot) (t : TlbEntry) : Bool :=
  let g := t.leaf.getLsbD 14
  match h.kind with
  | 0 => (t.asid == h.asid || g) && decide (t.base < h.va + h.pages * 65536) &&
      decide (h.va < t.base + pageSize t.level)
  | 1 => t.asid == h.asid && !g
  | _ => true

/-- The ranges of keys a range shootdown covers: those of the leaves as they stand when it runs and of the entries it
invalidates on any die (R89). -/
def State.shootSpans (s : State) (h : Shoot) : List (Nat × Nat) :=
  let a := s.rdHbm8 (bitsOf s.priv.astbase.toNat 55 20 * 65536 + h.asid * 8)
  let leaves :=
    if s.priv.astbase.getLsbD 0 && bitAt a 0 then
      (List.range h.pages).filterMap fun i => s.rawLeaf (h.va + i * 65536) 3 (bitsOf a 55 20) 3
    else []
  (leaves.flatMap fun x => s.leafSpan x.1 x.2) ++
    ((s.tlb.filter h.covers).flatMap fun t => s.leafSpan t.leaf.toNat t.level)

/-- Whether a line lies in some ranges of keys. -/
def inSpans (l : List (Nat × Nat)) (line : Nat) : Bool :=
  l.any fun r => decide (r.1 < line * 128 + 128) && decide (line * 128 < r.1 + r.2)

/-- Whether a copy is held by an L1 of a die. -/
def Copy.l1Of (c : Copy) (die : Nat) : Bool :=
  match c.holder with
  | .l1 core => core / 128 == die
  | .l2 _ => false

/-- The ranges that entries of a die's TLBs add to those of a shootdown, where they were filled after another die had
responded (R89). -/
def State.lateSpans (s : State) (h : Shoot) (die : Nat) (spans : List (Nat × Nat)) : List (Nat × Nat) :=
  if h.kind = 0 then
    ((s.tlb.filter fun t => t.die == die && h.covers t).flatMap fun t => s.leafSpan t.leaf.toNat t.level).filter fun r =>
      !(spans.contains r)
  else []

/-- The accesses that the threads of a die have issued and that are not performed yet, where they reach covered frames: a
die's maintenance is performed before it acknowledges (R89, R277). An engine translates each line, and a counter's word,
when it performs the access. -/
def State.finishMaint (s : State) (die : Nat) (hit : Nat → Bool) : State :=
  (s.blocks.filter fun b => b.die == die && b.threads.any fun t => !t.maint.isEmpty).foldl (fun s b =>
    b.threads.foldl (fun s t => s.maintWhere b.core b.slot t.tid fun m => m.lines.any fun l => hit l.1) s) s

/-- A die gives up what it holds of the lines that a shootdown covers (R89): what it has issued is performed, owned lines
are recalled (R288), covered copies are written home and go. -/
def State.shootDie (s : State) (hit : Nat → Bool) (die : Nat) : State :=
  let s := (s.finishMaint die hit).recallAll fun line core => core / 128 == die && hit line
  let s := s.invalidate fun c => c.l1Of die && hit c.line
  (s.drain fun c => c.away die && hit c.line).invalidate fun c => c.guest die && hit c.line

/-- A die responds to a shootdown (R89): covered entries go, covered lines go, then it acknowledges. Frames that only an
entry of its own still named are covered on the dies that have responded before, too. -/
def execShootdownAcknowledge (die k : Nat) (s : State) : Res :=
  .next (match s.shoots.find? fun h => h.id == k with
    | none => s
    | some h =>
      if h.acks.contains die ∨ 4 ≤ die then s else
      let first := h.spans.getD (if h.kind = 0 then s.shootSpans h else [])
      let late := s.lateSpans h die first
      let spans := first ++ late
      let s := { s with tlb := s.tlb.filter fun t => !(t.die == die && h.covers t) }
      let s := if late.isEmpty then s else h.acks.foldl (State.shootDie · (inSpans late)) s
      let s := s.shootDie (fun line => h.kind != 0 || inSpans spans line) die
      let answered := fun (x : Shoot) => { x with spans := some spans, acks := die :: x.acks }
      { s with shoots := mapIf (fun (x : Shoot) => x.id == k) answered s.shoots })

/-- A shootdown completes when all four dies have acknowledged: its thread resumes, or `SHOOTCTL`.BUSY clears
(R373). -/
def execShootdownComplete (k : Nat) (s : State) : Res :=
  .next (match s.shoots.find? fun h => h.id == k with
    | none => s
    | some h =>
      if h.acks.length < 4 then s else
      let s := { s with
        shoots := s.shoots.filter fun x => x.id != k
        priv := if h.reg then { s.priv with shootctl := s.priv.shootctl &&& 0x7FFFFFFFFFFFFFFF } else s.priv }
      s.wakeWhere fun _ _ r => r == .shootdown k)

/-! ## `ICINV` (R374) -/

/-- Invalidate what `ICINV` names: the instruction-cache blocks of the range in the address space in every core, and,
page by page, the guest lines of it in every L2; a page that does not translate, or that a user launch may not access, is
passed over. -/
def State.icinvRange (s : State) (q : Asker) (va len : Nat) : State :=
  let s := { s with icache := s.icache.filter fun b =>
    !(b.asid == q.asid && decide (b.va < va + len) && decide (va < b.va + 64)) }
  if len = 0 then s else
  let pages := (va + len - 1) / 65536 + 1 - va / 65536
  (List.range pages).foldl (fun s i =>
    let page := (va / 65536 + i) * 65536
    match s.leafOf q page with
    | (s, .error _) => s
    | (s, .ok t) =>
      if (accessCheck q .read t.leaf.toNat).isSome then s else
      let lines := ((List.range 512).map fun j => page + 128 * j).filter fun v =>
        decide (va < v + 128) && decide (v < va + len)
      let keys := lines.map fun v => s.leafKey q t.leaf.toNat (v - t.base) / 128
      s.invalidate fun c =>
        keys.contains c.line && (match c.holder with | .l2 d => c.guest d | .l1 _ => false)) s

/-- `ICINV` (R374): a release at `.pkg`, then the invalidation; a fetch after it reads memory again. -/
def execIcinv (r : SY) (s : State) : Res :=
  .next ((s.eachLane fun s c l =>
    let s := s.release c.core c.slot l.t.tid .pkg
    let hi := if r.a = 127 then 0 else l.n (r.a + 1)
    s.icinvRange l.b.asker (l.b.codebase.toNat + l.n r.a) hi).advanceAll)

end Sys2Proof.Machine
end

