-- ==== Sys2Proof/Machine/HostMem.lean ====
section
/-!
DEFINITION. HostMem.lean: what reaches device memory from outside the cores: evictions, host snoops and walks
(R64, R97, R98, R109), host accesses (R270 to R272, R385), `FRAMEOP` and `SHOOTCTL` (R273, R274, R373), soft errors
(R105).
-/
namespace Sys2Proof.Machine

/-- A cache gives up a line: dirty bytes go onward first (R97, R98). -/
def execCacheEviction (l2 : Bool) (idx line : Nat) (s : State) : Res :=
  let h : Holder := if l2 then .l2 idx else .l1 idx
  .next (match s.copy? h line with
    | none => s
    | some c => s.evict c)

/-- A host snoop hits a 64-byte sector of host memory: each L2 that holds it returns its dirty bytes and gives the
sector up (R109). -/
def execHostSnoop (sector : Nat) (s : State) : Res :=
  .next (s.hostTakeAll (hostKey 0 / 128 + sector / 2) (rangeMask (64 * (sector % 2)) (64 * (sector % 2) + 64)) true none)

/-- A walker of a die finishes the walk of a miss of one of its blocks (R64, R88). -/
def execPageWalk (die asid va : Nat) (_k : AccKind) (s : State) : Res :=
  .next (match s.blocks.find? fun b => b.die == die && b.asid == asid with
    | none => s
    | some b => (s.leafOf b.asker va).1)

/-! ## Host accesses (R270, R385) -/

/-- Where a host offset lands: decoder 0 spans 1 TiB of HBM, decoder 1 the 4 GiB of vaults behind it; a decoder serves
once the host has committed it. -/
def State.hostPlace (s : State) (hpa : Nat) : Option Nat :=
  if hpa < 1099511627776 then (if s.boot.hdm.contains 0 then some hpa else none)
  else if hpa < 1099511627776 + 4294967296 then (if s.boot.hdm.contains 1 then some hpa else none)
  else none

/-- Whether a host access stays in populated memory. -/
def hostPopulated (k n : Nat) : Bool := if k < 1099511627776 then hbmPopulated k n else true

/-- Count a host access outside populated memory (R385, R408). -/
def State.countOor (s : State) : State :=
  if s.mgmt.hostoor.toNat < 4294967295 then { s with mgmt := { s.mgmt with hostoor := s.mgmt.hostoor + 1 } } else s

/-- Whether some word of a range is poisoned. -/
def State.rangePoison (s : State) (k n : Nat) : Bool := (List.range n).any fun i => s.poisoned (k + i)

/-- Whether a host access finds its memory out of reset: a vault lies on a Heath die, which stays in reset until boot
releases it (R23, R398; log entry 77, DESIGN CHOICE: what a host access to it gives is not stated). -/
def State.hostReaches (s : State) (k : Nat) : Bool := spaceOf k != .vault || s.boot.released

/-- The home slice tracks that the host may hold a sector of HBM from now on, shared or modified (R272), and the line
stands in its contention table (R287). Vaults have no home slice. -/
def State.track (s : State) (modified : Bool) (sector : Nat) : State :=
  if spaceOf (sector * 64) != .hbm then s else
  let was := s.hostHeld.any fun h => h.1 == sector && h.2
  let s := s.contend (sector / 2)
  { s with hostHeld := (sector, modified || was) :: s.hostHeld.filter fun h => h.1 != sector }

/-- The 64-byte sectors of some keys, ascending. -/
def sectorsIn (ks : List Nat) : List Nat := ks.foldl (fun l k => insNat (k / 64) l) []

/-- A host access reaches the homes of some bytes: owned lines are recalled (R288), and each sector is tracked (R272). -/
def State.hostArrives (s : State) (modified : Bool) (ks : List Nat) : State :=
  (sectorsIn ks).foldl (fun s x => (s.recall (x / 2)).track modified x) s

/-- A host read, plain or to own the sector: performed at the home, which tracks it (R270, R272). -/
def execHostMemRead (hpa : Nat) (ask : HostAsk) (s : State) : Res :=
  .next (match s.hostPlace hpa with
    | none => s
    | some k =>
      if !(hostPopulated k ask.bytes) then { s.countOor with hostOut := s.hostOut ++ [.poisoned] }
      else if !(s.hostReaches k) then { s with hostOut := s.hostOut ++ [.poisoned] }
      else
        let s := s.hostArrives ask.own ((List.range ask.bytes).map (k + ·))
        let out := if s.rangePoison k ask.bytes then Out.poisoned else Out.bytes (s.rdBytes k ask.bytes)
        { s with hostOut := s.hostOut ++ [out] })

/-- The bytes of a host write that its mask selects. -/
def maskedBytes (k mask : Nat) (data : List Byte) : List (Nat × Byte) :=
  (data.zipIdx.filter fun x => bitAt mask x.2).map fun x => (k + x.2, x.1)

/-- A host write: its masked bytes merge at the home, which tracks their sectors (R270, R272). It is an input of the replay log (R406), and while a launch runs
it leaves deterministic mode without its guarantee (R405). -/
def execHostMemWrite (hpa mask : Nat) (data : List Byte) (s : State) : Res :=
  .next (match s.hostPlace hpa with
    | none => s
    | some k =>
      if !(hostPopulated k data.length) then s.countOor
      else if !(s.hostReaches k) then s
      else
        let s := (s.hostArrives true ((maskedBytes k mask data).map (·.1))).replayInput (bytesLE 8 hpa ++ bytesLE 8 mask ++ data)
        let s := if s.launches.any fun x => x.st == .running then s.diverge else s
        s.homeWriteCells (maskedBytes k mask data))

/-! ## `FRAMEOP` (R273, R274) -/

/-- The ranges of keys that a frame of a window covers. -/
def State.frameSpans (s : State) (win frame : Nat) : List (Nat × Nat) :=
  s.leafSpan (frame * 1048576 + (match win with | 0 => 0 | 1 => 2048 | _ => 256)) 1

/-- Whether a frame lies in its window (R69). -/
def State.frameInWindow (s : State) (win frame : Nat) : Bool :=
  let a := frame * 65536
  match win with
  | 0 => s.directOk a 65536
  | 1 => decide (a + 65536 ≤ 4 * s.carveSize)
  | _ => decide (a + 65536 ≤ 4294967296)

/-- A write of `FRAMEOP`: one that is not refused clears ERR (R5). -/
def State.frameopWrite (s : State) (m v : Nat) : State :=
  if !(s.owns m) || s.priv.frameop.getLsbD 63 then s
  else
    let fields := putFields (s.priv.frameop &&& 0x3FFFFFFFFFFFFFFF) v 0x0FFFFFFFFFF00000
    let win := bitsOf v 59 58
    let op := bitsOf v 57 56
    let frame := bitsOf v 55 20
    if v % 2 = 0 then { s with priv := { s.priv with frameop := fields } }
    else if win = 3 ∨ op = 3 ∨ (op = 2 ∧ win = 2) ∨ !(s.frameInWindow win frame) then
      { s with priv := { s.priv with frameop := s.priv.frameop ||| errBit } }
    else { s with priv := { s.priv with frameop := fields ||| busyBit }, frameop := some (op, win, frame) }

/-- Purge device copies of a frame, writing dirty bytes home. -/
def execFrameopPurgeWriteback (m : Master) (v : Nat) (s : State) : Res := .next (s.frameopWrite m v)
/-- Purge device copies of a frame, discarding dirty bytes. -/
def execFrameopPurgeDiscard (m : Master) (v : Nat) (s : State) : Res := .next (s.frameopWrite m v)
/-- Back-invalidate host copies of a frame. -/
def execFrameopBackInvalidate (m : Master) (v : Nat) (s : State) : Res := .next (s.frameopWrite m v)

/-- A `FRAMEOP` operation finishes on all dies, or with the host, and BUSY clears: a purge recalls the frame's owned lines
(R288), and HBM has again what it had below the dirty bytes that it discards; a back-invalidate snoops each sector that is
tracked and merges what the host returns. All of it is one event, so that no copy made meanwhile survives, as the manual
lets one (log entry 86, DESIGN CHOICE). -/
def execFrameopComplete (s : State) : Res :=
  .next (match s.frameop with
    | none => s
    | some (op, win, frame) =>
      let spans := s.frameSpans win frame
      let s :=
        if op = 2 then (s.hostHeld.filter fun h => inSpans spans (h.1 / 2)).foldl (fun s h => s.hostSnoop h.1 true) s
        else
          let s := s.recallAll fun line _ => inSpans spans line
          if op = 0 then
            let s := s.invalidate fun c => inSpans spans c.line && (match c.holder with | .l1 _ => true | .l2 _ => false)
            s.invalidate fun c => inSpans spans c.line
          else
            let lost := fun (b : Host.Cell) => inSpans spans (b.1 / 128)
            { s with
              copies := s.copies.filter fun c => !(inSpans spans c.line)
              mem := (s.below.filter lost).foldl (fun m b => memSet m b.1 b.2) s.mem
              below := s.below.filter fun b => !(lost b) }
      { s with frameop := none, priv := { s.priv with frameop := s.priv.frameop &&& ~~~ busyBit } })

/-! ## `SHOOTCTL` (R373) -/

/-- A write of `SHOOTCTL`: a range of no pages starts nothing; a write that is not refused clears ERR (R5). -/
def State.shootWrite (s : State) (m v : Nat) : State :=
  if !(s.owns m) || s.priv.shootctl.getLsbD 63 then s
  else
    let fields := putFields (s.priv.shootctl &&& 0x3FFFFFFFFFFFFFFF) v 0x30001FFFFFFFFFFE
    let kind := bitsOf v 61 60
    let pages := bitsOf v 31 1
    if v % 2 = 0 then { s with priv := { s.priv with shootctl := fields } }
    else if kind = 3 then { s with priv := { s.priv with shootctl := s.priv.shootctl ||| errBit } }
    else if kind = 0 ∧ pages = 0 then { s with priv := { s.priv with shootctl := fields } }
    else
      ({ s with priv := { s.priv with shootctl := fields ||| busyBit } } : State).startShoot kind (bitsOf v 44 32)
        (bitsOf s.priv.shootva.toNat 54 16 * 65536) pages true |>.2

/-- Shoot down a range. -/
def execShootRange (m : Master) (v : Nat) (s : State) : Res := .next (s.shootWrite m v)
/-- Shoot down an address space. -/
def execShootAsid (m : Master) (v : Nat) (s : State) : Res := .next (s.shootWrite m v)
/-- Shoot down every address space. -/
def execShootAll (m : Master) (v : Nat) (s : State) : Res := .next (s.shootWrite m v)

/-! ## Soft errors (R105) -/

/-- The die whose telemetry counts an error at a key; storage of the I/O die and of flash has none. -/
def errorDie (k : Nat) : Option Nat :=
  match spaceOf k with
  | .hbm => some (k / 274877906944)
  | .vault => if k - 1099511627776 < 4294967296 then some ((k - 1099511627776) / 1073741824) else none
  | .scr => if k - 2199023255552 < 268435456 then some ((k - 2199023255552) / 67108864) else none
  | .opb => if k - 4398046511104 < 134217728 then some ((k - 4398046511104) / 33554432) else none
  | _ => none

/-- Count an error of a die (R408): the counters saturate. -/
def State.countError (s : State) (die : Nat) (double : Bool) : State :=
  let r := s.mgmt.seccnt.getD die 0
  let corr := bitsOf r.toNat 63 32
  let unc := bitsOf r.toNat 31 0
  let r := if double then corr * 4294967296 + Nat.min (unc + 1) 4294967295
    else Nat.min (corr + 1) 4294967295 * 4294967296 + unc
  { s with mgmt := { s.mgmt with seccnt := s.mgmt.seccnt.set die (BitVec.ofNat 64 r) } }

/-- Count an error where a die counts it. -/
def State.countAt (s : State) (die : Option Nat) (double : Bool) : State :=
  match die with
  | some d => s.countError d double
  | none => s

/-- The poison event of an uncorrectable error (R105): AUX is the physical address; a register has none (log entry 76). -/
def State.poisonEvent (s : State) (a : Nat) : State := s.event { kind := 4, aux := a }

/-- An error in a word of a copy of a line: SECDED over L2; parity over L1, which refetches a clean sector and treats a
dirty one as uncorrectable. A home line in the L2 of its own die has its words at the home. -/
def State.copyError (s : State) (l2 : Bool) (idx line word : Nat) (double : Bool) : State :=
  let a := line * 128 + 8 * (word % 16)
  let die := if l2 then idx else idx / 128
  let poison := fun (s : State) (c : Copy) => (s.setCopy { c with bad := c.bad ||| (1#16 <<< (word % 16)) }).poisonEvent a
  match s.copy? (if l2 then .l2 idx else .l1 idx) line with
  | none => s
  | some c =>
    if l2 then
      let s := s.countError die double
      if !double then s
      else if c.away idx then poison s c
      else ({ s with poison := insNat a s.poison } : State).poisonEvent a
    else
      let sector := rangeMask (32 * (word % 16 / 4)) (32 * (word % 16 / 4) + 32)
      if c.dirty &&& sector = 0 then
        (s.countError die false).setCopy { c with valid := c.valid &&& ~~~ sector }
      else poison (s.countError die true) c

/-- A soft error: corrected and counted, or the word is poisoned and an event names it; who consumes it is killed then. -/
def execSoftError (place : ErrorAt) (double : Bool) (s : State) : Res :=
  .next (match place with
    | .home key =>
      let s := s.countAt (errorDie key) double
      if double then ({ s with poison := insNat (key / 8 * 8) s.poison } : State).poisonEvent (key / 8 * 8) else s
    | .register core slot tid pair =>
      let s := s.countAt (if core < 512 then some (core / 128) else none) double
      if double then
        (s.modThread core slot tid fun t => { t with badRegs := insNat pair t.badRegs }).poisonEvent 0
      else s
    | .copy l2 idx line word => s.copyError l2 idx line word double
    | .icache core va =>
      { s.countAt (if core < 512 then some (core / 128) else none) false with
        icache := s.icache.filter fun b => !(b.core == core && decide (b.va ≤ va) && decide (va < b.va + 64)) })

end Sys2Proof.Machine
end

