-- ==== Sys2Proof/Machine/IoRing.lean ====
section
/-!
DEFINITION. IoRing.lean: the I/O command ring of the fabric port (R395 to R397, R443).
-/
namespace Sys2Proof.Machine

/-- Bits of an I/O command record (R395). -/
def IoCmd.b (c : IoCmd) (hi lo : Nat) : Nat := bitsOf c.raw.toNat hi lo
/-- OPC. -/
def IoCmd.opc (c : IoCmd) : Nat := c.b 71 64
/-- SRC. -/
def IoCmd.src (c : IoCmd) : Nat := c.b 191 128
/-- DST. -/
def IoCmd.dst (c : IoCmd) : Nat := c.b 255 192
/-- COUNT. -/
def IoCmd.count (c : IoCmd) : Nat := c.b 127 96
/-- CNT. -/
def IoCmd.cnt (c : IoCmd) : Nat := c.b 319 256

/-- The record that follows those in flight: where the port reads next. -/
def State.ioNext (s : State) (h cons : Nat) : Nat :=
  match (s.iocmds.filter fun c => c.hdr == h).getLast? with
  | some c => c.off + c.len
  | none => cons

/-- Read records as `RGET` does, in ring order, up to 16 in flight (R396): once a doorbell has started it, the port goes on
whenever PROD has moved and the record is ready. A skip record, or one of another length, is only freed in its turn. -/
def State.ioFetch (s : State) : Nat → State
  | 0 => s
  | fuel + 1 =>
    let h := ringAt s.priv.iocmd
    if !s.iotold || !(s.priv.iocmd.getLsbD 0) || !s.boot.mediaReady || s.badRings.contains (8200, 0) ||
        decide (16 ≤ s.iocmds.length) then s
    else
      let s := s.recallSpan h 64
      match if hbmPopulated h 64 then s.ringHdr h else none with
      | none => s.devRingBad 8200 0 h 0
      | some g =>
        let at_ := s.ioNext h g.cons
        let k := g.base + at_ % g.size
        if g.prod ≤ at_ then s
        else if !(hbmPopulated k 64) then s.devRingBad 8200 1 h 0
        else
          let s := s.recallSpan k 64
          let w := s.rdN k 8
          if !(recReady w) then s
          else if !(lenOk g at_ (recLen w)) then s.devRingBad 8200 2 h at_
          else
            let c : IoCmd := { hdr := h, off := at_, len := recLen w, key := k, raw := BitVec.ofNat 512 (s.rdN k 64),
                               unused := recType w == 1 || recLen w != 64 }
            ({ s with iocmds := s.iocmds ++ [c] } : State).ioFetch fuel

/-- The port is told of its ring: consumption starts. -/
def State.ioTell (s : State) : State := ({ s.devRingTold 8200 with iotold := true } : State).ioFetch 16

/-- A write of `IOTAIL`: a doorbell. -/
def execIotailDoorbell (m : Master) (v : Nat) (s : State) : Res :=
  .next (
    if !(s.owns m) then s
    else ({ s with priv := { s.priv with iotail := BitVec.ofNat 64 v } } : State).ioTell)

/-- A write of `IOCMD` locates the ring (R395), and tells the port again where the ring was bad (R443); a ring at another
place waits for its doorbell. -/
def execIocmdWrite (m : Master) (v : Nat) (s : State) : Res :=
  .next (
    if !(s.owns m) then s
    else
      let new := putFields s.priv.iocmd v 0x000003FFFFFFFFC1
      let s := { s with
        priv := { s.priv with iocmd := new }
        iotold := s.iotold && ringAt new == ringAt s.priv.iocmd }
      if s.badRings.contains (8200, 0) then s.ioTell else s.ioFetch 16)

/-! ## Checks (R395, R396) -/

/-- The address of SRC or DST. -/
def adAddr (a : Nat) : Nat := a % 4503599627370496
/-- Its space. -/
def adSpace (a : Nat) : Nat := a / 4611686018427387904 % 4
/-- Its peer window. -/
def adPeer (a : Nat) : Nat := a / 1152921504606846976 % 4

/-- A malformed record (R395). -/
def IoCmd.malformed (c : IoCmd) : Bool :=
  let sd := fun a => bitsOf a 59 52 != 0
  c.b 511 320 != 0 || c.b 95 80 != 0 || decide (2 < c.opc) || sd c.src || sd c.dst || c.cnt % 8 != 0 ||
  (if c.opc = 0 then adAddr c.src % 16 != 0 || adAddr c.dst % 16 != 0 || c.count % 16 != 0 || c.count == 0
   else
     let flash := if c.opc = 1 then c.dst else c.src
     let hbm := if c.opc = 1 then c.src else c.dst
     adSpace flash != 0 || decide (268435456 ≤ adAddr flash) || adSpace hbm != 0 || adAddr hbm % 65536 != 0 ||
       c.count != 65536)

/-- Whether every byte of an HBM range is populated; it may run from a full die into the next. -/
def hbmRange (a n : Nat) : Bool :=
  let e := a + n - 1
  hbmPopulated a 1 && hbmPopulated e 1 &&
    (a / 274877906944 == e / 274877906944 || populated (a / 274877906944) == 274877906944)

/-- Whether `n` bytes at an SRC or DST lie in populated memory. -/
def State.adOk (s : State) (a n : Nat) : Bool :=
  match adSpace a with
  | 0 => hbmRange (adAddr a) n
  | 1 => decide (adAddr a + n ≤ 4294967296)
  | 2 => true
  | _ =>
    let sz := bitsOf (s.priv.peerwin.getD (adPeer a) 0).toNat 63 56
    sz != 0 && decide (adAddr a + n ≤ 2 ^ sz)

/-- The key of an SRC or DST. -/
def State.adKey (s : State) (a : Nat) : Nat :=
  match adSpace a with
  | 0 => adAddr a
  | 1 => vaultKey (adAddr a)
  | 2 => hostKey (adAddr a)
  | _ => peerKey (bitsOf (s.priv.peerwin.getD (adPeer a) 0).toNat 51 16 * 65536 + adAddr a)

/-- Whether a command names an address outside populated memory, its counter included. -/
def State.ioOutside (s : State) (c : IoCmd) : Bool :=
  let cnt := c.cnt != 0 && !(hbmRange c.cnt 8)
  let sides := match c.opc with
    | 0 => s.adOk c.src c.count && s.adOk c.dst c.count
    | 1 => hbmRange (adAddr c.src) 65536
    | _ => hbmRange (adAddr c.dst) 65536
  cnt || !sides

/-- Give a command its status. -/
def State.ioStatus (s : State) (c : IoCmd) (st : Nat) : State :=
  { s with iocmds := mapIf (fun (x : IoCmd) => x == c) (fun x => { x with status := st }) s.iocmds }

/-- Copy `n` bytes from one key to another, poison along. -/
def State.copyKeys (s : State) (src dst n : Nat) : State :=
  let s := (s.ioReaches src n false).ioReaches dst n true
  let bs := s.rdBytes src n
  let bad := s.poison.filter fun w => decide (src ≤ w) && decide (w < src + n)
  let s := s.homeWrite dst bs
  { s with poison := bad.foldl (fun l w => insNat (dst + (w - src)) l) s.poison }

/-- Whether a command has to wait for a vault that it names: its Heath die stands in reset (R23, R398, R410; log entry 77,
DESIGN CHOICE). -/
def State.ioHeld (s : State) (c : IoCmd) : Bool :=
  c.opc == 0 && !s.boot.released && (adSpace c.src == 1 || adSpace c.dst == 1)

/-- Execute the first command not yet executed whose operation a test selects: checks first, then `run`. -/
def State.ioRun (s : State) (want : Nat → Bool) (run : State → IoCmd → State) : State :=
  let s := s.ioFetch 16
  match s.iocmds.find? fun c => !c.unused && c.status == 0 && want c.opc with
  | none => s
  | some c =>
    if c.malformed then s.ioStatus c 2
    else if s.ioOutside c then s.ioStatus c 4
    else if s.ioHeld c then s
    else run s c

/-- COPY; a reserved operation is a malformed record and meets its fate here. -/
def execIoCopy (s : State) : Res :=
  .next (s.ioRun (fun o => o != 1 && o != 2) fun s c =>
    (s.copyKeys (s.adKey c.src) (s.adKey c.dst) c.count).ioStatus c 1)

/-- FLWR: an HBM frame to a flash page. -/
def execFlwr (s : State) : Res :=
  .next (s.ioRun (fun o => o == 1) fun s c =>
    let page := adAddr c.dst
    let s := s.copyKeys (adAddr c.src) (flashKey page 0) 65536
    ({ s with flashEpochs := (page, s.epoch) :: s.flashEpochs.filter fun p => p.1 != page } : State).ioStatus c 1)

/-- FLRD: a flash page to an HBM frame; an uncorrectable page poisons the frame (status 3). -/
def execFlrd (s : State) : Res :=
  .next (s.ioRun (fun o => o == 2) fun s c =>
    let page := adAddr c.src
    let frame := adAddr c.dst
    if s.flashBad page then
      let words := (List.range 8192).map fun i => frame + 8 * i
      let s := { s with poison := words.foldl (fun l w => insNat w l) s.poison }
      (s.event { kind := 4, aux := frame }).ioStatus c 3
    else
      let bytes := s.flashPage page
      (((s.recallSpan frame 65536).replayInput bytes).homeWrite frame bytes).ioStatus c 1)

/-- Step 4 of R396 for the oldest record, in ring order: its status, its counter add, its place freed. -/
def execIoCommandComplete (s : State) : Res :=
  .next (match s.iocmds with
    | [] => s
    | c :: rest =>
      if !c.unused && c.status == 0 then s
      else
        let s := { s with iocmds := rest }
        let s := if c.unused then s else (s.recallSpan (c.key + 9) 1).homeWrite (c.key + 9) [BitVec.ofNat 8 c.status]
        let s := if !c.unused && c.status == 1 && c.cnt != 0 then (s.recall (c.cnt / 128)).counterAdd c.cnt c.count else s
        (s.freeRecord c.hdr c.key c.off c.len).ioFetch 16)

end Sys2Proof.Machine
end

