-- ==== Sys2Proof/Machine/Maint.lean ====
section
/-!
DEFINITION. Maint.lean: prefetch, maintenance of ranges, full/empty bits and record loads (R127 to R135).
-/
namespace Sys2Proof.Machine

/-- The lines a range of `len` bytes at record offset `o` covers, as VA lines (R128). -/
def rangeLines (r : Rec) (o : Int) (len : Nat) : List Nat :=
  let a := recBase r + o.toNat
  let first := a / 128
  (List.range ((a + len - 1) / 128 + 1 - first)).map fun i => first + i

/-- The bytes of a VA line that a range covers, as a mask, each byte swizzled (R128). -/
def rangeMaskOf (r : Rec) (o : Int) (len line : Nat) : Nat :=
  let lo := Nat.max o.toNat (line * 128 - recBase r)
  let hi := Nat.min (o.toNat + len) (line * 128 + 128 - recBase r)
  (List.range (hi - lo)).foldl (fun m i => m ||| 2 ^ (recVa r ((lo + i : Nat) : Int) 0 % 128)) 0

/-- What a maintenance instruction does on one lane (R128): nothing, out of bounds, a trap, or a range. -/
inductive MForm where
  | nothing
  | oob
  | trap (t : Trap)
  | range (o : Int) (len : Nat)
deriving DecidableEq, Repr

/-- The checks of R83, R84 and R128 for a range; `al` asks for multiples of 128 (R132). -/
def mForm (r : Rec) (x : Word) (imm : Int) (len : Nat) (al : Bool) : MForm :=
  if recBad r then .trap (illegal 6)
  else if len = 0 then .nothing
  else
    let (o, ok) := recOffset r x imm len
    if !ok then (if recTrap r then .trap { cls := 4 } else .oob)
    else if al ∧ (o.toNat % 128 ≠ 0 ∨ len % 128 ≠ 0) then .trap (misaligned (recVa r o 0))
    else .range o len

/-- The VA lines of the ranges of some lanes, ascending: each is translated once for the instruction (R87). An access
of a range with a byte at or above 2^55 is not translated (R62). -/
def rangesLines (l : List (List Nat)) : List Nat :=
  l.foldl (fun a x => if a.isEmpty then x else x.foldl (fun a n => insNat n a) a) []

/-- `CWB`, `CINV` or `SARM` (R128): each line of the ranges is translated once, a thread traps on the first line of its
range that fails, and otherwise holds the work until it completes (R135). -/
def State.maintain (s : State) (op : Nat) (l2 : Bool) (k : AccKind) (imm : Int) (r : MO) : State :=
  let recOf := fun (l : LaneCtx) => l.b.krecs.getD r.k 0
  let form := fun (l : LaneCtx) => mForm (recOf l) (l.x r.a) imm (l.n r.d) (op == 3)
  let linesOf := fun (l : LaneCtx) => match form l with
    | .range o len =>
      if recBase (recOf l) + o.toNat + len ≤ 36028797018963968 then rangeLines (recOf l) o len else []
    | _ => []
  match s.cur with
  | none => s
  | some c =>
    let (s, tab) := s.xlatLines (s.askerOf c) k (rangesLines (s.lanes.map linesOf))
    s.eachOrTrap fun s c l =>
      let rc := recOf l
      match form l with
      | .nothing => (s.advance [l.t.tid], none)
      | .oob => ((s.setBstat c.core c.slot 0).advance [l.t.tid], none)
      | .trap t => (s, some t)
      | .range o len =>
        let lines := rangeLines rc o len
        let failing :=
          if recBase rc + o.toNat + len ≤ 36028797018963968 then
            lines.findSome? fun x =>
              match tab.get x with
              | .error f => some (f.trap (Nat.max (x * 128) (recBase rc + o.toNat)) k)
              | .ok _ => none
          else some (({ cause := 0, noncanon := true } : XFail).trap (Nat.max 36028797018963968 (recBase rc + o.toNat)) k)
        match failing with
        | some t => (s, some t)
        | none =>
          let todo := lines.filterMap fun x =>
            match tab.get x with
            | .ok p => some (p.key / 128, rangeMaskOf rc o len x)
            | .error _ => none
          let work : Maint := { op := op, l2 := l2, lines := todo }
          ((s.modThread c.core c.slot l.t.tid fun t => { t with maint := t.maint ++ [work] }).advance [l.t.tid], none)

/-- `CWB` (R130). -/
def execCwb (l : Lvl) (off : Option Nat) (r : MO) (s : State) : Res :=
  .next (s.maintain 1 (l == .l2) .read (offImm off) r)

/-- `CINV` (R131). -/
def execCinv (l : Lvl) (off : Option Nat) (r : MO) (s : State) : Res :=
  .next (s.maintain 2 (l == .l2) .write (offImm off) r)

/-- `SARM` (R132). -/
def execSarm (off : Option Nat) (r : MO) (s : State) : Res :=
  .next (s.maintain 3 true .sarm (offImm off) r)

/-- A `CWB`, `CINV` or `SARM` of a thread, its oldest, completes (R135). -/
def execMaintenanceComplete (core slot tid : Nat) (s : State) : Res :=
  .next (match s.thread? core slot tid with
    | none => s
    | some t =>
      match t.maint with
      | [] => s
      | m :: r => (s.maintDo core m).modThread core slot tid fun t => { t with maint := r })

/-- `PREF` (R129): no fault, no flag, no value; a lane that fails any check is dropped, without the alias event of a walk
that fails check 6 (R78; log entry 82, DESIGN CHOICE). The line goes whole into the levels of the hint. -/
def execPref (h : PrefHint) (off : Option Nat) (r : MO) (s : State) : Res :=
  .next ((s.eachLane fun s c l =>
    match formOf (l.b.krecs.getD r.k 0) (l.x r.a) (offImm off) 1 1 with
    | .acc (va :: _) =>
      match s.translate l.b.asker .read (va / 128 * 128) with
      | (s', .ok p) =>
        let s := if s'.l1Holds p then s'.approach c.core .read false p allBytes else s'
        s.fillLine c.core p (if h = .keep then 2 else 0) allBytes (h != .l2)
      | (s', .error f) => if f.mismatch.isSome then s else s'
    | _ => s).advanceAll)

/-- `FEMK` (R133): bounds as for every scratchpad instruction, then alignment. -/
def execFemk (full : Bool) (off : Option Nat) (r : MO) (s : State) : Res :=
  .next (s.eachOrTrap fun s c l =>
    let o := scrOffset l r.a (offImm off)
    let n := l.n r.d
    if o < 0 ∨ (l.b.scr * 128 : Int) < o + 128 * n then ((s.setBstat c.core c.slot 0).advance [l.t.tid], none)
    else if o.toNat % 128 ≠ 0 then (s, some (misaligned 0))
    else
      let lines := (List.range n).map fun i => l.b.scrLine o.toNat + i
      ((if full then s.setFull lines else s.setEmpty lines).advance [l.t.tid], none))

/-- `KLD` (R134): the lowest-TID active thread alone loads the record. -/
def execKld (ch : Hint) (off : Option Nat) (r : MO) (s : State) : Res :=
  let fs := (s.forms r.k r.a (offImm off) 32 32).take 1
  let others := (s.lanes.drop 1).map fun l => l.t.tid
  let give := fun (v : Nat) (t : Thread) => { t with pend := t.pend ++ [.krec r.d (BitVec.ofNat 256 v) s.now] }
  .next ((s.load fs ch none give (give 0)).advance others)

end Sys2Proof.Machine
end

