-- ==== Sys2Proof/Machine/Preempt.lean ====
section
/-!
DEFINITION. Preempt.lean: debug steps (R323, R324), pre-emption (R377 to R380), and the die dispatcher's attempts
(R346, R347).
-/
namespace Sys2Proof.Machine

/-! ## `DBGSTEP` -/

/-- Whether a thread stands in debug halt, its results landed (R44). -/
def Thread.halted (t : Thread) : Bool :=
  !t.owes && match t.cond with
  | .wings (.debug _) => true
  | _ => false

/-- The lanes of the warps that a PC step casts from plain threads: 32 at a time, in ascending TID (R306). -/
def plainWarps : Nat → List Nat → List (List (Option Nat))
  | 0, _ => []
  | _, [] => []
  | fuel + 1, tids => placePlain tids :: plainWarps fuel (tids.drop 32)

/-- The warps of a PC step (R324): each bound group all of whose members are halted or wait for the others, then the
other halted threads at the PC. -/
def stepWarps (b : Block) (pc : Word) : List (List (Option Nat)) :=
  let at_ := b.threads.filter fun t => t.halted && t.pc == pc
  let grps := (at_.filterMap (·.bound)).eraseDups
  let whole := grps.filterMap fun g =>
    let ms := b.threads.filter fun t => t.live && t.bound == some g
    if ms.all fun t => t.halted || (t.cond == .wings .cleared && !t.owes) then some (placeBound ms) else none
  let free := (at_.filter fun t => t.bound.isNone).foldl (fun l t => insNat t.tid l) []
  whole ++ plainWarps 64 free

/-- Cast warps for a debug step: those that find a warp slot, the others when one is free (R306). -/
def State.castSteps (s : State) (core slot : Nat) (ws : List (List (Option Nat))) : State :=
  ws.foldl (fun s lanes =>
    let tids := lanes.filterMap id
    let s := s.modBlock core slot fun b =>
      { b with threads := mapIf (fun t => tids.contains t.tid) (fun t => { t with stepping := true }) b.threads }
    if s.warpRoom core then s.cast core slot lanes true else { s with steps := s.steps ++ [(core, slot, lanes)] }) s

/-- A write of `DBGSTEP` (R323). -/
def State.dbgWrite (s : State) (m v : Nat) : State :=
  if !(s.owns m) || s.priv.dbgstep.getLsbD 63 then s
  else
    let fields := putFields (s.priv.dbgstep &&& 0x3FFFFFFFFFFFFFFF) v 0x3FFFFFFFE0000000
    let refuse := { s with priv := { s.priv with dbgstep := s.priv.dbgstep ||| errBit } }
    if v % 2 = 0 then { s with priv := { s.priv with dbgstep := fields } }
    else
      let core := bitsOf v 59 51
      let slot := bitsOf v 50 40
      let tid := bitsOf v 39 29
      match s.block? core slot, s.thread? core slot tid with
      | some b, some t =>
        if 2 ≤ bitsOf v 61 60 || !t.halted then refuse
        else
          let ws := if bitsOf v 61 60 = 0 then [(List.replicate 32 none).set (tid % 32) (some tid)] else stepWarps b t.pc
          let s := { s with priv := { s.priv with dbgstep := if ws.isEmpty then fields else fields ||| busyBit } }
          s.castSteps core slot ws
      | _, _ => refuse

/-- A step in thread mode (R324). -/
def execDbgstepThread (m : Master) (v : Nat) (s : State) : Res := .next (s.dbgWrite m v)
/-- A step in PC mode (R324). -/
def execDbgstepPc (m : Master) (v : Nat) (s : State) : Res := .next (s.dbgWrite m v)

/-! ## The save image (R379) -/

/-- A number rounded up to a multiple of 64. -/
def up64 (n : Nat) : Nat := (n + 63) / 64 * 64
/-- Bytes filled up with zeros to a multiple of 64. -/
def pad64 (l : List Byte) : List Byte := l ++ List.replicate (up64 l.length - l.length) 0

/-- Offsets of the sections behind the threads: registers, scratchpad, full/empty bits, operand buffer, end. -/
def Block.imgRegs (b : Block) : Nat := up64 (6336 + 32 * b.ntid.toNat)
/-- Offset of the scratchpad in a save image. -/
def Block.imgScr (b : Block) : Nat := up64 (b.imgRegs + 4 * b.ntid.toNat * b.nregs)
/-- Offset of the full/empty bits. -/
def Block.imgFull (b : Block) : Nat := b.imgScr + 128 * b.scr
/-- Offset of the operand buffer. -/
def Block.imgOpb (b : Block) : Nat := b.imgFull + up64 ((b.scr + 7) / 8)
/-- Bytes of a save image. -/
def Block.imgEnd (b : Block) : Nat := b.imgOpb + b.opb
/-- 64 KiB frames of a save image. -/
def Block.imgFrames (b : Block) : Nat := (b.imgEnd + 65535) / 65536

/-- The condition code of a thread in a save image. -/
def condCode (c : Cond) : Nat :=
  match c with
  | .pool .. => 14
  | .cast => 14
  | .held _ => 15
  | .wings r => parkCode r
  | .exiting => 14
  | .exited => 0

/-- A thread in a save image: 32 bytes. -/
def threadImage (t : Thread) : List Byte :=
  let j := match t.cond with
    | .held j => j.toNat
    | .wings (.fault (some f)) => f
    | .wings (.debug (some f)) => f
    | _ => 0
  let bt : Nat × Nat := match t.cond with
    | .wings (.barrier b n _) => (b, n)
    | _ => (0, 0)
  bytesLE 4 t.pc.toNat ++ bytesLE 4 t.mr.toNat ++ bytesLE 4 t.wb.toNat ++ bytesLE 4 t.fpctl.toNat ++
    bytesLE 1 t.preds.toNat ++
    bytesLE 1 (condCode t.cond + 16 * bit01 t.handler + 32 * bit01 t.bound.isSome + 64 * bit01 (!t.live)) ++
    bytesLE 1 bt.1 ++ bytesLE 1 0 ++ bytesLE 4 j ++ bytesLE 8 bt.2

/-- The save image of a block. -/
def State.blockImage (s : State) (b : Block) : List Byte :=
  let words := fun (l : List Word) => l.flatMap fun v => bytesLE 4 v.toNat
  let line0 := b.core * 4096 + b.scrBase / 128
  let full := (List.range ((b.scr + 7) / 8)).map fun i =>
    BitVec.ofNat 8 ((List.range 8).foldl (fun a j =>
      if 8 * i + j < b.scr ∧ !(s.emptyLines.contains (line0 + 8 * i + j)) then a + 2 ^ j else a) 0)
  let ts := (List.range b.ntid.toNat).map fun t => b.thread? t
  words b.sregs ++ (b.barrs.flatMap fun v => bytesLE 8 v.toNat) ++ (b.krecs.flatMap fun v => bytesLE 32 v.toNat) ++
  (b.handles.flatMap fun h => bytesLE 256 (h.getD 0).toNat) ++
  (b.slots.flatMap fun o => bytesLE 16 o.rv.toNat ++ bytesLE 16 (bit01 o.live + 2 * bit01 o.cur)) ++
  pad64 (words [b.bstat, b.trapv, b.phaseno, b.bid, b.clrank, b.ntid]) ++
  pad64 (ts.flatMap fun t => (t.map threadImage).getD (List.replicate 32 0)) ++
  pad64 (ts.flatMap fun t => (List.range b.nregs).flatMap fun i =>
    bytesLE 4 ((t.map fun (t : Thread) => t.regs.getD i 0).getD 0).toNat) ++
  s.rdBytes (scrKey b.core b.scrBase) (128 * b.scr) ++ pad64 full ++ s.rdBytes (opbKey b.core b.opbBase) b.opb

/-- Carry the poison of `n` bytes along with a copy of them (R105). -/
def State.poisonAlong (s : State) (src dst n : Nat) : State :=
  let mine := s.poison.filter fun w => decide (src ≤ w) && decide (w < src + n)
  { s with poison := mine.foldl (fun l w => insNat (dst + (w - src)) l) s.poison }

/-- Write bytes at an HBM address, owned lines recalled first (R288); what lies beyond the window has no place. -/
def State.hbmWrite (s : State) (a : Nat) (bs : List Byte) : State :=
  (s.recallSpan a bs.length).homeWrite a (bs.take (1099511627776 - a))

/-- Write the image of a block from an HBM address on. -/
def State.saveBlock (s : State) (b : Block) (a : Nat) : State :=
  let s := s.hbmWrite a (s.blockImage b)
  if a + b.imgEnd ≤ 1099511627776 then
    let s := (s.poisonAlong (scrKey b.core b.scrBase) (a + b.imgScr) (128 * b.scr)).poisonAlong (opbKey b.core b.opbBase)
      (a + b.imgOpb) b.opb
    let regs := b.threads.flatMap fun t => t.badRegs.map fun p => a + b.imgRegs + 4 * t.tid * b.nregs + 8 * p
    { s with poison := regs.foldl (fun l w => insNat w l) s.poison }
  else s

/-! ## Force-save (R378) -/

/-- The blocks of a list, ascending ranks. -/
def byRank (ms : List Block) : List Block := (List.range 64).flatMap fun r => ms.filter fun b => b.clrank.toNat == r

/-- The blocks of a cluster that have not exited, ascending ranks. -/
def State.members (s : State) (launch clid : Nat) : List Block :=
  byRank (s.blocks.filter fun b => b.launch == launch && b.clid.toNat == clid)

/-- Park the threads of a block for a pre-emption (step 1): those cast or in the pool; the others keep their
condition, and those of a debug step return to the debug halt (R324). -/
def State.parkAll (s : State) (b : Block) : State :=
  let s := s.debugBack fun x _ => x.core == b.core && x.slot == b.slot
  let b := (s.block? b.core b.slot).getD b
  let tids := (b.threads.filter fun t => t.cond == .cast).map (·.tid)
  let pool := fun (t : Thread) => match t.cond with
    | .pool .. => { t with cond := if t.bound.isSome then .wings .cleared else .wings .preempt }
    | _ => t
  let s := { s with steps := s.steps.filter fun w => !(w.1 == b.core && w.2.1 == b.slot) }
  ((s.leave b.core b.slot tids (.wings .preempt)).modBlock b.core b.slot fun b =>
    { b with threads := b.threads.map pool }).debugDone

/-- Whether a VA line of a block's command lies in the scratchpad of another block (R74, R378). -/
def State.lineIn (s : State) (q : Asker) (b : Block) (line : Nat) : Bool :=
  match (s.translate q .write (line * 128)).2 with
  | .ok p => decide (scrKey b.core b.scrBase ≤ p.key) && decide (p.key < scrKey b.core b.scrBase + 128 * b.scr)
  | .error _ => false

/-- Whether a command of any block is still to write into the scratchpad of a block through an SCR page (R378). -/
def State.pageInto (s : State) (b : Block) : Bool :=
  (s.blocks.any fun x => x.streams.any fun q => q.any fun c =>
    c.stores && (List.range c.entries).any fun e =>
      (linesOf ((c.entryMoves e).map (·.1))).any (s.lineIn x.asker b)) ||
  s.selq.any fun c => match s.block? c.core c.slot with
    | none => false
    | some x =>
      let outs := (List.range (seOutBytes c.op c.ext c.desc)).map fun i => recVa (c.recs.getD 1 0) c.oo i
      let rows := (List.range (sePb c.desc * seRows c.op c.desc)).map fun i => recVa (c.recs.getD 3 0) c.dO i
      (linesOf (outs ++ rows)).any (s.lineIn x.bedAsker b)

/-- The end of step 2: nothing that a member has accepted, or that writes into a member, is left. -/
def State.memberQuiet (s : State) (b : Block) : Bool :=
  s.blockQuiet b && !(s.pageInto b) && (b.threads.all fun t => t.cond != .cast && parkOpen t.cond)
where
  parkOpen (c : Cond) : Bool :=
    match c with
    | .wings (.shootdown _) => false
    | _ => true

/-- Set or clear BUSY of `PREEMPT`. -/
def State.preemptBusy (s : State) (b : Bool) : State :=
  { s with priv := { s.priv with preempt := if b then s.priv.preempt ||| busyBit else s.priv.preempt &&& ~~~ busyBit } }

/-- Steps 3 and 4: the images are written in rank order, and the members leave their cores. What the members have written
to PRIV pages leaves their L1s with them (R115). A member that has exited leaves its core too: its scratchpad and operand
buffer, which the cluster holds, are saved and restored with the others (R108, R381; log entry 72, DESIGN CHOICE). A
cluster saved at the frame before is overwritten, unless its restore is on its way (R377). -/
def State.saveNow (s : State) (frame : Nat) (ms : List Block) : State :=
  let s := ms.foldl (fun s b => (s.releaseCopies b.core .pkg).drain fun c => c.inL1 b.core) s
  let ms := ms.map fun b => (s.block? b.core b.slot).getD b
  let ofCluster := fun (a : Area) => ms.any fun b => a.launch == b.launch && a.clid == b.clid.toNat
  let husks := (s.areas.filter ofCluster).map (·.blk)
  let here := ms
  let ms := byRank (ms ++ husks)
  let r := ms.foldl (fun (a : State × Nat) b => (a.1.saveBlock b (a.2 * 65536), a.2 + b.imgFrames)) (s, frame)
  let s := r.1
  let gone := fun (core slot : Nat) => here.any fun b => b.core == core && b.slot == slot
  let v : Saved := { id := s.nextReq, frame := frame, die := (ms.head?.map Block.die).getD 0, blks := ms,
                     gone := husks.map fun b => b.clrank.toNat }
  { s with
    areas := s.areas.filter fun a => !(ofCluster a)
    blocks := s.blocks.filter fun b => !(gone b.core b.slot)
    warps := s.warps.filter fun w => !(gone w.core w.slot)
    reqs := s.reqs.filter fun q => match q.kind with
      | .phase c b => !(gone c b)
      | _ => true
    linebuf := s.linebuf.filter fun r => !(gone r.core r.slot)
    reuse := s.reuse.filter fun r => !(gone r.1 r.2.1)
    saved := (s.saved.filter fun x => x.frame != frame || x.queued) ++ [v]
    nextReq := s.nextReq + 1 }

/-- A force-save in progress goes on: once every member is quiet it is saved, and BUSY clears. -/
def State.saveGoesOn (s : State) : State :=
  match s.saving with
  | none => s
  | some (l, c, frame) =>
    let ms := s.members l c
    let ended := fun (s : State) => ({ s with saving := none } : State).preemptBusy false
    let killed := ((s.launch? l).map fun (x : Launch) => x.st != .running).getD true
    if killed || ms.isEmpty then ended s
    else
      let s := ms.foldl (fun s b => s.parkAll b) s
      let ms := s.members l c
      if ms.all fun b => s.memberQuiet b then
        let s := ms.foldl (fun s b => b.threads.foldl (fun s t => s.settle b.core b.slot t.tid) s) s
        ended (s.saveNow frame (s.members l c))
      else s

/-! ## Restore (R380) -/

/-- Read a number at an HBM address; what lies beyond the window reads as zero. -/
def State.hbmN (s : State) (a n : Nat) : Nat := if a + n ≤ 1099511627776 then s.rdN a n else 0

/-- The condition of a restored thread: of a fault or a debug halt as the answers have left it (R378), else by the
saved code. -/
def restoredCond (now : Nat) (s : State) (a : Nat) (t : Thread) : Cond :=
  let pool : Cond := if t.bound.isSome then .wings .cleared else .pool now false
  let code := s.hbmN (a + 17) 1 % 16
  if bitAt (s.hbmN (a + 17) 1) 6 then .exited
  else if code = 15 then .held (BitVec.ofNat 32 (s.hbmN (a + 20) 4))
  else if code = 3 then
    let sc := match t.cond with
      | .wings (.barrier _ _ sc) => sc
      | _ => .blk
    .wings (.barrier (s.hbmN (a + 18) 1) (s.hbmN (a + 24) 8) sc)
  else if code = 0 ∨ code = 12 then
    match t.cond with
    | .wings (.fault f) => .wings (.fault f)
    | .wings (.debug f) => .wings (.debug f)
    | .wings (.barrier b n sc) => .wings (.barrier b n sc)
    | .held j => .held j
    | _ => pool
  else pool

/-- A thread as its image has it. -/
def State.restoreThread (s : State) (b : Block) (base : Nat) (t : Thread) : Thread :=
  let a := base + 6336 + 32 * t.tid
  let w := fun (o : Nat) => BitVec.ofNat 32 (s.hbmN (a + o) 4)
  { t with
    pc := w 0
    mr := w 4
    wb := w 8
    fpctl := w 12
    preds := BitVec.ofNat 7 (s.hbmN (a + 16) 1)
    handler := bitAt (s.hbmN (a + 17) 1) 4
    quadUnit := false
    badRegs := (List.range (b.nregs / 2)).filter fun p => s.poisoned (base + b.imgRegs + 4 * t.tid * b.nregs + 8 * p)
    cond := restoredCond s.now s a t
    regs := (List.range b.nregs).map fun i => BitVec.ofNat 32 (s.hbmN (base + b.imgRegs + 4 * (t.tid * b.nregs + i)) 4) }

/-- A block as its image at an HBM address has it, at its new place. A block between phases stays there. -/
def State.restoreBlock (s : State) (b : Block) (p : Spot) (ranks : List (Nat × Nat × Nat)) (base : Nat) : Block :=
  let w := fun (o : Nat) => BitVec.ofNat 32 (s.hbmN (base + o) 4)
  { b with
    core := p.core
    slot := p.slot
    scrBase := p.scr
    opbBase := p.opb
    ranks := ranks
    sregs := (List.range 64).map fun i => w (4 * i)
    barrs := (List.range 48).map fun i => BitVec.ofNat 64 (s.hbmN (base + 256 + 8 * i) 8)
    krecs := (List.range 32).map fun i => BitVec.ofNat 256 (s.hbmN (base + 640 + 32 * i) 32)
    handles := (List.range 16).map fun i =>
      let v := s.hbmN (base + 1664 + 256 * i) 256
      if v = 0 then none else some (BitVec.ofNat 2048 v)
    slots := b.slots.zipIdx.map fun o =>
      let f := s.hbmN (base + 5760 + 32 * o.2 + 16) 1
      { o.1 with rv := BitVec.ofNat 128 (s.hbmN (base + 5760 + 32 * o.2) 16), live := bitAt f 0, cur := bitAt f 1 }
    bstat := w 6272
    trapv := w 6276
    phaseno := w 6280
    ph := if b.ph = 0 then 0 else 1
    threads := if b.ph = 0 then b.threads.map (s.restoreThread b base) else b.threads }

/-- Reload the scratchpad with its full/empty bits and the operand buffer of a placed block. -/
def State.reload (s : State) (b : Block) (base : Nat) : State :=
  let line0 := b.core * 4096 + b.scrBase / 128
  let bytes := fun (s : State) (a n : Nat) => (List.range n).map fun i => BitVec.ofNat 8 (s.hbmN (a + i) 1)
  let s1 := s.homeWrite (scrKey b.core b.scrBase) (bytes s (base + b.imgScr) (128 * b.scr))
  let s1 := s1.poisonAlong (base + b.imgScr) (scrKey b.core b.scrBase) (128 * b.scr)
  let s1 := s1.homeWrite (opbKey b.core b.opbBase) (bytes s (base + b.imgOpb) b.opb)
  let s1 := s1.poisonAlong (base + b.imgOpb) (opbKey b.core b.opbBase) b.opb
  s1.setEmpty (((List.range b.scr).filter fun i => !(bitAt (s.hbmN (base + b.imgFull + i / 8) 1) (i % 8))).map (line0 + ·))

/-- Whether a word of a saved block is poisoned that its restore consumes: its block state, its threads' state or its
full/empty bits. Registers, scratchpad and operand buffer carry their poison along (R105). -/
def State.imagePoisoned (s : State) (b : Block) (base : Nat) : Bool :=
  s.poison.any fun w => decide (base ≤ w) && (decide (w < base + b.imgRegs) ||
    (decide (base + b.imgFull ≤ w) && decide (w < base + b.imgOpb)))

/-- Place a saved cluster on its die (R347, R380): its images are read at their homes. A poisoned word of a block's state
kills the launch (R105). -/
def State.placeSaved (s : State) (r : Req) (v : Saved) : State :=
  match v.blks with
  | [] => { s with reqs := s.reqs.erase r, saved := s.saved.filter fun x => x.id != v.id }
  | b0 :: _ =>
    match s.clusterSpots v.die v.blks.length b0.ntid.toNat b0.nregs (b0.scr * 128) b0.opb b0.bars with
    | none => s.reqFails r
    | some ps =>
      let pairs := v.blks.zip ps
      let ranks := ps.map fun p => (p.core, p.slot, p.scr)
      let s := { s with reqs := s.reqs.erase r, saved := s.saved.filter fun x => x.id != v.id }
      let frames := v.blks.foldl (fun (a : List (Block × Nat) × Nat) b => (a.1 ++ [(b, a.2 * 65536)], a.2 + b.imgFrames)) ([], v.frame)
      let s := frames.1.foldl (fun s x => s.recallSpan x.2 x.1.imgEnd) s
      if frames.1.any fun x => s.imagePoisoned x.1 x.2 then s.kill b0.launch else
      let done := pairs.foldl (fun (a : State × Nat) y =>
        let b := a.1.restoreBlock y.1 y.2 ranks (a.2 * 65536)
        let s := (a.1.invalidate fun c => c.inL1 b.core && c.ct == 3).commitBlock b
        let s := (s.reload b (a.2 * 65536)).meet b.core b.slot
        (if v.gone.contains b.clrank.toNat then s.toArea b else s, a.2 + y.1.imgFrames)) (s, v.frame)
      done.1

/-! ## `PREEMPT` (R377) -/

/-- Kill every launch of an address space that has not ended (R382). -/
def State.killAsid (s : State) (asid : Nat) : State :=
  (s.launches.filter fun x => lrAsid x.lr == asid).foldl (fun s x => s.kill x.id) s

/-- A write of `PREEMPT`. The cluster saved at a SAVEFRAME is the one saved there last; while its restore is queued, a second
one is refused (log entry 71, DESIGN CHOICE). -/
def State.preemptWrite (s : State) (m v : Nat) : State :=
  if !(s.owns m) || s.priv.preempt.getLsbD 63 then s
  else
    let fields := putFields (s.priv.preempt &&& 0x3FFFFFFFFFFFFFFF) v 0x3FFFFF8000000000
    let refuse := { s with priv := { s.priv with preempt := s.priv.preempt ||| errBit } }
    let loaded := { s with priv := { s.priv with preempt := fields } }
    let asid := bitsOf s.priv.preemptarg.toNat 12 0
    let frame := bitsOf s.priv.preemptarg.toNat 55 20
    let named := s.block? (bitsOf v 58 50) (bitsOf v 49 39)
    if v % 2 = 0 then loaded
    else
      match bitsOf v 61 59, named with
      | 0, _ => { loaded with suspended := insNat asid loaded.suspended }
      | 1, _ => { loaded with suspended := loaded.suspended.filter fun a => a != asid }
      | 2, none => refuse
      | 2, some b =>
        let s := ({ loaded with saving := some (b.launch, b.clid.toNat, frame) } : State).preemptBusy true
        (s.members b.launch b.clid.toNat).foldl (fun s b => s.parkAll b) s
      | 3, _ =>
        match s.saved.reverse.find? fun v => v.frame == frame with
        | none => refuse
        | some v =>
          if v.queued then refuse else
          let prio := ((v.blks.head?.bind fun b => s.launch? b.launch).map fun x => lrBits x.lr 169 168).getD 0
          let r : Req := { die := v.die, kind := .restore v.id, prio := prio, since := s.cycOf v.die, ord := s.nextReq }
          { loaded with
            reqs := s.reqs ++ [r]
            nextReq := s.nextReq + 1
            saved := mapIf (fun (x : Saved) => x.id == v.id) (fun x => { x with queued := true }) s.saved }
      | 4, none => refuse
      | 4, some b => loaded.kill b.launch
      | 5, _ => loaded.killAsid asid
      | _, _ => refuse

/-- Suspend an address space: its phases and clusters are not admitted. -/
def execPreemptSuspendAsid (m : Master) (v : Nat) (s : State) : Res := .next (s.preemptWrite m v)
/-- Resume an address space. -/
def execPreemptResumeAsid (m : Master) (v : Nat) (s : State) : Res := .next (s.preemptWrite m v)
/-- Restore a saved cluster: it is queued at its die. -/
def execRestore (m : Master) (v : Nat) (s : State) : Res := .next (s.preemptWrite m v)
/-- Kill the launch of the named block. -/
def execPreemptKillLaunch (m : Master) (v : Nat) (s : State) : Res := .next (s.preemptWrite m v)
/-- Kill every launch of an address space. -/
def execPreemptKillAsid (m : Master) (v : Nat) (s : State) : Res := .next (s.preemptWrite m v)

/-- Force-save: a write starts it; while it runs the write is ignored and the operation goes on (R377, R378). -/
def execForceSave (m : Master) (v : Nat) (s : State) : Res :=
  .next (if s.saving.isSome then s.saveGoesOn else s.preemptWrite m v)

/-! ## The die dispatcher (R346, R347) -/

/-- A die's dispatcher attempts the first request of its queue that is not backing off; cores take blocks once boot has
released them (R398). -/
def execClusterPlace (die : Nat) (s : State) : Res :=
  .next (
    if !s.boot.released then s else
    let s := s.readScene die
    match s.headReq die with
    | none => s
    | some r =>
      match r.kind with
      | .cluster l c =>
        match s.launch? l with
        | some x => s.placeCluster r x c
        | none => { s with reqs := s.reqs.erase r }
      | .phase core slot =>
        match s.block? core slot with
        | some b => s.enterPhase r b
        | none => { s with reqs := s.reqs.erase r }
      | .restore id =>
        match s.saved.find? fun v => v.id == id with
        | some v => s.placeSaved r v
        | none => { s with reqs := s.reqs.erase r })

end Sys2Proof.Machine
end

