-- ==== Sys2Proof/Machine/Manage.lean ====
section
/-!
DEFINITION. Manage.lean: masters and ownership (R389 to R393), the register windows (R386 to R388), deterministic mode
(R404, R405), power and clocks (R408 to R410), boot and measurement (R398 to R400), SPDM (R401), the flash epoch
(R402).
-/
namespace Sys2Proof.Machine

/-! ## Ownership (R390, R391) -/

/-- A master becomes owner, or nobody does; a host takes the messages that are due (R393). -/
def State.setOwner (s : State) (o : Option Nat) : State :=
  let s := { s with owner := { s.owner with owner := o } }
  match o with
  | some m =>
    if m < 65536 then { s with hostOut := s.hostOut ++ s.msixDue.map Out.msix, msixDue := [] } else s
  | none => s

/-- The lowest pending claim wins; with none the device is unowned. -/
def State.nextOwner (s : State) : State :=
  match s.owner.claims with
  | [] => s.setOwner none
  | m :: r => ({ s with owner := { s.owner with claims := r } } : State).setOwner (some m)

/-- Whether an identifier is a master's that may attach (R389): 17 bits, and at most four masters, so that four claims at
most stand beside each other, the owner's included. -/
def State.mayClaim (s : State) (m : Nat) : Bool :=
  decide (m < 131072) &&
    (s.owner.claims.contains m || decide (s.owner.claims.length + bit01 s.owner.owner.isSome < 4))

/-- A claim (R391): by the owner without effect; on an owned device pending; else in the claim window, which the first
one opens. -/
def State.claim (s : State) (m : Nat) : State :=
  if s.owns m || !(s.mayClaim m) then s
  else
    { s with owner := { s.owner with
      claims := insNat m s.owner.claims
      window := s.owner.window || s.owner.owner.isNone } }

/-- A release by the owner; from any other master without effect. -/
def State.resign (s : State) (m : Nat) : State := if s.owns m then s.nextOwner else s

/-- A pending claim ends. -/
def State.unclaim (s : State) (m : Nat) : State :=
  { s with owner := { s.owner with claims := s.owner.claims.filter fun c => c != m } }

/-- A claim of a master. -/
def execOwnerClaim (m : Master) (s : State) : Res := .next (s.claim m)
/-- A release of a master. -/
def execOwnerRelease (m : Master) (s : State) : Res := .next (s.resign m)
/-- A master withdraws its claim. -/
def execOwnerWithdraw (m : Master) (s : State) : Res := .next (s.unclaim m)
/-- The claim window closes: the lowest identifier wins. -/
def execClaimWindowClose (s : State) : Res :=
  .next (if s.owner.window then ({ s with owner := { s.owner with window := false } } : State).nextOwner else s)
/-- The owner's link goes down, or the owning BMC is silent. -/
def execOwnerLoss (s : State) : Res := .next (if s.owner.owner.isSome then s.nextOwner else s)
/-- A master whose claim is pending loses its link. -/
def execPendingClaimLinkLoss (m : Master) (s : State) : Res := .next (s.unclaim m)

/-! ## The management window (R404, R408) -/

/-- `PWRSTAT`.CLK as the controllers report it: byte d, the clock of die d in units of 33 MHz (R408, R409). -/
def clkBits (clk : List Nat) : Nat :=
  clk.getD 0 0 + 256 * clk.getD 1 0 + 65536 * clk.getD 2 0 + 16777216 * clk.getD 3 0

/-- A write of `DETMODE`. While deterministic mode is in force every die runs at FREQ, as `PWRSTAT`.CLK then reads
(R405, R408). -/
def State.detWrite (s : State) (v : Nat) : State :=
  let old := s.mgmt.detmode
  let new := putFields old v 0x0FFF0003
  let freq := bitsOf v 27 16
  if new != old && (s.launches.any Launch.isLive || freq % 33 != 0 || decide (freq < 1122) || decide (3300 < freq)) then
    { s with mgmt := { s.mgmt with detmode := old ||| errBit } }
  else
    let kept := new &&& ~~~ (BitVec.ofNat 64 v &&& 0x3000000000000000) &&& 0x3FFFFFFFFFFFFFFF
    let on := new.getLsbD 0
    let fresh := on && new.getLsbD 1 && !(old.getLsbD 0 && old.getLsbD 1)
    let clk := if on then [freq / 33, freq / 33, freq / 33, freq / 33] else s.clk
    { s with
      mgmt := { s.mgmt with
        detmode := if on then kept ||| busyBit else kept
        pwrstat := if on then (s.mgmt.pwrstat &&& 0xFFFFFFFF00000000) ||| BitVec.ofNat 64 (clkBits clk) else s.mgmt.pwrstat }
      clk := clk
      replay := if fresh then {} else s.replay }

/-- A write of `PWRCAP`. -/
def State.capWrite (s : State) (v : Nat) : State :=
  let w := bitsOf v 15 0
  if w < 1000 ∨ 4200 < w then { s with mgmt := { s.mgmt with pwrcap := s.mgmt.pwrcap ||| 0x8000000000000000 } }
  else { s with mgmt := { s.mgmt with pwrcap := BitVec.ofNat 64 (bitsOf v 16 0) } }

/-- Whether an image passes both checks of R399 against a fused minimum. -/
def imagePasses (i : Image) (min : Nat) : Bool := i.signed && decide (min ≤ i.version)

/-- The first compute die whose image fails when the trust die verifies and measures the four again, as image 4 to 7, or 0
(R399, R410). Between two device resets a die's image stays what it is (log entry 44), and so its measurement. -/
def State.diesFail (s : State) : Nat :=
  (((List.range 4).find? fun i =>
    (s.boot.images[i + 3]?).any fun x => !(imagePasses x (s.fused.getD (i + 3) 0))).map (· + 4)).getD 0

/-- A write of `THERM` (R410): TRIP clears once the trip conditions are gone; the compute dies are measured and the
links trained again, under steps 3 to 5 of R398. The host link and the flash controller stay as they are. -/
def State.thermWrite (s : State) (v : Nat) : State :=
  if bitAt v 63 ∧ s.mgmt.therm.getLsbD 63 ∧ !s.tripped then
    { s with
      mgmt := { s.mgmt with therm := s.mgmt.therm &&& 0x7FFFFFFFFFFFFFFF }
      boot := { s.boot with
        retrain := s.diesFail == 0, released := false
        failed := if s.boot.failed = 0 then s.diesFail else s.boot.failed } }
  else s

/-- A write of `FLERASE` (R402): by the owner alone, and 0x5A alone. -/
def State.eraseWrite (s : State) (m v : Nat) : State :=
  if s.owns m ∧ bitsOf v 7 0 = 0x5A then { s with epoch := s.epoch + 1 } else s

/-- A write of `DETMODE`. -/
def execDetmodeWrite (_m : Master) (v : Nat) (s : State) : Res := .next (s.detWrite v)
/-- A write of `PWRCAP`. -/
def execPwrcapWrite (_m : Master) (v : Nat) (s : State) : Res := .next (s.capWrite v)
/-- A write of `THERM`. -/
def execThermClear (_m : Master) (v : Nat) (s : State) : Res := .next (s.thermWrite v)
/-- A write of `FLERASE`. -/
def execFlerase (m : Master) (v : Nat) (s : State) : Res := .next (s.eraseWrite m v)

/-! ## Power and clocks (R409) -/

/-- The effective cap in watts, given the inlet in tenths of a degree. -/
def State.effCap (s : State) (inlet : Nat) : Nat :=
  let derated := 4200 - 150 * ((inlet - 400) / 10)
  if s.mgmt.pwrcap.getLsbD 16 then Nat.min (bitsOf s.mgmt.pwrcap.toNat 15 0) derated else derated

/-- The die with the highest clock, the first of the ties. -/
def hottest (clk : List Nat) : Nat := (List.range 4).foldl (fun b d => if clk.getD b 0 < clk.getD d 0 then d else b) 0
/-- The die with the lowest clock, the last of the ties. -/
def coolest (clk : List Nat) : Nat := (List.range 4).foldl (fun b d => if clk.getD d 0 ≤ clk.getD b 0 then d else b) 0

/-- Set or clear UNMET. -/
def State.setUnmet (s : State) (u : Bool) : State :=
  { s with mgmt := { s.mgmt with
    therm := if u then s.mgmt.therm ||| errBit else s.mgmt.therm &&& ~~~ errBit } }

/-- The clocks of one evaluation at a module power and an inlet: in deterministic mode they stand, and a derating is a
divergence (R405). -/
def State.stepClocks (s : State) (power inlet : Nat) : State :=
  let cap := s.effCap inlet
  if s.mgmt.detmode.getLsbD 63 then (if 410 ≤ inlet then s.diverge else s)
  else if cap < power then
    let d := hottest s.clk
    if 34 < s.clk.getD d 0 then { s with clk := s.clk.set d (s.clk.getD d 0 - 1) } else s.setUnmet true
  else
    let s := s.setUnmet false
    let d := coolest s.clk
    if 100 * power ≤ 97 * cap ∧ s.clk.getD d 0 < 100 then { s with clk := s.clk.set d (s.clk.getD d 0 + 1) } else s

/-- Whether sensor readings trip the module (R410): a junction at 110 degrees, or an inlet above 55, in tenths. -/
def tripsAt (inlet tj : Nat) : Bool := decide (1100 ≤ tj) || decide (550 < inlet)

/-- A thermal trip (R410): running launches are killed, the compute dies stand in reset, TRIP is set. What their caches
held dirty is home first (log entry 33). A training of the links under way comes to nothing: they are trained again once
TRIP is cleared. -/
def State.trip (s : State) : State :=
  let s := (s.launches.filter fun x => x.st == .running).foldl (fun s x => s.kill x.id) s
  let s := (s.invalidate fun c => match c.holder with | .l1 _ => true | .l2 _ => false).invalidate fun _ => true
  { s.diverge with
    mgmt := { s.diverge.mgmt with therm := s.mgmt.therm ||| busyBit }
    tripped := true
    boot := { s.boot with released := false, retrain := false }
    blocks := []
    warps := []
    steps := []
    turns := []
    priv := { s.priv with dbgstep := s.priv.dbgstep &&& ~~~ busyBit }
    muls := []
    fetches := []
    obOps := []
    selq := []
    areas := []
    linebuf := []
    reuse := []
    owned := []
    contended := []
    tlb := []
    icache := [] }

/-- Whether the sensors' readings, in `PWRSTAT` and `THERM` (R408), trip the module. -/
def State.trips (s : State) : Bool := tripsAt (s.mgmt.pwrstat.extractLsb' 32 16).toNat (s.mgmt.therm.extractLsb' 0 16).toNat

/-- A thermal trip where the sensors' readings ask for one; other readings take none (R410). -/
def execThermalTrip (s : State) : Res := .next (if s.trips then s.trip else s)

/-- An evaluation of the controllers, with the sensors' readings: module power in watts, inlet and hottest junction in
tenths of a degree. The trip conditions end below 95 and 50 degrees, and readings that trip do so at once (R410). -/
def execPowerEvaluation (power inlet tj : Nat) (s : State) : Res :=
  let s := s.stepClocks power inlet
  let s := { s with
    mgmt := { s.mgmt with
      pwrstat := BitVec.ofNat 64 (power % 65536 * 281474976710656 + min inlet 65535 * 4294967296 + clkBits s.clk)
      therm := (s.mgmt.therm &&& ~~~ 0xFFFF#64) ||| BitVec.ofNat 64 (min tj 65535) }
    tripped := s.tripped && !(decide (tj < 950) && decide (inlet < 500)) }
  .next (if s.trips then s.trip else s)

/-! ## Boot (R398 to R400) -/

/-- The first of seven images, in the order of R400, that fails (R399): 1 to 7, or 0. An image that is not there fails. -/
def firstFailed (images : List Image) (fused : List Nat) : Nat :=
  (((List.range 7).find? fun i => !((images[i]?).any fun x => imagePasses x (fused.getD i 0))).map (· + 1)).getD 0

/-- A device reset: every register at its reset value, the HBM keys fresh, steps 1 to 3 of R398: each image is verified
and measured, those behind a failing one too (R399). Flash, its epoch, the fused minimums, host and peer memory, and the
outside world keep what they have. -/
def execDeviceReset (images : List Image) (s : State) : Res :=
  let failed := firstFailed images s.fused
  .next { (({} : State)) with
    fused := s.fused
    mem := s.mem.filter fun c => decide (1125899906842624 ≤ c.1)
    poison := s.poison.filter fun w => decide (1125899906842624 ≤ w)
    epoch := s.epoch
    flashEpochs := s.flashEpochs
    nextWarp := s.nextWarp
    nextTicket := s.nextTicket
    nextOb := s.nextOb
    nextLaunch := s.nextLaunch
    nextReq := s.nextReq
    nextFid := s.nextFid
    nextShoot := s.nextShoot
    tripped := s.tripped
    cyc := s.cyc
    ns := s.ns
    hostOut := s.hostOut
    now := s.now
    free := s.free
    agenda := s.agenda
    boot := { stage := if failed = 0 then 3 else if failed ≤ 3 then 0 else 2, failed := failed,
              images := images.take 7, width := s.boot.width, boots := s.boot.boots + 1 } }

/-- The I/O die reports the training of the links (R23, R398): 0 for all trained, else the link that failed, which the
trust die reports over the management plane; the cores and the Heath dies leave reset only if every link trained. While
TRIP is set no training counts (R410). -/
def execLinkTrainingReport (failed : Nat) (s : State) : Res :=
  .next (
    if (s.boot.stage ≠ 3 ∧ !s.boot.retrain) ∨ s.mgmt.therm.getLsbD 63 then s
    else
      { s with
        boot := { s.boot with
          stage := if s.boot.stage = 3 then 5 else s.boot.stage
          retrain := false
          released := failed == 0
          badLink := failed }
        hostOut := if failed = 0 then s.hostOut else s.hostOut ++ [.linkFailed failed] })

/-- Steps 6 and 7 of R398: the flash key is loaded, the I/O die answers normally. -/
def execBootComplete (s : State) : Res :=
  .next (
    if s.boot.stage ≠ 5 then s
    else ({ s with boot := { s.boot with stage := 7, mediaReady := true } } : State).ioFetch 16)

/-- The host link trains again: only its bandwidth changes (R384). -/
def execHostLinkTraining (width : Nat) (s : State) : Res := .next { s with boot := { s.boot with width := width } }

/-! ## SPDM (R400, R401) -/

/-- Tell the outside world. -/
def State.say (s : State) (o : Out) : State := { s with hostOut := s.hostOut ++ [o] }

/-- The measurement blocks: slots 1 to 7 as the boot measured the images, slot 8 the replay log's chain while a capture
runs (R400). -/
def State.measurements (s : State) : List (BitVec 384) :=
  s.boot.images.map (·.digest) ++ [if s.mgmt.detmode.getLsbD 63 && s.mgmt.detmode.getLsbD 1 then s.replay.chain else 0]

/-- A signature by the alias key over a nonce and the measurements. -/
def State.signed (s : State) (nonce : Nat) : BitVec 768 :=
  Config.signature (Config.digest (bytesLE 32 nonce ++ s.measurements.flatMap fun m => bytesLE 48 m.toNat))

/-- Whether the I/O die has left reset (R398, R399). -/
def State.ioDieUp (s : State) : Bool := decide (2 ≤ s.boot.stage)

/-- Whether CXL.io answers: once boot is complete (R398), or, where a compute die's image failed, on the I/O die that was
released (R399). -/
def State.cxlUp (s : State) : Bool := decide (7 ≤ s.boot.stage) || (s.ioDieUp && s.boot.failed != 0)

/-- Whether the SPDM responder of the trust die answers on a transport (R399, R401): over MCTP once it has booted from its
own image; in the DOE mailbox once CXL.io answers. -/
def State.spdmUp (s : State) (doe : Bool) : Bool :=
  if doe then s.cxlUp else !s.boot.images.isEmpty && s.boot.failed != 1

/-- An SPDM request on a transport gets its answer, "not ready" from a CXL.io that does not answer yet (R398), or none. -/
def State.spdm (s : State) (doe : Bool) (f : State → State) : State :=
  if s.spdmUp doe then f s else if doe && s.ioDieUp then s.say .notReady else s

/-- GET_MEASUREMENTS. -/
def execGetMeasurements (ask : SpdmAsk) (s : State) : Res :=
  .next (s.spdm ask.doe fun s => s.say (.meas s.measurements (s.signed ask.n)))

/-- The certificate of a slot: 0, the device's identity; 1, the alias, issued at this boot over slots 1 to 7. -/
def State.certificate (s : State) (slot : Nat) : List Byte :=
  if slot = 0 then Config.certificate 0 0 0
  else Config.certificate slot s.boot.boots (Config.digest (s.boot.images.flatMap fun i => bytesLE 48 i.digest.toNat))

/-- GET_CERTIFICATE: slot 0, device identity; slot 1, alias; no other. -/
def execGetCertificate (ask : SpdmAsk) (s : State) : Res :=
  .next (s.spdm ask.doe fun s => s.say (if ask.n < 2 then .cert (s.certificate ask.n) else .spdmError))

/-- CHALLENGE. -/
def execChallenge (ask : SpdmAsk) (s : State) : Res :=
  .next (s.spdm ask.doe fun s => s.say (.chal (s.signed ask.n)))

/-- The lowest session number that is free. -/
def State.freeSession (s : State) : Option Nat := (List.range 4).find? fun i => !(s.boot.sessions.any fun x => x.1 == i)

/-- KEY_EXCHANGE: up to four sessions across both transports. -/
def execKeyExchange (ask : SpdmAsk) (s : State) : Res :=
  .next (s.spdm ask.doe fun s =>
    match s.freeSession with
    | none => s.say .busy
    | some i =>
      let k := Config.session (s.free + ask.n)
      ({ s with free := s.free + 1, boot := { s.boot with sessions := s.boot.sessions ++ [(i, k)] } } : State).say (.sess i k))

/-- The answer to an SPDM request without a row of its own, of session `i` where it names one (R401): a 1.3 responder that accepts 1.2. What a message in a
session says is not modelled: it is answered, sealed under the session's secret. -/
def State.spdmAnswer (s : State) (m : SpdmMsg) (i : Nat) : State :=
  match m with
  | .version => s.say (.versions [0x12, 0x13])
  | .capabilities => s.say (.capabilities [.cert, .chal, .meas, .keyEx, .encrypt, .mac])
  | .algorithms => s.say (.algorithms [.ecdsaP384, .sha384, .ecdheP384, .aes256Gcm])
  | .secured data =>
    match s.boot.sessions.find? fun x => x.1 == i with
    | some x => s.say (.secured i (Config.sealed x.2 data))
    | none => s.say .spdmError
  | .endSession =>
    if s.boot.sessions.any fun x => x.1 == i then
      ({ s with boot := { s.boot with sessions := s.boot.sessions.filter fun x => x.1 != i } } : State).say (.ended i)
    else s.say .spdmError
  | .unsupported => s.say .spdmError

/-- A word that the manual does not give (a free value, log entry 17). -/
def State.freeAnswer (s : State) : State :=
  ({ s with free := s.free + 1 } : State).say (.word (BitVec.ofNat 64 (Config.freeWord s.free)))

/-- A configuration request (R384, R398, R399): no answer from an I/O die in reset, "not ready" until boot completes or has
failed on a compute die; a decoder is committed only once it has completed. What configuration space and CDAT hold the manual does not give. -/
def execConfigurationRequest (kind : ConfigKind) (v : Nat) (s : State) : Res :=
  .next (
    match kind with
    | .spdm doe m => s.spdm doe fun s => s.spdmAnswer m v
    | _ =>
      if !s.ioDieUp then s
      else if !s.cxlUp then s.say .notReady
      else match kind with
        | .commitHdm => if s.boot.stage < 7 then s else { s with boot := { s.boot with hdm := if v < 2 then insNat v s.boot.hdm else s.boot.hdm } }
        | _ => s.freeAnswer)

/-! ## Register windows (R386 to R388) -/

/-- Change the privileged registers. -/
def State.modPriv (s : State) (f : Priv → Priv) : State := { s with priv := f s.priv }

/-- A list of registers with one of them written under a mask. -/
def putAt (l : List Word64) (i v : Nat) (mask : Word64) : List Word64 := l.set i (putFields (l.getD i 0) v mask)

/-- The fields of an owner's write to a privileged register of storage alone (R72, R101, R365, R373, R375, R377). -/
def privStore (p : Priv) (off v : Nat) : Priv :=
  if off = 0x100 then { p with astbase := putFields p.astbase v 0x00FFFFFFFFF00001 }
  else if off = 0x108 then { p with fttbase := putFields p.fttbase v 0x00FFFFFFFFF00000 }
  else if off = 0x110 then { p with stripesize := putFields p.stripesize v 0x0000003FFFFF0000 }
  else if 0x120 ≤ off ∧ off < 0x140 then { p with stripebase := putAt p.stripebase ((off - 0x120) / 8) v 0x0000003FFFFF0000 }
  else if 0x140 ≤ off ∧ off < 0x160 then { p with peerwin := putAt p.peerwin ((off - 0x140) / 8) v 0xFF0FFFFFFFFF0000 }
  else if 0x160 ≤ off ∧ off < 0x180 then { p with swbbase := putAt p.swbbase ((off - 0x160) / 8) v 0x0000003FFFFF0000 }
  else if off = 0x188 then { p with shootva := putFields p.shootva v 0x007FFFFFFFFF0000 }
  else if off = 0x228 then { p with fringctl := putFields p.fringctl v 0x000007FF00000000 }
  else if off = 0x238 then { p with wdog := putFields p.wdog v 0x00000000FFFFFF01 }
  else if off = 0x248 then { p with preemptarg := putFields p.preemptarg v 0x00FFFFFFFFF01FFF }
  else p

/-- A write of `FRESP` as a whole: its ACTION picks the answer (R366). -/
def State.frespWrite (s : State) (m v : Nat) : Res :=
  let fid := v % 4294967296
  match bitsOf v 34 32 with
  | 0 => execFrespRetry m fid s
  | 1 => execFrespAbandon m fid s
  | 2 => execFrespKill m fid s
  | 3 => execFrespHalt m fid s
  | _ => .next (s.answer m fid fun _ _ => none)

/-- A write of `OWNER`, which every master may make (R390, R392). -/
def State.ownerWrite (s : State) (m v : Nat) : State :=
  let s := if bitAt v 2 then s.unclaim m else s
  let s := if bitAt v 1 then s.resign m else s
  if bitAt v 0 then s.claim m else s

/-- A write of a launch-ring register of the privileged page (R333). -/
def State.privRing (s : State) (m off v : Nat) : Res :=
  if off < 0x320 then execLringWrite m 0 (4 + (off - 0x300) / 8) v s
  else execTailDoorbell m 0 (4 + (off - 0x340) / 8) v s

/-- A naturally aligned 8-byte write to the privileged page (R387). -/
def State.privWrite (s : State) (m off v : Nat) : Res :=
  if off = 0x008 then .next (s.ownerWrite m v)
  else if !(s.owns m) then .next s
  else if off = 0x180 then .next (s.frameopWrite m v)
  else if off = 0x190 then .next (s.shootWrite m v)
  else if 0x200 ≤ off ∧ off < 0x220 then execFfringWrite m ((off - 0x200) / 8) v s
  else if off = 0x220 then execFringWrite m v s
  else if off = 0x230 then s.frespWrite m v
  else if off = 0x240 then .next (s.preemptWrite m v)
  else if off = 0x250 then .next (s.dbgWrite m v)
  else if (0x300 ≤ off ∧ off < 0x320) ∨ (0x340 ≤ off ∧ off < 0x360) then s.privRing m off v
  else if off = 0x400 then execIocmdWrite m v s
  else if off = 0x408 then execIotailDoorbell m v s
  else .next (s.modPriv fun p => privStore p off v)

/-- A naturally aligned 8-byte write to the management window (R388), which every master may make (R392). -/
def State.mgmtWrite (s : State) (m off v : Nat) : State :=
  if off = 0x000 then s.capWrite v
  else if off = 0x010 then s.thermWrite v
  else if off = 0x100 then s.detWrite v
  else if off = 0x108 then { s with mgmt := { s.mgmt with rplbase := putFields s.mgmt.rplbase v 0x000003FFFFFF0000 } }
  else if off = 0x110 then { s with mgmt := { s.mgmt with rpllen := putFields s.mgmt.rpllen v 0x000000FFFFFFFFFF } }
  else if off = 0x200 then s.eraseWrite m v
  else s

/-- A naturally aligned 8-byte write to a ring control page in BAR2 (R333, R386). -/
def State.ringsWrite (s : State) (m off v : Nat) : Res :=
  let o := off % 4096
  if o < 0x20 then execLringWrite m (off / 4096) (o / 8) v s
  else if 0x40 ≤ o ∧ o < 0x60 then execTailDoorbell m (off / 4096) ((o - 0x40) / 8) v s
  else .next s

/-- Whether an access of a register is a naturally aligned one of 8 bytes (R386). -/
def wholeReg (off size : Nat) : Bool := size == 8 && off % 8 == 0

/-- A register write (R386): through BAR2 to a ring control page, through BAR0 or the management bus to the
privileged page from offset 0 or to the management window from 0x1_0000. One that is no aligned access of 8 bytes writes
nothing, and so does one to a reserved offset, to an I/O die in reset, or to the privileged page of a module that failed
to boot (R399). -/
def execRegisterWrite (m : Master) (r : RegAt) (v : Nat) (s : State) : Res :=
  if !(wholeReg r.off r.size) || !s.ioDieUp then .next s
  else if r.bar2 then (if s.boot.failed ≠ 0 then .next s else s.ringsWrite m r.off v)
  else if 0x20000 ≤ r.off then .next s
  else if r.off < 0x10000 then (if s.boot.failed ≠ 0 then .next s else s.privWrite m r.off v)
  else .next (s.mgmtWrite m (r.off - 0x10000) v)

/-- What `OWNER` reads for a master (R390). -/
def State.readOwner (s : State) (m : Nat) : Nat :=
  match s.owner.owner with
  | some o => 9223372036854775808 + o % 131072 * 4294967296 + (if o = m then 8 else 0)
  | none => 0

/-- What the privileged page reads for a master (R387, R392); all zero while a die stands failed (R399). -/
def State.readPriv (s : State) (m off : Nat) : Nat :=
  let p := s.priv
  let at_ := fun (l : List Word64) (b : Nat) => (l.getD ((off - b) / 8) 0).toNat
  if s.boot.failed ≠ 0 then 0
  else if off = 0x008 then s.readOwner m
  else if off = 0x100 then p.astbase.toNat
  else if off = 0x108 then p.fttbase.toNat
  else if off = 0x110 then p.stripesize.toNat
  else if 0x120 ≤ off ∧ off < 0x140 then at_ p.stripebase 0x120
  else if 0x140 ≤ off ∧ off < 0x160 then at_ p.peerwin 0x140
  else if 0x160 ≤ off ∧ off < 0x180 then at_ p.swbbase 0x160
  else if off = 0x180 then p.frameop.toNat
  else if off = 0x188 then p.shootva.toNat
  else if off = 0x190 then p.shootctl.toNat
  else if 0x200 ≤ off ∧ off < 0x220 then
    at_ p.ffring 0x200 + (s.reserve.filter fun r => r.1 == (off - 0x200) / 8).length * 4398046511104
  else if off = 0x220 then p.fring.toNat
  else if off = 0x228 then p.fringctl.toNat + Nat.min s.ioq.length 4095
  else if off = 0x230 then p.fresp.toNat
  else if off = 0x238 then p.wdog.toNat
  else if off = 0x240 then p.preempt.toNat
  else if off = 0x248 then p.preemptarg.toNat
  else if off = 0x250 then p.dbgstep.toNat
  else if 0x300 ≤ off ∧ off < 0x320 then (s.lring 0 (4 + (off - 0x300) / 8)).1.toNat
  else if 0x340 ≤ off ∧ off < 0x360 then (s.lring 0 (4 + (off - 0x340) / 8)).2.toNat
  else if off = 0x400 then p.iocmd.toNat
  else if off = 0x408 then p.iotail.toNat
  else 0

/-- What the management window reads (R388, R408). -/
def State.readMgmt (s : State) (off : Nat) : Nat :=
  let g := s.mgmt
  if off = 0x000 then g.pwrcap.toNat
  else if off = 0x008 then g.pwrstat.toNat
  else if off = 0x010 then g.therm.toNat
  else if off = 0x018 then g.hostoor.toNat
  else if 0x020 ≤ off ∧ off < 0x040 then (g.seccnt.getD ((off - 0x020) / 8) 0).toNat
  else if off = 0x100 then g.detmode.toNat
  else if off = 0x108 then g.rplbase.toNat
  else if off = 0x110 then g.rpllen.toNat
  else 0

/-- A naturally aligned 8-byte read of BAR0 or BAR2 (R386); any other reads 0, and so does an I/O die in reset. -/
def State.readReg (s : State) (m : Nat) (bar2 : Bool) (off size : Nat) : Nat :=
  if !(wholeReg off size) || !s.ioDieUp then 0
  else if bar2 then (if s.boot.failed ≠ 0 then 0 else s.readRings off)
  else if 0x20000 ≤ off then 0
  else if off < 0x10000 then s.readPriv m off
  else s.readMgmt (off - 0x10000)

end Sys2Proof.Machine
end

