-- ==== Sys2Proof/Machine/Special.lean ====
section
/-!
DEFINITION. Special.lean: special and uniform registers (R50 to R53, R55).
-/
namespace Sys2Proof.Machine

/-- The 32-bit special registers as a thread reads them (R50). -/
def specialOf (c : LaneCtx) (n : Nat) : Word :=
  match n with
  | 0x00 => BitVec.ofNat 32 c.t.tid
  | 0x01 => BitVec.ofNat 32 (c.t.tid / 4)
  | 0x02 => BitVec.ofNat 32 c.lane
  | 0x03 => c.b.bid
  | 0x04 => c.b.clrank
  | 0x05 => c.b.clsize
  | 0x06 => c.b.clid
  | 0x07 => BitVec.ofNat 32 c.b.die
  | 0x08 => if c.b.die < 2 then 0 else 1
  | 0x09 => c.b.gidx
  | 0x0A => c.b.gidy
  | 0x0B => c.b.gidz
  | 0x0C => c.b.ntid
  | 0x0D => BitVec.ofNat 32 (c.b.asid % 8192)
  | 0x0E => c.b.phaseno
  | 0x10 => c.b.shape.getD 0 0
  | 0x11 => c.b.shape.getD 1 0
  | 0x12 => c.b.shape.getD 2 0
  | 0x13 => c.b.shape.getD 3 0
  | 0x14 => c.t.mr
  | 0x15 => c.t.wb
  | 0x16 => c.t.fpctl
  | 0x17 => c.b.bstat
  | 0x18 => c.b.trapv
  | _ => 0

/-- `MFSR` of a special register (R55): `CYC` and `TIME` are variable-latency (R42), the count taken at issue. `TIME` is one
count for the package, so that two dies never differ by any of the 50 ns that R25 allows (log entry 3, DESIGN CHOICE). -/
def execMfsrSpecial (r : RI) (s : State) : Res :=
  .next (s.vec fun c =>
    match r.imm with
    | 0x0F => c.t.setPair r.d c.b.codebase.toNat
    | 0x19 => c.t.later r.d (wordsOf 2 (s.cycOf c.b.die))
    | 0x1A => c.t.later r.d (wordsOf 2 s.ns)
    | n => c.t.setX r.d (specialOf c n))

/-- `MFSR` of a uniform register (R55). -/
def execMfsrUniform (r : RI) (s : State) : Res :=
  .next (s.vec fun c => c.t.setX r.d (c.b.sregs.getD (r.imm % 64) 0))

/-- Change the block of the executing instruction by what its lowest-TID active thread supplies (R49). -/
def State.byFirst (s : State) (f : LaneCtx → Block → Block) : State :=
  match s.cur, s.firstLane with
  | some c, some l => s.modBlock c.core c.slot (f l)
  | _, _ => s

/-- `MTSR` (R50 to R53): reserved bits of `FPCTL` and `TRAPV` stay 0, `BSTAT` is cleared by ones, a `WB` that is no
multiple of 8 or out of range traps with subcode 5 (R46). -/
def execMtsr (r : RI) (s : State) : Res :=
  .next (match r.imm with
    | 0x14 => s.vec fun c => { c.t with mr := c.x r.a &&& 0xFFFFFFFC }
    | 0x15 =>
      let bad := fun (l : LaneCtx) => l.n r.a % 8 != 0 || decide (l.b.nregs < l.n r.a + 8)
      (s.vecOf (fun l => !(bad l)) fun l => { l.t with wb := l.x r.a }).trapLanes
        ((s.lanes.filter bad).map fun l => (l.lane, l.t.tid, illegal 5))
    | 0x16 => s.vec fun c => { c.t with fpctl := c.x r.a &&& 0xF3 }
    | 0x17 => (s.byFirst fun l b => { b with bstat := b.bstat &&& ~~~ (l.x r.a &&& 3) }).advanceAll
    | 0x18 => (s.byFirst fun l b => { b with trapv := l.x r.a &&& 0xFFFFFFC1 }).advanceAll
    | _ => s.advanceAll)

/-- `SSET` (R55): of the lowest-TID active thread. -/
def execSset (r : RI) (s : State) : Res :=
  .next ((s.byFirst fun l b => { b with sregs := b.sregs.set (r.imm % 64) (l.x r.a) }).advanceAll)

end Sys2Proof.Machine
end

