-- ==== Sys2Proof/Machine/Dispatch.lean ====
section
/-!
DEFINITION. Dispatch.lean: one arm for each constructor of `Instr`.
-/
namespace Sys2Proof.Machine

/-- The meaning of an instruction, or of a step of an agent. -/
def exec (i : Instr) (s : State) : Host.Outcome State Fault Refusal :=
  match i with
  | .nop => Sys2Proof.Machine.execNop s
  | .bra r => Sys2Proof.Machine.execBra r s
  | .brx r => Sys2Proof.Machine.execBrx r s
  | .call r => Sys2Proof.Machine.execCall r s
  | .callx r => Sys2Proof.Machine.execCallx r s
  | .ret r => Sys2Proof.Machine.execRet r s
  | .join mark low => Sys2Proof.Machine.execJoin mark low s
  | .mrset p r => Sys2Proof.Machine.execMrset p r s
  | .mrswap p r => Sys2Proof.Machine.execMrswap p r s
  | .exit mark low => Sys2Proof.Machine.execExit mark low s
  | .wbase r => Sys2Proof.Machine.execWbase r s
  | .add t p r => Sys2Proof.Machine.execAdd t p r s
  | .addi p r => Sys2Proof.Machine.execAddi p r s
  | .sub t p r => Sys2Proof.Machine.execSub t p r s
  | .mul t p r => Sys2Proof.Machine.execMul t p r s
  | .mulhi t r => Sys2Proof.Machine.execMulhi t r s
  | .mad t p r => Sys2Proof.Machine.execMad t p r s
  | .add64 t p r => Sys2Proof.Machine.execAdd64 t p r s
  | .sub64 t p r => Sys2Proof.Machine.execSub64 t p r s
  | .mul64 t p r => Sys2Proof.Machine.execMul64 t p r s
  | .idiv t r => Sys2Proof.Machine.execIdiv t r s
  | .irem t r => Sys2Proof.Machine.execIrem t r s
  | .min t r => Sys2Proof.Machine.execMin t r s
  | .max t r => Sys2Proof.Machine.execMax t r s
  | .abs t p r => Sys2Proof.Machine.execAbs t p r s
  | .neg t p r => Sys2Proof.Machine.execNeg t p r s
  | .and r => Sys2Proof.Machine.execAnd r s
  | .or r => Sys2Proof.Machine.execOr r s
  | .xor r => Sys2Proof.Machine.execXor r s
  | .andn r => Sys2Proof.Machine.execAndn r s
  | .shl p r => Sys2Proof.Machine.execShl p r s
  | .shr p r => Sys2Proof.Machine.execShr p r s
  | .sar p r => Sys2Proof.Machine.execSar p r s
  | .rot p r => Sys2Proof.Machine.execRot p r s
  | .fshl p r => Sys2Proof.Machine.execFshl p r s
  | .popc r => Sys2Proof.Machine.execPopc r s
  | .clz r => Sys2Proof.Machine.execClz r s
  | .ctz r => Sys2Proof.Machine.execCtz r s
  | .brev r => Sys2Proof.Machine.execBrev r s
  | .bfe t r => Sys2Proof.Machine.execBfe t r s
  | .bfi r => Sys2Proof.Machine.execBfi r s
  | .mov r => Sys2Proof.Machine.execMov r s
  | .movi p r => Sys2Proof.Machine.execMovi p r s
  | .movhi r => Sys2Proof.Machine.execMovhi r s
  | .cmp c p r => Sys2Proof.Machine.execCmp c p r s
  | .cmpi c p r => Sys2Proof.Machine.execCmpi c p r s
  | .sel q r => Sys2Proof.Machine.execSel q r s
  | .pand r => Sys2Proof.Machine.execPand r s
  | .por r => Sys2Proof.Machine.execPor r s
  | .pxor r => Sys2Proof.Machine.execPxor r s
  | .pnot r => Sys2Proof.Machine.execPnot r s
  | .dot4 t p r => Sys2Proof.Machine.execDot4 t p r s
  | .wadd t p r => Sys2Proof.Machine.execWadd t p r s
  | .fadd p r => Sys2Proof.Machine.execFadd p r s
  | .fsub p r => Sys2Proof.Machine.execFsub p r s
  | .fmul p r => Sys2Proof.Machine.execFmul p r s
  | .ffma p r => Sys2Proof.Machine.execFfma p r s
  | .fmin r => Sys2Proof.Machine.execFmin r s
  | .fmax r => Sys2Proof.Machine.execFmax r s
  | .fcmp c r => Sys2Proof.Machine.execFcmp c r s
  | .frcp r => Sys2Proof.Machine.execFrcp r s
  | .frsq r => Sys2Proof.Machine.execFrsq r s
  | .fsqrt p r => Sys2Proof.Machine.execFsqrt p r s
  | .fdiv p r => Sys2Proof.Machine.execFdiv p r s
  | .fexp2 r => Sys2Proof.Machine.execFexp2 r s
  | .flog2 r => Sys2Proof.Machine.execFlog2 r s
  | .fsin r => Sys2Proof.Machine.execFsin r s
  | .fcos r => Sys2Proof.Machine.execFcos r s
  | .frnd p r => Sys2Proof.Machine.execFrnd p r s
  | .hadd2 t p r => Sys2Proof.Machine.execHadd2 t p r s
  | .hmul2 t p r => Sys2Proof.Machine.execHmul2 t p r s
  | .hfma2 t p r => Sys2Proof.Machine.execHfma2 t p r s
  | .cvt td ts p r => Sys2Proof.Machine.execCvt td ts p r s
  | .qnt t r => Sys2Proof.Machine.execQnt t r s
  | .dqnt t p r => Sys2Proof.Machine.execDqnt t p r s
  | .pack t p r => Sys2Proof.Machine.execPack t p r s
  | .unpk t p r => Sys2Proof.Machine.execUnpk t p r s
  | .shfl m r => Sys2Proof.Machine.execShfl m r s
  | .vote v r => Sys2Proof.Machine.execVote v r s
  | .wred o p r => Sys2Proof.Machine.execWred o p r s
  | .qswp x r => Sys2Proof.Machine.execQswp x r s
  | .qbcst m r => Sys2Proof.Machine.execQbcst m r s
  | .qred o p r => Sys2Proof.Machine.execQred o p r s
  | .ld sz ch off r => Sys2Proof.Machine.execLd sz ch off r s
  | .lda sz ch sc off r => Sys2Proof.Machine.execLda sz ch sc off r s
  | .stWord dbl off r => Sys2Proof.Machine.execStWord dbl off r s
  | .stNarrow half off r => Sys2Proof.Machine.execStNarrow half off r s
  | .stB128 off r => Sys2Proof.Machine.execStB128 off r s
  | .str64 sc off r => Sys2Proof.Machine.execStr64 sc off r s
  | .str32 sc off r => Sys2Proof.Machine.execStr32 sc off r s
  | .sts sz off r => Sys2Proof.Machine.execSts sz off r s
  | .lds sz off r => Sys2Proof.Machine.execLds sz off r s
  | .tlds sz off r => Sys2Proof.Machine.execTlds sz off r s
  | .pref h off r => Sys2Proof.Machine.execPref h off r s
  | .cwb l off r => Sys2Proof.Machine.execCwb l off r s
  | .cinv l off r => Sys2Proof.Machine.execCinv l off r s
  | .sarm off r => Sys2Proof.Machine.execSarm off r s
  | .femk full off r => Sys2Proof.Machine.execFemk full off r s
  | .kld ch off r => Sys2Proof.Machine.execKld ch off r s
  | .maintenanceComplete core slot tid => Sys2Proof.Machine.execMaintenanceComplete core slot tid s
  | .atom op dbl off r => Sys2Proof.Machine.execAtom op dbl off r s
  | .atomr op dbl off r => Sys2Proof.Machine.execAtomr op dbl off r s
  | .cas t off r => Sys2Proof.Machine.execCas t off r s
  | .cadd dbl off r => Sys2Proof.Machine.execCadd dbl off r s
  | .cwait n32 off r => Sys2Proof.Machine.execCwait n32 off r s
  | .waita off r => Sys2Proof.Machine.execWaita off r s
  | .badd p r => Sys2Proof.Machine.execBadd p r s
  | .bwait p r => Sys2Proof.Machine.execBwait p r s
  | .barv p r => Sys2Proof.Machine.execBarv p r s
  | .fence k r => Sys2Proof.Machine.execFence k r s
  | .waiterWake core slot tid => Sys2Proof.Machine.execWaiterWake core slot tid s
  | .slicePoll core slot tid => Sys2Proof.Machine.execSlicePoll core slot tid s
  | .ioDiePoll core slot tid => Sys2Proof.Machine.execIoDiePoll core slot tid s
  | .ownershipRecall line => Sys2Proof.Machine.execOwnershipRecall line s
  | .contentionEntryExpiry line => Sys2Proof.Machine.execContentionEntryExpiry line s
  | .cacheEviction l2 idx line => Sys2Proof.Machine.execCacheEviction l2 idx line s
  | .hostSnoop sector => Sys2Proof.Machine.execHostSnoop sector s
  | .variableResultLands core slot tid k => Sys2Proof.Machine.execVariableResultLands core slot tid k s
  | .pageWalk die asid va k => Sys2Proof.Machine.execPageWalk die asid va k s
  | .tcpyLd p r => Sys2Proof.Machine.execTcpyLd p r s
  | .tcpySt p r => Sys2Proof.Machine.execTcpySt p r s
  | .gcpyGather p r => Sys2Proof.Machine.execGcpyGather p r s
  | .gcpyScatter p r => Sys2Proof.Machine.execGcpyScatter p r s
  | .mcpy p r => Sys2Proof.Machine.execMcpy p r s
  | .wcpy p r => Sys2Proof.Machine.execWcpy p r s
  | .streamPlaceFrees core slot tid => Sys2Proof.Machine.execStreamPlaceFrees core slot tid s
  | .thnd r => Sys2Proof.Machine.execThnd r s
  | .copyLineServe core slot q => Sys2Proof.Machine.execCopyLineServe core slot q s
  | .copyComplete core slot q => Sys2Proof.Machine.execCopyComplete core slot q s
  | .obres r => Sys2Proof.Machine.execObres r s
  | .obrel r => Sys2Proof.Machine.execObrel r s
  | .obdup p r => Sys2Proof.Machine.execObdup p r s
  | .obclr r => Sys2Proof.Machine.execObclr r s
  | .mma z p r => Sys2Proof.Machine.execMma z p r s
  | .mmah z p r => Sys2Proof.Machine.execMmah z p r s
  | .mmahFetchLanded core slot => Sys2Proof.Machine.execMmahFetchLanded core slot s
  | .engineMultiply core => Sys2Proof.Machine.execEngineMultiply core s
  | .multiplyLands core => Sys2Proof.Machine.execMultiplyLands core s
  | .obrd t r => Sys2Proof.Machine.execObrd t r s
  | .obwr t r => Sys2Proof.Machine.execObwr t r s
  | .obrdLands core slot tid => Sys2Proof.Machine.execObrdLands core slot tid s
  | .obld p r => Sys2Proof.Machine.execObld p r s
  | .obst p r => Sys2Proof.Machine.execObst p r s
  | .engineQueuePlaceFrees core slot => Sys2Proof.Machine.execEngineQueuePlaceFrees core slot s
  | .selk p r => Sys2Proof.Machine.execSelk p r s
  | .selks p r => Sys2Proof.Machine.execSelks p r s
  | .selu p r => Sys2Proof.Machine.execSelu p r s
  | .selectionQueuePlaceFrees core slot tid => Sys2Proof.Machine.execSelectionQueuePlaceFrees core slot tid s
  | .selectionCommandRun bed => Sys2Proof.Machine.execSelectionCommandRun bed s
  | .selectionComplete bed => Sys2Proof.Machine.execSelectionComplete bed s
  | .rres r => Sys2Proof.Machine.execRres r s
  | .rcom p r => Sys2Proof.Machine.execRcom p r s
  | .rget p r => Sys2Proof.Machine.execRget p r s
  | .rfre p r => Sys2Proof.Machine.execRfre p r s
  | .phase p r => Sys2Proof.Machine.execPhase p r s
  | .launch r => Sys2Proof.Machine.execLaunch r s
  | .yield r => Sys2Proof.Machine.execYield r s
  | .mfsrSpecial r => Sys2Proof.Machine.execMfsrSpecial r s
  | .mfsrUniform r => Sys2Proof.Machine.execMfsrUniform r s
  | .mtsr r => Sys2Proof.Machine.execMtsr r s
  | .sset r => Sys2Proof.Machine.execSset r s
  | .trap r => Sys2Proof.Machine.execTrap r s
  | .bkpt r => Sys2Proof.Machine.execBkpt r s
  | .rtt r => Sys2Proof.Machine.execRtt r s
  | .tlbi k r => Sys2Proof.Machine.execTlbi k r s
  | .icinv r => Sys2Proof.Machine.execIcinv r s
  | .warpForm core => Sys2Proof.Machine.execWarpForm core s
  | .poolReady core slot tid => Sys2Proof.Machine.execPoolReady core slot tid s
  | .boundGroupRelease core slot grp => Sys2Proof.Machine.execBoundGroupRelease core slot grp s
  | .castingStarvation core => Sys2Proof.Machine.execCastingStarvation core s
  | .faultBatchSend core => Sys2Proof.Machine.execFaultBatchSend core s
  | .faultRingWrite => Sys2Proof.Machine.execFaultRingWrite s
  | .stagehandFill => Sys2Proof.Machine.execStagehandFill s
  | .stagehandFillComplete k ok => Sys2Proof.Machine.execStagehandFillComplete k ok s
  | .watchdogExpiry core slot tids => Sys2Proof.Machine.execWatchdogExpiry core slot tids s
  | .frespRetry m fid => Sys2Proof.Machine.execFrespRetry m fid s
  | .frespAbandon m fid => Sys2Proof.Machine.execFrespAbandon m fid s
  | .frespKill m fid => Sys2Proof.Machine.execFrespKill m fid s
  | .frespHalt m fid => Sys2Proof.Machine.execFrespHalt m fid s
  | .dbgstepThread m v => Sys2Proof.Machine.execDbgstepThread m v s
  | .dbgstepPc m v => Sys2Proof.Machine.execDbgstepPc m v s
  | .preemptSuspendAsid m v => Sys2Proof.Machine.execPreemptSuspendAsid m v s
  | .preemptResumeAsid m v => Sys2Proof.Machine.execPreemptResumeAsid m v s
  | .forceSave m v => Sys2Proof.Machine.execForceSave m v s
  | .restore m v => Sys2Proof.Machine.execRestore m v s
  | .preemptKillLaunch m v => Sys2Proof.Machine.execPreemptKillLaunch m v s
  | .preemptKillAsid m v => Sys2Proof.Machine.execPreemptKillAsid m v s
  | .blockExit core slot => Sys2Proof.Machine.execBlockExit core slot s
  | .blockExitAdds => Sys2Proof.Machine.execBlockExitAdds s
  | .launchRingConsume asid n => Sys2Proof.Machine.execLaunchRingConsume asid n s
  | .launchWaitsMet id => Sys2Proof.Machine.execLaunchWaitsMet id s
  | .launchReady id => Sys2Proof.Machine.execLaunchReady id s
  | .clusterPlace die => Sys2Proof.Machine.execClusterPlace die s
  | .placementBackoffExpiry die => Sys2Proof.Machine.execPlacementBackoffExpiry die s
  | .phaseEntry id => Sys2Proof.Machine.execPhaseEntry id s
  | .tailDoorbell m asid n v => Sys2Proof.Machine.execTailDoorbell m asid n v s
  | .lringWrite m asid n v => Sys2Proof.Machine.execLringWrite m asid n v s
  | .ffringWrite m die v => Sys2Proof.Machine.execFfringWrite m die v s
  | .fringWrite m v => Sys2Proof.Machine.execFringWrite m v s
  | .iotailDoorbell m v => Sys2Proof.Machine.execIotailDoorbell m v s
  | .iocmdWrite m v => Sys2Proof.Machine.execIocmdWrite m v s
  | .ioCopy => Sys2Proof.Machine.execIoCopy s
  | .flwr => Sys2Proof.Machine.execFlwr s
  | .flrd => Sys2Proof.Machine.execFlrd s
  | .ioCommandComplete => Sys2Proof.Machine.execIoCommandComplete s
  | .frameopPurgeWriteback m v => Sys2Proof.Machine.execFrameopPurgeWriteback m v s
  | .frameopPurgeDiscard m v => Sys2Proof.Machine.execFrameopPurgeDiscard m v s
  | .frameopBackInvalidate m v => Sys2Proof.Machine.execFrameopBackInvalidate m v s
  | .frameopComplete => Sys2Proof.Machine.execFrameopComplete s
  | .shootRange m v => Sys2Proof.Machine.execShootRange m v s
  | .shootAsid m v => Sys2Proof.Machine.execShootAsid m v s
  | .shootAll m v => Sys2Proof.Machine.execShootAll m v s
  | .shootdownAcknowledge die k => Sys2Proof.Machine.execShootdownAcknowledge die k s
  | .shootdownComplete k => Sys2Proof.Machine.execShootdownComplete k s
  | .ownerClaim m => Sys2Proof.Machine.execOwnerClaim m s
  | .ownerRelease m => Sys2Proof.Machine.execOwnerRelease m s
  | .ownerWithdraw m => Sys2Proof.Machine.execOwnerWithdraw m s
  | .claimWindowClose => Sys2Proof.Machine.execClaimWindowClose s
  | .ownerLoss => Sys2Proof.Machine.execOwnerLoss s
  | .flerase m v => Sys2Proof.Machine.execFlerase m v s
  | .detmodeWrite m v => Sys2Proof.Machine.execDetmodeWrite m v s
  | .pwrcapWrite m v => Sys2Proof.Machine.execPwrcapWrite m v s
  | .thermClear m v => Sys2Proof.Machine.execThermClear m v s
  | .powerEvaluation power inlet tj => Sys2Proof.Machine.execPowerEvaluation power inlet tj s
  | .thermalTrip => Sys2Proof.Machine.execThermalTrip s
  | .registerWrite m r v => Sys2Proof.Machine.execRegisterWrite m r v s
  | .hostMemRead hpa ask => Sys2Proof.Machine.execHostMemRead hpa ask s
  | .hostMemWrite hpa mask data => Sys2Proof.Machine.execHostMemWrite hpa mask data s
  | .deviceReset images => Sys2Proof.Machine.execDeviceReset images s
  | .linkTrainingReport failed => Sys2Proof.Machine.execLinkTrainingReport failed s
  | .bootComplete => Sys2Proof.Machine.execBootComplete s
  | .getMeasurements ask => Sys2Proof.Machine.execGetMeasurements ask s
  | .getCertificate ask => Sys2Proof.Machine.execGetCertificate ask s
  | .challenge ask => Sys2Proof.Machine.execChallenge ask s
  | .keyExchange ask => Sys2Proof.Machine.execKeyExchange ask s
  | .softError place double => Sys2Proof.Machine.execSoftError place double s
  | .configurationRequest kind v => Sys2Proof.Machine.execConfigurationRequest kind v s
  | .hostLinkTraining width => Sys2Proof.Machine.execHostLinkTraining width s
  | .pendingClaimLinkLoss m => Sys2Proof.Machine.execPendingClaimLinkLoss m s

end Sys2Proof.Machine
end

