-- ==== Sys2Proof/Machine/Issue.lean ====
section
/-!
DEFINITION. Issue.lean: the issue of one warp's next instruction: the fetch (R37, R40), the switch marker (R44), the
decode checks (R58) with the two that only a block or a thread decides, the collectives' need of a full warp (R213),
the meaning, and what follows every instruction: meetings are examined again (R313), a debug step ends (R324).
-/
namespace Sys2Proof.Machine

/-- The major opcode of a word. -/
def opOf (w : Nat) : Nat := w / 16777216 % 128
/-- Whether a major opcode is a collective's (R213, R226). -/
def collectiveOp (op : Nat) : Bool :=
  op == 0x51 || op == 0x58 || op == 0x59 || op == 0x5A || (decide (0x74 ≤ op) && decide (op ≤ 0x77))
/-- Whether a major opcode is a quad instruction's (R217). -/
def quadOp (op : Nat) : Bool := decide (0x5B ≤ op) && decide (op ≤ 0x5D)

/-- Before some bytes of a line are fetched, the line is made ready as for a load; a fetch that a cache may serve brings
them into the L2 of the die, where that may hold them (R96, R109, R288). `p` is the place of the line's first byte. -/
def State.fetchLine (s : State) (core : Nat) (p : Place) (m : BitVec 128) : State :=
  let line := p.key / 128
  let die := core / 128
  if !(s.l1Holds p) then s.atHome (some core) p m false
  else
    let s := if p.tt = 3 then s.hostTakeAll line m false (some die) else s
    let s := if l2Holds p die && s.holdsAll (.l2 die) line m then s else s.recallFor core line
    s.fillLine core p 0 m false

/-- The 16 words of the fetch block at a VA, from the instruction cache or from memory (R37, R40); a poisoned word is
reported. A fetch translates like a load, whether or not the cache holds the block; in an empty scratchpad line it finds
the bytes as they stand (log entry 88, DESIGN CHOICE). -/
def State.fetchBlock (s : State) (core : Nat) (q : Asker) (va pcVa : Nat) :
    State × Except Trap (List Nat × Option Nat) :=
  let vas := (List.range 64).map fun i => va + i
  let acc : LAcc := { lane := 0, tid := 0, vas := vas }
  let lines := linesOf vas
  let (s, tab) := s.xlatLines q .fetch lines
  let failing := lines.findSome? fun l =>
    match tab.get l with
    | .error f => some (f.trap (if l = pcVa / 128 then pcVa else l * 128) .fetch)
    | .ok _ => none
  match failing with
  | some t => (s, .error t)
  | none =>
    match s.icache.find? fun b => b.core == core && b.asid == q.asid && b.va == va with
    | some b => (s, .ok (b.words, none))
    | none =>
      let s := lines.foldl (fun s l =>
        match tab.get l with
        | .ok p => s.fetchLine core p (bytesIn [acc] l)
        | .error _ => s) s
      let ps := acc.places tab
      let bytes := ps.map fun p => if s.l1Holds p then s.l2Byte (core / 128) p else s.rd p.key
      let words := (List.range 16).map fun i => ofBytesLE ((bytes.drop (4 * i)).take 4)
      match ps.find? fun p => if s.l1Holds p then s.l2Bad (core / 128) p else s.poisoned p.key with
      | some p => (s, .ok (words, some p.key))
      | none => ({ s with icache := { core := core, asid := q.asid, va := va, words := words } :: s.icache },
          .ok (words, none))

/-- After an instruction of a warp of a debug step (R324): each stepped thread of it that is not held, parked or exited
returns to the debug halt; when no warp of the step is left, those that the step's instructions have released since do
too, and BUSY clears. -/
def State.debugEnd (s : State) (w : Warp) (tids : List Nat) : State :=
  if !w.debug then s else
  let s := s.debugBack fun b t => b.core == w.core && b.slot == w.slot && tids.contains t.tid
  if s.warps.any (·.debug) || !s.steps.isEmpty then s else (s.debugBack fun _ _ => true).debugDone

/-- The threads of a warp of a debug step issue: they stand in no bound group any more, and in no condition that the
watchdog took them from (R308, R324, R366). -/
def State.debugIssues (s : State) (w : Warp) (tids : List Nat) : State :=
  if !w.debug then s else
  let mine := fun (t : Thread) => tids.contains t.tid
  s.modBlock w.core w.slot fun b =>
    { b with threads := mapIf mine (fun t => { t with bound := none, left := none }) b.threads }

/-- Whether a debug step in thread mode refuses an instruction (R324). -/
def State.debugRefuses (s : State) (w : Warp) (op : Nat) : Bool :=
  w.debug && bitsOf s.priv.dbgstep.toNat 61 60 == 0 && (collectiveOp op || quadOp op)

/-- The threads of a full warp park together because some of them trap a decode check of a collective (R213, R308):
those have their records, the others wait as members of the group. -/
def State.trapCollective (s : State) (core slot : Nat) (pc : Word) (bad : List (Nat × Nat × Trap))
    (rest : List (Nat × Nat)) : State :=
  let grp := ((s.block? core slot).map (·.nextBound)).getD 0
  let s := s.takeTraps core slot pc true bad
  let kept := ((s.block? core slot).map fun b => b.threads.any fun t => t.bound == some grp).getD false
  let tids := rest.map (·.2)
  let s := s.leave core slot tids (if kept then .wings .cleared else s.poolNow)
  s.modBlock core slot fun b =>
    { b with threads := b.threads.map fun t =>
        match rest.find? fun m => m.2 == t.tid with
        | some m => if kept then { t with bound := some grp, homeLane := m.1 } else t
        | none => t }

/-- Whether every register an instruction names lies in a thread's allocation (R46, check 6 of R58). -/
def Thread.holds (t : Thread) (i : Instr) (n : Nat) : Bool := i.opnds.all fun o => o.within t.wb.toNat n

/-- Whether an instruction sets a thread's `WB` out of range: the cause of check 6, so that where some threads of a warp
fail that check these go into its record (R46, R359). -/
def badBase (i : Instr) (l : LaneCtx) : Bool :=
  match i with
  | .mtsr r => r.imm == 0x15 && (l.n r.a % 8 != 0 || decide (l.b.nregs < l.n r.a + 8))
  | _ => false

/-- Whether a barrier that an instruction names lies at or beyond the kernel's `.barriers` (R48, check 5 of R58). -/
def barrierBeyond (b : Block) (i : Instr) : Bool :=
  match i with
  | .badd _ r | .bwait _ r | .barv _ r => decide (b.bars ≤ r.d)
  | _ => false

/-- The registers that an instruction reads: its sources, and the destinations that it changes in part (R47, R196). -/
def readsOf (i : Instr) : List Opnd :=
  i.opnds.filter fun o => !o.dst || (match i with
    | .movhi .. | .bfi .. | .cas .. => true
    | _ => false)

/-- The guard of an instruction that has one (R41). -/
def guardOf (i : Instr) : Option (Bool × Nat) :=
  match i with
  | .bra r | .call r => some (r.n, r.p)
  | .brx r | .callx r | .ret r => some (r.n, r.p)
  | .stWord _ _ r | .stNarrow _ _ r | .stB128 _ r | .str64 _ _ r | .str32 _ _ r | .sts _ _ r | .atom _ _ _ r
  | .atomr _ _ _ r | .cas _ _ r | .cadd _ _ r => some (r.n, r.p)
  | _ => none

/-- The 64-bit words of a thread's registers that an operand names. -/
def Thread.pairsOf (t : Thread) (o : Opnd) : List Nat :=
  if 120 ≤ o.code then [] else (List.range o.n).map fun j => (t.wb.toNat + o.code + j) / 2

/-- Whether an instruction reads a poisoned word of a thread's registers (R105). -/
def Thread.readsPoison (t : Thread) (i : Instr) : Bool :=
  !t.badRegs.isEmpty && ((guardOf i).all fun g => t.guard g.1 g.2) &&
    (readsOf i).any fun o => (t.pairsOf o).any fun p => t.badRegs.contains p

/-- A thread's registers as an instruction leaves their poison: a 64-bit word that it writes whole has none (R105). -/
def Thread.heals (i : Instr) (t : Thread) : Thread :=
  if t.badRegs.isEmpty || !((guardOf i).all fun g => t.guard g.1 g.2) then t
  else
    let whole := (i.opnds.filter fun o => o.dst && decide (2 ≤ o.n)).flatMap t.pairsOf
    { t with badRegs := t.badRegs.filter fun p => !(whole.contains p) }

/-- The threads of a warp instruction write what they write whole (R105). -/
def State.heal (s : State) (c : Cur) (i : Instr) : State :=
  if (s.block? c.core c.slot).all fun b => b.threads.all fun t => t.badRegs.isEmpty then s
  else
    let mine := fun (t : Thread) => c.act.any fun m => m.2 == t.tid
    s.modBlock c.core c.slot fun b => { b with threads := mapIf mine (Thread.heals i) b.threads }

/-- Run the meaning of an instruction for some threads of a warp; a thread that reads a poisoned register kills its launch
(R105). -/
def State.runFor (s : State) (c : Cur) (i : Instr) : Res :=
  if (s.block? c.core c.slot).any fun b => b.threads.any fun t =>
      (c.act.any fun m => m.2 == t.tid) && t.readsPoison i then .next (s.consumePoison c.core c.slot)
  else
  match exec i { s.heal c i with cur := some c } with
  | .next s => .next ((({ s with cur := none } : State).meet c.core c.slot).phaseCheck c.core c.slot)
  | o => o

/-- Issue a decoded instruction for the members of a warp (R58, R213). -/
def State.issueDecoded (s : State) (b : Block) (w : Warp) (pc : Word) (ms : List (Nat × Nat)) (op : Nat)
    (d : Except DecodeError (Instr × Nat)) : Res :=
  let full := ms.length == 32
  match d with
  | .error e => .next (s.takeTraps w.core w.slot pc (full && collectiveOp op)
      (ms.map fun m => (m.1, m.2, illegal e.subcode)))
  | .ok (i, n) =>
    if barrierBeyond b i then .next (s.takeTraps w.core w.slot pc false (ms.map fun m => (m.1, m.2, illegal 4)))
    else
      let held := fun (m : Nat × Nat) => ((b.thread? m.2).map fun t => t.holds i b.nregs).getD false
      let all := ms.all held
      let ok := fun (m : Nat × Nat) => held m &&
        (all || ((b.thread? m.2).map fun t => !(badBase i { lane := m.1, t := t, b := b, cyc := 0 })).getD false)
      let good := ms.filter ok
      let bad := (ms.filter fun m => !(ok m)).map fun m => (m.1, m.2, illegal 5)
      let cur : Cur := { core := w.core, slot := w.slot, warp := w.id, pc := pc, len := 4 * n, act := good, full := full }
      if collectiveOp op then
        if !full then
          .next (s.takeTraps w.core w.slot pc false (bad ++ good.map fun m => (m.1, m.2, ({ cls := 3 } : Trap))))
        else if bad.isEmpty then s.runFor cur i
        else if 0x74 ≤ op then .next (s.takeTraps w.core w.slot pc true (ms.map fun m => (m.1, m.2, illegal 5)))
        else .next (s.trapCollective w.core w.slot pc bad good)
      else
        let s := s.takeTraps w.core w.slot pc false bad
        if good.isEmpty then .next s else s.runFor cur i

/-- The members of a warp with their lanes, ascending TID. -/
def Warp.byTid (w : Warp) : List (Nat × Nat) :=
  let tids := w.members.foldl (fun l m => insNat m.2 l) []
  tids.filterMap fun t => w.members.find? fun m => m.2 == t

/-- The words of a fetch block that the instruction at a code offset may use: its own, the next, and whether its own is
the last of the block. -/
def wordsAt (words : List Nat) (pc : Word) : Nat × Nat × Bool :=
  let i := pc.toNat / 4 % 16
  (words.getD i 0, if i = 15 then 0 else words.getD (i + 1) 0, i == 15)

/-- Whether the instruction in some words carries the switch marker: S of the word, or of the word behind a prefix
(R34, R44). -/
def markedWord (w0 w1 : Nat) (last : Bool) : Bool :=
  if opOf w0 = 0x7F then !last && bitAt w1 31 else bitAt w0 31

/-- The opcode of an instruction: that of the word behind a prefix. -/
def mainOp (w0 w1 : Nat) (last : Bool) : Nat := if opOf w0 = 0x7F then (if last then 0x7F else opOf w1) else opOf w0

/-- Whether a full warp's `MMA` or `MMAH` finds the engine's queue full: it is held at issue, and nothing has issued (R239).
One that fails a decode check traps instead (R58). -/
def State.heldAtIssue (s : State) (b : Block) (ms : List (Nat × Nat)) (op : Nat)
    (d : Except DecodeError (Instr × Nat)) : Bool :=
  op == 0x75 && ms.length == 32 && s.mulsFull b.core &&
    (match d with
      | .ok (i, _) => ms.all fun m => (b.thread? m.2).any fun t => t.holds i b.nregs
      | .error _ => false)

/-- Issue one warp's next instruction once its fetch block is at hand (R44, R58). -/
def State.issueFetched (s : State) (b : Block) (w : Warp) (pc : Word) (ms : List (Nat × Nat)) (words : List Nat) :
    Res :=
  let (w0, w1, last) := wordsAt words pc
  let tids := ms.map (·.2)
  let marked := markedWord w0 w1 last || w.starve
  if marked && !w.fresh && decide (ms.length < 32) then .next ((s.toPool w.core w.slot tids).meet w.core w.slot)
  else
    let s := if marked then tids.foldl (fun s t => s.settle w.core w.slot t) s else s
    if marked && (tids.any fun t => s.obWaits w.core w.slot t) then .next s else
    if s.heldAtIssue b ms (mainOp w0 w1 last) (decode last w0 w1) then .next s else
    let mine := fun (x : Warp) => x.core == w.core && x.slot == w.slot && x.id == w.id
    let s := { s with warps := mapIf mine (fun x => { x with fresh := false, starve := false, last := s.now }) s.warps }
    if s.debugRefuses w (mainOp w0 w1 last) then
      .next (({ s with priv := { s.priv with dbgstep := s.priv.dbgstep ||| 0x4000000000000000 } } : State).debugEnd w tids)
    else
      let s := s.debugIssues w tids
      match s.issueDecoded ((s.block? w.core w.slot).getD b) w pc ms (mainOp w0 w1 last) (decode last w0 w1) with
      | .next s => .next (s.debugEnd w tids)
      | o => o

/-- A warp's next instruction issues (R37, R44). -/
def State.issue (s : State) (core slot id : Nat) : Res :=
  match s.warp? core slot id, s.block? core slot with
  | some w, some b =>
    let ms := w.byTid
    match ms.head?.bind fun m => b.thread? m.2 with
    | none => .next s
    | some t =>
      let va := b.codebase.toNat + t.pc.toNat / 64 * 64
      match s.fetchBlock core b.asker va (b.codebase.toNat + t.pc.toNat) with
      | (s, .error tr) =>
        .next ((s.takeTraps core slot t.pc false (ms.map fun m => (m.1, m.2, tr))).debugEnd w (ms.map (·.2)))
      | (s, .ok (_, some _)) => .next (s.consumePoison core slot)
      | (s, .ok (words, none)) => s.issueFetched b w t.pc ms words
  | _, _ => .next s

/-- Whether a warp can surely issue (R309): its fetch block stands in the instruction cache, and its instruction waits for
nothing, neither at a marker (R44) nor for a place in the engine's queue (R239). -/
def State.canIssue (s : State) (w : Warp) : Bool :=
  match s.block? w.core w.slot with
  | none => false
  | some b =>
    match w.byTid.head?.bind fun m => b.thread? m.2 with
    | none => false
    | some t =>
      match s.icache.find? fun x => x.core == w.core && x.asid == b.asid &&
          x.va == b.codebase.toNat + t.pc.toNat / 64 * 64 with
      | none => false
      | some x =>
        let (w0, w1, last) := wordsAt x.words t.pc
        let rests := w.byTid.all fun m => (b.thread? m.2).all fun (t : Thread) =>
          t.pend.isEmpty && t.maint.isEmpty
        !(s.heldAtIssue b w.byTid (mainOp w0 w1 last) (decode last w0 w1)) && (!(markedWord w0 w1 last || w.starve) || rests)

/-- Whether it is a warp's turn on its pipe (R309, R321): no other warp of the pipe that can issue has waited longer since
its last issue, or since its cast (log entry 79, DESIGN CHOICE). -/
def State.warpTurn (s : State) (core slot id : Nat) : Bool :=
  match s.warp? core slot id with
  | none => false
  | some w =>
    !(s.warps.any fun u => u.core == core && u.pipe == w.pipe && decide (u.last < w.last) && s.canIssue u)

end Sys2Proof.Machine
end

