-- ==== Sys2Proof/Machine/Sched.lean ====
section
/-!
DEFINITION. Sched.lean: what one step does beside the meaning it runs: the clocks (R25), the acts, the default order of
acts, and the placing of a program (log entry 2).
-/
namespace Sys2Proof.Machine

/-- The clocks after one more step (R25, log entry 3). -/
def State.tick (s : State) : State :=
  { s with
    now := s.now + 1
    ns := s.ns + Config.nanos s.now
    cyc := s.cyc.zipIdx.map fun p => p.1 + Config.cycles p.2 s.now }

/-- One act as it is taken: a warp whose turn it is issues, or an agent takes a step of the table. -/
def State.actOnce (s : State) (a : Act) : Res :=
  match a with
  | .issue core slot warp => if s.warpTurn core slot warp then s.issue core slot warp else .next s
  | .ev i => if i.isWord then .next s else exec i s

/-- One act, after which every cache holds no more than it has room for (R88, R92, R98, R287). -/
def State.act (s : State) (a : Act) : Res :=
  match s.actOnce a with
  | .next s => .next s.trim
  | o => o

/-- The acts that a thread makes possible. -/
def threadActs (b : Block) (t : Thread) : List Act :=
  (match t.cond with
    | .pool _ false => [Act.ev (.poolReady b.core b.slot t.tid)]
    | .pool _ true => [Act.ev (.warpForm b.core)]
    | .wings .cleared => (t.bound.map fun g => Act.ev (.boundGroupRelease b.core b.slot g)).toList
    | .wings (.counter ..) | .wings (.address ..) | .wings (.barrier ..) | .wings (.ringFull ..)
    | .wings (.ringEmpty ..) => [.ev (.waiterWake b.core b.slot t.tid)]
    | .wings (.stream _) => [.ev (.streamPlaceFrees b.core b.slot t.tid)]
    | .wings .selQueue => [.ev (.selectionQueuePlaceFrees b.core b.slot t.tid)]
    | _ => []) ++
  ((t.pend.findIdx? fun p => !p.due).map fun k => Act.ev (.variableResultLands b.core b.slot t.tid k)).toList ++
  (if t.maint.isEmpty then [] else [Act.ev (.maintenanceComplete b.core b.slot t.tid)])

/-- The acts that a block makes possible. -/
def blockActs (b : Block) : List Act :=
  b.threads.flatMap (threadActs b) ++
  (List.range 4).flatMap (fun q =>
    if (b.streams.getD q []).isEmpty then []
    else [Act.ev (.copyLineServe b.core b.slot q), Act.ev (.copyComplete b.core b.slot q)]) ++
  (if b.threads.all fun t => !t.live then [Act.ev (.blockExit b.core b.slot)] else [])

/-- The acts that the state makes possible, one kind after another. -/
def State.candidates (s : State) : List Act :=
  (s.warps.map fun w => Act.issue w.core w.slot w.id) ++
  s.blocks.flatMap blockActs ++
  (s.steps.map fun w => Act.ev (.warpForm w.1)) ++
  (s.fetches.map fun f => Act.ev (.mmahFetchLanded f.core f.slot)) ++
  (s.muls.flatMap fun m => [Act.ev (.engineMultiply m.core), Act.ev (.multiplyLands m.core)]) ++
  (s.obOps.map fun r => Act.ev (.obrdLands r.core r.slot 0)) ++
  (s.selq.flatMap fun c => [Act.ev (.selectionCommandRun c.bed), Act.ev (.selectionComplete c.bed)]) ++
  (s.batch.map fun p => Act.ev (.faultBatchSend p.1)) ++
  (if s.ioq.isEmpty then [] else [Act.ev .faultRingWrite]) ++
  (if s.stageq.isEmpty && s.fills.all (fun f => f.frame.isSome) then [] else [Act.ev .stagehandFill]) ++
  (s.fills.map fun f => Act.ev (.stagehandFillComplete f.leafKey true)) ++
  (if s.adds.isEmpty then [] else [Act.ev .blockExitAdds]) ++
  (s.consume.map fun c => Act.ev (.launchRingConsume c.1 c.2.1)) ++
  (s.launches.flatMap fun l =>
    match l.st with
    | .submitted | .waiting => [Act.ev (.launchWaitsMet l.id)]
    | .ready => [Act.ev (.launchReady l.id)]
    | .running => [Act.ev (.phaseEntry l.id)]
    | _ => []) ++
  (s.reqs.map fun r => if r.backoff then Act.ev (.placementBackoffExpiry r.die) else Act.ev (.clusterPlace r.die)) ++
  (s.shoots.flatMap fun h =>
    (List.range 4).map (fun d => Act.ev (.shootdownAcknowledge d h.id)) ++ [Act.ev (.shootdownComplete h.id)]) ++
  (if s.frameop.isSome then [Act.ev .frameopComplete] else []) ++
  (if s.saving.isSome then [Act.ev (.forceSave 0 0)] else []) ++
  (if s.iocmds.isEmpty && !s.iotold then [] else [Act.ev .ioCopy, Act.ev .flwr, Act.ev .flrd, Act.ev .ioCommandComplete])

/-- What moves next where the agenda is empty: the possible acts in turn (log entry 2). -/
def State.pick (s : State) : Option Act :=
  let l := s.candidates
  l[s.now % l.length]?

/-! ## A program placed from outside -/

/-- Write an 8-byte value into HBM. -/
def put8 (m : List Host.Cell) (a v : Nat) : List Host.Cell := memWrite m a (bytesLE 8 v)

/-- A thread at block start (R303). -/
def freshThread (tid nregs : Nat) (entry : Word) (p0 : Bool) (cond : Cond) : Thread :=
  { tid := tid, cond := cond, pc := entry, regs := List.replicate nregs 0, preds := if p0 then 1 else 0 }

/-- A block of 32 threads with every register, barrier and record at its value of block start, standing in a warp. -/
def freshBlock (launch : Nat) : Block :=
  { core := 0, slot := 0, launch := launch, bid := 0, clrank := 0, clsize := 1, clid := 0, gidx := 0, gidy := 0,
    gidz := 0, ntid := 32, asid := 1, priv := true, codebase := 0, shape := [0, 0, 0, 0], nregs := 128, bars := 48,
    carry := 0, scr := 8, opb := 512, scrBase := 0, opbBase := 0, ranks := [(0, 0, 0)],
    sregs := List.replicate 64 0, krecs := List.replicate 32 0, handles := List.replicate 16 none,
    barrs := List.replicate 48 0, slots := List.replicate 16 {}, streams := [[], [], [], []],
    seqs := [0, 0, 0, 0, 0, 0],
    threads := (List.range 32).map fun t => freshThread t 128 0 true .cast }

/-- Place a program: its bytes in frame 5, mapped at VA 0 of address space 1 by tables in frames 1 to 4, its frame type
byte in frame 6, a block with one full warp at offset 0, and its issue next on the agenda. -/
def State.placeProgram (s : State) (bytes : List Byte) : State :=
  let m := put8 s.mem 0x10008 0x200001         -- address space 1: root table in frame 2
  let m := put8 m 0x20000 0x300001             -- level 3: table in frame 3
  let m := put8 m 0x30000 0x400001             -- level 2: table in frame 4
  let m := put8 m 0x40000 0x50803F             -- level 1: leaf of frame 5: V, W, X, U, A, D, L
  let m := memWrite m 0x50000 bytes
  let m := memWrite m 0x60005 [0x80]           -- frame 5: REL, T = 1
  { s with
    mem := m
    priv := { s.priv with astbase := 0x100001, fttbase := 0x600000 }
    copies := []
    tlb := []
    icache := []
    poison := []
    blocks := freshBlock s.nextLaunch :: s.blocks.filter fun b => !(b.core == 0 && b.slot == 0)
    warps :=
      { core := 0, slot := 0, id := s.nextWarp, pipe := 0, lanes := (List.range 32).map some, last := s.now } ::
        s.warps.filter fun w => !(w.core == 0 && w.slot == 0)
    nextWarp := s.nextWarp + 1
    agenda := .issue 0 0 s.nextWarp :: s.agenda }

end Sys2Proof.Machine
end

