-- ==== Sys2Proof/Machine/Step.lean ====
section
/-!
DEFINITION. Step.lean: the step of the machine, and the placing of one instruction where it fetches next.
-/
namespace Sys2Proof.Machine

/-- One step: what the agenda names moves, or, with an empty agenda, what the scheduler picks; the clocks go on (R25).
A step of the model is one of the steps of the opcode table (log entry 2). -/
def step (s : State) : Host.Outcome State Fault Refusal :=
  match s.agenda with
  | a :: r => ({ s.tick with agenda := r } : State).act a
  | [] =>
    match s.pick with
    | some a => s.tick.act a
    | none => .next s.tick

/-- The state with one instruction where the next step fetches it: a block of 32 threads as R303 leaves them at block
start, cast as one warp on core 0, its code page mapped in address space 1 (log entry 2). -/
def State.withFetchWord (s : State) (nbits w : Nat) : State := s.placeProgram (tableBytes nbits w)

end Sys2Proof.Machine
end

