-- ==== Sys2Proof/Safety.lean ====
section
/-!
DEFINITION. Safety.lean: what the statements mean by an instruction that executes for some threads, by a step that
touches nothing but them, and by a state in good order.
-/
namespace Sys2Proof.Machine

/-- The memory list is in canonical form. -/
def State.memOk (s : State) : Prop := Memory.wf s.mem = true

/-- An instruction executes for some threads of a warp: its block is there, no thread executes it twice, no two stand in
one of the 32 lanes, and each of them is a thread of the block. -/
structure Runs (s : State) (c : Cur) (b : Block) : Prop where
  cur : s.cur = some c
  block : s.block? c.core c.slot = some b
  once : (c.act.map (·.2)).Nodup
  apart : (c.act.map (·.1)).Nodup
  inWarp : ∀ m ∈ c.act, m.1 < 32
  there : ∀ m ∈ c.act, (b.thread? m.2).isSome = true

/-- One thread alone executes an instruction. -/
structure RunsOne (s : State) (c : Cur) (b : Block) (lane : Nat) (t : Thread) : Prop where
  cur : s.cur = some c
  block : s.block? c.core c.slot = some b
  act : c.act = [(lane, t.tid)]
  thread : b.thread? t.tid = some t

/-- That thread as the instruction sees it. -/
def State.see (s : State) (b : Block) (lane : Nat) (t : Thread) : LaneCtx :=
  { lane := lane, t := t, b := b, cyc := s.cycOf b.die }

/-- Two states that agree on all but the blocks, and there on all but the executing block. -/
def SameButBlock (s t : State) (c : Cur) : Prop :=
  t = { s with blocks := t.blocks } ∧
  ∀ core slot, ¬(core = c.core ∧ slot = c.slot) → t.block? core slot = s.block? core slot

/-- The frame of an instruction that acts on the threads alone: all of the state but the blocks, every other block,
every field of the block but its threads, and every thread that does not execute stay as they are. -/
def OnlyThreads (s t : State) (c : Cur) (b : Block) : Prop :=
  SameButBlock s t c ∧
  ∃ b', t.block? c.core c.slot = some b' ∧ b' = { b with threads := b'.threads } ∧
    ∀ tid, tid ∉ c.act.map (·.2) → b'.thread? tid = b.thread? tid

/-- An instruction completes in a state and acts on each executing thread alone: `f` says what the thread becomes, its
pc apart, which passes the instruction; nothing else changes. -/
def ActsIn (s : State) (c : Cur) (b : Block) (i : Instr) (f : LaneCtx → Thread) : Prop :=
  ∃ t, exec i s = .next t ∧ OnlyThreads s t c b ∧
    ∀ l ∈ s.lanes, t.thread? c.core c.slot l.t.tid = some { f l with pc := c.nextPc }

/-- The same on every state in which the instruction executes. -/
def ActsOn (i : Instr) (f : State → LaneCtx → Thread) : Prop := ∀ s c b, Runs s c b → ActsIn s c b i (f s)

/-- What a thread becomes that writes consecutive registers from one on and raises sticky flags of `FPCTL`. -/
abbrev withRegs (t : Thread) (d : Nat) (vs : List Word) (fl : Word) : Thread :=
  { t with
    regs := if d < 120 then putRegs t.regs (t.wb.toNat + d) vs else t.regs
    fpctl := t.fpctl ||| fl }

/-- An instruction writes a register of each executing thread, or a group, and raises sticky flags of `FPCTL`; every
other register, flag and predicate of the thread, its condition and everything outside the thread stay. -/
def Writes (i : Instr) (d : Nat) (vs : State → LaneCtx → List Word) (fl : State → LaneCtx → Word) : Prop :=
  ActsOn i fun s l => withRegs l.t d (vs s l) (fl s l)

/-- The same in one state. -/
def WritesIn (s : State) (c : Cur) (b : Block) (i : Instr) (d : Nat) (vs : LaneCtx → List Word)
    (fl : LaneCtx → Word) : Prop :=
  ActsIn s c b i fun l => withRegs l.t d (vs l) (fl l)

/-- An instruction writes a predicate of each executing thread, or none for `pt`; nothing else of the thread or outside
it changes but the pc. -/
def WritesPred (i : Instr) (d : Nat) (v : State → LaneCtx → Bool) : Prop :=
  ActsOn i fun s l =>
    { l.t with
      preds := if d < 7 then l.t.preds &&& ~~~ (1#7 <<< d) ||| (if v s l then 1#7 <<< d else 0) else l.t.preds }

/-- The frame of an instruction whose executing threads leave their warp: all of the state but the blocks and the warps,
every other block, every field of the block but its threads, every other thread and every other warp that holds a thread
stay; none of the threads that left stands in a warp of the block. -/
def OnlyLeaves (s t : State) (c : Cur) (b : Block) (tids : List Nat) : Prop :=
  t = { s with blocks := t.blocks, warps := t.warps } ∧
  (∀ core slot, ¬(core = c.core ∧ slot = c.slot) → t.block? core slot = s.block? core slot) ∧
  (∃ b', t.block? c.core c.slot = some b' ∧ b' = { b with threads := b'.threads } ∧
    ∀ tid, tid ∉ c.act.map (·.2) → b'.thread? tid = b.thread? tid) ∧
  (∀ w ∈ t.warps, w.core = c.core → w.slot = c.slot → ∀ tid ∈ tids, some tid ∉ w.lanes) ∧
  (∀ w, ¬(w.core = c.core ∧ w.slot = c.slot) → w.lanes.any Option.isSome = true → (w ∈ t.warps ↔ w ∈ s.warps))

/-- A thread without an outstanding result and without outstanding maintenance: leaving its warp changes nothing else of
it (R44, R135). -/
def Thread.idle (t : Thread) : Prop := t.pend = [] ∧ t.maint = []

/-- A branch (R315). Each executing thread whose guard holds goes to its target, with its link in x119 where the branch
is a call; the others fall through. With H = 0 and agreement the warp continues intact and nothing else changes. Else
every executing thread leaves the warp and enters the pool there. -/
def Branches (i : Instr) (h n : Bool) (p : Nat) (call : Bool) (target : Cur → LaneCtx → Word) : Prop :=
  ∀ s c b, Runs s c b → (∀ l ∈ s.lanes, l.t.guard n p = true → (target c l).toNat % 64 = 0) →
    let goes := fun (l : LaneCtx) => if l.t.guard n p then target c l else c.nextPc
    let link := (c.pc + BitVec.ofNat 32 c.len + 63) &&& 0xFFFFFFC0
    let after := fun (l : LaneCtx) =>
      { withRegs l.t 119 (if call && l.t.guard n p then [link] else []) 0 with pc := goes l }
    ((h = false ∧ ∀ l ∈ s.lanes, ∀ m ∈ s.lanes, goes l = goes m) →
      ∃ t, exec i s = .next t ∧ OnlyThreads s t c b ∧
        ∀ l ∈ s.lanes, t.thread? c.core c.slot l.t.tid = some (after l)) ∧
    ((h = true ∨ ∃ l ∈ s.lanes, ∃ m ∈ s.lanes, goes l ≠ goes m) → (∀ l ∈ s.lanes, l.t.idle) →
      ∃ t, exec i s = .next t ∧ OnlyLeaves s t c b (s.lanes.map (·.t.tid)) ∧
        ∀ l ∈ s.lanes, t.thread? c.core c.slot l.t.tid = some { after l with cond := .pool s.now false })

/-- Sat(t, r) of R8 for a signed or natural type of a width. -/
def satTo (sg : Bool) (w : Nat) (e : Int) : Int :=
  if sg then max (-((2 ^ (w - 1) : Nat) : Int)) (min (((2 ^ (w - 1) : Nat) : Int) - 1) e)
  else max 0 (min (((2 ^ w : Nat) : Int) - 1) e)

/-- An exact result as the integer instructions write it: clamped with SAT, else taken modulo 2^w (R189). -/
def intOut (w : Nat) (sat sg : Bool) (e : Int) : BitVec w := BitVec.ofInt w (if sat then satTo sg w e else e)

/-- The value of a source field code on a lane of the executing warp; 0 for a lane that no thread stands in. -/
def State.onLane (s : State) (lane code : Nat) : Word := ((s.lanes.find? fun l => l.lane == lane).map (·.x code)).getD 0

/-- The low and the high word of a 64-bit pattern. -/
def words2 (v : BitVec 64) : List Word := [v.extractLsb' 0 32, v.extractLsb' 32 32]

/-- The flag NV of `FPCTL`, raised where SAT changed an exact result (R189). -/
def nvOut (w : Nat) (sat sg : Bool) (e : Int) : Word := if sat && satTo sg w e != e then 0x10 else 0

/-- The exact value of a finite number. -/
def FV.rat (v : FV) : Rat :=
  match v with
  | .fin n m e => (if n then -1 else 1) * (m : Rat) * (2 : Rat) ^ e
  | _ => 0

/-- An FP32 encoding is that of a finite number within `d` of `y`. -/
def NearTo (o : Nat) (y d : Rat) : Prop :=
  f32.val o ≠ .nan ∧ (∀ n, f32.val o ≠ .inf n) ∧ y - d ≤ (f32.val o).rat ∧ (f32.val o).rat ≤ y + d

/-- The absolute value of `y` lies in the binade of 2^k. -/
def Binade (k : Int) (y : Rat) : Prop := (2 ^ k ≤ y ∨ y ≤ -(2 ^ k)) ∧ -(2 ^ (k + 1)) < y ∧ y < 2 ^ (k + 1)

/-- One ulp of an exact FP32 result in the binade of 2^k (R184): subnormal spacing below 2^(-126). -/
def ulpOf (k : Int) : Rat := 2 ^ (max k (-126) - 23)

/-- The registers a floating result fills: one. -/
def oneWord (r : Nat × Fl) : List Word := [BitVec.ofNat 32 r.1]

/-! ## Accesses to memory -/

/-- Every executing thread stands in its warp. -/
def Standing (s : State) : Prop := ∀ l ∈ s.lanes, l.t.cond = .cast

/-- Every line of the in-bounds accesses of some forms translates: to the state `u`, which the walks may have changed, by
the table `tab`; no lane traps before that. Two lines that translate to one home line have one page type (R78). -/
structure Reached (s : State) (c : Cur) (fs : Forms) (k : AccKind) (u : State) (tab : LineTab) : Prop where
  noTrap : fs.traps = []
  xlat : s.xlatLines (s.askerOf c) k (allLines fs.accs) = (u, tab)
  ok : ∀ a ∈ fs.accs, a.failure tab k = none
  aligned : ∀ x ∈ tab, ∀ p, x.2 = .ok p → p.key % 128 = 0
  plain : ∀ x ∈ tab, ∀ y ∈ tab, ∀ p q, x.2 = .ok p → y.2 = .ok q → p.key = q.key → p = q

/-- No byte that some accesses touch lies in an empty scratchpad line. -/
def Full (u : State) (tab : LineTab) (as : List LAcc) : Prop := ∀ a ∈ as, u.firstEmpty (a.places tab) = none

/-- What a core holds of a byte in its own or its die's copies as written and not yet at the home. -/
def State.dirtyByte (s : State) (h : Holder) (k : Nat) : Option Byte :=
  (s.copy? h (k / 128)).bind fun c => if maskBit c.dirty (k % 128) then some (lineByte c.data (k % 128)) else none

/-- A written byte of a copy is a byte that the copy holds, and the way that a line takes in the L2 of its home die
(R98) holds no bytes of its own. -/
def State.copiesOk (s : State) : Prop :=
  ∀ x ∈ s.copies, x.dirty &&& ~~~ x.valid = 0 ∧ (x.holder = .l2 (homeDie (x.line * 128)) → x.dirty = 0)

/-- BSTAT after an instruction that set OOB or SPLIT (R52). -/
def bstatOf (b : Block) (oob split : Bool) : Word := b.bstat ||| (if oob then 1 else 0) ||| (if split then 2 else 0)

/-- The memory frame: outside some keys, every byte stands as before, at the home and in every copy. -/
def SameBytes (s t : State) (keys : List Nat) : Prop :=
  ∀ k, k ∉ keys → t.rd k = s.rd k ∧ ∀ h below, t.copyByte h (k / 128) (k % 128) below = s.copyByte h (k / 128) (k % 128) below

/-- A load through a record (R110, R117, R118): each executing thread gets the bytes of its access as its core reads
them, extended to its registers, or 0 where it is out of bounds, as an outstanding result. `v` is the state once what
stands in the way of the accesses is gone (R99, R115) and the fences of SEQ accesses have acted (R260), `w` the same once
the lines are in the caches that may hold them. Without such a fence and without an acquire nothing else changes but
`BSTAT` and clean bytes in caches. -/
def Loads (i : Instr) (imm : Int) (sz : Size) (al : Nat) (h : Hint) (r : MO) (acq : Option Scope) : Prop :=
  ∀ (s : State) (c : Cur) (b : Block) (u : State) (tab : LineTab), Runs s c b → Standing s →
    let fs := s.forms r.k r.a imm (sizeBytes sz) al
    let seqs := seqScopes tab fs.accs
    let m := u.before c .read (h == .bypass) tab fs.accs
    let v := m.seqBefore c seqs
    let w := v.fillReads c.core h tab fs.accs
    let value := fun (l : LaneCtx) (f : Form) =>
      match f with
      | .acc vas => ofBytesLE ((({ lane := l.lane, tid := l.t.tid, vas := vas } : LAcc).places tab).map fun p => w.readByte c.core p)
      | _ => 0
    Reached s c fs .read u tab → Full u tab fs.accs → w.readsBad c.core tab fs.accs = false →
    ∃ t, exec i s = .next t ∧
      (∀ l f, (l, f) ∈ fs → t.thread? c.core c.slot l.t.tid = (v.thread? c.core c.slot l.t.tid).map fun x =>
        { x with
          pend := if r.d < 120 then x.pend ++ [.regs (x.wb.toNat + r.d) (extendTo sz (value l f))] else x.pend
          pc := c.nextPc }) ∧
      (t.block? c.core c.slot).map (·.bstat) = some
        (bstatOf b (fs.any fun f => f.2 == .oob) (fs.accs.any fun a => decide (1 < (linesOf a.vas).length))) ∧
      (acq = none → seqs = [] →
        t = { m with blocks := t.blocks, copies := t.copies } ∧
        (m.copiesOk → ∀ h k, t.dirtyByte h k = m.dirtyByte h k) ∧
        (∀ core slot, ¬(core = c.core ∧ slot = c.slot) → t.block? core slot = m.block? core slot) ∧
        ∀ tid, tid ∉ c.act.map (·.2) → t.thread? c.core c.slot tid = m.thread? c.core c.slot tid)

/-- The bytes that some stores write, each at its place, in the order in which the lanes are performed (R115). -/
def storedBytes (tab : LineTab) (fs : Forms) (data : LaneCtx → List Byte) : List (Place × Byte) :=
  fs.flatMap fun f =>
    match f.2 with
    | .acc vas => (({ lane := f.1.lane, tid := f.1.t.tid, vas := vas } : LAcc).places tab).zip (data f.1)
    | _ => []

/-- What stands once some accesses of an instruction have been performed in `y`: the fences behind its SEQ accesses have
acted (R260), every executing thread goes on, and `BSTAT` takes its bits. -/
def GoesOn (s y t : State) (c : Cur) (seqs : List (Nat × Scope)) (bstat : Word) : Prop :=
  let z := y.seqAfter c seqs
  t = { z with blocks := t.blocks } ∧
  (∀ core slot, ¬(core = c.core ∧ slot = c.slot) → t.block? core slot = z.block? core slot) ∧
  (∀ l ∈ s.lanes, t.thread? c.core c.slot l.t.tid = (z.thread? c.core c.slot l.t.tid).map fun x => { x with pc := c.nextPc }) ∧
  (∀ tid, tid ∉ c.act.map (·.2) → t.thread? c.core c.slot tid = z.thread? c.core c.slot tid) ∧
  (t.block? c.core c.slot).map (·.bstat) = some bstat

/-- A store through a record (R110, R115, R119 to R122): the bytes of the threads whose guard
holds go to the L1 of the core, on REL and PRIV lines that it may hold, else to their home; of several lanes that write
one byte, the last stands; the lines of STRM pages, none of them written before, are written afterwards. `v` is the state
once what stands in the way of the accesses is gone (R99, R109, R115), a release store's releases have acted, and the
fences before the SEQ accesses have too (R260); `y` is the state behind the writes. Nothing
else changes but `BSTAT`, poison that whole words lose, waiters of words that see a write, and what the fences behind SEQ
accesses do. -/
def Stores (i : Instr) (imm : Int) (n al : Nat) (r : MG) (rel : Option Scope) : Prop :=
  ∀ (s : State) (c : Cur) (b : Block) (u : State) (tab : LineTab), Runs s c b → Standing s →
    let fs := s.guardedForms r imm n al
    let seqs := seqScopes tab fs.accs
    let m := u.before c .write false tab fs.accs
    let o := match rel with
      | some sc => m.releaseAll c.core c.slot sc ((fs.accs.map fun (a : LAcc) => a.tid) ++ fs.oobs.map fun (l : LaneCtx) => l.t.tid)
      | none => m
    let v := o.seqBefore c seqs
    let strm := strmLines tab fs.accs
    let ws := storedBytes tab fs (dataBytes n r.d)
    let bits := strm.filterMap fun l => (swbKey u l).map (·.1)
    s.memOk → Reached s c fs .write u tab →
    (∀ l ∈ strm, o.written l = false ∧ v.written l = false) → strm.Nodup → (∀ w ∈ ws, w.1.key ∉ bits) →
    (∀ w ∈ ws, ∀ x ∈ ws, w.1.key = x.1.key → w.1 = x.1) →
    ∃ y t, exec i s = .next t ∧
      (∀ k w, ws.reverse.find? (fun w => w.1.key == k) = some w →
        if w.1.ct ≠ 2 ∧ v.l1Holds w.1 = true then
          y.rd k = v.rd k ∧ ∀ below, y.copyByte (.l1 c.core) (k / 128) (k % 128) below = w.2
        else y.rd k = w.2) ∧
      (∀ l ∈ strm, (swbKey u l).isSome = true → y.written l = true) ∧
      SameBytes v y (ws.map (·.1.key) ++ bits) ∧
      y = { v with mem := y.mem, below := y.below, poison := y.poison, copies := y.copies, blocks := y.blocks } ∧
      (∀ tid x, v.thread? c.core c.slot tid = some x → x.onWord = false → y.thread? c.core c.slot tid = some x) ∧
      GoesOn s y t c seqs
        (bstatOf b (fs.any fun f => f.2 == .oob) (fs.accs.any fun a => decide (1 < (linesOf a.vas).length)))

/-- A load of the own scratchpad (R123 to R125): each executing thread whose offset lies in the allocation, aligned and
in a full line, gets the `n` bytes at `src` extended to its registers; one out of bounds gets 0 and sets `BSTAT`.OOB. -/
def ScratchLoads (i : Instr) (d : Nat) (sz : Size) (offset src : LaneCtx → Int) : Prop :=
  ∀ s c b, Runs s c b →
    let n := sizeBytes sz
    let out := fun (l : LaneCtx) => offset l < 0 ∨ (b.scr * 128 : Int) < offset l + n ∨ src l < 0 ∨
      (b.scr * 128 : Int) < src l + n
    let key := fun (l : LaneCtx) => scrKey b.core (b.scrBase + (src l).toNat)
    (∀ l ∈ s.lanes, ¬out l → (offset l).toNat % n = 0 ∧ (src l).toNat % n = 0 ∧
      b.core * 4096 + (b.scrBase + (src l).toNat) / 128 ∉ s.emptyLines ∧ ∀ i < n, s.poisoned (key l + i) = false) →
    ∃ t, exec i s = .next t ∧ t = { s with blocks := t.blocks } ∧
      (∀ core slot, ¬(core = c.core ∧ slot = c.slot) → t.block? core slot = s.block? core slot) ∧
      ∃ b', t.block? c.core c.slot = some b' ∧
        b' = { b with threads := b'.threads, bstat := b'.bstat } ∧
        ((∀ l ∈ s.lanes, ¬out l) → b'.bstat = b.bstat) ∧
        ((∃ l ∈ s.lanes, out l) → b'.bstat = bstatOf b true false) ∧
        (∀ tid, tid ∉ c.act.map (·.2) → b'.thread? tid = b.thread? tid) ∧
        ∀ l ∈ s.lanes, ∀ v, (¬out l → v = s.rdN (key l) n) → (out l → v = 0) →
          b'.thread? l.t.tid = some
            { l.t with
              pend := if d < 120 then l.t.pend ++ [.regs (l.t.wb.toNat + d) (extendTo sz v)] else l.t.pend
              pc := c.nextPc }

/-- A record load (R134, R146): the lowest-TID executing thread alone reads `n` bytes through a record, which land later
where `mk` says; 0 where it is out of bounds. The other threads only go on. `spl` says whether an access over two lines
sets `BSTAT`.SPLIT. -/
def LoadsRecord (i : Instr) (imm : Int) (n al code k : Nat) (h : Hint) (spl : Bool) (mk : State → Nat → PTgt) : Prop :=
  ∀ (s : State) (c : Cur) (b : Block) (u : State) (tab : LineTab) (l0 : LaneCtx), Runs s c b → Standing s → s.lanes.head? = some l0 →
    let f := formOf (b.krecs.getD k 0) (l0.x code) imm n al
    let fs : Forms := [(l0, f)]
    let seqs := seqScopes tab fs.accs
    let m := u.before c .read (h == .bypass) tab fs.accs
    let v := m.seqBefore c seqs
    let w := v.fillReads c.core h tab fs.accs
    let value := match f with
      | .acc vas => ofBytesLE ((({ lane := l0.lane, tid := l0.t.tid, vas := vas } : LAcc).places tab).map fun p => w.readByte c.core p)
      | _ => 0
    Reached s c fs .read u tab → Full u tab fs.accs → w.readsBad c.core tab fs.accs = false →
    ∃ t, exec i s = .next t ∧
      t.thread? c.core c.slot l0.t.tid = (v.thread? c.core c.slot l0.t.tid).map (fun x =>
        { x with pend := x.pend ++ [mk s value], pc := c.nextPc }) ∧
      (∀ l ∈ s.lanes, l.t.tid ≠ l0.t.tid → t.thread? c.core c.slot l.t.tid = some { l.t with pc := c.nextPc }) ∧
      (t.block? c.core c.slot).map (·.bstat) = some
        (bstatOf b (f == .oob) (spl && fs.accs.any fun a => decide (1 < (linesOf a.vas).length))) ∧
      (seqs = [] → t = { m with blocks := t.blocks, copies := t.copies })

/-- The little-endian value of `n` bytes of a memory. -/
def leAt (m : Nat → Byte) (k : Nat) : Nat → Nat
  | 0 => 0
  | n + 1 => (m k).toNat + 256 * leAt m (k + 1) n

/-- Read-modify-write operations one after another, each at its key: the old values and the memory they leave. -/
def inTurn (n : Nat) (new : LaneCtx → Nat → Option Nat) : List (LaneCtx × Nat) → (Nat → Byte) → List Nat × (Nat → Byte)
  | [], m => ([], m)
  | (l, k) :: r, m =>
    let old := leAt m k n
    let m' := match new l old with
      | some v => fun (x : Nat) => if k ≤ x ∧ x < k + n then BitVec.ofNat 8 (v / 256 ^ (x - k)) else m x
      | none => m
    let q := inTurn n new r m'
    (old :: q.1, q.2)

/-- The home of each in-bounds access of some forms, with its lane. -/
def homesOf (tab : LineTab) (fs : Forms) : List (LaneCtx × Nat) :=
  fs.filterMap fun f =>
    match f.2 with
    | .acc (va :: _) => match tab.get (va / 128) with
      | .ok p => some (f.1, p.key + va % 128)
      | .error _ => none
    | _ => none

/-- An atomic or a counter add (R281 to R290): the threads whose guard holds act in ascending TID, each on what the earlier
ones left; `new` is what is
written, if anything; `give` the registers an old value fills, later, 0 out of bounds. `v` is the state once what
stands in the way of the accesses is gone (R99, R286, R288), the releases of a `.rel` have acted, and the fences before the
SEQ accesses have too (R260); `y` is the state behind the accesses. -/
def Atomics (i : Instr) (imm : Int) (n : Nat) (r : MG) (rel : Option Scope) (new : LaneCtx → Nat → Option Nat)
    (give : Option (Nat → List Word)) : Prop :=
  ∀ (s : State) (c : Cur) (b : Block) (u : State) (tab : LineTab), Runs s c b → Standing s →
    let fs := s.guardedForms r imm n n
    let seqs := seqScopes tab fs.accs
    let m := u.before c .atomic false tab fs.accs
    let v := (match rel with
      | some sc => m.releaseAll c.core c.slot sc ((fs.accs.map fun (a : LAcc) => a.tid) ++ fs.oobs.map fun (l : LaneCtx) => l.t.tid)
      | none => m).seqBefore c seqs
    let homes := homesOf tab fs
    let out := inTurn n new homes v.rd
    let later : Thread → Nat → Thread := fun x old => match give with
      | some g => if r.d < 120 then { x with pend := x.pend ++ [PTgt.regs (x.wb.toNat + r.d) (g old)] } else x
      | none => x
    s.memOk → Reached s c fs .atomic u tab →
    (∀ a ∈ fs.accs, ∀ p ∈ a.places tab, v.poisoned p.key = false) →
    ∃ y t, exec i s = .next t ∧ (∀ k, y.rd k = out.2 k) ∧
      (∀ l ∈ s.lanes, y.thread? c.core c.slot l.t.tid = (v.thread? c.core c.slot l.t.tid).map fun x =>
        match (homes.zip out.1).find? fun (h : (LaneCtx × Nat) × Nat) => h.1.1.t.tid == l.t.tid with
          | some h => later x h.2
          | none => if fs.oobs.any fun (o : LaneCtx) => o.t.tid == l.t.tid then later x 0 else x) ∧
      y = { v with mem := y.mem, below := y.below, poison := y.poison, owned := y.owned, contended := y.contended, blocks := y.blocks } ∧
      (∀ tid x, tid ∉ c.act.map (·.2) → v.thread? c.core c.slot tid = some x → x.onWord = false →
        y.thread? c.core c.slot tid = some x) ∧
      GoesOn s y t c seqs (bstatOf b (fs.any fun f => f.2 == .oob) false)

/-! ## Events -/

/-- An event moves one thread to the pool and changes nothing else. -/
def Wakes (i : Instr) (s : State) (core slot : Nat) (t : Thread) : Prop :=
  ∃ u, exec i s = .next u ∧ u = { s with blocks := u.blocks } ∧
    u.thread? core slot t.tid = some { t with cond := .pool s.now false } ∧
    ∀ c q tid, ¬(c = core ∧ q = slot ∧ tid = t.tid) → u.thread? c q tid = s.thread? c q tid

/-- A command of a copy stream is accepted (R139 step 7) from the state `u` that the check of its counter left: it stands
last on its stream, the lines that `marks` names are empty, the thread goes on, and nothing else changes. `ob` are the
operand-buffer bytes it accesses, if any (R221). -/
def Queues (s u : State) (c : Cur) (b : Block) (t : Thread) (i : Instr) (q : Nat) (cmd : Cmd) (marks : Nat → Prop)
    (ob : Option (Nat × Nat)) : Prop :=
  ∃ x, exec i s = .next x ∧
    x = { u with blocks := x.blocks, emptyLines := x.emptyLines, nextOb := u.nextOb + 1 } ∧
    (∀ n, n ∈ x.emptyLines ↔ n ∈ u.emptyLines ∨ marks n) ∧
    (∀ core slot, ¬(core = c.core ∧ slot = c.slot) → x.block? core slot = u.block? core slot) ∧
    ∃ b', x.block? c.core c.slot = some b' ∧
      b' = { b with
        streams := b.streams.set q (b.streams.getD q [] ++ [cmd])
        seqs := b.seqs.set q (b.seqs.getD q 0 + 1)
        obq := b.obq ++ (ob.map fun r => (u.nextOb, r.1, r.2)).toList
        threads := b'.threads } ∧
      b'.thread? t.tid = some { t with pc := c.nextPc } ∧
      ∀ n, n ≠ t.tid → b'.thread? n = u.thread? c.core c.slot n

/-! ## Rings and dispatchers -/

/-- The TLBs that an asker uses hold a line of its address space: a device-biased REL page of HBM, D set, that admits the
access. Translating it changes nothing; its home is the line `home`. -/
def Resident (s : State) (q : Asker) (k : AccKind) (line home : Nat) : Prop :=
  line * 128 < 2 ^ 55 ∧ ∃ e, s.tlbHit q (line * 128) = some e ∧ e.dset = true ∧ pteTt e.leaf.toNat = 0 ∧
    pteCt e.leaf.toNat = 0 ∧ bitAt e.leaf.toNat 13 = false ∧ accessCheck q k e.leaf.toNat = none ∧
    s.leafKey q e.leaf.toNat (line * 128 - e.base) = home * 128

/-- A byte of such a page. -/
def ResidentAt (s : State) (q : Asker) (k : AccKind) (va key : Nat) : Prop :=
  ∃ home, Resident s q k (va / 128) home ∧ key = home * 128 + va % 128

/-- Outside some ranges, given by first byte and length, memory stands as before. -/
def OnlyBytes (s t : State) (rs : List (Nat × Nat)) : Prop :=
  ∀ k, (∀ r ∈ rs, ¬(r.1 ≤ k ∧ k < r.1 + r.2)) → t.rd k = s.rd k

/-- Every thread but one stays, unless it waits on addresses or on a counter, where a write may fire a slot of it or meet
its target (R293, R294). -/
def OtherThreads (s t : State) (core slot tid : Nat) : Prop :=
  ∀ c q n x, ¬(c = core ∧ q = slot ∧ n = tid) → s.thread? c q n = some x →
    x.onWord = false → t.thread? c q n = some x

/-- One thread executes a ring instruction on a well-formed ring (R326, R328): the VA and the home of its header, and the
ring. No cache holds a line. -/
structure RingAt (s : State) (c : Cur) (b : Block) (lane : Nat) (t : Thread) (k va key : Nat) (g : Ring) : Prop where
  one : RunsOne s c b lane t
  mem : s.memOk
  cast : t.cond = .cast
  idle : t.idle
  copies : s.copies = []
  poison : s.poison = []
  form : ∃ rest, formOf (b.krecs.getD k 0) 0 0 64 64 = .acc (va :: rest)
  home : ResidentAt s b.asker .atomic va key
  hdr : s.ringHdr key = some g
  room : g.prod + g.size < 2 ^ 64

/-- The record header at an offset of a ring stands at a key, apart from the ring's header. -/
def RecAt (s : State) (b : Block) (g : Ring) (key off rk : Nat) : Prop :=
  ResidentAt s b.asker .atomic (g.base + off % g.size) rk ∧ (rk + 8 ≤ key ∨ key + 64 ≤ rk)

/-- A ring instruction of a thread completes: what its thread becomes, what memory it writes, and nothing else. -/
def RingDone (s : State) (c : Cur) (t : Thread) (i : Instr) (t' : Thread) (cells : List (Nat × Nat × Nat)) : Prop :=
  ∃ x, exec i s = .next x ∧
    x = { s with
      mem := x.mem, below := x.below, poison := [], owned := x.owned, contended := x.contended, blocks := x.blocks
      nextTicket := x.nextTicket } ∧
    (∀ w ∈ cells, x.rdN w.1 w.2.1 = w.2.2) ∧ OnlyBytes s x (cells.map fun w => (w.1, w.2.1)) ∧
    x.thread? c.core c.slot t.tid = some { t' with pc := c.nextPc } ∧ OtherThreads s x c.core c.slot t.tid

/-- A ring instruction of a thread parks with a reason and changes no memory; `ring` is the place that it keeps among the
reservations of a ring, if it is one. -/
def RingParks (s : State) (c : Cur) (t : Thread) (i : Instr) (r : Park) (ring : Option (Nat × Nat)) : Prop :=
  ∃ x, exec i s = .next x ∧
    x = { s with owned := x.owned, contended := x.contended, blocks := x.blocks, warps := x.warps, nextTicket := x.nextTicket } ∧
    x.thread? c.core c.slot t.tid = some { t with cond := .wings r, ring := ring } ∧
    (∀ w ∈ x.warps, w.core = c.core → w.slot = c.slot → some t.tid ∉ w.lanes) ∧ OtherThreads s x c.core c.slot t.tid

/-! ## Traps -/

/-- Bits [55:36] of the record of a trap (R357), as x117 takes them (R368). -/
def trapWord (tr : Trap) : Word :=
  BitVec.ofNat 32 (tr.cls + 2 ^ 4 * tr.cause + (if tr.fetch then 2 ^ 8 else 0) + (if tr.noncanon then 2 ^ 9 else 0) +
    (if tr.malf then 2 ^ 10 else 0) + 2 ^ 11 * tr.level + (if tr.write then 2 ^ 13 else 0))

/-- One thread's instruction ends in a trap (R356, R357, R368), and its pc stands at `pc`. A trap that a user handler may
take sends the thread there, with the pc of the instruction, the record bits and the VA or the code saved; any other parks
the thread, and one record names it. Memory stays. -/
def Traps (s : State) (c : Cur) (b : Block) (lane : Nat) (t : Thread) (i : Instr) (pc : Word) (tr : Trap) : Prop :=
  let may := tr.cls = 1 ∨ tr.cls = 2 ∨ tr.cls = 3 ∨ tr.cls = 4 ∨ tr.cls = 7 ∨
    (tr.cls = 0 ∧ (tr.cause = 2 ∨ tr.cause = 5 ∨ tr.cause = 6))
  let user := may ∧ b.trapv.getLsbD 0 = true ∧ t.handler = false ∧ t.wb.toNat + 120 ≤ b.nregs
  let v := if tr.cls = 0 ∨ tr.cls = 1 ∨ tr.cls = 4 then tr.va else if tr.cls = 7 then tr.aux else 0
  ∃ x, exec i s = .next x ∧ x.mem = s.mem ∧
    (∀ w ∈ x.warps, w.core = c.core → w.slot = c.slot → some t.tid ∉ w.lanes) ∧
    (user → s.obWaits c.core c.slot t.tid = false → x.pending = s.pending ∧ x.thread? c.core c.slot t.tid = some
      { t with
        regs := putRegs t.regs (t.wb.toNat + 116) [c.pc, trapWord tr, BitVec.ofNat 32 v, BitVec.ofNat 32 (v / 2 ^ 32)]
        badRegs := t.badRegs.filter fun p => p != (t.wb.toNat + 116) / 2 && p != (t.wb.toNat + 118) / 2
        handler := true
        bound := none
        ring := none
        pc := b.trapv &&& 0xFFFFFFC0
        cond := .pool s.now false }) ∧
    (¬user → x.pending = s.pending ++
        [{ fr := { fid := s.newFid, cls := tr.cls, cause := tr.cause, fetch := tr.fetch, noncanon := tr.noncanon,
                   malf := tr.malf, level := tr.level, write := tr.write, nest := t.handler, core := b.core, bslot := b.slot,
                   asid := b.asid, pc := c.pc.toNat, lanemask := 2 ^ lane, tid0 := t.tid, bid := b.bid.toNat, va := tr.va,
                   aux := tr.aux, time := s.ns, pages := if tr.cls = 0 then [tr.va / 65536] else [] },
           launch := b.launch, tids := [t.tid], hits := [(lane, tr.va)] }] ∧
      x.thread? c.core c.slot t.tid = some
        { t with
          pc := pc
          bound := none
          homeLane := lane
          cond := .wings (if tr.cls = 5 then .debug (some s.newFid) else .fault (some s.newFid)) })

/-- The faults of an access of one thread through a record (R84, R85, R87, R112): a malformed record, an access out of the
bounds of a record that traps, a misaligned address, a line that does not translate; `al` is the alignment asked for, 1 for
none, `wr` whether the access writes. -/
def AccessTraps (i : Instr) (imm : Int) (n al k a : Nat) (acc : AccKind) (wr : Bool) (guard : Thread → Bool) : Prop :=
  ∀ (s : State) (c : Cur) (b : Block) (lane : Nat) (t : Thread), RunsOne s c b lane t → t.idle → t.cond = .cast →
    t.tid < 2048 → guard t = true →
    let rc := b.krecs.getD k 0
    let x := (s.see b lane t).x a
    (recBad rc = true → Traps s c b lane t i t.pc { cls := 2, cause := 6 }) ∧
    (recBad rc = false → (recOffset rc x imm n).2 = false → rc.getLsbD 135 = true → Traps s c b lane t i t.pc { cls := 4 }) ∧
    (recBad rc = false → (recOffset rc x imm n).2 = true →
      let va := recVa rc (recOffset rc x imm n).1 0
      va % al ≠ 0 → Traps s c b lane t i t.pc { cls := 1, va := va }) ∧
    ∀ va rest f, formOf rc x imm n al = .acc (va :: rest) → (∀ v ∈ rest, v / 128 = va / 128 ∧ va ≤ v) →
      s.translate b.asker acc (va / 128 * 128) = (s, .error f) →
      Traps s c b lane t i t.pc
        { cls := 0, cause := f.cause, va := va, noncanon := f.noncanon, malf := f.malf, level := f.level, write := wr }

/-- The fault of a store of one thread to a line of a STRM page whose written bit is set (R122); no cache holds a line. -/
def RewriteTraps (i : Instr) (imm : Int) (n al : Nat) (r : MG) : Prop :=
  ∀ (s : State) (c : Cur) (b : Block) (lane : Nat) (t : Thread), RunsOne s c b lane t → t.idle → t.cond = .cast →
    t.tid < 2048 → t.guard r.n r.p = true → s.copies = [] →
    ∀ va rest p, formOf (b.krecs.getD r.k 0) ((s.see b lane t).x r.a) imm n al = .acc (va :: rest) →
      (∀ v ∈ rest, v / 128 = va / 128 ∧ va ≤ v) → s.translate b.asker .write (va / 128 * 128) = (s, .ok p) →
      p.ct = 2 → p.tt = 0 → p.hb = false → s.written (p.key / 128) = true →
      Traps s c b lane t i t.pc { cls := 0, cause := 5, va := va, write := true }

/-- The illegal-instruction and illegal-convergence traps of some threads (lane, TID, trap) of a warp instruction at `pc`
are taken from the state `v` (R58, R213, R308, R356, R368): `x` is reached. First their results land and their maintenance
completes (`e`); no result is left that cannot land yet. A user handler that may take the trap gets the thread; every other
thread parks, and a record names it. With `bound` they park as one group, unless a handler takes one of them. -/
def TrapsTaken (v x : State) (core slot : Nat) (pc : Word) (bound : Bool) (ms : List (Nat × Nat × Trap)) : Prop :=
  let e := ms.foldl (fun s m => s.settle core slot m.2.1) v
  ∀ b, e.block? core slot = some b → (∀ m ∈ ms, e.obWaits core slot m.2.1 = false) →
    let user := fun (t : Thread) => b.trapv.getLsbD 0 = true ∧ t.handler = false ∧ t.wb.toNat + 120 ≤ b.nregs
    let alone := ∀ m ∈ ms, ∀ t, b.thread? m.2.1 = some t → ¬user t
    x.mem = e.mem ∧
    (∀ w ∈ x.warps, w.core = core → w.slot = slot → ∀ m ∈ ms, some m.2.1 ∉ w.lanes) ∧
    ∀ m ∈ ms, ∀ t, b.thread? m.2.1 = some t →
      (user t → x.thread? core slot m.2.1 = some
        { t with
          regs := putRegs t.regs (t.wb.toNat + 116) [pc, trapWord m.2.2 + (if bound then 0x4000 else 0), 0, 0]
          badRegs := t.badRegs.filter fun p => p != (t.wb.toNat + 116) / 2 && p != (t.wb.toNat + 118) / 2
          handler := true
          bound := none
          ring := none
          pc := b.trapv &&& 0xFFFFFFC0
          cond := .pool v.now false }) ∧
      (¬user t → ∃ (g : Option Nat) (p : PendRec), (bound = true ∧ alone → g = some b.nextBound) ∧
        (¬(bound = true ∧ alone) → g = none) ∧ p ∈ x.pending ∧ m.2.1 ∈ p.tids ∧ p.launch = b.launch ∧
        p.fr.cls = m.2.2.cls ∧ p.fr.cause = m.2.2.cause ∧ p.fr.pc = pc.toNat ∧ p.fr.bound = g.isSome ∧
        p.fr.lanemask.testBit m.1 = true ∧
        x.thread? core slot m.2.1 = some
          { t with bound := g, homeLane := m.1, cond := .wings (.fault (some p.fr.fid)) })

/-! ## Issue -/

/-- The next step issues a warp's instruction at `pc` (R37, R309): the warp is next on the agenda and has the turn of its
pipe, it stands in no debug step, and its fetch block is at hand, which leaves the state `f`. `w0` is the instruction's
word, `w1` the word behind it in the fetch block, 0 where `last` says that there is none. -/
structure Issues (s f : State) (w : Warp) (b : Block) (pc : Word) (w0 w1 : Nat) (last : Bool) : Prop where
  next : ∃ r, s.agenda = .issue w.core w.slot w.id :: r ∧
    let u := { s.tick with agenda := r }
    u.warpTurn w.core w.slot w.id = true ∧ u.warp? w.core w.slot w.id = some w ∧ u.block? w.core w.slot = some b ∧
    ∃ words, u.fetchBlock w.core b.asker (b.codebase.toNat + pc.toNat / 64 * 64) (b.codebase.toNat + pc.toNat) =
        (f, .ok (words, none)) ∧
      w0 = words.getD (pc.toNat / 4 % 16) 0 ∧ w1 = (if last then 0 else words.getD (pc.toNat / 4 % 16 + 1) 0) ∧
      last = decide (pc.toNat / 4 % 16 = 15)
  at_ : ∃ m t, w.byTid.head? = some m ∧ b.thread? m.2 = some t ∧ t.pc = pc
  there : ∀ m ∈ w.byTid, ∃ t, b.thread? m.2 = some t
  stays : f.block? w.core w.slot = some b
  plain : w.debug = false
  sound : ∀ t ∈ b.threads, t.badRegs = []

/-- Whether an instruction carries the switch marker: bit 31 of its word, behind a prefix that of the word behind it
(R34, R44), or is treated as if it did (R322). -/
def Warp.marked (w : Warp) (w0 w1 : Nat) (last : Bool) : Bool :=
  (if w0 / 2 ^ 24 % 128 = 0x7F then !last && w1.testBit 31 else w0.testBit 31) || w.starve

/-- The opcode of an instruction, behind a prefix that of the word behind it. -/
def opcodeOf (w0 w1 : Nat) : Nat := if w0 / 2 ^ 24 % 128 = 0x7F then w1 / 2 ^ 24 % 128 else w0 / 2 ^ 24 % 128

/-- The state in which a warp's results have landed and its maintenance is complete, as the switch marker waits for it
(R44). -/
def State.settled (s : State) (w : Warp) : State := w.byTid.foldl (fun s m => s.settle w.core w.slot m.2) s

/-- The state in which an instruction of a warp issues from `f`: behind the wait of a switch marker, if it carries one, and
the warp remembers the issue. -/
def issuesFrom (f : State) (w : Warp) (w0 w1 : Nat) (last : Bool) : State :=
  let g := if w.marked w0 w1 last then f.settled w else f
  { g with
    warps := g.warps.map fun x =>
      if x.core = w.core ∧ x.slot = w.slot ∧ x.id = w.id then { x with fresh := false, starve := false, last := g.now } else x }

/-- The instruction of some threads of a warp at a pc, of `n` words. -/
def curOf (w : Warp) (pc : Word) (n : Nat) (act : List (Nat × Nat)) : Cur :=
  { core := w.core, slot := w.slot, warp := w.id, pc := pc, len := 4 * n, act := act, full := w.byTid.length == 32 }

/-- An instruction changes the block of the executing warp by what its lowest-TID active thread supplies (R49); the
threads only go on. -/
def ByFirst (i : Instr) (f : LaneCtx → Block → Block) : Prop :=
  ∀ s c b l0, Runs s c b → s.lanes.head? = some l0 →
    ∃ t b', exec i s = .next t ∧ SameButBlock s t c ∧ t.block? c.core c.slot = some b' ∧
      b' = { f l0 b with threads := b'.threads } ∧
      (∀ tid, tid ∉ c.act.map (·.2) → b'.thread? tid = b.thread? tid) ∧
      ∀ l ∈ s.lanes, b'.thread? l.t.tid = some { l.t with pc := c.nextPc }

/-- A kill has ended a launch (R382): its threads are exited with nothing outstanding, its warps, its records and its saved
clusters are gone, an event of KIND 6 names its address space, no counter is added to and no memory changes. -/
def Killed (s x : State) (l : Launch) : Prop :=
  x.launch? l.id = some { l with st := .killed } ∧
  (∀ b ∈ x.blocks, b.launch = l.id → ∀ t ∈ b.threads, t.cond = .exited ∧ t.pend = [] ∧ t.maint = []) ∧
  (∀ w ∈ x.warps, ∀ b ∈ s.blocks, b.launch = l.id → ¬(w.core = b.core ∧ w.slot = b.slot)) ∧
  (∀ p ∈ x.pending, p.launch ≠ l.id) ∧ (∀ v ∈ x.saved, ∀ b ∈ v.blks, b.launch ≠ l.id) ∧
  (∃ e ∈ x.ioq, e.1.kind = 6 ∧ e.1.asid = lrAsid l.lr ∧ e.1.time = s.ns) ∧ x.mem = s.mem ∧ x.adds = s.adds ∧
  (s.priv.dbgstep.getLsbD 63 = false → ∀ b ∈ s.blocks, b.launch ≠ l.id → b ∈ x.blocks)

end Sys2Proof.Machine
end

