-- ==== Sys2Proof/Certificates/Slice0/Obligations.lean ====
section
/-!
DEFINITION. Obligations.lean: the statements about the machine, from the manual's numbered rules. A statement of the
form `Writes i d vs fl` says in one that the instruction completes on every state in which it executes, what it writes,
which flags it raises, and that nothing else changes but the pc (Safety.lean).
-/
open Sys2Proof Sys2Proof.Machine

/-! ## Integer arithmetic -/

/-- R189: D := Sat(t, r) with SAT, raising NV where it differs from the exact r, else r modulo 2^32; `MAD` adds X(C) with
CV, else the old D; `ADDI` adds its immediate modulo 2^32; `MULHI` gives the floor of the product by 2^32. -/
def Sys2Proof.Rules.AddSubMulMad : Prop :=
  ∀ (t : Sg) (p : Option RPfx) (r : R3) (q : Option Nat) (ri : RI),
    let add := fun (l : LaneCtx) => t.int (l.x r.a) + t.int (l.x r.b)
    let sub := fun (l : LaneCtx) => t.int (l.x r.a) - t.int (l.x r.b)
    let mul := fun (l : LaneCtx) => t.int (l.x r.a) * t.int (l.x r.b)
    let mad := fun (l : LaneCtx) => mul l + (if (pfx p).cv then t.int (l.x (pfx p).c) else t.int (l.x r.d))
    let sat := (pfx p).sat
    let sg := t == .s32
    Writes (.add t p r) r.d (fun _ l => [intOut 32 sat sg (add l)]) (fun _ l => nvOut 32 sat sg (add l)) ∧
    Writes (.sub t p r) r.d (fun _ l => [intOut 32 sat sg (sub l)]) (fun _ l => nvOut 32 sat sg (sub l)) ∧
    Writes (.mul t p r) r.d (fun _ l => [intOut 32 sat sg (mul l)]) (fun _ l => nvOut 32 sat sg (mul l)) ∧
    Writes (.mad t p r) r.d (fun _ l => [intOut 32 sat sg (mad l)]) (fun _ l => nvOut 32 sat sg (mad l)) ∧
    Writes (.addi q ri) ri.d (fun _ l => [l.x ri.a + riImm q ri]) (fun _ _ => 0) ∧
    Writes (.mulhi t r) r.d (fun _ l => [BitVec.ofInt 32 (Int.fdiv (mul l) (2 ^ 32))]) (fun _ _ => 0)

/-- R189, R8: without SAT the natural and the signed form of an addition, subtraction and multiplication give the sum,
the difference and the product of the 32-bit patterns, and no flag. -/
def Sys2Proof.Rules.IntegerWrapsModulo : Prop :=
  ∀ (t : Sg) (r : R3),
    Writes (.add t none r) r.d (fun _ l => [l.x r.a + l.x r.b]) (fun _ _ => 0) ∧
    Writes (.sub t none r) r.d (fun _ l => [l.x r.a - l.x r.b]) (fun _ _ => 0) ∧
    Writes (.mul t none r) r.d (fun _ l => [l.x r.a * l.x r.b]) (fun _ _ => 0) ∧
    Writes (.mad t none r) r.d (fun _ l => [l.x r.a * l.x r.b + l.x r.d]) (fun _ _ => 0)

/-- R189: integer arithmetic on single registers, with and without SAT. -/
def Obligations.IntegerArithmetic : Prop :=
  Rules.AddSubMulMad ∧ Rules.IntegerWrapsModulo

/-- R191: sums, differences and products of pairs, saturated with SAT; the product of two single registers is exact. -/
def Sys2Proof.Rules.PairArithmetic : Prop :=
  ∀ (t : Sg64) (p : Option RPfx) (r : R3),
    let sat := (pfx p).sat
    let sg := t == .s64
    let add := fun (l : LaneCtx) => t.int (l.pair r.a) + t.int (l.pair r.b)
    let sub := fun (l : LaneCtx) => t.int (l.pair r.a) - t.int (l.pair r.b)
    let nat := fun (l : LaneCtx) => ((l.pair r.a * l.pair r.b : Nat) : Int)
    let int := fun (l : LaneCtx) => toSigned 64 (l.pair r.a) * toSigned 64 (l.pair r.b)
    Writes (.add64 t p r) r.d (fun _ l => words2 (intOut 64 sat sg (add l))) (fun _ l => nvOut 64 sat sg (add l)) ∧
    Writes (.sub64 t p r) r.d (fun _ l => words2 (intOut 64 sat sg (sub l))) (fun _ l => nvOut 64 sat sg (sub l)) ∧
    Writes (.mul64 .n64 p r) r.d (fun _ l => words2 (intOut 64 sat false (nat l))) (fun _ l => nvOut 64 sat false (nat l)) ∧
    Writes (.mul64 .s64 p r) r.d (fun _ l => words2 (intOut 64 sat true (int l))) (fun _ l => nvOut 64 sat true (int l)) ∧
    Writes (.mul64 .n32 p r) r.d (fun _ l => words2 (BitVec.ofNat 64 ((l.x r.a).toNat * (l.x r.b).toNat))) (fun _ _ => 0) ∧
    Writes (.mul64 .s32 p r) r.d (fun _ l => words2 (BitVec.ofInt 64 ((l.x r.a).toInt * (l.x r.b).toInt))) (fun _ _ => 0)

/-- R190: the quotient rounds toward zero and the remainder takes the dividend's sign; a zero divisor gives all ones
(natural) or the largest value of the dividend's sign, and the dividend as the remainder. -/
def Sys2Proof.Rules.Division : Prop :=
  ∀ (r : R3),
    let dn := fun (w a b : Nat) => if b = 0 then (BitVec.allOnes w, BitVec.ofNat w a) else (BitVec.ofNat w (a / b), BitVec.ofNat w (a % b))
    let ds := fun (w : Nat) (a b : Int) =>
      if b = 0 then (if a < 0 then BitVec.intMin w else BitVec.intMax w, BitVec.ofInt w a)
      else (BitVec.ofInt w (Int.tdiv a b), BitVec.ofInt w (Int.tmod a b))
    let n := fun (l : LaneCtx) => dn 32 (l.x r.a).toNat (l.x r.b).toNat
    let s := fun (l : LaneCtx) => ds 32 (l.x r.a).toInt (l.x r.b).toInt
    let n2 := fun (l : LaneCtx) => dn 64 (l.pair r.a) (l.pair r.b)
    let s2 := fun (l : LaneCtx) => ds 64 (toSigned 64 (l.pair r.a)) (toSigned 64 (l.pair r.b))
    Writes (.idiv .n32 r) r.d (fun _ l => [(n l).1]) (fun _ _ => 0) ∧
    Writes (.irem .n32 r) r.d (fun _ l => [(n l).2]) (fun _ _ => 0) ∧
    Writes (.idiv .s32 r) r.d (fun _ l => [(s l).1]) (fun _ _ => 0) ∧
    Writes (.irem .s32 r) r.d (fun _ l => [(s l).2]) (fun _ _ => 0) ∧
    Writes (.idiv .n64 r) r.d (fun _ l => words2 (n2 l).1) (fun _ _ => 0) ∧
    Writes (.irem .n64 r) r.d (fun _ l => words2 (n2 l).2) (fun _ _ => 0) ∧
    Writes (.idiv .s64 r) r.d (fun _ l => words2 (s2 l).1) (fun _ _ => 0) ∧
    Writes (.irem .s64 r) r.d (fun _ l => words2 (s2 l).2) (fun _ _ => 0)

/-- R190, R191: arithmetic on pairs, and division. -/
def Obligations.PairsAndDivision : Prop :=
  Rules.PairArithmetic ∧ Rules.Division

/-- R192: the smaller and the larger operand of a type, the absolute value and the negation, saturated with SAT. -/
def Sys2Proof.Rules.MinMaxAbsNeg : Prop :=
  ∀ (t : Sg) (p : Option RPfx) (r : R3),
    let sat := (pfx p).sat
    Writes (.min t r) r.d (fun _ l => [BitVec.ofInt 32 (min (t.int (l.x r.a)) (t.int (l.x r.b)))]) (fun _ _ => 0) ∧
    Writes (.max t r) r.d (fun _ l => [BitVec.ofInt 32 (max (t.int (l.x r.a)) (t.int (l.x r.b)))]) (fun _ _ => 0) ∧
    Writes (.abs .s32 p r) r.d (fun _ l => [intOut 32 sat true (l.x r.a).toInt.natAbs])
      (fun _ l => nvOut 32 sat true (l.x r.a).toInt.natAbs) ∧
    Writes (.neg .s32 p r) r.d (fun _ l => [intOut 32 sat true (-(l.x r.a).toInt)])
      (fun _ l => nvOut 32 sat true (-(l.x r.a).toInt)) ∧
    Writes (.abs .s64 p r) r.d (fun _ l => words2 (intOut 64 sat true (toSigned 64 (l.pair r.a)).natAbs))
      (fun _ l => nvOut 64 sat true (toSigned 64 (l.pair r.a)).natAbs) ∧
    Writes (.neg .s64 p r) r.d (fun _ l => words2 (intOut 64 sat true (-toSigned 64 (l.pair r.a))))
      (fun _ l => nvOut 64 sat true (-toSigned 64 (l.pair r.a)))

/-! ## Logic, shifts, bit fields -/

/-- R193, R196, R198: bitwise logic, moves and select. -/
def Sys2Proof.Rules.LogicAndMoves : Prop :=
  ∀ (r : R3) (q : Option Nat) (rl : RL) (g : Nat),
    Writes (.and r) r.d (fun _ l => [l.x r.a &&& l.x r.b]) (fun _ _ => 0) ∧
    Writes (.or r) r.d (fun _ l => [l.x r.a ||| l.x r.b]) (fun _ _ => 0) ∧
    Writes (.xor r) r.d (fun _ l => [l.x r.a ^^^ l.x r.b]) (fun _ _ => 0) ∧
    Writes (.andn r) r.d (fun _ l => [l.x r.a &&& ~~~(l.x r.b)]) (fun _ _ => 0) ∧
    Writes (.mov r) r.d (fun _ l => [l.x r.a]) (fun _ _ => 0) ∧
    Writes (.movi q rl) rl.d (fun _ _ => [rlImm q rl]) (fun _ _ => 0) ∧
    Writes (.movhi rl) rl.d (fun _ l => [BitVec.ofNat 16 rl.imm ++ (l.x rl.d).extractLsb' 0 16]) (fun _ _ => 0) ∧
    Writes (.sel g r) r.d (fun _ l => [if l.t.pred g then l.x r.a else l.x r.b]) (fun _ _ => 0)

/-- R192, R193, R196, R198: extremes, absolute values, logic, moves and select. -/
def Obligations.MinMaxLogicMoves : Prop :=
  Rules.MinMaxAbsNeg ∧ Rules.LogicAndMoves

/-- R193, R194: shifts by any amount, a left or right shift by 32 or more giving 0 and an arithmetic one the sign;
rotation modulo 32; the funnel shift takes the high word of the shifted pair. -/
def Sys2Proof.Rules.Shifts : Prop :=
  ∀ (p : Option RPfx) (q : RPfx) (r : R3),
    let n := fun (l : LaneCtx) =>
      if p.isSome ∧ r.b = 127 then (pfx p).ext % 64 else (l.x r.b).toNat
    let m := fun (l : LaneCtx) => if q.cv then (l.x q.c).toNat % 32 else q.ext % 32
    Writes (.shl p r) r.d (fun _ l => [l.x r.a <<< n l]) (fun _ _ => 0) ∧
    Writes (.shr p r) r.d (fun _ l => [l.x r.a >>> n l]) (fun _ _ => 0) ∧
    Writes (.sar p r) r.d (fun _ l => [(l.x r.a).sshiftRight (n l)]) (fun _ _ => 0) ∧
    Writes (.rot p r) r.d (fun _ l => [(l.x r.a).rotateLeft (n l)]) (fun _ _ => 0) ∧
    Writes (.fshl q r) r.d (fun _ l => [((l.x r.a ++ l.x r.b) <<< m l).extractLsb' 32 32]) (fun _ _ => 0)

/-- R195: population count, leading and trailing zeros (32 for 0), bit reversal, and the extraction and insertion of the
field whose first bit and length X(B) names, clipped at bit 32. -/
def Sys2Proof.Rules.BitFields : Prop :=
  ∀ (r : R3),
    let pos := fun (l : LaneCtx) => min ((l.x r.b).toNat % 256) 32
    let len := fun (l : LaneCtx) => min ((l.x r.b).toNat / 256 % 256) (32 - pos l)
    let fld := fun (l : LaneCtx) => (l.x r.a).toNat / 2 ^ pos l % 2 ^ len l
    Writes (.popc r) r.d (fun _ l => [BitVec.ofNat 32 ((List.range 32).countP fun i => (l.x r.a).getLsbD i)]) (fun _ _ => 0) ∧
    Writes (.clz r) r.d (fun _ l => [BitVec.ofNat 32 ((List.range 32).takeWhile fun i => !(l.x r.a).getMsbD i).length])
      (fun _ _ => 0) ∧
    Writes (.ctz r) r.d (fun _ l => [BitVec.ofNat 32 ((List.range 32).takeWhile fun i => !(l.x r.a).getLsbD i).length])
      (fun _ _ => 0) ∧
    Writes (.brev r) r.d (fun _ l => [(l.x r.a).reverse]) (fun _ _ => 0) ∧
    Writes (.bfe .n32 r) r.d (fun _ l => [BitVec.ofNat 32 (fld l)]) (fun _ _ => 0) ∧
    Writes (.bfe .s32 r) r.d (fun _ l => [if len l = 0 then 0 else BitVec.ofInt 32 (toSigned (len l) (fld l))]) (fun _ _ => 0) ∧
    Writes (.bfi r) r.d (fun _ l =>
      [(l.x r.d &&& ~~~(BitVec.ofNat 32 ((2 ^ len l - 1) * 2 ^ pos l))) |||
        BitVec.ofNat 32 ((l.x r.a).toNat % 2 ^ len l * 2 ^ pos l)]) (fun _ _ => 0)

/-- R193 to R195: shifts, counts and bit fields. -/
def Obligations.ShiftsAndBitFields : Prop :=
  Rules.Shifts ∧ Rules.BitFields

/-! ## Compares and predicates -/

/-- R197, R199, R204: what the compares and the predicate instructions write, single registers or pairs. -/
def Sys2Proof.Rules.ComparesAndPredicates : Prop :=
  ∀ (cc : CC) (fc : FCC) (p : Option RPfx) (q : Option Nat) (r : R3) (ri : RI),
    let c32 := fun (a b : Word) => match cc with
      | .eq => decide (a = b) | .ne => decide (a ≠ b)
      | .ltS => decide (a.toInt < b.toInt) | .geS => decide (b.toInt ≤ a.toInt)
      | .ltN => decide (a < b) | .geN => decide (b ≤ a)
    WritesPred (.cmp cc p r) (r.d % 8) (fun _ l =>
      if (pfx p).ext = 1 then cc.holds 64 (l.pair r.a) (l.pair r.b) else c32 (l.x r.a) (l.x r.b)) ∧
    WritesPred (.cmpi cc q ri) (ri.d % 8) (fun _ l => c32 (l.x ri.a) (riImm q ri)) ∧
    WritesPred (.fcmp fc r) (r.d % 8) (fun _ l => fccHolds fc (l.f r.a) (l.f r.b)) ∧
    WritesPred (.pand r) (r.d % 8) (fun _ l => l.t.pred (r.a % 8) && l.t.pred (r.b % 8)) ∧
    WritesPred (.por r) (r.d % 8) (fun _ l => l.t.pred (r.a % 8) || l.t.pred (r.b % 8)) ∧
    WritesPred (.pxor r) (r.d % 8) (fun _ l => Bool.xor (l.t.pred (r.a % 8)) (l.t.pred (r.b % 8))) ∧
    WritesPred (.pnot r) (r.d % 8) (fun _ l => !(l.t.pred (r.a % 8)))

/-- R204: a comparison with a NaN is unordered: `un` holds and `eq`, `lt`, `le`, `or` do not, `ne` does; of two values
that are no NaN exactly one of less, equal, greater holds. -/
def Sys2Proof.Rules.FloatOrder : Prop :=
  ∀ (a b : FV),
    (fccHolds .un a b = (a == .nan || b == .nan)) ∧
    (fccHolds .or a b = !(fccHolds .un a b)) ∧
    (fccHolds .ne a b = !(fccHolds .eq a b)) ∧
    (fccHolds .un a b = true → fccHolds .eq a b = false ∧ fccHolds .lt a b = false ∧ fccHolds .le a b = false) ∧
    (fccHolds .un a b = false →
      (fccHolds .lt a b).toNat + (fccHolds .eq a b).toNat + (fccHolds .lt b a).toNat = 1)

/-- R197, R199, R204: compares, predicates, and the order of floating values. -/
def Obligations.ComparesAndOrder : Prop :=
  Rules.ComparesAndPredicates ∧ Rules.FloatOrder

/-! ## Dot products and widening adds -/

/-- R200, R201: the sum of four byte products and an accumulator, and the sum of a word and an element of X(B), each
saturated with SAT. -/
def Obligations.DotAndWideningAdd : Prop :=
  ∀ (t : DotTy) (p : Option RPfx) (r : R3),
    let sat := (pfx p).sat
    let acc := fun (l : LaneCtx) => if (pfx p).cv then l.x (pfx p).c else l.x r.d
    let byte := fun (sg : Bool) (v : Word) (i : Nat) =>
      if sg then (v.extractLsb' (8 * i) 8).toInt else ((v.extractLsb' (8 * i) 8).toNat : Int)
    let ta := t = .s8 ∨ t = .s8n8
    let tb := t = .s8 ∨ t = .n8s8
    let sg := decide (t ≠ .n8)
    let sum := fun (l : LaneCtx) => (if sg then (acc l).toInt else ((acc l).toNat : Int)) +
      byte ta (l.x r.a) 0 * byte tb (l.x r.b) 0 + byte ta (l.x r.a) 1 * byte tb (l.x r.b) 1 +
      byte ta (l.x r.a) 2 * byte tb (l.x r.b) 2 + byte ta (l.x r.a) 3 * byte tb (l.x r.b) 3
    let e := (pfx p).ext
    let n8 := fun (l : LaneCtx) => ((l.x r.a).toNat : Int) + ((l.x r.b).extractLsb' (8 * e) 8).toNat
    let s8 := fun (l : LaneCtx) => (l.x r.a).toInt + ((l.x r.b).extractLsb' (8 * e) 8).toInt
    let n16 := fun (l : LaneCtx) => ((l.x r.a).toNat : Int) + ((l.x r.b).extractLsb' (16 * e) 16).toNat
    let s16 := fun (l : LaneCtx) => (l.x r.a).toInt + ((l.x r.b).extractLsb' (16 * e) 16).toInt
    Writes (.dot4 t p r) r.d (fun _ l => [intOut 32 sat sg (sum l)]) (fun _ l => nvOut 32 sat sg (sum l)) ∧
    Writes (.wadd .n8 p r) r.d (fun _ l => [intOut 32 sat false (n8 l)]) (fun _ l => nvOut 32 sat false (n8 l)) ∧
    Writes (.wadd .s8 p r) r.d (fun _ l => [intOut 32 sat true (s8 l)]) (fun _ l => nvOut 32 sat true (s8 l)) ∧
    Writes (.wadd .n16 p r) r.d (fun _ l => [intOut 32 sat false (n16 l)]) (fun _ l => nvOut 32 sat false (n16 l)) ∧
    Writes (.wadd .s16 p r) r.d (fun _ l => [intOut 32 sat true (s16 l)]) (fun _ l => nvOut 32 sat true (s16 l))

/-! ## Floating point -/

/-- R202, R167: the FP32 results are the exact results rounded once, in the direction of the prefix or of `FPCTL`.RM, and
raise the flags of that rounding and NV for an invalid operation. -/
def Sys2Proof.Rules.FloatArithmetic : Prop :=
  ∀ (p : Option RPfx) (r : R3),
    let m := fun (l : LaneCtx) => rmodeOf l.t (pfx p)
    let f := fun (l : LaneCtx) (code : Nat) => f32.val (l.x code).toNat
    let add := fun l => roundF32 (m l) (sumOf (m l) [f l r.a, f l r.b])
    let sub := fun l => roundF32 (m l) (sumOf (m l) [f l r.a, (f l r.b).negate])
    let mul := fun l => roundF32 (m l) (mulOf (f l r.a) (f l r.b))
    let fma := fun l => roundF32 (m l) (fmaOf (m l) (f l r.a) (f l r.b) (f l (if (pfx p).cv then (pfx p).c else r.d)))
    let sqrt := fun l => roundF32 (m l) (sqrtOf (f l r.a))
    let div := fun l => roundF32 (m l) (divOf (f l r.a) (f l r.b))
    let rnd := fun l => rndOf (m l) (l.x r.a).toNat
    Writes (.fadd p r) r.d (fun _ l => oneWord (add l)) (fun _ l => (add l).2.word) ∧
    Writes (.fsub p r) r.d (fun _ l => oneWord (sub l)) (fun _ l => (sub l).2.word) ∧
    Writes (.fmul p r) r.d (fun _ l => oneWord (mul l)) (fun _ l => (mul l).2.word) ∧
    Writes (.ffma p r) r.d (fun _ l => oneWord (fma l)) (fun _ l => (fma l).2.word) ∧
    Writes (.fsqrt p r) r.d (fun _ l => oneWord (sqrt l)) (fun _ l => (sqrt l).2.word) ∧
    Writes (.fdiv p r) r.d (fun _ l => oneWord (div l)) (fun _ l => (div l).2.word) ∧
    Writes (.frnd p r) r.d (fun _ l => oneWord (rnd l)) (fun _ l => (rnd l).2.word)

/-- R203, R205: minimum and maximum raise no flag; the approximate functions give what R184 allows, with its flags. -/
def Sys2Proof.Rules.FloatMinMaxAndApproximate : Prop :=
  ∀ (r : R3),
    let x := fun (l : LaneCtx) (code : Nat) => (l.x code).toNat
    Writes (.fmin r) r.d (fun _ l => [BitVec.ofNat 32 (f32.min (x l r.a) (x l r.b))]) (fun _ _ => 0) ∧
    Writes (.fmax r) r.d (fun _ l => [BitVec.ofNat 32 (f32.max (x l r.a) (x l r.b))]) (fun _ _ => 0) ∧
    Writes (.frcp r) r.d (fun _ l => oneWord (rcpOf (x l r.a))) (fun _ l => (rcpOf (x l r.a)).2.word) ∧
    Writes (.frsq r) r.d (fun _ l => oneWord (rsqOf (x l r.a))) (fun _ l => (rsqOf (x l r.a)).2.word) ∧
    Writes (.fexp2 r) r.d (fun _ l => oneWord (exp2Of (x l r.a))) (fun _ l => (exp2Of (x l r.a)).2.word) ∧
    Writes (.flog2 r) r.d (fun _ l => oneWord (log2Of (x l r.a))) (fun _ l => (log2Of (x l r.a)).2.word) ∧
    Writes (.fsin r) r.d (fun _ l => oneWord (trigOf (x l r.a) 0)) (fun _ l => (trigOf (x l r.a) 0).2.word) ∧
    Writes (.fcos r) r.d (fun _ l => oneWord (trigOf (x l r.a) 1)) (fun _ l => (trigOf (x l r.a) 1).2.word)

/-- R207: the paired 16-bit instructions act on the low and the high half apart, and raise the flags of both. -/
def Sys2Proof.Rules.PairedHalves : Prop :=
  ∀ (t : H16) (p : Option RPfx) (r : R3),
    let fm := halfFmt t
    let m := fun (l : LaneCtx) => rmodeOf l.t (pfx p)
    let half := fun (l : LaneCtx) (code i : Nat) => fm.val ((l.x code).extractLsb' (16 * i) 16).toNat
    let c := if (pfx p).cv then (pfx p).c else r.d
    let out := fun (l : LaneCtx) (v : FV × Bool) =>
      ((fm.round (m l) false v.1).1, (fm.round (m l) false v.1).2.or { nv := v.2 })
    let add := fun l i => out l (sumOf (m l) [half l r.a i, half l r.b i])
    let mul := fun l i => out l (mulOf (half l r.a i) (half l r.b i))
    let fma := fun l i => out l (fmaOf (m l) (half l r.a i) (half l r.b i) (half l c i))
    let both := fun (f : LaneCtx → Nat → Nat × Fl) (l : LaneCtx) => [BitVec.ofNat 32 ((f l 1).1 * 65536 + (f l 0).1)]
    let flags := fun (f : LaneCtx → Nat → Nat × Fl) (l : LaneCtx) => ((f l 0).2.or (f l 1).2).word
    Writes (.hadd2 t p r) r.d (fun _ l => both add l) (fun _ l => flags add l) ∧
    Writes (.hmul2 t p r) r.d (fun _ l => both mul l) (fun _ l => flags mul l) ∧
    Writes (.hfma2 t p r) r.d (fun _ l => both fma l) (fun _ l => flags fma l)

/-- R184: the special results of the approximate functions, each with exactly its flags. -/
def Sys2Proof.Rules.ApproximateSpecials : Prop :=
  let inf := 0x7F800000
  let minf := 0xFF800000
  let bad : Nat × Fl := (0x7FC00000, { nv := true })
  (∀ x < 2 ^ 32, f32.val x = .nan → ∀ f ∈ [rcpOf x, rsqOf x, exp2Of x, log2Of x, trigOf x 0, trigOf x 1], f = (0x7FC00000, {})) ∧
  rcpOf 0 = (inf, {}) ∧ rcpOf 0x80000000 = (minf, {}) ∧ rcpOf inf = (0, {}) ∧ rcpOf minf = (0x80000000, {}) ∧
  rsqOf 0 = (inf, {}) ∧ rsqOf 0x80000000 = (minf, {}) ∧ rsqOf inf = (0, {}) ∧ rsqOf minf = bad ∧
  exp2Of minf = (0, {}) ∧ exp2Of inf = (inf, {}) ∧
  log2Of 0 = (minf, {}) ∧ log2Of 0x80000000 = (minf, {}) ∧ log2Of inf = (inf, {}) ∧ log2Of minf = bad ∧
  trigOf 0 0 = (0, {}) ∧ trigOf 0x80000000 0 = (0x80000000, {}) ∧ trigOf 0 1 = (0x3F800000, {}) ∧
  trigOf 0x80000000 1 = (0x3F800000, {}) ∧ (∀ i ∈ [0, 1], trigOf inf i = bad ∧ trigOf minf i = bad) ∧
  ∀ x < 2 ^ 32, ∀ n m e, f32.val x = .fin n m e → m ≠ 0 → let a := (f32.val x).rat
    (a < 0 → rsqOf x = bad ∧ log2Of x = bad) ∧ (128 ≤ a → exp2Of x = (inf, { of := true, nx := true })) ∧
    (a ≤ -150 → exp2Of x = (0, { uf := true, nx := true })) ∧
    (131072 < a ∨ a < -131072 → ∀ i ∈ [0, 1], trigOf x i = bad)

/-- R184: the exact cases of the approximate functions raise no flag, every other finite result that is not special raises
NX and keeps its bound. The bounds of `FRCP` and `FRSQ` are those of the exact result. Those of `FEXP2`, `FLOG2`, `FSIN` and
`FCOS` are those of the value that the model computes for the exact result, in fixed point with 512 fractional bits
(log entry 9). -/
def Sys2Proof.Rules.ApproximateBounds : Prop :=
  ∀ x < 2 ^ 32, ∀ n m e, f32.val x = .fin n m e → m ≠ 0 →
    let a := (f32.val x).rat
    let exact := fun (o : Nat × Fl) (y : Rat) => NearTo o.1 y 0 ∧ o.2 = {}
    let power := fun (c : Rat) (j : Int) => c = 2 ^ j
    let one : Rat := 2 ^ (512 : Nat)
    (let lone := ∃ j : Int, -127 ≤ j ∧ j ≤ 126 ∧ (power a j ∨ power (-a) j)
     (lone → exact (rcpOf x) (1 / a)) ∧
     (¬lone → ∀ k, Binade k (1 / a) → (rcpOf x).2.nx = true ∧ (rcpOf x).2.nv = false ∧
       let beyond := 2 ^ 128 - 2 ^ 103 ≤ 1 / a ∨ 1 / a ≤ -(2 ^ 128 - 2 ^ 103)
       ((rcpOf x).2.of = true ↔ beyond) ∧ ((beyond ∧ f32.val (rcpOf x).1 = .inf n) ∨ NearTo (rcpOf x).1 (1 / a) (ulpOf k)))) ∧
    (0 < a →
      (∀ j : Int, power a (2 * j) → exact (rsqOf x) (2 ^ (-j))) ∧
      ((∀ j : Int, ¬power a (2 * j)) → ∀ k : Int, 4 ^ k * a ≤ 1 → 1 < 4 ^ (k + 1) * a →
        (rsqOf x).2.nx = true ∧ (rsqOf x).2.nv = false ∧ (rsqOf x).2.of = false ∧
        ∃ r, NearTo (rsqOf x).1 r 0 ∧ let hi := r + 2 * ulpOf k
          let lo := r - 2 * ulpOf k
          0 ≤ hi ∧ 1 ≤ a * (hi * hi) ∧ (lo ≤ 0 ∨ a * (lo * lo) ≤ 1))) ∧
    (-150 < a → a < 128 →
      (∀ i : Int, a = i → -149 ≤ i → i ≤ 127 → exact (exp2Of x) (2 ^ i)) ∧
      ∀ (i : Int) (f : Nat), 0 < f → f < 2 ^ 512 → a = i + f / one → (exp2Of x).2.nx = true ∧ (exp2Of x).2.nv = false ∧
        (exp2Of x).2.of = false ∧ let y := 2 ^ i * (fxExp2 f / one)
        ∀ k, Binade k y → NearTo (exp2Of x).1 y (2 * ulpOf k)) ∧
    (0 < a →
      (∀ i : Int, power a i → exact (log2Of x) i) ∧
      ((∀ i : Int, ¬power a i) → ∀ (i : Int) (g : Nat), 2 ^ 512 ≤ g → g < 2 ^ 513 → a = 2 ^ i * (g / one) →
        (log2Of x).2.nx = true ∧ (log2Of x).2.nv = false ∧ (log2Of x).2.of = false ∧ let y := i + fxLog2 g / one
        ((1 / 2 ≤ a ∧ a ≤ 2) → NearTo (log2Of x).1 y (1 / 2 ^ 22)) ∧
        (¬(1 / 2 ≤ a ∧ a ≤ 2) → ∀ k, Binade k y → NearTo (log2Of x).1 y (2 * ulpOf k)))) ∧
    (-131072 ≤ a → a ≤ 131072 → ∀ i ∈ [0, 1], (trigOf x i).2.nx = true ∧ (trigOf x i).2.nv = false ∧
      (trigOf x i).2.of = false ∧ NearTo (trigOf x i).1 (fxTrig n m e i / one) (1 / 2 ^ 21))

/-- R184, R202, R203, R205 to R207: floating arithmetic, extremes, approximate functions with their special results, exact
cases and bounds, paired halves. Which value within its bound an approximate function gives is free (R185, log entry 9). -/
def Obligations.FloatResults : Prop :=
  Rules.FloatArithmetic ∧ Rules.FloatMinMaxAndApproximate ∧ Rules.ApproximateSpecials ∧ Rules.ApproximateBounds ∧
  Rules.PairedHalves

/-- R165, R167: a finite or infinite FP32 or FP16 encoding, rounded to its own format in any direction, is itself and
raises no flag; a NaN becomes the canonical NaN. -/
def Sys2Proof.Rules.RoundingKeepsRepresentable : Prop :=
  ∀ (m : RMode) (v : Nat),
    (v < 2 ^ 32 → f32.round m false (f32.val v) = (if f32.val v = .nan then f32.nan else v, {})) ∧
    (v < 2 ^ 16 → fp16.round m false (fp16.val v) = (if fp16.val v = .nan then fp16.nan else v, {}))

/-! ## Conversions -/

/-- R208: an integer-to-integer `CVT` writes the value extended by its own type, clamped with SAT and NV, else reduced;
every other `CVT` writes what one conversion of the selected element gives. -/
def Sys2Proof.Rules.Conversions : Prop :=
  ∀ (td ts : CvtTy) (p : Option RPfx) (r : R3) (pt : PackTy) (dt : DqntTy),
    let m := fun (l : LaneCtx) => rmodeOf l.t (pfx p)
    let e := (pfx p).ext
    let w := (cvtKind ts).width
    let el := fun (l : LaneCtx) => if w = 64 then l.pair r.a else (l.x r.a).toNat / 2 ^ (w * e) % 2 ^ w
    let o := fun (l : LaneCtx) => cvtOf (m l) (pfx p).sat (cvtKind td) (cvtKind ts) (el l)
    let pw := packWidth pt
    let two := fun (l : LaneCtx) => (packOne pt (m l) (pfx p).sat (l.x r.a), packOne pt (m l) (pfx p).sat (l.x r.b))
    let hole := BitVec.ofNat 32 ((2 ^ (2 * pw) - 1) * 2 ^ (2 * pw * e))
    let part := fun (l : LaneCtx) (i : Nat) => (l.x r.a).toNat / 2 ^ (2 * pw * e + pw * i) % 2 ^ pw
    let fm := match dt with | .f16 => fp16 | .bf16 => Machine.bf16 | .f32 => Machine.f32
    let dq := fun (l : LaneCtx) => dqntOf fm (m l) ((l.x r.a).toNat / 2 ^ (8 * e) % 256)
      (l.pair r.b / 2 ^ 32 % 4096) (f32.val (l.pair r.b % 2 ^ 32))
    (∀ sg wd sg' w', cvtKind td = .int sg wd → cvtKind ts = .int sg' w' →
      let i := fun (l : LaneCtx) => if sg' then (BitVec.ofNat w' (el l)).toInt else ((el l : Nat) : Int)
      let out := fun (l : LaneCtx) => intOut wd (pfx p).sat sg (i l)
      let wide := fun (l : LaneCtx) => if sg then (out l).signExtend 64 else (out l).setWidth 64
      Writes (.cvt td ts p r) r.d
        (fun _ l => if wd = 64 then words2 (wide l) else [(wide l).extractLsb' 0 32])
        (fun _ l => nvOut wd (pfx p).sat sg (i l))) ∧
    Writes (.cvt td ts p r) r.d
      (fun _ l => if td = .n64 ∨ td = .s64 then words2 (BitVec.ofNat 64 (o l).1) else [BitVec.ofNat 32 (o l).1])
      (fun _ l => (o l).2.word) ∧
    (e < 32 / (2 * pw) →
      Writes (.pack pt p r) r.d (fun _ l => [(l.x r.d &&& ~~~hole) +
          BitVec.ofNat 32 (((two l).2.1 * 2 ^ pw + (two l).1.1) * 2 ^ (2 * pw * e))])
        (fun _ l => ((two l).1.2.or (two l).2.2).word)) ∧
    Writes (.unpk pt p r) r.d
      (fun _ l => words2 (BitVec.ofNat 64 (unpkOne pt (part l 1) * 2 ^ 32 + unpkOne pt (part l 0)))) (fun _ _ => 0) ∧
    Writes (.dqnt dt p r) r.d
      (fun _ l => if dt = .f32 then words2 (BitVec.ofNat 64 ((dq l).2.1 * 2 ^ 32 + (dq l).1))
        else [BitVec.ofNat 32 ((dq l).2.1 * 65536 + (dq l).1)])
      (fun _ l => (dq l).2.2.word)

/-- R165, R167, R206, R208, R210 to R212: rounding and conversions. -/
def Obligations.ConversionsAndRounding : Prop :=
  Rules.RoundingKeepsRepresentable ∧ Rules.Conversions

/-! ## Across lanes -/

/-- R209, R214, R215, R216: the collectives of the vector unit. Every source is read before any destination is
written. -/
def Sys2Proof.Rules.Collectives : Prop :=
  ∀ (m : ShflMode) (o : RedOp) (p : Option RPfx) (q : QntTy) (r : R3),
    let b := fun (l : LaneCtx) => (l.x r.b).toNat
    let src := fun (l : LaneCtx) => match m with
      | .idx => b l % 32
      | .up => if b l ≤ l.lane then l.lane - b l else l.lane
      | .down => if l.lane + b l < 32 then l.lane + b l else l.lane
      | .xor => l.lane ^^^ (b l % 32)
    let ballot := fun (s : State) => (BitVec.ofBoolListLE ((List.range 32).map fun i =>
      s.lanes.any fun l => l.lane == i && l.t.pred (r.a % 8))).setWidth 32
    let red := fun (s : State) =>
      redOf o ((s.lanes.head?.map fun l => rmodeOf l.t (pfx p)).getD .rne) (s.lanes.map fun l => l.x r.a)
    let quant := fun (s : State) =>
      let ls := (List.range 32).filterMap fun i => s.lanes.find? fun l => l.lane == i
      qntBlock ((ls.head?.map fun l => f32.val (l.x r.b).toNat).getD .nan) (ls.flatMap fun l => qntPair q l r.a)
    Writes (.shfl m r) r.d
      (fun s l => [s.onLane (src l) r.a]) (fun _ _ => 0) ∧
    WritesPred (.vote .any r) (r.d % 8) (fun s _ => s.lanes.any fun l => l.t.pred (r.a % 8)) ∧
    WritesPred (.vote .all r) (r.d % 8) (fun s _ => s.lanes.all fun l => l.t.pred (r.a % 8)) ∧
    Writes (.vote .ballot r) r.d (fun s _ => [ballot s]) (fun _ _ => 0) ∧
    Writes (.wred o p r) r.d (fun s _ => oneWord (red s)) (fun s _ => (red s).2.word) ∧
    Writes (.qnt q r) r.d (fun s l =>
      [BitVec.ofNat 32 ((quant s).1 * 256 + (quant s).2.1.getD (2 * l.lane + 1) 0 * 16 + (quant s).2.1.getD (2 * l.lane) 0)])
      (fun s _ => (quant s).2.2.word)

/-- R217, R218: a quad instruction executes at once for the quads whose live members all stand in the warp in their
lanes; each member takes another member's value, one member's value, or the reduction of the four, where a member that
does not execute counts as 0. -/
def Sys2Proof.Rules.Quads : Prop :=
  ∀ (s : State) (c : Cur) (blk : Block) (x : QswpKind) (n : Nat) (o : RedOp) (p : Option RPfx) (r : R3),
    Runs s c blk →
    (∀ l ∈ s.lanes, ∀ u ∈ blk.threads, u.tid / 4 = l.t.tid / 4 → u.live = true →
      (4 * (l.t.tid / 4 % 8) + u.tid % 4, u.tid) ∈ c.act) →
    let of := fun (l : LaneCtx) (m : Nat) =>
      ((s.lanes.find? fun k => k.t.tid == l.t.tid / 4 * 4 + m).map (·.x r.a)).getD 0
    let k := match x with | .x1 => 1 | .x2 => 2 | .x3 => 3
    let lead := fun (l : LaneCtx) => (s.lanes.find? fun k => k.t.tid / 4 == l.t.tid / 4).getD l
    let red := fun (l : LaneCtx) => redOf o (rmodeOf (lead l).t (pfx p)) [of l 0, of l 1, of l 2, of l 3]
    WritesIn s c blk (.qswp x r) r.d (fun l => [of l ((l.t.tid % 4) ^^^ k)]) (fun _ => 0) ∧
    (n < 4 → WritesIn s c blk (.qbcst n r) r.d (fun l => [of l n]) (fun _ => 0)) ∧
    WritesIn s c blk (.qred o p r) r.d (fun l => oneWord (red l)) (fun l => (red l).2.word)

/-- R217: the quad meeting. At a quad instruction the quads that stand in the warp execute. Every other thread of the warp
leaves it and parks, and is released at once where with it every live member of its quad is parked at the same address: the
quad then enters the pool as a unit. -/
def Sys2Proof.Rules.QuadsMeet : Prop :=
  ∀ (s : State) (c : Cur) (blk : Block) (x : QswpKind) (n : Nat) (o : RedOp) (p : Option RPfx) (r : R3),
    Runs s c blk → Standing s → (blk.threads.map (·.tid)).Nodup → (∀ l ∈ s.lanes, l.t.idle) →
    let stands := fun (l : LaneCtx) => ∀ u ∈ blk.threads, u.tid / 4 = l.t.tid / 4 → u.live = true →
      (4 * (l.t.tid / 4 % 8) + u.tid % 4, u.tid) ∈ c.act
    let complete := fun (t : Thread) => ∀ u ∈ blk.threads, u.tid / 4 = t.tid / 4 → u.live = true →
      (u.tid ∈ c.act.map (·.2) ∨ u.cond = .wings .quad) ∧ u.pc = t.pc ∧ u.owes = false
    let goes := fun (u t : Thread) => (complete t → u = { t with cond := .pool s.now false, quadUnit := true }) ∧
      (¬complete t → u = { t with cond := .wings .quad })
    let of := fun (l : LaneCtx) (m : Nat) =>
      ((s.lanes.find? fun k => k.t.tid == l.t.tid / 4 * 4 + m).map (·.x r.a)).getD 0
    let k := match x with | .x1 => 1 | .x2 => 2 | .x3 => 3
    let lead := fun (l : LaneCtx) => (s.lanes.find? fun k => k.t.tid / 4 == l.t.tid / 4).getD l
    let red := fun (l : LaneCtx) => redOf o (rmodeOf (lead l).t (pfx p)) [of l 0, of l 1, of l 2, of l 3]
    let meets := fun (i : Instr) (vs : LaneCtx → List Word) (fl : LaneCtx → Word) =>
      ∃ t, exec i s = .next t ∧ t = { s with blocks := t.blocks, warps := t.warps } ∧
        (∀ core slot, ¬(core = c.core ∧ slot = c.slot) → t.block? core slot = s.block? core slot) ∧
        (∀ l ∈ s.lanes, stands l → t.thread? c.core c.slot l.t.tid = some { withRegs l.t r.d (vs l) (fl l) with pc := c.nextPc }) ∧
        (∀ l ∈ s.lanes, ¬stands l → (∃ u, t.thread? c.core c.slot l.t.tid = some u ∧ goes u l.t) ∧
          (∀ w ∈ t.warps, w.core = c.core → w.slot = c.slot → some l.t.tid ∉ w.lanes) ∧
          ∀ y ∈ blk.threads, y.tid ∉ c.act.map (·.2) → y.tid / 4 = l.t.tid / 4 → y.cond = .wings .quad →
            ∃ u, t.thread? c.core c.slot y.tid = some u ∧ goes u y) ∧
        ∀ y ∈ blk.threads, y.tid ∉ c.act.map (·.2) → y.cond ≠ .wings .quad → t.thread? c.core c.slot y.tid = some y
    meets (.qswp x r) (fun l => [of l ((l.t.tid % 4) ^^^ k)]) (fun _ => 0) ∧
    (n < 4 → meets (.qbcst n r) (fun l => [of l n]) (fun _ => 0)) ∧
    meets (.qred o p r) (fun l => oneWord (red l)) (fun l => (red l).2.word)

/-- R213 to R218: what the lanes of a warp and of a quad exchange, and how the members of a quad meet. Where the manual leaves a point open, the model's
readings and choices of log entry 20 stand. -/
def Obligations.CollectivesAndQuads : Prop :=
  Rules.Collectives ∧ Rules.Quads ∧ Rules.QuadsMeet

/-! ## Control flow -/

/-- R38, R39, R315, R316: the five branches. -/
def Sys2Proof.Rules.BranchesGoToTheirTargets : Prop :=
  ∀ (r : BR) (x : BX),
    let direct := fun (c : Cur) (_ : LaneCtx) => (c.pc &&& 0xFFFFFFC0) + BitVec.ofInt 32 (toSigned 19 r.off * 64)
    let indirect := fun (_ : Cur) (l : LaneCtx) => l.x x.a
    Branches (.bra r) r.h r.n r.p false direct ∧ Branches (.brx x) x.h x.n x.p false indirect ∧
    Branches (.call r) r.h r.n r.p true direct ∧ Branches (.callx x) x.h x.n x.p true indirect ∧
    Branches (.ret x) x.h x.n x.p false indirect

/-- R38: the target of a direct branch is a fetch block. -/
def Sys2Proof.Rules.DirectTargetsAreAligned : Prop := ∀ (pc : Word) (off : Nat), (directTarget pc off).toNat % 64 = 0

/-- R312, R317: `JOIN` holds the threads whose MR names it where another thread is due or held there, and lets the
others pass. -/
def Sys2Proof.Rules.JoinHoldsOrPasses : Prop :=
  ∀ (mark : Bool) (low : Nat) (s : State) (c : Cur) (b : Block), Runs s c b →
    let mine := fun (l : LaneCtx) => l.t.mr == c.pc
    let others := ∃ u ∈ b.threads, u.cond = .held c.pc ∨
      ((∀ l ∈ s.lanes, mine l = true → u.tid ≠ l.t.tid) ∧ u.live = true ∧ u.cond ≠ .held c.pc ∧
        (u.mr = c.pc ∨ (u.mr < c.pc ∧ u.pc < c.pc)))
    (((∀ l ∈ s.lanes, mine l = false) ∨ ¬others) → ActsIn s c b (.join mark low) fun l => l.t) ∧
    ((∃ l ∈ s.lanes, mine l = true) → others → (∀ l ∈ s.lanes, mine l = true → l.t.idle) →
      ∃ t, exec (.join mark low) s = .next t ∧ OnlyLeaves s t c b ((s.lanes.filter mine).map (·.t.tid)) ∧
        ∀ l ∈ s.lanes, t.thread? c.core c.slot l.t.tid =
          some (if mine l then { l.t with cond := .held c.pc, pc := c.nextPc } else { l.t with pc := c.nextPc }))

/-- R313, R44: the threads held at J are released together at J + 4, into the pool, once no thread of the block is due at
J and none of them waits for a result that it is owed; the others keep everything. -/
def Sys2Proof.Rules.MeetingReleases : Prop :=
  ∀ (s : State) (b : Block) (core slot : Nat), s.block? core slot = some b →
    ∃ b', (s.meet core slot).block? core slot = some b' ∧ b' = { b with threads := b'.threads } ∧
      s.meet core slot = { s with blocks := (s.meet core slot).blocks } ∧
      let waits := fun (j : Word) => ∃ u ∈ b.threads, u.due j = true ∨ (u.cond = .held j ∧ u.owes = true)
      ∀ tid t, b.thread? tid = some t →
        (∀ j, t.cond = .held j → ¬waits j → b'.thread? tid = some { t with cond := .pool s.now false, pc := j + 4 }) ∧
        (((∀ j, t.cond ≠ .held j) ∨ ∃ j, t.cond = .held j ∧ waits j) → b'.thread? tid = some t)

/-- R318, R320, R46, R56: `MRSET`, `MRSWAP` and `NOP` on every thread, and `WBASE` where the window base lies in the
allocation. -/
def Sys2Proof.Rules.MeetingAndWindowRegisters : Prop :=
  (∀ (p : Option Nat) (r : RI) (rl : RL),
    ActsOn (.mrset p r) (fun _ l => { l.t with mr := (l.x r.a + riImm p r) &&& 0xFFFFFFFC }) ∧
    ActsOn (.mrswap p rl) (fun s l =>
      { withRegs l.t rl.d [l.t.mr] 0 with
        mr := ((s.cur.map (·.pc)).getD 0 + rlImm p rl * 4) &&& 0xFFFFFFFC }) ∧
    ActsOn .nop (fun _ l => l.t)) ∧
  ∀ (r : RI) (s : State) (c : Cur) (b : Block), Runs s c b →
    let n := toSigned 10 r.imm * 8
    0 ≤ n → n + 8 ≤ b.nregs → ActsIn s c b (.wbase r) fun l => { l.t with wb := BitVec.ofInt 32 n }

/-- R46, R56, R311 to R313, R317, R318, R320: meetings, the meeting register and the window base. Where the manual leaves
a point open, the model's readings and choices of log entry 4 stand. -/
def Obligations.Meetings : Prop :=
  Rules.JoinHoldsOrPasses ∧ Rules.MeetingReleases ∧ Rules.MeetingAndWindowRegisters

/-- R319, R44: `EXIT` makes every executing thread exited; a thread that waits for a quad meeting may be released by
it, every other thread keeps what it has. -/
def Sys2Proof.Rules.ExitEndsThreads : Prop :=
  ∀ (mark : Bool) (low : Nat) (s : State) (c : Cur) (b : Block), Runs s c b → (∀ l ∈ s.lanes, l.t.idle) →
    ∃ t, exec (.exit mark low) s = .next t ∧ t = { s with blocks := t.blocks, warps := t.warps } ∧
      (∀ core slot, ¬(core = c.core ∧ slot = c.slot) → t.block? core slot = s.block? core slot) ∧
      (∀ l ∈ s.lanes, t.thread? c.core c.slot l.t.tid = some { l.t with cond := .exited }) ∧
      (∀ w ∈ t.warps, w.core = c.core → w.slot = c.slot → ∀ l ∈ s.lanes, some l.t.tid ∉ w.lanes) ∧
      ∀ u, b.thread? u.tid = some u → u.tid ∉ c.act.map (·.2) → u.cond ≠ .wings .quad →
        t.thread? c.core c.slot u.tid = some u

/-- R38, R39, R315, R316, R319: branches and `EXIT`. -/
def Obligations.BranchesAndExit : Prop :=
  Rules.BranchesGoToTheirTargets ∧ Rules.DirectTargetsAreAligned ∧ Rules.ExitEndsThreads

/-! ## Loads and stores -/

/-- R84, R86: the offset and the bounds verdict of a record, and the swizzle, which is its own inverse and stays inside
its 128-byte line. -/
def Sys2Proof.Rules.RecordOffsets : Prop :=
  ∀ (r : Rec) (x : Word) (imm : Int) (n : Nat),
    let e : Int := 2 ^ (r.extractLsb' 128 3).toNat
    let sgn := r.getLsbD 134
    let pitch : Int := (r.extractLsb' 192 32).toNat
    let roww : Int := (r.extractLsb' 224 32).toNat
    let extent : Int := (r.extractLsb' 64 55).toNat
    let i : Int := if sgn then x.toInt else x.toNat
    let hi : Int := if sgn then (x.extractLsb' 16 16).toInt else (x.extractLsb' 16 16).toNat
    let lo : Int := if sgn then (x.extractLsb' 0 16).toInt else (x.extractLsb' 0 16).toNat
    (pitch = 0 → (recOffset r x imm n).1 = i * e + imm ∧
      ((recOffset r x imm n).2 = true ↔ 0 ≤ i * e + imm ∧ i * e + imm + n ≤ extent)) ∧
    (pitch ≠ 0 → (recOffset r x imm n).1 = hi * pitch + (lo * e + imm) ∧
      ((recOffset r x imm n).2 = true ↔ 0 ≤ hi ∧ 0 ≤ lo * e + imm ∧ lo * e + imm + n ≤ roww ∧
        hi * pitch + (lo * e + imm) + n ≤ extent)) ∧
    ∀ o mode, swizzle (swizzle o mode) mode = o ∧ swizzle o mode / 128 = o / 128 ∧ swizzle o mode % 16 = o % 16

/-- R110, R117, R118: the loads through a record. -/
def Sys2Proof.Rules.LoadsRead : Prop :=
  ∀ (sz : Size) (ch : Hint) (sc : Scope) (off : Option Nat) (n : Nat) (r : MO),
    Loads (.ld sz ch off r) (offImm off) sz 1 ch r none ∧
    Loads (.lda sz ch sc n r) (toSigned 21 n) sz (sizeBytes sz) ch r (some sc)

/-- R84, R86, R110, R117, R118: offsets of record accesses, and loads. -/
def Obligations.LoadsReadMemory : Prop :=
  Rules.RecordOffsets ∧ Rules.LoadsRead

/-- R110, R119 to R122, R260: the stores through a record, the release stores with their release first, those to SEQ pages
between their fences; and their traps (R84, R85, R87, R112, R122). Where the manual leaves a point open, the model's
readings and choices of log entries 6, 13 and 83 stand. -/
def Obligations.StoresWrite : Prop :=
  ∀ (w : Bool) (sc : Scope) (off : Option Nat) (n : Nat) (r : MG),
    let both := fun (i : Instr) (imm : Int) (n al : Nat) (rel : Option Scope) => Stores i imm n al r rel ∧
      AccessTraps i imm n al r.k r.a .write true (fun t => t.guard r.n r.p) ∧ RewriteTraps i imm n al r
    both (.stWord w off r) (offImm off) (if w then 8 else 4) 1 none ∧
    both (.stNarrow w off r) (offImm off) (if w then 2 else 1) 1 none ∧
    both (.stB128 off r) (offImm off) 16 1 none ∧
    both (.str64 sc n r) (toSigned 21 n) 8 8 (some sc) ∧
    both (.str32 sc n r) (toSigned 21 n) 4 4 (some sc)

/-- R123, R124, R125: the loads of the own scratchpad; `TLDS` reads the transposed element of a tile of 32 by 32. -/
def Sys2Proof.Rules.ScratchpadLoads : Prop :=
  ∀ (sz : Size) (tz : TldsSize) (off : Option Nat) (r : MO),
    let o := fun (l : LaneCtx) => ((l.x r.a).toNat : Int) + offImm off
    let e : Int := sizeBytes (tldsSize tz)
    let src := fun (l : LaneCtx) =>
      let w := o l % (1024 * e)
      o l - w + w % (32 * e) / e * (32 * e) + w / (32 * e) * e
    ScratchLoads (.lds sz off r) r.d sz o o ∧ ScratchLoads (.tlds tz off r) r.d (tldsSize tz) o src

/-- R115, R123, R124: a store to the own scratchpad; of several lanes that write one byte, the highest TID's stands, and
every other byte of memory stays. -/
def Sys2Proof.Rules.ScratchpadStores : Prop :=
  ∀ (sz : StsSize) (off : Option Nat) (r : MG) (s : State) (c : Cur) (b : Block), Runs s c b → Standing s → s.memOk →
    let n : Nat := match sz with | .b8 => 1 | .b16 => 2 | .b32 => 4 | .b64 => 8 | .b128 => 16
    let o := fun (l : LaneCtx) => ((l.x r.a).toNat : Int) + offImm off
    let runs := s.lanes.filter fun l => l.t.guard r.n r.p
    let out := fun (l : LaneCtx) => decide (o l < 0 ∨ (b.scr * 128 : Int) < o l + n)
    let key := fun (l : LaneCtx) => scrKey b.core (b.scrBase + (o l).toNat)
    let writer := fun (k : Nat) => runs.reverse.find? fun l => !out l && decide (key l ≤ k) && decide (k < key l + n)
    (∀ l ∈ runs, out l = false → (o l).toNat % n = 0) →
    ∃ t, exec (.sts sz off r) s = .next t ∧ t = { s with mem := t.mem, below := t.below, poison := t.poison, blocks := t.blocks } ∧
      (∀ k, t.rd k = match writer k with
        | some l => (dataBytes n r.d l).getD (k - key l) 0
        | none => s.rd k) ∧
      (t.block? c.core c.slot).map (·.bstat) = some (bstatOf b (runs.any out) false) ∧
      (∀ l ∈ s.lanes, t.thread? c.core c.slot l.t.tid = some { l.t with pc := c.nextPc }) ∧
      ∀ tid x, tid ∉ c.act.map (·.2) → b.thread? tid = some x → x.onWord = false → t.thread? c.core c.slot tid = some x

/-- R107, R133: `FEMK` marks the lines of its range full or empty; a parked reader of a line set full resumes. One thread
executes. -/
def Sys2Proof.Rules.FullEmptyMarks : Prop :=
  ∀ (full : Bool) (off : Option Nat) (r : MO) (s : State) (c : Cur) (b : Block) (lane : Nat) (t : Thread),
    RunsOne s c b lane t → t.cond = .cast →
    let l := s.see b lane t
    let o : Int := ((l.x r.a).toNat : Int) + offImm off
    let n := (l.x r.d).toNat
    let line := fun (i : Nat) => b.core * 4096 + (b.scrBase + o.toNat) / 128 + i
    (0 ≤ o → o + 128 * n ≤ b.scr * 128 → o.toNat % 128 = 0 →
      ∃ u, exec (.femk full off r) s = .next u ∧ u = { s with emptyLines := u.emptyLines, blocks := u.blocks } ∧
        (∀ x, x ∈ u.emptyLines ↔ if full then x ∈ s.emptyLines ∧ ∀ i < n, x ≠ line i else x ∈ s.emptyLines ∨ ∃ i < n, x = line i) ∧
        u.thread? c.core c.slot t.tid = some { t with pc := c.nextPc } ∧
        (full = true → ∀ core slot tid y x, s.thread? core slot tid = some y → y.bound = none →
          y.cond = .wings (.emptyLine x) → (∃ i < n, x = line i) →
          u.thread? core slot tid = some { y with cond := .pool s.now false })) ∧
    (o < 0 ∨ (b.scr * 128 : Int) < o + 128 * n →
      ∃ u, exec (.femk full off r) s = .next u ∧ u = { s with blocks := u.blocks } ∧
        (u.block? c.core c.slot).map (·.bstat) = some (bstatOf b true false) ∧
        u.thread? c.core c.slot t.tid = some { t with pc := c.nextPc })

/-- R107, R123 to R125, R133: the scratchpad. -/
def Obligations.ScratchpadAccesses : Prop :=
  Rules.ScratchpadLoads ∧ Rules.ScratchpadStores ∧ Rules.FullEmptyMarks

/-- R134, R146: `KLD` loads 32 bytes into a record register and `THND` 256 bytes into a tile handle; that `THND`, whose
bytes always cover two lines, does not set `BSTAT`.SPLIT is the model's reading of R435 (log entry 89). -/
def Sys2Proof.Rules.RecordAndHandleLoads : Prop :=
  ∀ (ch : Hint) (off : Option Nat) (r : MO) (h : R3),
    LoadsRecord (.kld ch off r) (offImm off) 32 32 r.a r.k ch true (fun s v => .krec r.d (BitVec.ofNat 256 v) s.now) ∧
    LoadsRecord (.thnd h) 0 256 64 h.a (h.b % 32) .normal false (fun s v => .handle (h.d % 16) (BitVec.ofNat 2048 v) s.now)

/-- R42, R43, R44, R49: an outstanding result of a thread lands in the place named at issue, and only there; a write to a
block-scope register that was issued earlier and lands later is overwritten already; the result of an `OBRD` whose turn
has not come (R221) waits. -/
def Sys2Proof.Rules.ResultsLand : Prop :=
  ∀ (s : State) (core slot tid k : Nat) (b : Block) (t : Thread) (p : PTgt),
    s.block? core slot = some b → b.thread? tid = some t → t.pend[k]? = some p →
    let older := fun (q : PTgt) => match q, p with
      | .krec i _ m, .krec j _ n => decide (i = j ∧ m < n)
      | .handle i _ m, .handle j _ n => decide (i = j ∧ m < n)
      | _, _ => false
    let left := fun (x : Thread) => { x with pend := x.pend.filter fun q => !(older q) }
    ∃ u, exec (.variableResultLands core slot tid k) s = .next u ∧ u = { s with blocks := u.blocks } ∧
      (∀ c q, ¬(c = core ∧ q = slot) → u.block? c q = s.block? c q) ∧
      ∃ b', u.block? core slot = some b' ∧
        b' = { b with threads := b'.threads, krecs := b'.krecs, handles := b'.handles, hdefs := b'.hdefs } ∧
        (∀ n, n ≠ tid → b'.thread? n = (b.thread? n).map left) ∧
        match p with
        | .regs base vals | .obrd base vals =>
          b'.krecs = b.krecs ∧ b'.handles = b.handles ∧ b'.hdefs = b.hdefs ∧
          b'.thread? tid = some { t with regs := putRegs t.regs base vals, pend := t.pend.eraseIdx k }
        | .krec i v _ =>
          b'.krecs = b.krecs.set i v ∧ b'.handles = b.handles ∧ b'.hdefs = b.hdefs ∧
          b'.thread? tid = some (left { t with pend := t.pend.eraseIdx k })
        | .handle i v n =>
          b'.krecs = b.krecs ∧ b'.handles = b.handles.set i (some v) ∧ b'.hdefs = b.hdefs.set i n ∧
          b'.thread? tid = some (left { t with pend := t.pend.eraseIdx k })
        | .obrdDue _ =>
          b'.krecs = b.krecs ∧ b'.handles = b.handles ∧ b'.hdefs = b.hdefs ∧ b'.thread? tid = some t

/-- R129: `PREF` writes no register, raises no flag and no trap, and changes no byte that a copy holds as written; bytes of
host memory that the L2 of another die holds as written may go home (R109). -/
def Sys2Proof.Rules.PrefetchIsSilent : Prop :=
  ∀ (h : PrefHint) (off : Option Nat) (r : MO) (s : State) (c : Cur) (b : Block), Runs s c b → Standing s → s.copiesOk →
    ∃ t, exec (.pref h off r) s = .next t ∧
      (∀ l ∈ s.lanes, t.thread? c.core c.slot l.t.tid = some { l.t with pc := c.nextPc }) ∧
      (t.block? c.core c.slot).map (·.bstat) = some b.bstat ∧
      t = { s with
        mem := t.mem, below := t.below, poison := t.poison, copies := t.copies, tlb := t.tlb, mgmt := t.mgmt, blocks := t.blocks
        owned := t.owned, contended := t.contended } ∧
      ∀ x k, (spaceOf k = .host → ∀ die, x ≠ .l2 die) → t.dirtyByte x k = s.dirtyByte x k

/-- R128, R130, R131, R132, R135: `CWB`, `CINV` and `SARM` on one thread: nothing for length 0, and else outstanding work
on the lines of the range, once all of them translate; the bytes of a line that the range covers are those of its
swizzled offsets. -/
def Sys2Proof.Rules.MaintenanceIsIssued : Prop :=
  ∀ (lv : Lvl) (off : Option Nat) (r : MO) (s u : State) (c : Cur) (b : Block) (lane : Nat) (t : Thread) (tab : LineTab),
    RunsOne s c b lane t → t.cond = .cast →
    let rc := b.krecs.getD r.k 0
    let l := s.see b lane t
    let o := (recOffset rc (l.x r.a) (offImm off) (l.x r.d).toNat).1
    let len := (l.x r.d).toNat
    let lines := rangeLines rc o len
    let issues := fun (i : Instr) (op : Nat) (l2 : Bool) (k : AccKind) =>
      (len = 0 → recBad rc = false → ActsIn s c b i fun l => l.t) ∧
      (len ≠ 0 → recBad rc = false → (recOffset rc (l.x r.a) (offImm off) len).2 = true →
        (op = 3 → o.toNat % 128 = 0 ∧ len % 128 = 0) → s.xlatLines b.asker k lines = (u, tab) →
        (∀ x ∈ lines, ∃ p, tab.get x = .ok p) →
        ∃ v w, exec i s = .next v ∧ v = { u with blocks := v.blocks } ∧ w.op = op ∧ w.l2 = l2 ∧
          w.lines.length = lines.length ∧
          (∀ (j x : Nat) (y : Nat × Nat), lines[j]? = some x → w.lines[j]? = some y →
            (∃ p, tab.get x = .ok p ∧ y.1 = p.key / 128) ∧
            ∀ bit < 128, (y.2.testBit bit = true ↔ ∃ m < len, recVa rc o m = x * 128 + bit)) ∧
          v.thread? c.core c.slot t.tid = some { t with maint := t.maint ++ [w], pc := c.nextPc })
    issues (.cwb lv off r) 1 (lv == .l2) .read ∧ issues (.cinv lv off r) 2 (lv == .l2) .write ∧
    issues (.sarm off r) 3 true .sarm

/-- R128, R130, R131, R132: what a completed `CWB`, `CINV` or `SARM` of one line has done: clean copies, no copy, no copy
anywhere and the written bit clear. -/
def Sys2Proof.Rules.MaintenanceCompletes : Prop :=
  ∀ (s : State) (core slot tid op line m : Nat) (l2 : Bool) (t : Thread) (rest : List Maint),
    s.memOk → s.thread? core slot tid = some t → t.cond = .cast →
    t.maint = { op := op, l2 := l2, lines := [(line, m)] } :: rest →
    let die := core / 128
    ∃ u, exec (.maintenanceComplete core slot tid) s = .next u ∧
      u.thread? core slot tid = some { t with maint := rest } ∧
      u = { s with
        mem := u.mem, below := u.below, poison := u.poison, copies := u.copies, blocks := u.blocks
        owned := u.owned, contended := u.contended } ∧
      (op = 1 → ∀ x, s.copy? (.l1 core) line = some x →
        u.copy? (.l1 core) line = some { x with dirty := x.dirty &&& ~~~ BitVec.ofNat 128 m } ∧
        (spaceOf (line * 128) = .hbm → homeDie (line * 128) = die → ∀ i < 128,
          maskBit x.dirty i = true → m.testBit i = true → l2 = false → u.rd (line * 128 + i) = lineByte x.data i)) ∧
      (op = 2 → u.copy? (.l1 core) line = none ∧
        (l2 = true → spaceOf (line * 128) = .hbm → homeDie (line * 128) ≠ die → u.copy? (.l2 die) line = none)) ∧
      (op = 3 → (∀ h, u.copy? h line = none) ∧ ((swbKey s line).isSome = true → u.written line = false))

/-- R127 to R132, R135: prefetch, write-back, invalidation and re-arming. That a `PREF` whose walk fails places no event is
the model's choice (log entry 82). -/
def Obligations.MaintenanceIsDone : Prop :=
  Rules.PrefetchIsSilent ∧ Rules.MaintenanceIsIssued ∧ Rules.MaintenanceCompletes

/-! ## Atomics, counters, waits, fences -/

/-- R281, R285: the integer operations of the atomics on their bit patterns, and the floating sums, which round to
nearest even and give +0.0 for an exact zero. -/
def Sys2Proof.Rules.AtomicOperations : Prop :=
  (∀ (n : Nat) (x y : Nat), n = 4 ∨ n = 8 → x < 2 ^ (8 * n) → y < 2 ^ (8 * n) →
    let bx := BitVec.ofNat (8 * n) x
    let by_ := BitVec.ofNat (8 * n) y
    BitVec.ofNat (8 * n) (atomApply .add n x y) = bx + by_ ∧
    BitVec.ofNat (8 * n) (atomApply .minS n x y) = (if by_.toInt < bx.toInt then by_ else bx) ∧
    BitVec.ofNat (8 * n) (atomApply .maxS n x y) = (if bx.toInt < by_.toInt then by_ else bx) ∧
    atomApply .minN n x y = min x y ∧ atomApply .maxN n x y = max x y ∧
    BitVec.ofNat (8 * n) (atomApply .and n x y) = bx &&& by_ ∧ BitVec.ofNat (8 * n) (atomApply .or n x y) = bx ||| by_ ∧
    BitVec.ofNat (8 * n) (atomApply .xor n x y) = bx ^^^ by_ ∧ atomApply .exch n x y = y) ∧
  ∀ (x y : Nat),
    let sum := sumOf .rne [f32.val x, f32.val y]
    atomApply .addF32 4 x y = (match sum.1 with
      | .fin _ 0 _ => 0
      | v => (f32.round .rne false v).1)

/-- R260, R281, R282, R283, R284, R289, R290: atomics, compare-and-swap and counter adds, thread after thread, those on SEQ
pages between their fences; and their traps (R84, R85, R87, R112). -/
def Sys2Proof.Rules.AtomicsReadModifyWrite : Prop :=
  ∀ (op : AtomOp) (w : Bool) (ct : CasTy) (off : Nat) (o : Option Nat) (r : MG),
    let n := if w then 8 else 4
    let data := fun (l : LaneCtx) => if w then l.pair r.d else (l.x r.d).toNat
    let cn : Nat := match ct with | .n32 => 4 | .n64 => 8 | .b128 => 16
    let expected := fun (l : LaneCtx) => match ct with
      | .n32 => (l.x r.d).toNat | .n64 => l.pair r.d | .b128 => l.quad r.d
    let swap := fun (l : LaneCtx) => match ct with
      | .n32 => (l.x (r.d + 1)).toNat | .n64 => l.pair (r.d + 2) | .b128 => l.quad (r.d + 4)
    let rel := match o with
      | some v => if v / 2 ^ 20 % 2 = 1 then Scope.ofCode (v / 2 ^ 21 % 8) else none
      | none => none
    let traps := fun (i : Instr) (imm : Int) (n : Nat) => AccessTraps i imm n n r.k r.a .atomic true fun t => t.guard r.n r.p
    traps (.atom op w off r) (toSigned 19 off) n ∧ traps (.atomr op w off r) (toSigned 19 off) n ∧
    traps (.cas ct off r) (toSigned 19 off) cn ∧
    traps (.cadd w o r) (match o with | some v => toSigned 20 v | none => 0) 8 ∧
    Atomics (.atom op w off r) (toSigned 19 off) n r none (fun l old => some (atomApply op n old (data l))) none ∧
    Atomics (.atomr op w off r) (toSigned 19 off) n r none (fun l old => some (atomApply op n old (data l)))
      (some (wordsOf (n / 4))) ∧
    Atomics (.cas ct off r) (toSigned 19 off) cn r none (fun l old => if old = expected l then some (swap l) else none)
      (some (wordsOf (cn / 4))) ∧
    Atomics (.cadd w o r) (match o with | some v => toSigned 20 v | none => 0) 8 r rel
      (fun l old => some ((old + data l) % 2 ^ 64)) none

/-- R286, R115: an atomic of a thread on a line that the L1 of its core holds with bytes of its own, homed in the HBM of
its die, sees those bytes: they go home first and the L1 gives its copy up. -/
def Sys2Proof.Rules.AtomicsSeeOwnBytes : Prop :=
  ∀ (op : AtomOp) (off : Nat) (r : MG) (s u : State) (c : Cur) (b : Block) (lane va : Nat) (t : Thread) (p : Place)
    (x : Copy),
    RunsOne s c b lane t → t.cond = .cast → t.maint = [] → s.memOk → t.guard r.n r.p = true →
    formOf (b.krecs.getD r.k 0) ((s.see b lane t).x r.a) (toSigned 19 off) 4 4 = .acc [va, va + 1, va + 2, va + 3] →
    va % 4 = 0 → s.translate b.asker .atomic (va / 128 * 128) = (u, .ok p) → p.key % 128 = 0 → p.ct = 0 →
    p.tt = 0 → p.hb = false → spaceOf p.key = .hbm → homeDie p.key = c.core / 128 →
    let key := p.key + va % 128
    let line := p.key / 128
    let mine := fun (i : Nat) => if maskBit x.dirty (va % 128 + i) then lineByte x.data (va % 128 + i) else u.rd (key + i)
    let old := ofBytesLE [mine 0, mine 1, mine 2, mine 3]
    u.copy? (.l1 c.core) line = some x → (∀ y ∈ u.copies, y.holder = .l1 c.core → y.line = line → y = x) →
    u.poison = [] → x.bad = 0 → r.d < 120 →
    ∃ v, exec (.atomr op false off r) s = .next v ∧
      v.rdN key 4 = atomApply op 4 old ((s.see b lane t).x r.d).toNat % 2 ^ 32 ∧
      v.copy? (.l1 c.core) line = none ∧
      v.thread? c.core c.slot t.tid = some
        { t with pend := t.pend ++ [.regs (t.wb.toNat + r.d) [BitVec.ofNat 32 old]], pc := c.nextPc }

/-- R281 to R290: atomics and counter adds. Where the manual leaves a point open, the model's readings and choices of
log entries 6, 8, 13 and 50 stand. -/
def Obligations.AtomicsAct : Prop :=
  Rules.AtomicOperations ∧ Rules.AtomicsReadModifyWrite ∧ Rules.AtomicsSeeOwnBytes

/-- R291, R292, R107: `CWAIT` on one thread reads the word at its home: it goes on where the word has reached the target,
parks where it has not, parks for an empty scratchpad line first, and goes on with `BSTAT`.OOB out of bounds. `m` is the
state once what stands in the way of the access is gone (R286) and the fence of a SEQ access has acted (R260). -/
def Sys2Proof.Rules.CounterWaits : Prop :=
  ∀ (n32 : Bool) (o : Option Nat) (r : MO) (s u : State) (c : Cur) (b : Block) (lane : Nat) (t : Thread) (va : Nat)
    (rest : List Nat) (p : Place),
    RunsOne s c b lane t → t.cond = .cast →
    let l := s.see b lane t
    let imm := match o with | some v => toSigned 20 v | none => 0
    let f := formOf (b.krecs.getD r.k 0) (l.x r.a) imm 8 8
    let target := if n32 then (l.x r.d).toNat else l.pair r.d
    let key := p.key + va % 128
    let as : List LAcc := [{ lane := lane, tid := t.tid, vas := va :: rest }]
    let seqs := ((seqScope [p]).map fun sc => (t.tid, sc)).toList
    let m := (u.before c .wait false [(va / 128, .ok p)] as).seqBefore c seqs
    (f = .acc (va :: rest) → s.translate b.asker .wait (va / 128 * 128) = (u, .ok p) → p.key % 128 = 0 →
      (u.firstEmpty [{ p with key := key }] = none → m.poisoned key = false →
        (target ≤ m.rdN key 8 → ∃ v, exec (.cwait n32 o r) s = .next v ∧
          v.thread? c.core c.slot t.tid = (m.thread? c.core c.slot t.tid).map fun x => { x with pc := c.nextPc }) ∧
        (m.rdN key 8 < target → t.idle → ∃ v, exec (.cwait n32 o r) s = .next v ∧
          (seqs = [] → v = { m with blocks := v.blocks, warps := v.warps, contended := v.contended }) ∧
          (spaceOf key = .hbm → p.key / 128 ∈ v.contended) ∧
          v.thread? c.core c.slot t.tid = some { t with cond := .wings (.counter key va target false) } ∧
          ∀ w ∈ v.warps, w.core = c.core → w.slot = c.slot → some t.tid ∉ w.lanes)) ∧
      (∀ n, u.firstEmpty [{ p with key := key }] = some n → t.idle → ∃ v, exec (.cwait n32 o r) s = .next v ∧
        v = { u with blocks := v.blocks, warps := v.warps } ∧
        v.thread? c.core c.slot t.tid = some { t with cond := .wings (.emptyLine n) })) ∧
    (f = .oob → ∃ v, exec (.cwait n32 o r) s = .next v ∧ v = { s with blocks := v.blocks } ∧
      (v.block? c.core c.slot).map (·.bstat) = some (bstatOf b true false) ∧
      v.thread? c.core c.slot t.tid = some { t with pc := c.nextPc })

/-- R291, R294: `WAITA` on one thread whose armed words are in bounds and translate: the lowest slot whose word differs
from its expected value is the result; with none, the thread parks on all of them. With every slot out of bounds the
result is all ones. -/
def Sys2Proof.Rules.AddressWaits : Prop :=
  ∀ (o : Option Nat) (r : MO) (s : State) (c : Cur) (b : Block) (lane : Nat) (t : Thread) (va : Nat → Nat)
    (pl : Nat → Place),
    RunsOne s c b lane t → t.cond = .cast → t.maint = [] → r.d < 120 → s.poison = [] → s.emptyLines = [] →
    let l := s.see b lane t
    let imm := match o with | some v => toSigned 16 v | none => 0
    let armed := match o with | some v => (List.range 4).filter fun i => v.testBit (16 + i) | none => [0, 1, 2, 3]
    let acq := match o with
      | some v => if v / 2 ^ 20 % 2 = 1 then Scope.ofCode (v / 2 ^ 21 % 8) else none
      | none => none
    let form := fun (i : Nat) => formOf (b.krecs.getD r.k 0) (l.x (r.a + i)) imm 8 8
    let key := fun (i : Nat) => (pl i).key + va i % 128
    let fired := fun (i : Nat) => s.rdN (key i) 4 != (l.x (r.a + 4 + i)).toNat
    (armed ≠ [] → (∀ i ∈ armed, (∃ rest, form i = .acc (va i :: rest)) ∧
        s.translate b.asker .wait (va i / 128 * 128) = (s, .ok (pl i)) ∧ (pl i).key % 128 = 0 ∧ (pl i).ct ≠ 1 ∧
        (pl i).hb = false ∧ (pl i).tt ≠ 3 ∧ s.copy? (.l1 c.core) ((pl i).key / 128) = none ∧ s.copy? (.l2 (c.core / 128)) ((pl i).key / 128) = none) →
      (∀ i ∈ armed, fired i = true → (∀ j ∈ armed, j < i → fired j = false) →
        ∃ v, exec (.waita o r) s = .next v ∧ v.thread? c.core c.slot t.tid = some
          { t with pend := t.pend ++ [.regs (t.wb.toNat + r.d) [BitVec.ofNat 32 i]], pc := c.nextPc }) ∧
      ((∀ i ∈ armed, fired i = false) → t.idle →
        ∃ v, exec (.waita o r) s = .next v ∧ v.thread? c.core c.slot t.tid = some
          { t with cond := .wings (.address (armed.map fun i => { idx := i, key := key i, va := va i, fired := false })
              (some (t.wb.toNat + r.d)) acq c.nextPc) })) ∧
    ((∀ i ∈ armed, form i = .oob) → ∃ v, exec (.waita o r) s = .next v ∧ v.thread? c.core c.slot t.tid = some
      { t with pend := t.pend ++ [.regs (t.wb.toNat + r.d) [0xFFFFFFFF]], pc := c.nextPc })

/-- R295, R296: `BADD` adds every thread's addend in one event, `BWAIT` goes on or parks, `BARV` adds and always parks,
and whom the event satisfies enters the pool at once. -/
def Sys2Proof.Rules.NamedBarriers : Prop :=
  ∀ (p : Option RPfx) (r : R3) (s : State) (c : Cur) (b : Block), Runs s c b → Standing s →
    let i := r.d % 64
    let sc := match p with | some q => (Scope.ofCode (q.ext % 8)).getD .blk | none => .blk
    let sum := (s.lanes.map fun l => (l.x r.b).toNat).sum
    let after := b.barrs.getD i 0 + BitVec.ofNat 64 sum
    (∃ t b', exec (.badd p r) s = .next t ∧ t.block? c.core c.slot = some b' ∧
      b' = { b with barrs := b.barrs.set i after, threads := b'.threads } ∧
      (∀ l ∈ s.lanes, b'.thread? l.t.tid = some { l.t with maint := [], pc := c.nextPc }) ∧
      ∀ x target q, b.thread? x.tid = some x → x.cond = .wings (.barrier i target q) → x.bound = none → i < b.barrs.length →
        b'.thread? x.tid = some (if target ≤ after.toNat then { x with cond := .pool s.now false } else x)) ∧
    (∀ lane x, RunsOne s c b lane x →
      let target := (s.see b lane x).pair r.a
      (target ≤ (b.barrs.getD i 0).toNat → ∃ t, exec (.bwait p r) s = .next t ∧
        t.thread? c.core c.slot x.tid = some { x with pc := c.nextPc }) ∧
      ((b.barrs.getD i 0).toNat < target → x.idle → ∃ t, exec (.bwait p r) s = .next t ∧ OnlyLeaves s t c b [x.tid] ∧
        t.thread? c.core c.slot x.tid = some { x with pc := c.nextPc, cond := .wings (.barrier i target sc) })) ∧
    (i < b.barrs.length → (∀ l ∈ s.lanes, l.t.pend = [] ∧ l.t.bound = none) →
      ∃ t b', exec (.barv p r) s = .next t ∧ t.block? c.core c.slot = some b' ∧
        b' = { b with barrs := b.barrs.set i after, threads := b'.threads } ∧
        (∀ w ∈ t.warps, w.core = c.core → w.slot = c.slot → ∀ l ∈ s.lanes, some l.t.tid ∉ w.lanes) ∧
        ∀ l ∈ s.lanes, b'.thread? l.t.tid = some
          { l.t with
            maint := []
            pc := c.nextPc
            cond := if l.pair r.a ≤ after.toNat then .pool s.now false else .wings (.barrier i (l.pair r.a) sc) })

/-- R258, R259, R297, R298: a fence goes on; after a release no copy that the core, or at `.pkg` and `.sys` its die as a
guest, holds has dirty bytes but on PRIV lines, and the thread's maintenance is complete; after an acquire neither holds a
REL copy that the scope discards. -/
def Sys2Proof.Rules.FencesOrder : Prop :=
  ∀ (k : FenceKind) (r : R3) (s : State) (c : Cur) (b : Block), Runs s c b → Standing s → s.lanes ≠ [] →
    let sc := (Scope.ofCode (r.d % 8)).getD .blk
    let die := c.core / 128
    s.copiesOk →
    ∃ t, exec (.fence k r) s = .next t ∧
      t = { s with
        mem := t.mem, below := t.below, poison := t.poison, copies := t.copies, blocks := t.blocks
        owned := t.owned, contended := t.contended } ∧
      (∀ l ∈ s.lanes, t.thread? c.core c.slot l.t.tid =
        some { l.t with maint := if k = .acq then l.t.maint else [], pc := c.nextPc }) ∧
      (k ≠ .acq → ∀ x ∈ t.copies, x.ct ≠ 3 →
        (x.holder = .l1 c.core → x.dirty = 0) ∧
        (sc = .pkg ∨ sc = .sys → x.holder = .l2 die → spaceOf (x.line * 128) = .hbm → x.dirty = 0) ∧
        (sc = .sys → x.holder = .l2 die → spaceOf (x.line * 128) = .host → x.dirty = 0)) ∧
      (k ≠ .rel → ∀ x ∈ t.copies, x.ct = 0 →
        (sc ≠ .blk → x.holder ≠ .l1 c.core) ∧
        (sc = .pkg ∨ sc = .sys → spaceOf (x.line * 128) = .hbm → homeDie (x.line * 128) ≠ die → x.holder ≠ .l2 die))

/-- R296 to R298: named barriers and fences. Where the manual leaves a point open, the model's readings and choices of
log entry 54 stand. -/
def Obligations.BarriersAndFences : Prop :=
  Rules.NamedBarriers ∧ Rules.FencesOrder

/-- R293, R294, R296: a waiter whose reason has cleared enters the pool, by whichever of the three events looks at it;
an address wait delivers its lowest fired slot and goes on behind the instruction; a waiter whose reason stands, or that is
still owed the result of an `OBRD` (R44), is left alone. -/
def Sys2Proof.Rules.WaitersResume : Prop :=
  ∀ (i : Instr) (s : State) (core slot tid : Nat) (b : Block) (t : Thread) (r : Park),
    i = .waiterWake core slot tid ∨ i = .slicePoll core slot tid ∨ i = .ioDiePoll core slot tid →
    s.block? core slot = some b → b.thread? tid = some t → t.cond = .wings r → t.bound = none →
    (t.owes = true → exec i s = .next s) ∧ (t.owes = false →
    let wakes := fun (x : Thread) => ∃ u, exec i s = .next u ∧
      u.thread? core slot tid = some { x with cond := .pool s.now false }
    (∀ key va target met, r = .counter key va target met →
      (met = true ∨ target ≤ s.rdN key 8 → wakes t) ∧ (met = false → s.rdN key 8 < target → exec i s = .next s)) ∧
    (∀ j target sc, r = .barrier j target sc →
      (target ≤ (b.barrs.getD j 0).toNat → wakes t) ∧ ((b.barrs.getD j 0).toNat < target → exec i s = .next s)) ∧
    (∀ sl dst acq next, r = .address sl dst acq next →
      (∀ w, sl.find? (·.fired) = some w → acq = none ∨ t.maint = [] → wakes
        { t with pc := next, regs := match dst with | some d => t.regs.set d (BitVec.ofNat 32 w.idx) | none => t.regs }) ∧
      ((∀ w ∈ sl, w.fired = false) → exec i s = .next s)))

/-- R291 to R295: counter waits, address waits, and how waiters resume. Where the manual leaves a point open, the model's
readings and choices of log entries 54 and 87 stand. -/
def Obligations.WaitsEnd : Prop :=
  Rules.CounterWaits ∧ Rules.AddressWaits ∧ Rules.WaitersResume

/-! ## Caches and ownership -/

/-- R97, R98, R109, R287, R288: an evicted line's dirty bytes go onward and the copy goes; a host snoop takes a sector out
of the L2s, its dirty bytes home; a recall ends an ownership and marks the line of HBM contended; a line
that nobody waits on leaves the contention table. -/
def Sys2Proof.Rules.CacheAndOwnershipEvents : Prop :=
  (∀ (l2 : Bool) (idx line : Nat) (s : State) (x : Copy),
    let h : Holder := if l2 then .l2 idx else .l1 idx
    s.memOk → s.copy? h line = some x →
    ∃ t, exec (.cacheEviction l2 idx line) s = .next t ∧ t.copy? h line = none ∧
      t = { s with
        mem := t.mem, below := t.below, poison := t.poison, copies := t.copies, blocks := t.blocks
        owned := t.owned, contended := t.contended } ∧
      (l2 = true ∨ (spaceOf (line * 128) = .hbm ∧ homeDie (line * 128) = idx / 128) →
        (∀ i < 128, t.rd (line * 128 + i) = if maskBit x.dirty i then lineByte x.data i else s.rd (line * 128 + i)) ∧
        ∀ k, k / 128 ≠ line → t.rd k = s.rd k) ∧
      (l2 = false → spaceOf (line * 128) = .hbm → homeDie (line * 128) ≠ idx / 128 →
        ∀ i < 128, maskBit x.dirty i = true →
          t.dirtyByte (.l2 (idx / 128)) (line * 128 + i) = some (lineByte x.data i))) ∧
  (∀ (sector : Nat) (s : State) (x : Copy),
    let line := hostKey 0 / 128 + sector / 2
    let lo := 64 * (sector % 2)
    s.memOk → s.copy? (.l2 0) line = some x → (∀ d, d = 1 ∨ d = 2 ∨ d = 3 → s.copy? (.l2 d) line = none) →
    ∃ t, exec (.hostSnoop sector) s = .next t ∧
      t = { s with mem := t.mem, below := t.below, poison := t.poison, copies := t.copies, blocks := t.blocks } ∧
      (∀ i, lo ≤ i → i < lo + 64 →
        (∀ below, t.copyByte (.l2 0) line i below = below) ∧
        t.rd (line * 128 + i) = if maskBit x.dirty i then lineByte x.data i else s.rd (line * 128 + i)) ∧
      ∀ k, k / 128 ≠ line → t.rd k = s.rd k) ∧
  (∀ (line : Nat) (s : State),
    ((∃ core, (line, core) ∈ s.owned) → ∃ t, exec (.ownershipRecall line) s = .next t ∧
      (spaceOf (line * 128) = .hbm → line ∈ t.contended) ∧
      (∀ core, (line, core) ∉ t.owned) ∧ (∀ o ∈ s.owned, o.1 ≠ line → o ∈ t.owned) ∧
      t = { s with owned := t.owned, contended := t.contended }) ∧
    ((∀ core, (line, core) ∉ s.owned) → exec (.ownershipRecall line) s = .next s)) ∧
  ∀ (line : Nat) (s : State),
    (s.waitedLine line = false →
      exec (.contentionEntryExpiry line) s = .next { s with contended := s.contended.filter (· != line) }) ∧
    (s.waitedLine line = true → exec (.contentionEntryExpiry line) s = .next s)

/-- R64, R81, R88: a walk that succeeds fills the TLBs of its core and its die with the leaf and sets its A bit at its home; one that
fails changes nothing, but where the frame type table names an alias. -/
def Sys2Proof.Rules.PageWalkFills : Prop :=
  ∀ (s : State) (die asid va : Nat) (k : AccKind) (b : Block),
    s.memOk → (s.blocks.find? fun b => b.die == die && b.asid == asid) = some b → va < 2 ^ 55 → s.tlbHit b.asker va = none →
    (∀ e a level, s.walk b.asker va = .ok (e, a, level) → a + 8 ≤ 2 ^ 40 →
      ∃ t, exec (.pageWalk die asid va k) s = .next t ∧
        t = { s with
          mem := t.mem, below := t.below, poison := t.poison, blocks := t.blocks, tlb := t.tlb
          owned := t.owned, contended := t.contended } ∧
        (let leaf : TlbEntry := { die := die, asid := asid, base := va / pageSize level * pageSize level, level := level,
                                  leaf := BitVec.ofNat 64 e, pte := a, dset := e.testBit 5 }
         t.tlb = { leaf with core := some b.core } :: { leaf with core := none } :: s.tlb) ∧
        (t.rdHbm8 a).testBit 4 = true ∧ ∀ j, j ≠ 4 → (t.rdHbm8 a).testBit j = (s.rdHbm8 a).testBit j) ∧
    ∀ f, s.walk b.asker va = .error f → f.mismatch = none → exec (.pageWalk die asid va k) s = .next s

/-- R64, R88, R97, R109, R287, R288: what caches, owners and walkers do on their own. Where the manual leaves a point
open, the model's readings and choices of log entries 7, 8 and 49 stand. -/
def Obligations.CachesAndWalks : Prop :=
  Rules.CacheAndOwnershipEvents ∧ Rules.PageWalkFills

/-! ## The block transfer engine -/

/-- R139, R141, R150 to R153: one thread's copy command, well formed, aligned, in bounds and with a place free on its
stream, is accepted. -/
def Sys2Proof.Rules.CopyCommandsAreQueued : Prop :=
  ∀ (p : RPfx) (r : R3) (s u : State) (c : Cur) (b : Block) (lane : Nat) (t : Thread) (lay : Layout) (ctr : Ctr),
    RunsOne s c b lane t → t.cond = .cast →
    let l := s.see b lane t
    let q := p.ext % 4
    let off := (l.x r.a).toNat
    let n := boxBytes lay
    let pr := l.pair r.b
    let spec := if p.cv then some (l.x p.c) else none
    let fill := fun (m : Nat) (x : Nat) => ∃ j < m, x = b.core * 4096 + (b.scrBase + off + j) / 128
    let cmd : Cmd := { kind := .tld, seq := b.seqs.getD q 0, ticket := u.nextOb, lay := lay, off := off,
                       d0 := pr % 2 ^ 32, d1 := pr / 2 ^ 32, ctr := ctr, hdef := b.hdefs.getD (r.d % 16) 0 }
    let list := { cmd with d0 := 0, d1 := 0, lst := pr % 2 ^ 32, num := pr / 2 ^ 32 }
    let mask := l.quad r.b / 2 ^ 64
    let targets := ((List.range 64).filter fun i => mask.testBit i).filterMap fun i => b.ranks[i]?
    b.handles.getD (r.d % 16) none = some lay → layBad lay = false → (∀ w, spec = some w → ctrOk b w = true) →
    s.checkCtrOpt b spec = (u, .ok ctr) → (b.streams.getD q []).length < 8 → off % 16 = 0 →
    (off + n ≤ b.scr * 128 →
      Queues s u c b t (.tcpyLd p r) q cmd (fill n) none ∧
      Queues s u c b t (.tcpySt p r) q { cmd with kind := .tst } (fun _ => False) none ∧
      Queues s u c b t (.wcpy p r) q { cmd with kind := .wcpy } (fill n) none ∧
      (mask < 2 ^ b.clsize.toNat → Queues s u c b t (.mcpy p r) q
        { cmd with kind := .mcast, d0 := l.quad r.b % 2 ^ 32, d1 := l.quad r.b / 2 ^ 32 % 2 ^ 32, targets := targets }
        (fun x => ∃ g ∈ targets, ∃ j < n, x = g.1 * 4096 + (g.2.2 + off + j) / 128) none)) ∧
    (pr / 2 ^ 32 ≤ 65536 → pr % 2 ^ 32 % 8 = 0 → off + pr / 2 ^ 32 * n ≤ b.scr * 128 →
      pr % 2 ^ 32 + 8 * (pr / 2 ^ 32) ≤ b.scr * 128 →
      Queues s u c b t (.gcpyGather p r) q { list with kind := .gather } (fill (pr / 2 ^ 32 * n)) none ∧
      Queues s u c b t (.gcpyScatter p r) q { list with kind := .scatter } (fun _ => False) none)

/-- R139 step 6: a full stream parks the thread; a place that frees wakes it. -/
def Sys2Proof.Rules.FullStreamsPark : Prop :=
  (∀ (p : RPfx) (r : R3) (s u : State) (c : Cur) (b : Block) (lane : Nat) (t : Thread) (lay : Layout) (ctr : Ctr),
    RunsOne s c b lane t → t.cond = .cast → t.idle →
    let l := s.see b lane t
    let spec := if p.cv then some (l.x p.c) else none
    b.handles.getD (r.d % 16) none = some lay → layBad lay = false → (∀ w, spec = some w → ctrOk b w = true) →
    s.checkCtrOpt b spec = (u, .ok ctr) → (l.x r.a).toNat % 16 = 0 → (l.x r.a).toNat + boxBytes lay ≤ b.scr * 128 →
    8 ≤ (b.streams.getD (p.ext % 4) []).length →
    ∃ x, exec (.tcpyLd p r) s = .next x ∧ x = { u with blocks := x.blocks, warps := x.warps } ∧
      x.thread? c.core c.slot t.tid = some { t with cond := .wings (.stream (p.ext % 4)) }) ∧
  ∀ (s : State) (core slot q : Nat) (b : Block) (t : Thread),
    s.block? core slot = some b → b.thread? t.tid = some t → t.cond = .wings (.stream q) → t.bound = none →
    ((b.streams.getD q []).length < 8 → Wakes (.streamPlaceFrees core slot t.tid) s core slot t) ∧
    (8 ≤ (b.streams.getD q []).length → exec (.streamPlaceFrees core slot t.tid) s = .next s)

/-- R139, R141, R150 to R153: copy commands enter their stream, or park their thread. Where the manual leaves a point
open, the model's readings and choices of log entries 36 and 73 stand. -/
def Obligations.CopiesAreQueued : Prop :=
  Rules.CopyCommandsAreQueued ∧ Rules.FullStreamsPark

/-- R144, R145: element p of a box stands at ORIGIN plus delta plus its box index in each dimension, dimension 0 fastest;
an element in the tensor is read and written at BASE plus its coordinates times the strides; one outside is read as
zero, or at reflected coordinates, which lie in the tensor, and never written. -/
def Sys2Proof.Rules.TensorElements : Prop :=
  (∀ (lay : Layout) (d0 d1 : Int) (p : Nat),
    let cs := coordsOf lay d0 d1 p
    let weight := fun (i : Nat) => ((List.range i).map fun j => layBox lay j).foldl (· * ·) 1
    (∀ i < layNdim lay, cs[i]? = some (layOrigin lay i + (if i = 0 then d0 else if i = 1 then d1 else 0) +
      ((p / weight i % layBox lay i : Nat) : Int))) ∧
    coordVa lay cs = (layBits lay 54 0 : Int) + (cs.zipIdx.map fun x => x.1 * layStride lay x.2).sum ∧
    (inTensor lay cs = true ↔ ∀ x ∈ cs.zipIdx, 0 ≤ x.1 ∧ x.1 < laySize lay x.2) ∧
    (inTensor lay cs = true → readVa lay d0 d1 p = some (coordVa lay cs) ∧ writeVa lay d0 d1 p = some (coordVa lay cs)) ∧
    (inTensor lay cs = false → writeVa lay d0 d1 p = none ∧ (lay.getLsbD 80 = false → readVa lay d0 d1 p = none))) ∧
  ∀ (c : Int) (size : Nat) (rep : Bool), 0 < size →
    0 ≤ reflect c size rep ∧ reflect c size rep < size ∧
    (0 ≤ c → c < size → reflect c size rep = c) ∧
    (rep = true → reflect (-1 - c) size rep = reflect c size rep) ∧
    (rep = false → reflect (-c) size rep = reflect c size rep)

/-- R137, R150, R154 to R156, R159: the engine serves a destination line of the command at the head of a stream whose turn
it is. A `TCPY.ld` line gets its source bytes, each 16-byte unit as its home has it in one event, and goes full; a
`TCPY.st` line gets the packed bytes at its home; a source line that fails stops the command with a fault record. `w` is
the state once the engine's accesses have reached the homes (R271, R288). -/
def Sys2Proof.Rules.CopyServesLines : Prop :=
  ∀ (s u : State) (core slot q : Nat) (b : Block) (cm : Cmd) (rest : List Cmd) (tab : LineTab),
    s.memOk → s.block? core slot = some b → b.streams.getD q [] = cm :: rest → q < b.streams.length →
    (∀ x ∈ rest, x.ticket ≠ cm.ticket) → s.hasTurn b q = true → cm.stopped = none → cm.cut = false → cm.dead = false →
    let served := fun (t : State) => ∃ us, (t.block? core slot).map (fun b => b.streams.getD q []) =
      some ({ cm with begun := true, next := cm.next + 1, got := [], units := us } :: rest)
    (cm.kind = .tld → cm.next < cm.fillLines b →
      let ms := s.fillMoves b q cm
      let w := u.reachHomes tab false (moveBytes ms true)
      let got := w.takeUnits tab ms cm
      s.xlatLines b.asker .read (moveLines ms true) = (u, tab) →
      ((∀ x ∈ tab, ∃ p, x.2 = .ok p) → u.srcEmpty tab ms cm = false →
        (∀ x ∈ ms.map (·.2), ∀ k, x.keyIn tab = some k → cm.unit? (k / 16) = none → (got.byteOf tab x).1 = w.rd k) ∧
        ∃ t, exec (.copyLineServe core slot q) s = .next t ∧
          (∀ k x, (.key k, x) ∈ ms → t.rd k = (got.byteOf tab x).1 ∧ (k - scrKey 0 0) / 128 ∉ t.emptyLines) ∧
          (∀ k, (∀ m ∈ ms, m.1 ≠ .key k) → t.rd k = w.rd k) ∧ served t) ∧
      (∀ line f, firstFail tab = some (line, f) →
        ∃ t, exec (.copyLineServe core slot q) s = .next t ∧ t.mem = u.mem ∧
          (t.block? core slot).map (fun b => b.streams.getD q []) =
            some ({ cm with begun := true, stopped := some u.newFid } :: rest) ∧
          ∃ pr ∈ t.pending, pr.fr.fid = u.newFid ∧ pr.fr.kind = 1 ∧ pr.fr.cls = 0 ∧ pr.fr.cause = f.cause ∧
            pr.fr.stream = q ∧ pr.fr.cmd = cm.seq ∧ pr.fr.va = line * 128 % 2 ^ 55)) ∧
    ∀ ms, cm.kind = .tst → cm.ent = 0 → (cm.entryLines b 0)[cm.next - cm.base]? = some ms →
      let got := u.takeUnits [] ms cm
      let w := u.reachHomes tab true (moveBytes ms false)
      s.xlatLines b.asker .write (moveLines ms false) = (u, tab) →
      (∀ x ∈ tab, ∃ p, x.2 = .ok p ∧ p.ct ≠ 2) →
      (∀ k x, (x, .key k) ∈ ms → spaceOf k = .scr → (k - scrKey 0 0) / 128 ∉ s.emptyLines) →
      (ms.map fun m => match m.1 with | .key k => k | .va v => ((Src.va v).keyIn tab).getD 0).Nodup →
      (∀ k x, (x, .key k) ∈ ms → cm.unit? (k / 16) = none → (got.byteOf [] (.key k)).1 = u.rd k) ∧
      ∃ t, exec (.copyLineServe core slot q) s = .next t ∧
        (∀ v k p, (.va v, .key k) ∈ ms → tab.get (v / 128) = .ok p → t.rd (p.key + v % 128) = (got.byteOf [] (.key k)).1) ∧
        (∀ x, (∀ v y p, (.va v, y) ∈ ms → tab.get (v / 128) = .ok p → x ≠ p.key + v % 128) → t.rd x = w.rd x) ∧
        served t

/-- R157, R90, R159: a command whose destination lines have all been served leaves its stream and adds its byte count to
its counter, once; a memory counter is translated then, and one that does not translate stops the command. -/
def Sys2Proof.Rules.CopiesCompleteWithOneAdd : Prop :=
  ∀ (s : State) (core slot q : Nat) (b : Block) (cm : Cmd) (rest : List Cmd),
    s.memOk → s.block? core slot = some b → b.streams.getD q [] = cm :: rest → q < b.streams.length →
    (∀ x ∈ rest, x.ticket ≠ cm.ticket) → cm.stopped = none →
    s.allServed b q cm = true → cm.kind ≠ .mcast → cm.kind ≠ .wcpy → cm.dead = false →
    (∀ o ∈ s.obOps, ¬(o.core = core ∧ o.slot = slot)) →
    let leaves := fun (t : State) (b' : Block) =>
      exec (.copyComplete core slot q) s = .next t ∧ t.block? core slot = some b' ∧
      b' = { b with streams := b.streams.set q rest, obq := b'.obq, barrs := b'.barrs, threads := b'.threads }
    (cm.ctr = .none → ∃ t b', leaves t b' ∧ b'.barrs = b.barrs ∧ t.mem = s.mem) ∧
    (∀ i, cm.ctr = .barrier i →
      ∃ t b', leaves t b' ∧ b'.barrs = b.barrs.set i (b.barrs.getD i 0 + BitVec.ofNat 64 cm.bytes)) ∧
    (∀ va u p, cm.ctr = .mem va → s.translate b.asker .atomic (va / 128 * 128) = (u, .ok p) → p.key % 128 = 0 →
      let w := u.atHome none p (rangeMask (va % 128) (va % 128 + 8)) true
      let key := p.key + va % 128
      w.poisoned key = false →
      ∃ t b', leaves t b' ∧ b'.barrs = b.barrs ∧ t.rdN key 8 = (w.rdN key 8 + cm.bytes) % 2 ^ 64 ∧
        ∀ k, ¬(key ≤ k ∧ k < key + 8) → t.rd k = w.rd k) ∧
    ∀ va u f, cm.ctr = .mem va → s.translate b.asker .atomic (va / 128 * 128) = (u, .error f) →
      ∃ t, exec (.copyComplete core slot q) s = .next t ∧ t.mem = u.mem ∧
        (t.block? core slot).map (fun b => b.streams.getD q []) = some ({ cm with stopped := some u.newFid } :: rest)

/-- R144, R145, R150, R154 to R159: how copies are carried out and complete. Where the manual leaves a point open, the
model's readings and choices of log entries 13, 36, 51, 63 and 84 stand. -/
def Obligations.CopiesRun : Prop :=
  Rules.TensorElements ∧ Rules.CopyServesLines ∧ Rules.CopiesCompleteWithOneAdd

/-! ## The matrix engine -/

/-- R226, R228, R229, R230, R231: the reservation instructions read lane 0; where the block has no access of its operand
buffer outstanding, the bytes they write stand at once. -/
def Sys2Proof.Rules.Reservations : Prop :=
  ∀ (p : RPfx) (r : R3) (s : State) (c : Cur) (b : Block) (l : LaneCtx), Runs s c b → Standing s →
    (s.lanes.find? fun l => l.lane == 0) = some l →
    s.memOk → b.obq = [] → (∀ o ∈ s.obOps, ¬(o.core = c.core ∧ o.slot = c.slot)) →
    let n := r.d % 16
    let o := b.slots.getD n {}
    let rv := BitVec.ofNat 128 (l.quad r.a)
    let key := fun (i : Nat) => opbKey b.core (b.opbBase + i)
    let entry := fun (i : Nat) => (s.onLane i r.a).toNat % 65536
    let done := fun (i : Instr) (slots : List ObSlot) (what : Nat → Option Byte) =>
      ∃ t b', exec i s = .next t ∧
        t = { s with mem := t.mem, below := t.below, poison := t.poison, blocks := t.blocks, nextOb := t.nextOb, obOps := t.obOps } ∧
        t.block? c.core c.slot = some b' ∧ b' = { b with slots := slots, threads := b'.threads } ∧
        (∀ l ∈ s.lanes, b'.thread? l.t.tid = some { l.t with pc := c.nextPc }) ∧
        ∀ k, t.rd k = (what k).getD (s.rd k)
    (o.live = false → rvBad b rv = false →
      done (.obres r) (b.slots.set n { live := true, rv := rv, cur := false, gen := s.nextOb }) fun _ => none) ∧
    done (.obrel r) (b.slots.set n { o with live := false }) (fun _ => none) ∧
    (o.live = true →
      let lo := key (rvRow0 o.rv * 512)
      done (.obclr r) b.slots fun k => if lo ≤ k ∧ k < lo + rvNrow o.rv * 512 then some 0 else none) ∧
    (o.live = true → o.rv.getLsbD 127 = true → p.ext % 64 < (rvDimK o.rv + 1023) / 1024 →
      segOk ((List.range 32).map entry) = true →
      let lo := key (rvDm o.rv + 64 * (p.ext % 64))
      done (.obdup p r) b.slots fun k => if lo ≤ k ∧ k < lo + 64 then
        some (BitVec.ofNat 8 (entry ((k - lo) / 2) / 256 ^ ((k - lo) % 2))) else none)

/-- R237, R221: with no earlier access outstanding, `OBWR` writes each lane's columns to its accumulator row and `OBRD`
gives each lane its columns, converted, as an outstanding result; columns beyond DIMN are not written and read as 0. -/
def Sys2Proof.Rules.AccumulatorRows : Prop :=
  ∀ (ty : ObTy) (r : R3) (s : State) (c : Cur) (b : Block) (l : LaneCtx), Runs s c b → Standing s →
    (s.lanes.find? fun l => l.lane == 0) = some l →
    s.memOk → b.obq = [] → (∀ o ∈ s.obOps, ¬(o.core = c.core ∧ o.slot = c.slot)) → s.poison = [] →
    (∀ l ∈ s.lanes, l.t.owes = false) →
    let o := b.slots.getD (r.a % 16) {}
    let c0 := (l.x r.b).toNat % 65536
    let w := match ty with | .b32 => 32 | .bf16 => 16 | .f16 => 16 | .e4m3 => 8
    let per := 32 / w
    let at_ := fun (lane col : Nat) => opbKey b.core (b.opbBase + rvRow0 o.rv * 512 + lane * rvPitch o.rv + 4 * col)
    o.live = true → rvFmt o.rv < 2 → o.rv.getLsbD 24 = true → c0 % 16 = 0 → c0 < rvDimN o.rv →
    (ty = .b32 ∨ rvFmt o.rv = 0 →
      ∃ t, exec (.obwr ty r) s = .next t ∧
        (∀ l ∈ s.lanes, t.thread? c.core c.slot l.t.tid = some { l.t with pc := c.nextPc }) ∧
        (∀ l ∈ s.lanes, ∀ j, j < 16 * per → c0 + j < rvDimN o.rv →
          t.rdN (at_ l.lane (c0 + j)) 4 =
            obwrElem ty ((l.x (r.d + j / per)).toNat / 2 ^ (w * (j % per)) % 2 ^ w) % 2 ^ 32) ∧
        ∀ k, (∀ l ∈ s.lanes, ∀ j, j < 16 * per → c0 + j < rvDimN o.rv →
          ¬(at_ l.lane (c0 + j) ≤ k ∧ k < at_ l.lane (c0 + j) + 4)) → t.rd k = s.rd k) ∧
    (r.d < 120 →
      ∃ t, exec (.obrd ty r) s = .next t ∧ t.mem = s.mem ∧
        ∀ l ∈ s.lanes, ∃ vs, t.thread? c.core c.slot l.t.tid =
            some { l.t with pend := l.t.pend ++ [.obrd (l.t.wb.toNat + r.d) vs], pc := c.nextPc } ∧ vs.length = 16 ∧
          ∀ i < 16, ∀ j < per, (vs.getD i 0).toNat / 2 ^ (w * j) % 2 ^ w =
            (if c0 + i * per + j < rvDimN o.rv then
              obrdElem ty (rvFmt o.rv == 1) (s.rdN (at_ l.lane (c0 + i * per + j)) 4) else 0) % 2 ^ w)

/-- R226, R228 to R231, R237: reservations and accumulator rows. Where the manual leaves a point open, the model's
readings and choices of log entries 25 and 65 stand. -/
def Obligations.OperandBufferRows : Prop :=
  Rules.Reservations ∧ Rules.AccumulatorRows

/-- R237, R42: the oldest result of an `OBRD` lands in its thread's registers. -/
def Sys2Proof.Rules.AccumulatorReadsLand : Prop :=
  ∀ (s : State) (core slot tid base k : Nat) (b : Block) (t : Thread) (vs : List Word),
    s.block? core slot = some b → b.thread? tid = some t → t.pend[k]? = some (.obrd base vs) →
    (∀ j < k, ∀ x y, t.pend[j]? ≠ some (.obrd x y)) → (∀ o ∈ s.obOps, ¬(o.core = core ∧ o.slot = slot)) →
    ∃ u, exec (.obrdLands core slot tid) s = .next u ∧ u = { s with blocks := u.blocks } ∧
      u.thread? core slot tid = some { t with regs := putRegs t.regs base vs, pend := t.pend.eraseIdx k } ∧
      ∀ c q n, ¬(c = core ∧ q = slot ∧ n = tid) → u.thread? c q n = s.thread? c q n

/-- R42, R43, R134, R146, R237: record loads, and how outstanding results land. Where the manual leaves a point open, the
model's readings and choices of log entry 14 stand. -/
def Obligations.RecordLoadsAndResults : Prop :=
  Rules.RecordAndHandleLoads ∧ Rules.ResultsLand ∧ Rules.AccumulatorReadsLand

/-- R226, R238, R221: `OBLD` and `OBST` submit one command with lane 0's operands, and the warp goes on. -/
def Sys2Proof.Rules.BufferCopiesAreQueued : Prop :=
  ∀ (p : RPfx) (r : R3) (s u : State) (c : Cur) (b : Block) (l : LaneCtx) (lay : Layout) (ctr : Ctr),
    Runs s c b → Standing s → (s.lanes.find? fun l => l.lane == 0) = some l →
    let q := p.ext % 4
    let off := (l.x r.a).toNat
    let spec := if p.cv then some (l.x p.c) else none
    let cmd : Cmd := { kind := .obld, seq := b.seqs.getD q 0, ticket := u.nextOb, lay := lay, off := off,
                       d0 := l.pair r.b % 2 ^ 32, d1 := l.pair r.b / 2 ^ 32, ctr := ctr,
                       hdef := b.hdefs.getD (r.d % 16) 0 }
    let queued := fun (i : Instr) (k : CmdKind) =>
      ∃ t b', exec i s = .next t ∧ t = { u with blocks := t.blocks, nextOb := u.nextOb + 1 } ∧
        t.block? c.core c.slot = some b' ∧
        b' = { b with
          streams := b.streams.set q (b.streams.getD q [] ++ [{ cmd with kind := k }])
          seqs := b.seqs.set q (b.seqs.getD q 0 + 1)
          obq := b.obq ++ [(u.nextOb, off, off + boxBytes lay)]
          threads := b'.threads } ∧
        ∀ l ∈ s.lanes, b'.thread? l.t.tid = some { l.t with pc := c.nextPc }
    b.handles.getD (r.d % 16) none = some lay → layBad lay = false → (∀ w, spec = some w → ctrOk b w = true) →
    s.checkCtrOpt b spec = (u, .ok ctr) → (b.streams.getD q []).length < 8 → off % 16 = 0 →
    off + boxBytes lay ≤ b.opb → queued (.obld p r) .obld ∧ queued (.obst p r) .obst

/-- R226, R232, R234, R235, R239: an `MMA` with its slots, formats and origins as R234 asks and a place in the engine's
queue is queued with the A of the 32 lanes; the warp goes on. With the queue full it is held: nothing changes. The map that
`k0` is checked against is that of the buffer as the accesses before leave it (R221); where a copy or multiply before is
still to write there, it is the map without those bytes, and the multiply may read any row (the model's choice, log entry
67). -/
def Sys2Proof.Rules.MultipliesAreQueued : Prop :=
  ∀ (z : Bool) (p : RPfx) (r : R3) (s : State) (c : Cur) (b : Block) (l : LaneCtx) (kb n facc : Nat), Runs s c b →
    (s.lanes.find? fun l => l.lane == 0) = some l →
    let a := b.slots.getD (p.ext % 16) {}
    let o := b.slots.getD (p.ext / 16 % 16) {}
    let c0 := (l.x r.b).toNat % 65536
    let k0 := (l.x r.a).toNat % 65536
    let n0 := (l.x r.a).toNat / 65536
    let rows := (List.range 32).map fun i => ((s.lanes.find? fun l => l.lane == i).map fun l =>
      (List.range n).map fun j => l.x (r.d + j)).getD []
    a.live = true → o.live = true → rvFmt a.rv < 2 → 2 ≤ rvFmt o.rv →
    admitted (rvFmt o.rv) (rvAty o.rv) = some (kb, n, facc) → facc = rvFmt a.rv → r.d + n ≤ 120 →
    (∀ l ∈ s.lanes, l.t.wb.toNat + r.d + n ≤ b.nregs) → c0 % 16 = 0 → c0 + 128 ≤ rvDimN a.rv →
    let waiting := (s.muls.filter fun m => m.core == c.core && !m.started).length
    (4 ≤ waiting → exec (.mma z p r) s = .next s ∧ exec (.mmah z p r) s = .next s) ∧
    let view := s.mapView b o.rv
    let span := fun (k : Nat) => if view.2 then rowSpan view.1 (rvDimK o.rv) k kb else (0, rvDimK o.rv)
    (waiting < 4 → k0 < mapLen view.1 → n0 < rvDimN o.rv →
      ∃ t b', exec (.mma z p r) s = .next t ∧
        t = { s with blocks := t.blocks, muls := t.muls, nextOb := s.nextOb + 1, reuse := t.reuse } ∧
        t.muls = s.muls ++ [{ core := c.core, slot := c.slot, id := s.nextOb, z := z, acc := a.rv, bres := o.rv, gen := o.gen,
                              stage := o.cur, k0 := k0, n0 := n0, c0 := c0,
                              rows := span k0, a := rows }] ∧
        t.block? c.core c.slot = some b' ∧ b' = { b with obq := b'.obq, threads := b'.threads } ∧
        ∀ l ∈ s.lanes, b'.thread? l.t.tid = some { l.t with pc := c.nextPc }) ∧
    (waiting < 4 → ∀ lay, b.handles.getD ((l.x r.b).toNat / 65536 % 16) none = some lay → layBad lay = false →
      boxBytes lay = rvStage o.rv → layBits lay 74 72 = (if rvWidth o.rv = 16 then 1 else 0) →
      ∃ t b', exec (.mmah z p r) s = .next t ∧
        t = { s with blocks := t.blocks, muls := t.muls, fetches := t.fetches, nextOb := s.nextOb + 2, reuse := t.reuse } ∧
        t.muls = s.muls ++ [{ core := c.core, slot := c.slot, id := s.nextOb + 1, z := z, acc := a.rv, bres := o.rv,
                              gen := o.gen, stage := o.cur, k0 := 0, n0 := 0, c0 := c0,
                              rows := span 0, a := rows,
                              fetch := some s.nextOb }] ∧
        (∃ f, t.fetches = s.fetches ++ [f] ∧ f.id = s.nextOb ∧ f.core = c.core ∧ f.slot = c.slot ∧ f.gen = o.gen ∧
          f.bres = o.rv ∧ f.stage = o.cur ∧ f.pc = c.pc ∧ f.cmd.lay = lay ∧ f.cmd.d0 = l.pair r.a % 2 ^ 32 ∧
          f.cmd.d1 = l.pair r.a / 2 ^ 32 ∧ f.cmd.next = 0) ∧
        t.block? c.core c.slot = some b' ∧
        b' = { b with obq := b'.obq, seqs := b.seqs.set 4 (b.seqs.getD 4 0 + 1), threads := b'.threads } ∧
        ∀ l ∈ s.lanes, b'.thread? l.t.tid = some { l.t with pc := c.nextPc })

/-- R221, R226, R232 to R235, R238, R239: operand-buffer copies and multiplies enter their queues. Where the manual
leaves a point open, the model's readings and choices of log entries 24, 67 and 81 stand. -/
def Obligations.MatrixCommandsAreQueued : Prop :=
  Rules.BufferCopiesAreQueued ∧ Rules.MultipliesAreQueued

/-- R236: an `MMAH` fetch whose lines have all landed makes its target the current stage of the reservation and frees
its multiply to begin. -/
def Sys2Proof.Rules.FetchesLand : Prop :=
  ∀ (s : State) (b : Block) (f : Fetch),
    s.block? f.core f.slot = some b → s.fetches.find? (fun x => x.core == f.core && x.slot == f.slot) = some f →
    (∀ x ∈ s.fetches, x.id = f.id → x = f) →
    f.cmd.stopped = none → f.cmd.kind = .obld → (∀ x ∈ s.fetches, x.gen = f.gen → f.id ≤ x.id) →
    b.obClear f.id (rvStart f.bres f.target) (rvStart f.bres f.target + rvStage f.bres) = true →
    f.cmd.cut = false → s.allServed b 0 { f.cmd with off := rvStart f.bres f.target } = true →
    (∀ o ∈ s.obOps, ¬(o.core = f.core ∧ o.slot = f.slot)) →
    ∃ t b', exec (.mmahFetchLanded f.core f.slot) s = .next t ∧
      t = { s with blocks := t.blocks, fetches := t.fetches, muls := t.muls } ∧
      (∀ x ∈ t.fetches, x.id ≠ f.id) ∧ (∀ m ∈ t.muls, m.fetch ≠ some f.id) ∧
      t.block? f.core f.slot = some b' ∧
      b' = { b with slots := b.slots.map fun o => if o.gen == f.gen then { o with cur := f.bres.getLsbD 26 && !f.stage } else o,
                    obq := b'.obq } ∧
      (∀ e ∈ b'.obq, e.1 ≠ f.id) ∧
      (∀ e ∈ b.obq, e.1 ≠ f.id → (∀ m ∈ s.muls, m.gen = f.gen → m.id ≠ e.1) →
        (∀ x ∈ s.fetches, x.gen = f.gen → x.id ≠ e.1) → e ∈ b'.obq) ∧
      ∀ m ∈ s.muls, m.fetch = some f.id → m.gen = f.gen → f.id < m.id → m.started = false →
        { m with fetch := none, stage := f.bres.getLsbD 26 && !f.stage } ∈ t.muls

/-- R180, R181, R234, R239: the engine begins its oldest multiply once nothing holds it, and its window is what the
arithmetic gives from the buffer as it stands: for each element, C plus the sum of the products, where B counts as zero
outside its matrix. The window lands in the accumulator. -/
def Sys2Proof.Rules.MultipliesRun : Prop :=
  (∀ (s : State) (b : Block) (m : Mul),
    s.muls.find? (fun x => x.core == m.core && !x.started) = some m → s.block? m.core m.slot = some b →
    (∀ x ∈ s.muls, x.id = m.id → x = m) → m.fetch = none → b.obTurn m.id = true → s.poison = [] →
    exec (.engineMultiply m.core) s = .next { s with
      free := s.free + 8192
      muls := s.muls.map fun x => if x.id = m.id then { m with started := true, result := s.mulResult b m } else x }) ∧
  (∀ (s : State) (b : Block) (m : Mul) (kb n i j : Nat),
    let elem := fun (e : Nat) =>
      if rvDimK m.bres ≤ m.k0 + e ∨ rvDimN m.bres ≤ m.n0 + j then none else some (m.k0 + e, m.n0 + j)
    let c := if m.z then 0 else s.elemBits b m.acc false i (m.c0 + j)
    let out := rvStart m.acc false + i * rvPitch m.acc + 4 * (m.c0 + j)
    m.bres.getLsbD 127 = false → m.acc.getLsbD 24 = true → m.c0 + 128 ≤ rvDimN m.acc → i < 32 → j < 128 →
    admitted (rvFmt m.bres) (rvAty m.bres) = some (kb, n, rvFmt m.acc) →
    let a := fun (e : Nat) => aBits (rvAty m.bres) (m.a.getD i []) e
    let bits := fun (e : Nat) => match elem e with
      | some (k, x) => let at_ := rvAt m.bres k x; s.elemBits b m.bres m.stage at_.1 at_.2
      | none => 0
    let value := fun (e : Nat) => match elem e with
      | some (k, x) => s.bitsVal b m.bres k x (bits e)
      | none => .fin false 0 0
    let v := if rvFmt m.acc = 1
      then ((c : Int) + ((List.range kb).map fun e => int8Of (rvAty m.bres) (a e) * int8Of (rvFmt m.bres) (bits e)).sum) % 2 ^ 32 |>.toNat
      else mmaF (kb / 16) c ((List.range kb).map fun e => ((fmtOf (rvAty m.bres)).val (a e), value e))
    ∀ h < 4, ((s.mulResult b m).find? fun x => x.1 == out + h) = some (out + h, BitVec.ofNat 8 (v / 256 ^ h))) ∧
  (∀ (s : State) (b : Block) (m : Mul),
    s.memOk → s.muls.find? (fun x => x.core == m.core && x.started) = some m → s.block? m.core m.slot = some b →
    (m.result.map (·.1)).Nodup → (∀ o ∈ s.obOps, ¬(o.core = m.core ∧ o.slot = m.slot)) →
    ∃ t, exec (.multiplyLands m.core) s = .next t ∧ (∀ x ∈ t.muls, x.id ≠ m.id) ∧
      (∀ x ∈ m.result, t.rd (opbKey b.core (b.opbBase + x.1)) = x.2) ∧
      ∀ k, (∀ x ∈ m.result, k ≠ opbKey b.core (b.opbBase + x.1)) → t.rd k = s.rd k) ∧
  ∀ (s : State) (core slot : Nat), exec (.engineQueuePlaceFrees core slot) s = .next s

/-- R180, R181, R234, R236, R239: what the matrix engine does. Where the manual leaves a point open, the model's
readings and choices of log entries 9, 51 and 66 stand. -/
def Obligations.MultipliesAreCarriedOut : Prop :=
  Rules.FetchesLand ∧ Rules.MultipliesRun

/-! ## The selection engine -/

/-- R243, R244, R245: one thread's selection command that meets the checks is enqueued at its bed's engine; where the
engine has no place for the core, the thread parks; a place that frees wakes it. -/
def Obligations.SelectionCommandsAreQueued : Prop :=
  (∀ (p : RPfx) (r : R3) (s u : State) (c : Cur) (b : Block) (lane : Nat) (t : Thread) (ctr : Ctr),
    RunsOne s c b lane t → t.cond = .cast →
    let l := s.see b lane t
    let d := BitVec.ofNat 128 (l.quad r.d)
    let spec := if p.cv then some (l.x p.c) else none
    let n := (d.extractLsb' 0 25).toNat
    let k := (d.extractLsb' 32 11).toNat
    let pb := (d.extractLsb' 43 13).toNat
    let sm := (d.extractLsb' 56 8).toNat
    let kofs := (d.extractLsb' 96 32).toNat
    let rc := fun (i : Nat) => b.krecs.getD (d.extractLsb' (64 + 5 * i) 5).toNat 0
    let oo := (l.x r.a).toNat
    let dO := l.pair r.b % 2 ^ 32
    let pst := l.pair r.b / 2 ^ 32
    let ks := if p.ext % 4 = 1 then 2 else 4
    let us := if p.ext % 4 < 2 then 4 else 8
    let cmd := fun (op : Nat) => ({ bed := b.core / 16, core := b.core, slot := b.slot, seq := b.seqs.getD 5 0, op := op,
                                    ext := p.ext, desc := d, oo := oo, dO := dO, pst := pst,
                                    recs := (List.range 5).map rc, ctr := ctr } : SelCmd)
    let mine := u.selq.filter fun x => x.bed == b.core / 16
    let place := mine.length < 32 ∧ (mine.filter fun x => x.core == b.core).length < 4
    let fits := fun (i off len : Nat) => off + len ≤ ((rc i).extractLsb' 64 55).toNat
    let queued := fun (i : Instr) (op rows : Nat) =>
      (pb ≠ 0 → fits 3 dO (pb * rows)) →
      (place → ∃ x b', exec i s = .next x ∧ x = { u with blocks := x.blocks, selq := u.selq ++ [cmd op] } ∧
        (∀ core slot, ¬(core = c.core ∧ slot = c.slot) → x.block? core slot = u.block? core slot) ∧
        x.block? c.core c.slot = some b' ∧
        b' = { b with seqs := b.seqs.set 5 (b.seqs.getD 5 0 + 1), threads := b'.threads } ∧
        b'.thread? t.tid = some { t with pc := c.nextPc } ∧ ∀ m, m ≠ t.tid → b'.thread? m = u.thread? c.core c.slot m) ∧
      (¬place → t.idle → ∃ x, exec i s = .next x ∧ x = { u with blocks := x.blocks, warps := x.warps } ∧
        x.thread? c.core c.slot t.tid = some { t with cond := .wings .selQueue })
    n ≤ 2 ^ 24 → d.extractLsb' 25 7 = 0 → d.extractLsb' 89 7 = 0 → pb % 16 = 0 →
    pb ≤ (if p.ext.testBit 3 then 256 else 4096) → (∀ i < 2, recBad (rc i) = false) →
    (pb ≠ 0 → recBad (rc 2) = false ∧ recBad (rc 3) = false ∧ dO % 16 = 0 ∧ (p.ext.testBit 3 = false → pst % 16 = 0)) →
    (∀ w, spec = some w → ctrOk b w = true) → s.checkCtrOpt b spec = (u, .ok ctr) →
    (1 ≤ k → k ≤ 1024 → kofs % ks = 0 → oo % 8 = 0 → fits 0 kofs (n * ks) →
      (sm = 0 → d.extractLsb' 84 5 = 0 → fits 1 oo (8 * k) → queued (.selk p r) 0 k) ∧
      (recBad (rc 4) = false → fits 4 0 (4 * (sm + 2)) → fits 1 oo (8 * (k * (sm + 1))) →
        queued (.selks p r) 1 (k * (sm + 1)))) ∧
    (k = 0 → sm = 0 → d.extractLsb' 84 5 = 0 → kofs % us = 0 → oo % 16 = 0 → fits 0 kofs (n * us) →
      fits 1 oo (16 + n * (2 * us)) → queued (.selu p r) 2 n)) ∧
  ∀ (s : State) (core slot : Nat) (t : Thread), s.thread? core slot t.tid = some t → t.cond = .wings .selQueue →
    t.bound = none →
    let mine := s.selq.filter fun x => x.bed == core / 16
    let place := mine.length < 32 ∧ (mine.filter fun x => x.core == core).length < 4
    (place → Wakes (.selectionQueuePlaceFrees core slot t.tid) s core slot t) ∧
    (¬place → exec (.selectionQueuePlaceFrees core slot t.tid) s = .next s)

/-- R247: `Better` ranks two pairs of different indices one way and not the other; a key that is no NaN ranks before a
NaN; of two equal keys the lower index ranks first. -/
def Sys2Proof.Rules.BetterIsTotal : Prop :=
  ∀ (lo : Bool) (p q r : Nat × Option Int),
    (p.1 ≠ q.1 → better lo p q = !(better lo q p)) ∧
    (better lo p q = true → better lo q r = true → better lo p r = true) ∧
    (p.2 ≠ none → q.2 = none → better lo p q = true) ∧
    (p.2 = q.2 → p.1 < q.1 → better lo p q = true) ∧
    ∀ a b, p.2 = some a → q.2 = some b → a < b → better lo p q = lo

/-- R247: keys compare by value: integers by their type; floating keys by their exact value, -0.0 below +0.0 and the
infinities at the ends, and a NaN has no value. -/
def Sys2Proof.Rules.KeysCompareByValue : Prop :=
  ∀ (op a b : Nat), a < 2 ^ 32 → b < 2 ^ 32 →
    let byValue := fun (ext x y : Nat) (v w : FV) =>
      (keyRank op ext x = none ↔ v = .nan) ∧
      ∀ i j, keyRank op ext x = some i → keyRank op ext y = some j → (i < j ↔ v.below w = true) ∧ (i = j ↔ x = y)
    (op < 2 → byValue 0 a b (f32.val a) (f32.val b) ∧
      (a < 2 ^ 16 → b < 2 ^ 16 → byValue 1 a b (bf16.val a) (bf16.val b)) ∧
      keyRank op 2 a = some (toSigned 32 a) ∧ keyRank op 3 a = some (a : Int)) ∧
    (op = 2 → keyRank op 0 a = some (toSigned 32 a) ∧ keyRank op 1 a = some (a : Int))

/-- R248, R249, R250: rank r of a segment is the key that exactly r keys of the segment rank before; ranks beyond the
segment are fill pairs. `SELU` writes the number of distinct values and, for each, how many keys have it. -/
def Sys2Proof.Rules.SelectionRanks : Prop :=
  (∀ (c : SelCmd) (keys : List Nat) (base lo hi r : Nat), c.op < 2 → sePb c.desc = 0 → hi ≤ keys.length →
    r < seK c.desc →
    let rank := fun (j : Nat) => (j, keyRank c.op c.ext (keys.getD j 0))
    let outs := segOut c keys base lo hi
    (hi - lo ≤ r → outs[r]? = some (.bytes (c.oo + 8 * (base + r)) (bytesLE 4 0xFFFFFFFF ++ bytesLE 4 0))) ∧
    (r < hi - lo → ∃ j, lo ≤ j ∧ j < hi ∧
      ((List.range keys.length).filter fun i => decide (lo ≤ i) && decide (i < hi) &&
        better (c.ext.testBit 2) (rank i) (rank j)).length = r ∧
      outs[r]? = some (.bytes (c.oo + 8 * (base + r)) (bytesLE 4 j ++ bytesLE 4 (keys.getD j 0))))) ∧
  ∀ (c : SelCmd) (keys : List Nat), sePb c.desc = 0 → (∀ k ∈ keys, k < 2 ^ (if c.ext % 4 < 2 then 32 else 64)) →
    let u := keys.eraseDups.length
    let es := if c.ext % 4 < 2 then 4 else 8
    (seluOut c keys)[0]? = some (.bytes c.oo (bytesLE 16 u)) ∧ (seluOut c keys).length = u + 1 ∧
    ∀ r < u, ∃ v ∈ keys, (seluOut c keys)[r + 1]? =
        some (.bytes (c.oo + 16 + r * (2 * es)) (bytesLE es v ++ bytesLE es (keys.count v))) ∧
      (keys.eraseDups.filter fun x => decide ((keyRank 2 c.ext x).getD 0 < (keyRank 2 c.ext v).getD 0)).length = r

/-- R247 to R250: the selection engine's order. -/
def Obligations.SelectionOrder : Prop :=
  Rules.BetterIsTotal ∧ Rules.KeysCompareByValue ∧ Rules.SelectionRanks

/-- R246, R248, R250 to R253: a bed's first command reads its keys at their homes, each line once; with no payload, and
outputs that translate, it writes its outputs; once its writes are done it adds its byte count to its counter, once, and
leaves the queue. Where the manual leaves a point open, the model's readings and choices of log entries 51 and 85 stand. -/
def Obligations.SelectionCommandsRun : Prop :=
  (∀ (s : State) (b : Block) (c : SelCmd) (rc : Rec) (o n : Nat) (from_ : Nat → Nat),
    let vas := (List.range n).map fun i => recVa rc o i
    c.lines = [] → s.emptyLines = [] → (∀ l ∈ linesOf vas, Resident s b.bedAsker .read l (from_ l)) →
    ∃ u ls, s.selRead b c rc o n = (u, { c with lines := ls },
        .ok (vas.map fun va => (s.rd (from_ (va / 128) * 128 + va % 128), s.poisoned (from_ (va / 128) * 128 + va % 128)))) ∧
      u = { s with owned := u.owned, contended := u.contended }) ∧
  (∀ (s u : State) (c d : SelCmd) (b : Block) (kb : List (Byte × Bool)),
    s.memOk → s.selq.find? (fun x => x.bed == c.bed) = some c → s.block? c.core c.slot = some b → c.stopped = none →
    c.out = none → c.op = 0 ∨ c.op = 2 → sePb c.desc = 0 →
    let ks := keySize c.op c.ext
    let n := seN c.desc
    s.selRead b c (c.recs.getD 0 0) (seKofs c.desc) (n * ks) = (u, d, .ok kb) → (∀ x ∈ kb, x.2 = false) →
    let key := fun (j : Nat) => ofBytesLE (((kb.map (·.1)).drop (j * ks)).take ks)
    let outs := selOutputs c ((List.range n).map key) []
    let cells := outs.flatMap fun o => match o with
      | .bytes off l => l.zipIdx.map fun x => (recVa (c.recs.getD 1 0) off x.2, x.1)
      | .row _ _ => []
    ∀ at_ : Nat → Nat, (∀ w ∈ cells, ResidentAt u b.bedAsker .write w.1 (at_ w.1)) → (cells.map fun w => at_ w.1).Nodup →
      ∃ t, exec (.selectionCommandRun c.bed) s = .next t ∧ (∀ w ∈ cells, t.rd (at_ w.1) = w.2) ∧
        (∀ k, (∀ w ∈ cells, k ≠ at_ w.1) → t.rd k = u.rd k) ∧
        t.selq.find? (fun x => x.bed == c.bed) = some { d with out := some [] }) ∧
  ∀ (s : State) (c : SelCmd) (b : Block), s.memOk → s.selq.find? (fun x => x.bed == c.bed) = some c →
    s.block? c.core c.slot = some b → c.stopped = none → c.out = some [] → c.dead = false →
    let n := (c.desc.extractLsb' 0 25).toNat
    let k := (c.desc.extractLsb' 32 11).toNat
    let pb := (c.desc.extractLsb' 43 13).toNat
    let bytes := if c.op = 2 then 16 + n * ((if c.ext % 4 < 2 then 8 else 16) + pb)
      else (if c.op = 1 then (c.desc.extractLsb' 56 8).toNat + 1 else 1) * k * (8 + pb)
    let leaves := fun (t : State) (b' : Block) =>
      exec (.selectionComplete c.bed) s = .next t ∧
      t.selq = (s.selq.filter fun x => !(x.core == c.core && x.slot == c.slot && x.seq == c.seq)) ∧
      t.block? c.core c.slot = some b' ∧ b' = { b with barrs := b'.barrs, threads := b'.threads }
    (c.ctr = .none → ∃ t, leaves t b ∧ t.mem = s.mem) ∧
    (∀ i, c.ctr = .barrier i → ∃ t b', leaves t b' ∧ b'.barrs = b.barrs.set i (b.barrs.getD i 0 + BitVec.ofNat 64 bytes)) ∧
    ∀ va u p, c.ctr = .mem va → s.translate b.asker .atomic (va / 128 * 128) = (u, .ok p) → p.key % 128 = 0 →
      let w := u.atHome none p (rangeMask (va % 128) (va % 128 + 8)) true
      let key := p.key + va % 128
      w.poisoned key = false →
      ∃ t b', leaves t b' ∧ b'.barrs = b.barrs ∧ t.rdN key 8 = (w.rdN key 8 + bytes) % 2 ^ 64 ∧ OnlyBytes w t [(key, 8)]

/-! ## Rings, launches, phases -/

/-- R328, R329: `RRES` of a length that R329 admits writes the record's header, advances PROD and gives the record's
offset; where the record would wrap, a skip record fills the buffer's end first; without the space the thread parks, behind
a skip record where there is space for one. Any other length is illegal with subcode 6. -/
def Sys2Proof.Rules.RingReserve : Prop :=
  ∀ (r : R3) (s : State) (c : Cur) (b : Block) (lane : Nat) (t : Thread) (va key rk : Nat) (g : Ring),
    RingAt s c b lane t (r.b % 32) va key g → r.d < 120 → RecAt s b g key g.prod rk → t.tid < 2048 →
    let own := (t.ring.filter fun x => x.1 == key).map (·.2)
    let place := own.getD s.nextTicket
    s.ringAhead key own = false →
    let n := ((s.see b lane t).x r.a).toNat
    let p := g.prod % g.size
    let free := g.size - (g.prod - g.cons)
    let gets := fun (off : Nat) => { t with ring := none, pend := t.pend ++ [PTgt.regs (t.wb.toNat + r.d) (wordsOf 2 off)] }
    (n < 8 ∨ g.size < n ∨ n % 8 ≠ 0 → t.ring = none → Traps s c b lane t (.rres r) t.pc { cls := 2, cause := 6 }) ∧
    (8 ≤ n → n ≤ g.size → n % 8 = 0 →
    (p + n ≤ g.size → n ≤ free →
      RingDone s c t (.rres r) (gets g.prod) [(rk, 8, n), (key + 16, 8, g.prod + n)]) ∧
    (g.size < p + n → g.size - p + n ≤ free → g.prod + (g.size - p) + n < 2 ^ 64 →
      ∀ rk0, RecAt s b g key 0 rk0 → (rk + 8 ≤ rk0 ∨ rk0 + 8 ≤ rk) →
      RingDone s c t (.rres r) (gets (g.prod + (g.size - p)))
        [(rk, 8, g.size - p + 2 ^ 32 + 2 ^ 63), (rk0, 8, n), (key + 16, 8, g.prod + (g.size - p) + n)]) ∧
    ((p + n ≤ g.size ∧ free < n) ∨ (g.size < p + n ∧ free < g.size - p) →
      RingParks s c t (.rres r) (.ringFull key va g.cons place) (some (key, place))) ∧
    (g.size < p + n → g.size - p ≤ free → free < g.size - p + n →
      ∃ x, exec (.rres r) s = .next x ∧ x.rdN rk 8 = g.size - p + 2 ^ 32 + 2 ^ 63 ∧
        x.rdN (key + 16) 8 = g.prod + (g.size - p) ∧ OnlyBytes s x [(rk, 8), (key + 16, 8)] ∧
        x.thread? c.core c.slot t.tid =
          some { t with cond := .wings (.ringFull key va g.cons place), ring := some (key, place) }))

/-- R330, R331, R332: `RCOM` writes byte 7 of the record's header; `RGET` gives the offset of the record at CONS, past a
skip record, and parks on an empty ring and on a record that is not ready; `RFRE` of the record at CONS zeroes its header
and advances CONS, and changes nothing for another offset or a bad length but `BSTAT`.OOB. -/
def Sys2Proof.Rules.RingCommitGetFree : Prop :=
  ∀ (p : Option RPfx) (r : R3) (s : State) (c : Cur) (b : Block) (lane : Nat) (t : Thread) (va key rk : Nat) (g : Ring),
    RingAt s c b lane t (r.b % 32) va key g →
    let off := (s.see b lane t).pair r.a
    let h := s.rdN rk 8
    let len := h % 2 ^ 32
    let good := len ≠ 0 ∧ len % 8 = 0 ∧ g.cons % g.size + len ≤ g.size
    let free := { t with ring := none }
    let gets := fun (off : Nat) => { free with pend := t.pend ++ [PTgt.regs (t.wb.toNat + r.d) (wordsOf 2 off)] }
    let oob := fun (i : Instr) => ∃ x, exec i s = .next x ∧ x.mem = s.mem ∧
      (x.block? c.core c.slot).map (·.bstat) = some (bstatOf b true false) ∧
      x.thread? c.core c.slot t.tid = some { t with pc := c.nextPc }
    (off % 8 = 0 → RecAt s b g key off rk → RingDone s c t (.rcom p r) free [(rk + 7, 1, 0x80)]) ∧
    (r.d < 120 → RecAt s b g key g.cons rk →
      (g.cons < g.prod → h.testBit 63 = true → (h / 2 ^ 32 % 256 ≠ 1 ∨ ¬good) →
        RingDone s c t (.rget p r) (gets g.cons) []) ∧
      (g.cons = g.prod → RingParks s c t (.rget p r) (.ringEmpty key (key + 16) va g.prod g.prod) none) ∧
      (g.cons < g.prod → h.testBit 63 = false → RingParks s c t (.rget p r) (.ringEmpty key rk va g.prod h) none) ∧
      (g.cons + len < g.prod → h.testBit 63 = true → h / 2 ^ 32 % 256 = 1 → good →
        ∀ rk1, RecAt s b g key (g.cons + len) rk1 → (rk + 8 ≤ rk1 ∨ rk1 + 8 ≤ rk) → (s.rdN rk1 8).testBit 63 = true →
        s.rdN rk1 8 / 2 ^ 32 % 256 ≠ 1 →
        RingDone s c t (.rget p r) (gets (g.cons + len)) [(rk, 8, 0), (key + 24, 8, g.cons + len)])) ∧
    (RecAt s b g key g.cons rk → off = g.cons → good →
      RingDone s c t (.rfre p r) free [(rk, 8, 0), (key + 24, 8, g.cons + len)]) ∧
    (RecAt s b g key g.cons rk → off = g.cons → ¬good → oob (.rfre p r)) ∧ (off ≠ g.cons → oob (.rfre p r))

/-- R326 to R332: rings of memory, with no copy of a line outstanding. That the record of a trap takes the next fault
identifier is the model's choice (log entry 13). Where the manual leaves a point open, the model's readings and choices of log entries
21, 22 and 68 stand. -/
def Obligations.RingInstructions : Prop :=
  Rules.RingReserve ∧ Rules.RingCommitGetFree

/-- R335, R336, R337, R341: `LAUNCH` hands the 256 bytes of its record to the dispatcher and gives its thread the code of
R336, 0 for acceptance, or 8 for a record out of bounds. A refused record starts nothing and places an event; an accepted
one without tables, waits and buckets whose counter area translates is Waiting at once. -/
def Sys2Proof.Rules.LaunchSubmits : Prop :=
  ∀ (r : R3) (s u : State) (c : Cur) (b : Block) (lane : Nat) (t : Thread) (va : Nat) (rest : List Nat) (tab : LineTab),
    RunsOne s c b lane t → t.cond = .cast → t.idle → s.copies = [] → s.poison = [] → r.d < 120 →
    let rc := b.krecs.getD (r.b % 32) 0
    let x := (s.see b lane t).x r.a
    let gets := fun (v : State) (code : Nat) =>
      v.thread? c.core c.slot t.tid = some
        { t with pend := t.pend ++ [.regs (t.wb.toNat + r.d) [BitVec.ofNat 32 code]], pc := c.nextPc }
    let a : LAcc := { lane := lane, tid := t.tid, vas := va :: rest }
    let seqs := seqScopes tab [a]
    let w := ((u.before c .read false tab [a]).seqBefore c seqs).fillReads c.core .normal tab [a]
    let v0 := w.seqAfter c seqs
    let l := BitVec.ofNat 2048 (w.readAcc c.core tab a)
    let code := v0.earlyCode l b.asid b.priv
    let read := fun (v : State) => (v.block? c.core c.slot).map (·.bstat) =
      some (bstatOf b false (decide (1 < (linesOf (va :: rest)).length)))
    (formOf rc x 0 256 1 = .oob → ∃ v, exec (.launch r) s = .next v ∧ gets v 8 ∧ v.launches = s.launches ∧
      (v.block? c.core c.slot).map (·.bstat) = some (bstatOf b true false)) ∧
    (formOf rc x 0 256 1 = .acc (va :: rest) → (recOffset rc x 0 256).1 % 64 = 0 →
      s.xlatLines b.asker .read (linesOf (va :: rest)) = (u, tab) → a.failure tab .read = none →
      u.firstEmpty (a.places tab) = none → w.readsBad c.core tab [a] = false →
      (code ≠ 0 → ∃ v, exec (.launch r) s = .next v ∧ gets v code ∧ read v ∧ v.launches = v0.launches ∧
        v.ioq = v0.ioq ++ [({ fid := v0.newFid, kind := 3, cause := code, asid := lrAsid l, aux := va, core := c.core,
                              time := v0.ns }, true)]) ∧
      (code = 0 → lrBits l 438 384 = 0 → lrBits l 709 704 = 0 → lrBits l 716 710 = 0 → (∀ i < 4, lrWva l i = 0) →
        lrBits l 1543 1536 = 0 → (∀ y ∈ v0.launches, y.id ≠ v0.nextLaunch) →
        (∀ n, lrBits l 566 512 / 128 ≤ n → n ≤ (lrBits l 566 512 + lrCntBytes l - 1) / 128 →
          ∃ p, v0.dispXlat (dispAsker (lrAsid l) (lrPriv l)) .atomic (n * 128) = (v0, .ok p) ∧
            v0.atHome none p allBytes false = v0) →
        ∃ v, exec (.launch r) s = .next v ∧ gets v 0 ∧ read v ∧ v.ioq = v0.ioq ∧ v.launches = v0.launches ++
          [{ id := v0.nextLaunch, lr := l, recVa := va, core := c.core, pdim := none, sregs := List.replicate 64 0,
             krecs := List.replicate 32 0, st := .waiting }]))

/-- R336: the causes of a refusal that the record and the submitter show, in their order: a field outside its limits, a
reserved bit set; another address space; privilege; a block that no core fits. -/
def Sys2Proof.Rules.LaunchRecordsAreChecked : Prop :=
  ∀ (s : State) (l : BitVec 2048) (own : Nat) (priv : Bool),
    let f := fun (hi lo : Nat) => (l.extractLsb' lo (hi + 1 - lo)).toNat
    let blocks := f 223 192 * f 255 224 * f 287 256
    (f 107 96 = 0 ∨ 2048 < f 107 96 ∨ f 114 108 < 2 ∨ 64 < f 114 108 ∨ f 163 157 = 0 ∨ 64 < f 163 157 ∨ 48 < f 156 151 ∨
      512 < f 150 141 ∨ 4096 < f 140 128 ∨ 32 < f 120 115 ∨ f 114 108 * 8 < f 120 115 ∨ f 95 64 % 64 ≠ 0 ∨ blocks = 0 ∨
      2 ^ 32 ≤ blocks ∨ blocks % f 163 157 ≠ 0 ∨ f 167 164 = 0 ∨ f 54 0 % 64 ≠ 0 ∨ f 566 512 % 64 ≠ 0 ∨
      f 502 448 % 64 ≠ 0 ∨ 64 < f 716 710 ∨ 32 < f 709 704 ∨ (f 1462 1408 ≠ 0 ∧ f 1535 1472 = 0) ∨ f 2047 1544 ≠ 0 →
      s.earlyCode l own priv = 1) ∧
    (recordBad l = false →
      (s.asidOk (f 183 171) = false ∨ (priv = false ∧ own ≠ f 183 171) → s.earlyCode l own priv = 2) ∧
      (s.asidOk (f 183 171) = true → priv = true ∨ own = f 183 171 →
        (l.getLsbD 170 = true → priv = false → s.earlyCode l own priv = 3) ∧
        (l.getLsbD 170 = false ∨ priv = true →
          (262144 < f 107 96 * (f 114 108 * 8) ∨ (256 < f 150 141 ∧ f 167 166 ≠ 0) → s.earlyCode l own priv = 4) ∧
          (f 107 96 * (f 114 108 * 8) ≤ 262144 → f 150 141 ≤ 256 ∨ f 167 166 = 0 → s.earlyCode l own priv = 0))))

/-- R335, R336, R341: `LAUNCH` and the checks of a launch record. Where the manual leaves a point open, the model's
readings and choices of log entry 13 stand. -/
def Obligations.LaunchSubmission : Prop :=
  Rules.LaunchSubmits ∧ Rules.LaunchRecordsAreChecked

/-- R348, R351: at a `YIELD` every executing thread parks with its next pc; at a `PHASE` too, and the lowest TID among the
arrivals supplies the waits. -/
def Sys2Proof.Rules.PhaseAndYieldPark : Prop :=
  (∀ (r : R3) (s : State) (c : Cur) (b : Block), Runs s c b → (∀ l ∈ s.lanes, l.t.idle) →
    ∃ t, exec (.yield r) s = .next t ∧ OnlyLeaves s t c b (s.lanes.map (·.t.tid)) ∧
      ∀ l ∈ s.lanes, t.thread? c.core c.slot l.t.tid = some { l.t with cond := .wings (.yield c.nextPc) }) ∧
  ∀ (p : Option RPfx) (r : R3) (s : State) (c : Cur) (b : Block) (lane : Nat) (t : Thread) (ctr : Nat → Ctr),
    RunsOne s c b lane t → t.cond = .cast → t.idle →
    let l := s.see b lane t
    let n := (p.map fun (q : RPfx) => q.ext % 4).getD 0
    let waits := (List.range n).map fun i => (ctr i, l.pair (r.a + 4 * i + 1))
    let parks := fun (ws : List (Ctr × Nat)) (wt : Option Nat) =>
      ∃ x b', exec (.phase p r) s = .next x ∧ x = { s with blocks := x.blocks, warps := x.warps } ∧
        x.block? c.core c.slot = some b' ∧ b' = { b with waits := ws, waitTid := wt, threads := b'.threads } ∧
        b'.thread? t.tid = some { t with cond := .wings (.phase c.nextPc) } ∧
        ∀ m, m ≠ t.tid → b'.thread? m = b.thread? m
    r.a + 4 * n ≤ 120 →
    (∀ i < n, ctrOk b (l.x (r.a + 4 * i)) = true ∧ s.checkCtr b (l.x (r.a + 4 * i)) = (s, .ok (ctr i))) →
    ((∀ w, b.waitTid = some w → t.tid < w) → parks waits (some t.tid)) ∧
    (∀ w, b.waitTid = some w → w ≤ t.tid → parks b.waits b.waitTid)

/-! ## Special and uniform registers -/

/-- R50, R55: `MFSR` gives every special register of the table, a pair for the 64-bit ones, and a uniform register. -/
def Sys2Proof.Rules.RegisterReads : Prop :=
  ∀ (r : RI),
    let is := fun (n : Nat) (f : LaneCtx → Word) => r.imm = n → Writes (.mfsrSpecial r) r.d (fun _ l => [f l]) (fun _ _ => 0)
    let later := fun (n : Nat) (f : State → LaneCtx → Nat) => r.imm = n →
      ActsOn (.mfsrSpecial r) fun s l =>
        { l.t with
          pend := if r.d < 120 then l.t.pend ++ [PTgt.regs (l.t.wb.toNat + r.d) (words2 (BitVec.ofNat 64 (f s l)))]
            else l.t.pend }
    is 0x00 (fun l => BitVec.ofNat 32 l.t.tid) ∧ is 0x01 (fun l => BitVec.ofNat 32 (l.t.tid / 4)) ∧
    is 0x02 (fun l => BitVec.ofNat 32 l.lane) ∧ is 0x03 (fun l => l.b.bid) ∧ is 0x04 (fun l => l.b.clrank) ∧
    is 0x05 (fun l => l.b.clsize) ∧ is 0x06 (fun l => l.b.clid) ∧ is 0x07 (fun l => BitVec.ofNat 32 (l.b.core / 128)) ∧
    is 0x08 (fun l => if l.b.core / 128 < 2 then 0 else 1) ∧ is 0x09 (fun l => l.b.gidx) ∧ is 0x0A (fun l => l.b.gidy) ∧
    is 0x0B (fun l => l.b.gidz) ∧ is 0x0C (fun l => l.b.ntid) ∧
    is 0x0D (fun l => BitVec.ofNat 32 (l.b.asid % 2 ^ 13)) ∧ is 0x0E (fun l => l.b.phaseno) ∧
    (∀ i < 4, is (0x10 + i) fun l => l.b.shape.getD i 0) ∧ is 0x14 (fun l => l.t.mr) ∧ is 0x15 (fun l => l.t.wb) ∧
    is 0x16 (fun l => l.t.fpctl) ∧ is 0x17 (fun l => l.b.bstat) ∧ is 0x18 (fun l => l.b.trapv) ∧
    (r.imm = 0x0F → Writes (.mfsrSpecial r) r.d (fun _ l => words2 l.b.codebase) (fun _ _ => 0)) ∧
    later 0x19 (fun s l => s.cyc.getD (l.b.core / 128) 0) ∧ later 0x1A (fun s _ => s.ns) ∧
    Writes (.mfsrUniform r) r.d (fun _ l => [l.b.sregs.getD (r.imm % 64) 0]) (fun _ _ => 0)

/-- R46, R50 to R53, R55: `MTSR` and `SSET`. The reserved bits of `MR`, `FPCTL` and `TRAPV` stay 0, `BSTAT` is cleared by
ones; a window base that is no multiple of 8 or lies out of range traps with subcode 5. -/
def Sys2Proof.Rules.RegisterWrites : Prop :=
  ∀ (r : RI),
    (r.imm = 0x14 → ActsOn (.mtsr r) fun _ l => { l.t with mr := l.x r.a &&& 0xFFFFFFFC }) ∧
    (r.imm = 0x16 → ActsOn (.mtsr r) fun _ l => { l.t with fpctl := l.x r.a &&& 0xF3 }) ∧
    (r.imm = 0x17 → ByFirst (.mtsr r) fun l b => { b with bstat := b.bstat &&& ~~~(l.x r.a &&& 3) }) ∧
    (r.imm = 0x18 → ByFirst (.mtsr r) fun l b => { b with trapv := l.x r.a &&& 0xFFFFFFC1 }) ∧
    (r.imm = 0x15 → ∀ s c b, Runs s c b → (∀ l ∈ s.lanes, (l.x r.a).toNat % 8 = 0 ∧ (l.x r.a).toNat + 8 ≤ b.nregs) →
      ActsIn s c b (.mtsr r) fun l => { l.t with wb := l.x r.a }) ∧
    (r.imm = 0x15 → ∀ s c b lane t, RunsOne s c b lane t → t.idle → t.cond = .cast → t.tid < 2048 →
      let v := ((s.see b lane t).x r.a).toNat
      v % 8 ≠ 0 ∨ b.nregs < v + 8 → Traps s c b lane t (.mtsr r) t.pc { cls := 2, cause := 5 }) ∧
    ByFirst (.sset r) fun l b => { b with sregs := b.sregs.set (r.imm % 64) (l.x r.a) }

/-- R49 to R53: special registers and uniform registers. The moment at which `CYC` and `TIME` are read, and that the record
of a trap takes the next fault identifier, are the model's choices (log entries 3 and 13). -/
def Obligations.SpecialRegisters : Prop :=
  Rules.RegisterReads ∧ Rules.RegisterWrites

/-! ## Traps and system instructions -/

/-- R356, R360, R368, R370, R371: `TRAP` traps with class 7 and its code; `BKPT` parks in debug halt behind itself, with a
record of class 5 that names its own offset. -/
def Sys2Proof.Rules.SoftwareTraps : Prop :=
  ∀ (r : SY) (s : State) (c : Cur) (b : Block) (lane : Nat) (t : Thread), RunsOne s c b lane t → t.idle → t.cond = .cast →
    t.tid < 2048 →
    Traps s c b lane t (.trap r) t.pc { cls := 7, aux := r.imm } ∧
    Traps s c b lane t (.bkpt r) c.nextPc { cls := 5, aux := r.imm }

/-- R80, R83, R85, R87, R112, R356: the traps of a load: a malformed record, out of bounds under a record that traps, a
misaligned acquire load, a line that fails to translate. The thread's registers and memory stay. -/
def Sys2Proof.Rules.LoadsTrapPrecisely : Prop :=
  ∀ (sz : Size) (ch : Hint) (sc : Scope) (off : Option Nat) (n : Nat) (r : MO),
    AccessTraps (.ld sz ch off r) (offImm off) (sizeBytes sz) 1 r.k r.a .read false (fun _ => true) ∧
    AccessTraps (.lda sz ch sc n r) (toSigned 21 n) (sizeBytes sz) (sizeBytes sz) r.k r.a .read false (fun _ => true)

/-- R372: `RTT` clears the handler flag of each executing thread and sends it to its target through the pool; a target
that is no multiple of 4 is an alignment fault. -/
def Sys2Proof.Rules.TrapReturn : Prop :=
  ∀ (r : SY) (s : State) (c : Cur) (b : Block), Runs s c b → (∀ l ∈ s.lanes, l.t.idle) →
    ((∀ l ∈ s.lanes, (l.x r.a).toNat % 4 = 0) →
      ∃ t, exec (.rtt r) s = .next t ∧ OnlyLeaves s t c b (s.lanes.map (·.t.tid)) ∧
        ∀ l ∈ s.lanes, t.thread? c.core c.slot l.t.tid =
          some { l.t with handler := false, pc := l.x r.a, cond := .pool s.now false }) ∧
    ∀ lane t, RunsOne s c b lane t → t.cond = .cast → t.tid < 2048 → ((s.see b lane t).x r.a).toNat % 4 ≠ 0 →
      Traps s c b lane t (.rtt r) t.pc { cls := 1 }

/-- R38, R356: a thread that takes an indirect branch to a target that is no fetch block traps with an alignment fault at the
branch; it writes no link. -/
def Sys2Proof.Rules.IndirectTargetsTrap : Prop :=
  ∀ (x : BX) (s : State) (c : Cur) (b : Block) (lane : Nat) (t : Thread), RunsOne s c b lane t → t.idle → t.cond = .cast →
    t.tid < 2048 → t.guard x.n x.p = true → ((s.see b lane t).x x.a).toNat % 64 ≠ 0 →
    Traps s c b lane t (.brx x) t.pc { cls := 1 } ∧ Traps s c b lane t (.callx x) t.pc { cls := 1 } ∧
    Traps s c b lane t (.ret x) t.pc { cls := 1 }

/-- R38, R356, R357, R368 to R372: taking a trap, and the return from its handler. Where the manual leaves a point open, the
model's readings and choices of log entries 6 and 13 stand. -/
def Obligations.TrapsAndReturn : Prop :=
  Rules.SoftwareTraps ∧ Rules.LoadsTrapPrecisely ∧ Rules.TrapReturn ∧ Rules.IndirectTargetsTrap

/-- R89, R373: a privileged `TLBI` starts its shootdown and parks its thread behind itself until it completes; a count of
0 does nothing; in a user launch the instruction is illegal with subcode 7. -/
def Sys2Proof.Rules.ShootdownInstruction : Prop :=
  ∀ (k : TlbiKind) (r : SY) (s : State) (c : Cur) (b : Block) (lane : Nat) (t : Thread), RunsOne s c b lane t → t.idle →
    t.cond = .cast → t.tid < 2048 → r.a + 4 ≤ 120 →
    let l := s.see b lane t
    let va := l.pair r.a
    let pages := (l.x (r.a + 2)).toNat
    (b.priv = false → Traps s c b lane t (.tlbi k r) t.pc { cls := 2, cause := 7 }) ∧
    (b.priv = true →
      (k = .range → va % 65536 ≠ 0 → Traps s c b lane t (.tlbi k r) t.pc { cls := 1, va := va }) ∧
      (k = .range → va % 65536 = 0 → pages = 0 → ActsIn s c b (.tlbi k r) fun l => l.t) ∧
      (k ≠ .range ∨ (va % 65536 = 0 ∧ pages ≠ 0) →
        ∃ x, exec (.tlbi k r) s = .next x ∧
          x = { s with blocks := x.blocks, warps := x.warps, shoots := x.shoots, nextShoot := s.nextShoot + 1 } ∧
          x.shoots = s.shoots ++
            [{ id := s.nextShoot, kind := (match k with | .range => 0 | .asid => 1 | .all => 2),
               asid := (l.x (r.a + 3)).toNat % 2 ^ 13, va := va, pages := pages, acks := [], reg := false }] ∧
          x.thread? c.core c.slot t.tid = some { t with pc := c.nextPc, cond := .wings (.shootdown s.nextShoot) }))

/-- R374: after an `ICINV` no core holds an instruction block of the range in the thread's address space, and no L2 holds a
guest line of its pages, here pages of HBM in the TLBs that the thread may read, in the range; the thread's maintenance is
complete. -/
def Sys2Proof.Rules.InstructionInvalidate : Prop :=
  ∀ (r : SY) (s : State) (c : Cur) (b : Block) (lane : Nat) (t : Thread) (home : Nat → Nat), RunsOne s c b lane t →
    t.cond = .cast → r.a < 119 →
    let l := s.see b lane t
    let va := b.codebase.toNat + (l.x r.a).toNat
    let len := (l.x (r.a + 1)).toNat
    (∀ p, va / 65536 ≤ p → p * 65536 < va + len → p * 65536 < 2 ^ 55 ∧
      ∃ e, s.tlbHit b.asker (p * 65536) = some e ∧ pteTt e.leaf.toNat = 0 ∧ accessCheck b.asker .read e.leaf.toNat = none ∧
        ∀ i, p * 512 ≤ i → i < p * 512 + 512 →
          s.leafKey b.asker e.leaf.toNat (i * 128 - e.base) / 128 = home i ∧ spaceOf (home i * 128) = .hbm) →
    ∃ x, exec (.icinv r) s = .next x ∧
      x = { s with mem := x.mem, below := x.below, poison := x.poison, copies := x.copies, owned := x.owned, contended := x.contended,
                   icache := x.icache, blocks := x.blocks } ∧
      x.icache = (s.icache.filter fun y => !(y.asid == b.asid && decide (y.va < va + len) && decide (va < y.va + 64))) ∧
      (len ≠ 0 → ∀ y ∈ x.copies, ∀ i, va / 128 ≤ i → i * 128 < va + len → y.line = home i → ∀ d, y.holder = .l2 d →
        d = homeDie (home i * 128)) ∧
      x.thread? c.core c.slot t.tid = some { t with maint := [], pc := c.nextPc }

/-- R89, R373, R374: `TLBI` and `ICINV`. That the record of a trap takes the next fault identifier is the model's choice
(log entry 13), the address of a misaligned `TLBI` its reading (log entry 6). Where the manual leaves a point open, the model's readings and choices of log
entries 54 and 56 stand. -/
def Obligations.ShootdownAndInstructionInvalidate : Prop :=
  Rules.ShootdownInstruction ∧ Rules.InstructionInvalidate

/-! ## Casting -/

/-- R304, R306, R307, R309: where a core has one block, with ready plain threads, and fewer than 64 warps, the Casting unit
forms one warp of the first 32 threads, in ascending TID, of the threads at the pc of the thread that has waited longest
(of several such pcs, the lowest); each stands in its home lane unless a lower TID took it, and the warp goes to a pipe
with the fewest warps. -/
def Sys2Proof.Rules.CastingForms : Prop :=
  ∀ (s : State) (b : Block), s.block? b.core b.slot = some b → (∀ x ∈ s.blocks, x.core = b.core → x = b) → b.slot < 32 →
    b.ph = 0 → s.saving = none → (∀ x ∈ s.steps, x.1 ≠ b.core) → (b.threads.map (·.tid)).Nodup →
    let warps := fun (p : Option Nat) => (s.warps.filter fun w => w.core == b.core && (p.map (· == w.pipe)).getD true).length
    let ready := fun (t : Thread) => t ∈ b.threads ∧ ∃ e, t.cond = .pool e true
    (∀ t, ready t → t.bound = none ∧ t.quadUnit = false ∧ t.stepping = false) →
    (64 ≤ warps none ∨ (∀ t, ¬ready t) → exec (.warpForm b.core) s = .next s) ∧
    (warps none < 64 → (∃ t, ready t) → ∃ u w pc, exec (.warpForm b.core) s = .next u ∧
      u = { s with blocks := u.blocks, warps := s.warps ++ [w], nextWarp := s.nextWarp + 1, lastCast := u.lastCast } ∧
      w.core = b.core ∧ w.slot = b.slot ∧ w.id = s.nextWarp ∧ w.fresh = true ∧ w.debug = false ∧ w.last = s.now ∧
      w.lanes.length = 32 ∧ w.pipe < 4 ∧
      (∀ p < 4, warps (some w.pipe) ≤ warps (some p)) ∧
      (∃ t e, ready t ∧ t.cond = .pool e true ∧ t.pc = pc ∧
        ∀ v x, ready v → v.cond = .pool x true → e ≤ x ∧ (x = e → pc ≤ v.pc)) ∧
      (∀ t, ready t → (some t.tid ∈ w.lanes ↔
        t.pc = pc ∧ (b.threads.filter fun v =>
          (match v.cond with | .pool _ true => true | _ => false) && v.pc == pc && decide (v.tid < t.tid)).length < 32)) ∧
      (∀ tid, some tid ∈ w.lanes → ∃ t, ready t ∧ t.tid = tid) ∧
      (∀ tid, some tid ∈ w.lanes → (∀ m, some m ∈ w.lanes → m < tid → m % 32 ≠ tid % 32) →
        w.lanes[tid % 32]? = some (some tid)) ∧
      (w.displaced = true ↔ ∃ l tid, w.lanes[l]? = some (some tid) ∧ l ≠ tid % 32) ∧
      ∀ t ∈ b.threads, u.thread? b.core b.slot t.tid = some
        (if some t.tid ∈ w.lanes then { t with cond := .cast } else t))

/-- R304, R306, R308, R310, R322: a pooled thread becomes ready, and with it every thread of its core that entered the pool
no later, but for one whose `OBRD` still waits (R44); a bound group whose members' reasons have all cleared enters the pool
as one, and before that it waits; a starving core makes its partial warps take the next instruction as marked. -/
def Sys2Proof.Rules.PoolEvents : Prop :=
  (∀ (s : State) (core slot : Nat) (t : Thread), s.thread? core slot t.tid = some t →
    (∀ e r, t.cond = .pool e r → s.obWaits core slot t.tid = true → exec (.poolReady core slot t.tid) s = .next s) ∧
    (∀ e r, t.cond = .pool e r → s.obWaits core slot t.tid = false →
      ∃ u, exec (.poolReady core slot t.tid) s = .next u ∧ u = { s with blocks := u.blocks } ∧
        ∀ c q v, s.thread? c q v.tid = some v →
          (∀ x y, v.cond = .pool x y → c = core → x ≤ e → s.obWaits c q v.tid = false →
            u.thread? c q v.tid = some { v with cond := .pool x true }) ∧
          (c ≠ core ∨ s.obWaits c q v.tid = true ∨ (∀ x y, v.cond = .pool x y → e < x) → u.thread? c q v.tid = some v))) ∧
  (∀ (s : State) (b : Block) (g : Nat), s.block? b.core b.slot = some b → (∀ t ∈ b.threads, t.bound = some g → t.live = true) →
    ∃ u, exec (.boundGroupRelease b.core b.slot g) s = .next u ∧ u = { s with blocks := u.blocks } ∧
      ∀ t, b.thread? t.tid = some t → u.thread? b.core b.slot t.tid = some
        (if t.bound = some g ∧ (∀ v ∈ b.threads, v.bound = some g → v.cond = .wings .cleared ∧ v.owes = false)
          then { t with cond := .pool s.now false } else t)) ∧
  ∀ (s : State) (core : Nat),
    let mine := s.warps.filter fun w => w.core == core
    (mine.length < 64 → exec (.castingStarvation core) s = .next s) ∧
    (64 ≤ mine.length → (∃ b ∈ s.blocks, b.core = core ∧ ∃ t ∈ b.threads, ∃ e, t.cond = .pool e true) →
      exec (.castingStarvation core) s = .next { s with
        warps := s.warps.map fun w => if w.core = core ∧ w.members.length < 32 then { w with starve := true } else w })

/-- R304 to R309, R322: the pool and the casting unit. Where the manual leaves a point open, the model's readings and
choices of log entries 5, 15 and 55 stand. -/
def Obligations.CastingAndPool : Prop :=
  Rules.CastingForms ∧ Rules.PoolEvents

/-! ## Fault records and their answers -/

/-- R357: where the fields of a fault record lie. -/
def Sys2Proof.Rules.FaultRecordLayout : Prop :=
  ∀ (r : FRec), r.pages.length ≤ 32 →
    let at_ := fun (lo w v : Nat) => r.bits / 2 ^ lo % 2 ^ w = v % 2 ^ w
    at_ 0 32 r.fid ∧ at_ 32 4 r.kind ∧ at_ 36 4 r.cls ∧ at_ 40 4 r.cause ∧ at_ 44 1 r.fetch.toNat ∧ at_ 45 1 r.noncanon.toNat ∧
    at_ 46 1 r.malf.toNat ∧ at_ 47 2 r.level ∧ at_ 49 1 r.write.toNat ∧ at_ 50 1 r.bound.toNat ∧ at_ 51 1 r.nest.toNat ∧
    at_ 52 1 r.cont.toNat ∧ at_ 53 3 0 ∧ at_ 56 9 r.core ∧ at_ 65 11 r.bslot ∧ at_ 76 13 r.asid ∧ at_ 89 7 0 ∧ at_ 96 32 r.pc ∧
    at_ 128 32 r.lanemask ∧ at_ 160 11 r.tid0 ∧ at_ 171 2 r.eng ∧ at_ 173 2 r.stream ∧ at_ 175 5 r.bed ∧ at_ 192 32 r.bid ∧
    at_ 224 32 r.cmd ∧ at_ 256 55 r.va ∧ at_ 320 64 r.aux ∧ at_ 384 64 r.time ∧ at_ 448 19 0 ∧ at_ 467 6 r.pages.length ∧
    at_ 473 39 (r.pages.headD 0) ∧
    ∀ i p, r.pages[i]? = some p → at_ (512 + 16 * i) 16 (p - r.pages.headD 0)

/-- R359, R360, R362, R365: a core's batch goes to the I/O die, its flash-backed records to the Stagehand, and stays while
the queue has no room. The I/O die writes the oldest record into the fault ring, READY set, and the last of a batch sends
the owner host a message; with the ring disabled or its header malformed the record waits. The header is read after the
bytes of it that a die's L2 holds dirty came home (R257). -/
def Sys2Proof.Rules.FaultRecordsTravel : Prop :=
  (∀ (s : State) (core : Nat),
    let mine := (s.batch.filter fun p => p.1 == core).map (·.2)
    let flash := fun (r : FRec) => decide (r.cls = 0 ∧ r.cause = 1 ∧ r.kind ≤ 1)
    let host := mine.filter fun r => !flash r
    ∃ x, exec (.faultBatchSend core) s = .next x ∧ x = { s with batch := x.batch, stageq := x.stageq, ioq := x.ioq } ∧
      x.stageq = s.stageq ++ mine.filter flash ∧ (x.batch.filter fun p => p.1 != core) = (s.batch.filter fun p => p.1 != core) ∧
      (s.ioq.length + host.length ≤ 4096 → (∀ p ∈ x.batch, p.1 ≠ core) ∧ x.ioq.map (·.1) = s.ioq.map (·.1) ++ host ∧
        (host ≠ [] → (x.ioq.getLast?.map (·.2)) = some true)) ∧
      (4096 < s.ioq.length + host.length → x.ioq = s.ioq ∧
        (x.batch.filter fun p => p.1 == core).map (·.2) = host)) ∧
  ∀ (s : State) (r : FRec) (last : Bool) (rest : List (FRec × Bool)), s.memOk → s.ioq = (r, last) :: rest →
    let key := hostKey (s.priv.fring.toNat / 64 * 64)
    let u := s.ioReaches key 64 false
    (s.priv.fring.getLsbD 0 = false → ∃ x, exec .faultRingWrite s = .next x ∧ x.ioq = s.ioq ∧ x.mem = s.mem ∧
      x.priv.fringctl.getLsbD 31 = false) ∧
    (s.priv.fring.getLsbD 0 = true → u.ringHdr key = none → ∃ x, exec .faultRingWrite s = .next x ∧ x.ioq = s.ioq ∧
      x.mem = u.mem ∧ x.priv.fringctl.getLsbD 31 = true) ∧
    ∀ g, s.priv.fring.getLsbD 0 = true → u.ringHdr key = some g → g.prod + 136 < 2 ^ 64 →
      g.prod % g.size + 136 ≤ g.size → 136 ≤ g.size - (g.prod - g.cons) →
      let rk := hostKey (g.base + g.prod % g.size)
      (rk + 136 ≤ key ∨ key + 64 ≤ rk) →
      ∃ x, exec .faultRingWrite s = .next x ∧ x.ioq = rest ∧ x.rdN rk 8 = 136 + 2 ^ 63 ∧
        x.rdN (rk + 8) 128 = r.bits % 2 ^ 1024 ∧ x.rdN (key + 16) 8 = g.prod + 136 ∧
        ((∀ c ∈ s.copies, spaceOf (c.line * 128) ≠ .host) → OnlyBytes s x [(rk, 136), (key + 16, 8)]) ∧
        x.priv.fringctl.getLsbD 31 = false ∧
        (last = false → x.hostOut = s.hostOut ∧ x.msixDue = s.msixDue) ∧
        (last = true → ∀ m, s.owner.owner = some m → m < 2 ^ 16 →
          x.hostOut = s.hostOut ++ [.msix (s.priv.fringctl.extractLsb' 32 11).toNat])

/-- R357 to R365: fault records. That a whole batch is held where it does not fit, while flash-backed records go on, is the
model's choice (log entry 74). Where the manual leaves other points open, the model's readings and choices of log entry 42
stand. -/
def Obligations.FaultRecords : Prop :=
  Rules.FaultRecordLayout ∧ Rules.FaultRecordsTravel

/-- R375: with the watchdog running, a thread that stays too long in a condition with a code traps with class 6, its code
and AUX as R357 gives them, the record's PC that of its `JOIN` where it is held and else the thread's pc (behind a `BWAIT` or `BARV`, log entry 54), and leaves the condition; other
conditions never expire. Where the manual leaves a point
open, the model's readings and choices of log entries 4, 13, 34 and 54 stand. -/
def Obligations.WatchdogTraps : Prop :=
  ∀ (s : State) (core slot : Nat) (b : Block) (t : Thread), s.block? core slot = some b → b.thread? t.tid = some t →
    (b.threads.map (·.tid)).Nodup → b.ph = 0 → t.tid < 2048 → t.owes = false →
    let expires := fun (code aux : Nat) (pc : Word) => ∃ x, exec (.watchdogExpiry core slot [t.tid]) s = .next x ∧
      x.pending = s.pending ++
        [{ fr := { fid := s.newFid, cls := 6, cause := code, nest := t.handler, core := b.core, bslot := b.slot, asid := b.asid,
                   pc := pc.toNat, tid0 := t.tid, bid := b.bid.toNat, aux := aux, time := s.ns },
           launch := b.launch, tids := [t.tid] }] ∧
      x.thread? core slot t.tid = some { t with left := some t.cond, cond := .wings (.fault (some s.newFid)) }
    (s.priv.wdog.getLsbD 0 = false → exec (.watchdogExpiry core slot [t.tid]) s = .next s) ∧
    (s.priv.wdog.getLsbD 0 = true →
      (∀ j, t.cond = .held j → expires 15 j.toNat j) ∧
      (∀ key va n f, t.cond = .wings (.counter key va n f) → expires 1 va t.pc) ∧
      (∀ w ws d q n, t.cond = .wings (.address (w :: ws) d q n) → (∀ y ∈ ws, w.idx < y.idx) → expires 2 w.va t.pc) ∧
      (∀ i n q, t.cond = .wings (.barrier i n q) → expires 3 0 t.pc) ∧
      (∀ q, t.cond = .wings (.stream q) → expires 4 0 t.pc) ∧
      (t.cond = .wings .selQueue → expires 5 0 t.pc) ∧ (∀ l, t.cond = .wings (.emptyLine l) → expires 6 0 t.pc) ∧
      (t.cond = .wings .quad → expires 7 0 t.pc) ∧
      (∀ k va n i f, t.cond = .wings (.ringFull k va n i f) → expires 8 va t.pc) ∧
      (∀ k r va n w, t.cond = .wings (.ringEmpty k r va n w) → expires 9 va t.pc) ∧
      (∀ n, t.cond = .wings (.phase n) → expires 10 0 t.pc) ∧ (∀ n, t.cond = .wings (.yield n) → expires 11 0 t.pc) ∧
      ((∃ e r, t.cond = .pool e r) ∨ t.cond = .cast ∨ (∃ f, t.cond = .wings (.fault f)) ∨
          (∃ f, t.cond = .wings (.debug f)) ∨ (∃ k, t.cond = .wings (.shootdown k)) ∨ t.cond = .wings .preempt →
        ∃ x, exec (.watchdogExpiry core slot [t.tid]) s = .next x ∧ x.pending = s.pending))

/-- R366, R160: the owner host's answers. Retry sends the threads of a record to the pool, an expired one back to its
wait, and lets a stopped stream go on; abandon drops an engine's command with no add and is refused for threads; kill
ends the launch; halt puts the threads into debug halt and keeps the record. An unknown record sets ERR; a master
that is not the owner changes nothing. Where the manual leaves a point open, the model's readings and choices of log entries 37 and 39 stand. -/
def Obligations.FaultAnswers : Prop :=
  ∀ (s : State) (m fid : Nat),
    let refused : Res := .next { s with priv := { s.priv with fresp := 0x8000000000000000 } }
    (s.owner.owner ≠ some m → exec (.frespRetry m fid) s = .next s ∧ exec (.frespAbandon m fid) s = .next s ∧
      exec (.frespKill m fid) s = .next s ∧ exec (.frespHalt m fid) s = .next s) ∧
    (s.owner.owner = some m →
      ((∀ p ∈ s.pending, p.fr.fid ≠ fid) → exec (.frespRetry m fid) s = refused ∧ exec (.frespAbandon m fid) s = refused ∧
        exec (.frespKill m fid) s = refused ∧ exec (.frespHalt m fid) s = refused) ∧
      ∀ p, s.pending.find? (fun p => p.fr.fid == fid) = some p →
        (p.fr.kind = 0 → exec (.frespAbandon m fid) s = refused) ∧
        (p.fr.kind ≠ 0 → exec (.frespHalt m fid) s = refused) ∧
        (∀ b t, s.block? b.core b.slot = some b → b.thread? t.tid = some t → (∀ x ∈ s.blocks, p.names x = true ↔ x = b) →
          p.fr.kind = 0 → t.tid ∈ p.tids → t.cond = .wings (.fault (some fid)) → t.bound = none →
          (t.left = none → ∃ x, exec (.frespRetry m fid) s = .next x ∧ x.priv.fresp = 0 ∧
            x.thread? b.core b.slot t.tid = some { t with cond := .pool s.now false } ∧
            x.pending = s.pending.filter fun y => y.fr.fid != fid) ∧
          (∀ k va n f, t.left = some (.wings (.counter k va n f)) → ∃ x, exec (.frespRetry m fid) s = .next x ∧
            x.thread? b.core b.slot t.tid = some { t with cond := .wings (.counter k va n f), left := none }) ∧
          ∃ x, exec (.frespHalt m fid) s = .next x ∧ x.mem = s.mem ∧ x.priv.fresp = 0 ∧
            x.thread? b.core b.slot t.tid = some { t with cond := .wings (.debug (some fid)) } ∧
            ∃ y ∈ x.pending, y.fr = p.fr ∧ y.tids = p.tids) ∧
        (∀ b q c rest, s.blocks = [b] → q < 4 → b.streams.getD q [] = c :: rest → c.stopped = some fid →
          b.streams.length = 4 → (∀ y ∈ rest, y.ticket ≠ c.ticket) → (∀ i < q, ∀ y, (b.streams.getD i []).head? = some y → y.stopped ≠ some fid) → p.fr.kind = 1 →
          (∀ o ∈ s.obOps, ¬(o.core = b.core ∧ o.slot = b.slot)) →
          (∃ x, exec (.frespRetry m fid) s = .next x ∧ x.priv.fresp = 0 ∧
            (x.block? b.core b.slot).map (fun b => (b.streams.getD q []).head?) = some (some { c with stopped := none })) ∧
          ∃ x, exec (.frespAbandon m fid) s = .next x ∧ x.priv.fresp = 0 ∧ x.mem = s.mem ∧
            (x.block? b.core b.slot).map (fun b => (b.streams.getD q [], b.barrs)) = some (rest, b.barrs)) ∧
        ∀ l, s.launch? p.launch = some l → l.isLive = true →
          ∃ x, exec (.frespKill m fid) s = .next x ∧ x.priv.fresp = 0 ∧ Killed s x l)

/-- R323, R324: a step in thread mode casts the halted thread alone in its home lane, a step in PC mode casts every
halted thread of the block at its pc, where the core has warp slots free; else the step waits for one. A step that names
no halted thread sets ERR. Where the manual leaves a point
open, the model's readings and choices of log entry 37 stand. -/
def Obligations.DebugSteps : Prop :=
  ∀ (s : State) (m v : Nat) (b : Block) (t : Thread), s.owner.owner = some m → s.priv.dbgstep.getLsbD 63 = false →
    s.block? (v / 2 ^ 51 % 2 ^ 9) (v / 2 ^ 40 % 2 ^ 11) = some b → b.thread? (v / 2 ^ 29 % 2 ^ 11) = some t → v % 2 = 1 →
    (b.threads.map (·.tid)).Nodup → b.threads.length ≤ 2048 →
    let halted := fun (u : Thread) => (∃ f, u.cond = .wings (.debug f)) ∧ u.owes = false
    let cast := fun (u : Thread) => { u with cond := .cast, quadUnit := false, stepping := true }
    let warps := (s.warps.filter fun w => w.core == b.core).length
    (v / 2 ^ 60 % 4 = 0 → halted t → 64 ≤ warps →
      ∃ x, exec (.dbgstepThread m v) s = .next x ∧ x.warps = s.warps ∧ x.priv.dbgstep.getLsbD 63 = true ∧
        x.steps = s.steps ++ [(b.core, b.slot, (List.replicate 32 none).set (t.tid % 32) (some t.tid))] ∧
        x.thread? b.core b.slot t.tid = some { t with stepping := true }) ∧
    (v / 2 ^ 60 % 4 = 0 → halted t → warps < 64 →
      ∃ x w, exec (.dbgstepThread m v) s = .next x ∧ x.warps = s.warps ++ [w] ∧ w.core = b.core ∧ w.slot = b.slot ∧
        w.debug = true ∧ w.lanes = (List.replicate 32 none).set (t.tid % 32) (some t.tid) ∧
        x.thread? b.core b.slot t.tid = some (cast t) ∧ x.priv.dbgstep.getLsbD 63 = true) ∧
    (v / 2 ^ 60 % 4 = 1 → halted t → (∀ u ∈ b.threads, halted u → u.bound = none) → warps + b.threads.length / 32 < 64 →
      ∃ x, exec (.dbgstepPc m v) s = .next x ∧ x.priv.dbgstep.getLsbD 63 = true ∧
        ∀ u ∈ b.threads,
          (u.pc = t.pc → halted u → x.thread? b.core b.slot u.tid = some (cast u) ∧
            ∃ w ∈ x.warps, w.core = b.core ∧ w.slot = b.slot ∧ w.debug = true ∧ some u.tid ∈ w.lanes) ∧
          (u.pc ≠ t.pc ∨ ¬halted u → x.thread? b.core b.slot u.tid = some u)) ∧
    (¬halted t → exec (.dbgstepThread m v) s =
      .next { s with priv := { s.priv with dbgstep := s.priv.dbgstep ||| 0x4000000000000000 } })

/-! ## The Stagehand -/

/-- R361, R362, R363, R364: the Stagehand's next record, of one page, starts a fill with the frame at the head of the die's
reserve, or waits for one and says so; where the leaf is no longer flash-backed, the record's thread goes to the pool. -/
def Sys2Proof.Rules.StagehandServes : Prop :=
  ∀ (s : State) (r : FRec) (rest : List FRec) (page : Nat) (p : PendRec), s.boot.mediaReady = true → s.fills = [] →
    s.stageq = r :: rest → r.pages = [page] → s.pending.find? (fun p => p.fr.fid == r.fid) = some p →
    (∀ k e, s.flashLeafOf r.asid (page * 65536) = some (k, e) →
      let die := e / 2 ^ 11 % 4
      let fill := fun (f : Option Nat) => ({ leafKey := k, leaf := BitVec.ofNat 64 e, frame := f, joined := [(r.fid, page)] } : Fill)
      (∀ f, s.reserve.find? (fun x => x.1 == die) = some f → exec .stagehandFill s = .next
        { s with stageq := rest, reserve := s.reserve.erase f, fills := [fill (some f.2)] }) ∧
      ((∀ f ∈ s.reserve, f.1 ≠ die) → (s.priv.ffring.getD die 0).getLsbD 0 = false →
        ∃ x, exec .stagehandFill s = .next x ∧ x.fills = [fill none] ∧ x.stageq = rest ∧
          x.ioq = s.ioq ++ [({ fid := s.newFid, kind := 5, aux := die, time := s.ns }, true)])) ∧
    (s.flashLeafOf r.asid (page * 65536) = none → ∀ b t, s.block? b.core b.slot = some b → b.thread? t.tid = some t →
      (∀ x ∈ s.blocks, p.names x = true ↔ x = b) → p.fr.kind = 0 → p.tids = [t.tid] →
      (∃ h, p.hits = [h] ∧ h.2 / 65536 = page) →
      t.cond = .wings (.fault (some r.fid)) → t.bound = none → t.left = none →
      ∃ x, exec .stagehandFill s = .next x ∧ x.fills = [] ∧ x.stageq = rest ∧
        x.thread? b.core b.slot t.tid = some { t with cond := .pool s.now false } ∧
        ∀ y ∈ x.pending, y.fr.fid ≠ r.fid)

/-- R76, R361, R362: a fill that completes has copied its flash page into the frame, written the frame's type byte, and
swapped the leaf: V = 1, FB, PL, A and D zero, the new frame, every other field as it was; its thread goes to the pool. An
uncorrectable page puts the frame into the reserve, and the fault that joined the fill goes to the owner host as a record
of its own. -/
def Sys2Proof.Rules.FillsComplete : Prop :=
  ∀ (s : State) (f : Fill) (fr page fid : Nat) (p : PendRec) (b : Block) (t : Thread) (h : Nat × Nat), s.memOk →
    s.fills = [f] → f.frame = some fr → f.joined = [(fid, page)] → s.pending.find? (fun p => p.fr.fid == fid) = some p →
    s.block? b.core b.slot = some b → b.thread? t.tid = some t → (∀ x ∈ s.blocks, p.names x = true ↔ x = b) →
    p.fr.kind = 0 → p.tids = [t.tid] → p.hits = [h] → h.2 / 65536 = page → t.tid < 2048 →
    t.cond = .wings (.fault (some fid)) → t.bound = none → t.left = none →
    let e := f.leaf
    let flash := (e.extractLsb' 20 36).toNat
    let ftt := (s.priv.fttbase.extractLsb' 20 36).toNat * 65536 + fr
    (s.flashBad flash = false → fr * 65536 + 65536 ≤ f.leafKey ∨ f.leafKey + 8 ≤ fr * 65536 → f.leafKey + 8 ≤ 2 ^ 40 →
      ftt < 2 ^ 40 → (ftt < f.leafKey ∨ f.leafKey + 8 ≤ ftt) → (ftt < fr * 65536 ∨ fr * 65536 + 65536 ≤ ftt) →
      (e.extractLsb' 6 2).toNat ≠ 2 → s.rdHbm8 f.leafKey = e.toNat →
      ∃ x, exec (.stagehandFillComplete f.leafKey true) s = .next x ∧ x.fills = [] ∧
        (∀ i < 65536, x.rd (fr * 65536 + i) = s.flashByte flash i) ∧
        x.rd ftt = BitVec.ofNat 8 (128 + (e.extractLsb' 6 2).toNat) ∧
        (let l := BitVec.ofNat 64 (x.rdN f.leafKey 8)
         l = ((e &&& 0xFF000000000EE7CE#64) ||| 1 ||| (BitVec.ofNat 36 fr).setWidth 64 <<< 20)) ∧
        x.thread? b.core b.slot t.tid = some { t with cond := .pool s.now false } ∧ ∀ y ∈ x.pending, y.fr.fid ≠ fid) ∧
    (let die := (e.extractLsb' 11 2).toNat
     (s.reserve.filter fun r => r.1 == die).length < 16 → p.told = false →
      ∃ x, exec (.stagehandFillComplete f.leafKey false) s = .next x ∧ x.fills = [] ∧ x.mem = s.mem ∧
        x.reserve = s.reserve ++ [(die, fr)] ∧
        x.ioq = s.ioq ++ [({ fid := s.newFid, kind := 4, aux := flash, time := s.ns }, true),
          ({ p.fr with nest := t.handler, lanemask := 2 ^ h.1, tid0 := t.tid, va := h.2, pages := [page] }, true)])

/-- R76, R361 to R364: the Stagehand. Where the manual leaves a point open, the model's readings and choices of log
entries 13 and 40 stand. -/
def Obligations.StagehandFills : Prop :=
  Rules.StagehandServes ∧ Rules.FillsComplete

/-! ## Pre-emption -/

/-- R377, R380, R382: what a GO in `PREEMPT` does: suspend and resume an address space, queue the restore of a cluster
saved at SAVEFRAME, kill the named block's launch or every launch of an address space. A reserved operation, an empty
slot and a SAVEFRAME that holds nothing set ERR; a write without GO loads the fields and clears ERR; a write by another
master, or while BUSY, is ignored. Where the manual leaves a point open, the model's readings and choices of log entries 37, 38, 39 and 71 stand. -/
def Obligations.PreemptionCommands : Prop :=
  ∀ (s : State) (m v : Nat),
    let same := fun (t : State) => exec (.preemptSuspendAsid m v) s = .next t ∧ exec (.preemptResumeAsid m v) s = .next t ∧
      exec (.restore m v) s = .next t ∧ exec (.preemptKillLaunch m v) s = .next t ∧ exec (.preemptKillAsid m v) s = .next t
    (s.owner.owner ≠ some m ∨ s.priv.preempt.getLsbD 63 = true → same s) ∧
    (s.owner.owner = some m → s.priv.preempt.getLsbD 63 = false → v % 2 = 0 →
      ∃ r, same { s with priv := { s.priv with preempt := r } } ∧ r.getLsbD 62 = false ∧ r.getLsbD 63 = false ∧
        r.extractLsb' 39 23 = (BitVec.ofNat 64 v).extractLsb' 39 23) ∧
    (s.owner.owner = some m → s.priv.preempt.getLsbD 63 = false → v % 2 = 1 →
      let op := v / 2 ^ 59 % 8
      let asid := (s.priv.preemptarg.extractLsb' 0 13).toNat
      let frame := (s.priv.preemptarg.extractLsb' 20 36).toNat
      let named := s.block? (v / 2 ^ 50 % 2 ^ 9) (v / 2 ^ 39 % 2 ^ 11)
      let takes := fun (x : State) => x.priv.preempt.getLsbD 62 = false ∧
        x.priv.preempt.extractLsb' 39 23 = (BitVec.ofNat 64 v).extractLsb' 39 23
      let refused := same { s with priv := { s.priv with preempt := s.priv.preempt ||| 0x4000000000000000 } }
      (op = 0 → ∃ x, exec (.preemptSuspendAsid m v) s = .next x ∧ takes x ∧
        x = { s with priv := x.priv, suspended := x.suspended } ∧
        ∀ a, a ∈ x.suspended ↔ a = asid ∨ a ∈ s.suspended) ∧
      (op = 1 → ∃ x, exec (.preemptResumeAsid m v) s = .next x ∧ takes x ∧
        x = { s with priv := x.priv, suspended := x.suspended } ∧
        ∀ a, a ∈ x.suspended ↔ a ≠ asid ∧ a ∈ s.suspended) ∧
      (op = 3 → ∀ y b l, s.saved.reverse.find? (fun y => y.frame == frame) = some y → y.queued = false → y.blks.head? = some b →
        s.launch? b.launch = some l →
        ∃ x, exec (.restore m v) s = .next x ∧ takes x ∧ x.reqs = s.reqs ++
          [{ die := y.die, kind := .restore y.id, prio := lrBits l.lr 169 168, since := s.cycOf y.die, ord := s.nextReq }]) ∧
      (op = 3 → (∀ y, s.saved.reverse.find? (fun y => y.frame == frame) = some y → y.queued = true) → refused) ∧
      (op = 4 → ∀ b l, named = some b → s.launch? b.launch = some l → l.isLive = true →
        ∃ x, exec (.preemptKillLaunch m v) s = .next x ∧ takes x ∧ Killed s x l) ∧
      (op = 4 → named = none → refused) ∧
      (op = 5 → (s.launches.map (·.id)).Nodup →
        ∃ x, exec (.preemptKillAsid m v) s = .next x ∧ takes x ∧ x.mem = s.mem ∧
          ∀ l ∈ s.launches, x.launch? l.id =
            some (if lrAsid l.lr = asid ∧ l.isLive = true then { l with st := .killed } else l)) ∧
      (6 ≤ op → refused))

/-- R378, R379: a force-save parks the threads of the cluster that are cast or in the pool and sets BUSY; once its blocks
are quiet their images are written at SAVEFRAME, they leave their cores and BUSY clears. -/
def Sys2Proof.Rules.ForceSaves : Prop :=
  ∀ (s : State) (m v : Nat) (b : Block), s.block? b.core b.slot = some b →
    (∀ y ∈ s.blocks, y.launch = b.launch → y.clid = b.clid → y = b) → b.clrank.toNat < 64 →
    (s.blocks.filter fun y => y.launch == b.launch && y.clid == b.clid).length = 1 →
    (∀ t ∈ b.threads, t.idle ∧ t.bound = none ∧ t.stepping = false) → (b.threads.map (·.tid)).Nodup →
    (s.saving = none → s.owner.owner = some m → s.priv.preempt.getLsbD 63 = false → v % 2 = 1 → v / 2 ^ 59 % 8 = 2 →
      v / 2 ^ 50 % 2 ^ 9 = b.core → v / 2 ^ 39 % 2 ^ 11 = b.slot →
      ∃ x, exec (.forceSave m v) s = .next x ∧ x.mem = s.mem ∧ x.priv.preempt.getLsbD 63 = true ∧
        x.saving = some (b.launch, b.clid.toNat, (s.priv.preemptarg.extractLsb' 20 36).toNat) ∧
        ∀ t ∈ b.threads, x.thread? b.core b.slot t.tid = some
          (match t.cond with
            | .cast => { t with cond := .wings .preempt }
            | .pool _ _ => { t with cond := .wings .preempt }
            | _ => t)) ∧
    ∀ frame l, s.saving = some (b.launch, b.clid.toNat, frame) → s.launch? b.launch = some l → l.st = .running →
      s.memOk → s.copies = [] → s.blockQuiet b = true → (∀ y ∈ s.blocks, ∀ q ∈ y.streams, q = []) → s.selq = [] →
      (∀ a ∈ s.areas, ¬(a.launch = b.launch ∧ a.clid = b.clid.toNat)) →
      (∀ t ∈ b.threads, t.cond ≠ .cast ∧ (∀ e r, t.cond ≠ .pool e r) ∧ ∀ k, t.cond ≠ .wings (.shootdown k)) →
      frame * 65536 + (s.blockImage b).length ≤ 2 ^ 40 →
      ∃ x, exec (.forceSave m v) s = .next x ∧ x.saving = none ∧ x.priv.preempt.getLsbD 63 = false ∧
        x.block? b.core b.slot = none ∧ (∃ y ∈ x.saved, y.frame = frame ∧ y.blks = [b] ∧ y.die = b.die) ∧
        (∀ w ∈ x.warps, ¬(w.core = b.core ∧ w.slot = b.slot)) ∧
        ∀ i < (s.blockImage b).length, x.rd (frame * 65536 + i) = (s.blockImage b).getD i 0

/-- R379: the sections of a save image. -/
def Sys2Proof.Rules.SaveImageLayout : Prop :=
  ∀ (s : State) (b : Block), b.sregs.length = 64 → b.barrs.length = 48 → b.krecs.length = 32 → b.handles.length = 16 →
    b.slots.length = 16 →
    let img := fun (o n : Nat) => ofBytesLE (((s.blockImage b).drop o).take n)
    let up := fun (n : Nat) => (n + 63) / 64 * 64
    let n := b.ntid.toNat
    let regs := up (6336 + 32 * n)
    let scr := up (regs + 4 * n * b.nregs)
    let full := scr + 128 * b.scr
    let opb := full + up ((b.scr + 7) / 8)
    (∀ i < 64, img (4 * i) 4 = (b.sregs.getD i 0).toNat) ∧ (∀ i < 48, img (256 + 8 * i) 8 = (b.barrs.getD i 0).toNat) ∧
    (∀ i < 32, img (640 + 32 * i) 32 = (b.krecs.getD i 0).toNat) ∧
    (∀ i < 16, img (1664 + 256 * i) 256 = ((b.handles.getD i none).getD 0).toNat) ∧
    (∀ i < 16, img (5760 + 32 * i) 16 = (b.slots.getD i {}).rv.toNat ∧
      img (5760 + 32 * i + 16) 1 = (b.slots.getD i {}).live.toNat + 2 * (b.slots.getD i {}).cur.toNat) ∧
    img 6272 4 = b.bstat.toNat ∧ img 6276 4 = b.trapv.toNat ∧ img 6280 4 = b.phaseno.toNat ∧ img 6284 4 = b.bid.toNat ∧
    img 6288 4 = b.clrank.toNat ∧ img 6292 4 = n ∧
    (∀ t x, t < n → b.thread? t = some x →
      let o := 6336 + 32 * t
      img o 4 = x.pc.toNat ∧ img (o + 4) 4 = x.mr.toNat ∧ img (o + 8) 4 = x.wb.toNat ∧ img (o + 12) 4 = x.fpctl.toNat ∧
      img (o + 16) 1 = x.preds.toNat ∧
      img (o + 17) 1 = condCode x.cond + 16 * x.handler.toNat + 32 * x.bound.isSome.toNat + 64 * (!x.live).toNat ∧
      (∀ j, x.cond = .held j → img (o + 20) 4 = j.toNat) ∧
      (∀ k m sc, x.cond = .wings (.barrier k m sc) → img (o + 18) 1 = k % 256 ∧ img (o + 24) 8 = m % 2 ^ 64) ∧
      ∀ i < b.nregs, img (regs + 4 * (t * b.nregs + i)) 4 = (x.regs.getD i 0).toNat) ∧
    (∀ i < 128 * b.scr, img (scr + i) 1 = (s.rd (scrKey b.core (b.scrBase + i))).toNat) ∧
    (∀ i < b.scr, (img (full + i / 8) 1).testBit (i % 8) = !(s.emptyLines.contains (b.core * 4096 + b.scrBase / 128 + i))) ∧
    (∀ i < b.opb, img (opb + i) 1 = (s.rd (opbKey b.core (b.opbBase + i))).toNat) ∧ (s.blockImage b).length = opb + b.opb

/-- R378, R379: force-save and the save image. Where the manual leaves a point open, the model's readings and choices of
log entries 38 and 72 stand. -/
def Obligations.ForcedSaves : Prop :=
  Rules.ForceSaves ∧ Rules.SaveImageLayout

/-! ## Dispatchers -/

/-- R333, R334, R443: a doorbell write is kept and tells the dispatcher; `LRINGn` keeps its HDR and EN. The dispatcher
serving a doorbell reads PROD once, consumes the record at CONS, frees a skip record and a record of another length,
the latter with a refusal, submits a launch record, and stops at a bad header with a ring event. Where the manual
leaves a point open, the model's readings and choices of log entries 13 and 26 stand. -/
def Obligations.LaunchRingsAreConsumed : Prop :=
  (∀ (s : State) (m asid n v : Nat),
    let may := if 4 ≤ n then s.owner.owner = some m else m < 2 ^ 16 ∧ asid < 2 ^ 13
    (¬may → exec (.tailDoorbell m asid n v) s = .next s ∧ exec (.lringWrite m asid n v) s = .next s) ∧
    (may → (∃ x, exec (.tailDoorbell m asid n v) s = .next x ∧ x.lring asid n = ((s.lring asid n).1, BitVec.ofNat 64 v) ∧
        (asid, n, none) ∈ x.consume ∧ (asid, n) ∉ x.badRings ∧
        x = { s with lrings := x.lrings, badRings := x.badRings, consume := x.consume }) ∧
      ∃ x, exec (.lringWrite m asid n v) s = .next x ∧
        x.lring asid n = (BitVec.ofNat 64 (v &&& 0x7FFFFFFFFFFFC1), (s.lring asid n).2) ∧
        x = { s with lrings := x.lrings, badRings := x.badRings, consume := x.consume })) ∧
  ∀ (s : State) (asid n : Nat) (target : Option Nat) (p : Place),
    let reg := (s.lring asid n).1
    let q := dispAsker asid (decide (4 ≤ n))
    let va := (reg.extractLsb' 6 49).toNat * 64
    let e := Instr.launchRingConsume asid n
    s.consume.find? (fun c => c.1 == asid && c.2.1 == n) = some (asid, n, target) → reg.getLsbD 0 = true →
    (s.mgmt.detmode.getLsbD 63 = false ∨ s.consume.head? = some (asid, n, target)) →
    (asid, n) ∉ s.badRings → s.dispXlat q .atomic va = (s, .ok p) → (∀ m, s.atHome none p m true = s) → s.memOk →
    (s.ringHdr p.key = none → ∃ x, exec e s = .next x ∧ x.mem = s.mem ∧ (asid, n) ∈ x.badRings ∧
      (∀ c ∈ x.consume, ¬(c.1 = asid ∧ c.2.1 = n)) ∧
      x.ioq = s.ioq ++ [({ fid := s.newFid, kind := 7, asid := asid, va := va, time := s.ns }, true)]) ∧
    ∀ g, s.ringHdr p.key = some g →
      (target.getD g.prod ≤ g.cons → ∃ x, exec e s = .next x ∧ x.mem = s.mem ∧ x.launches = s.launches ∧
        x.consume = s.consume.eraseP fun c => c.1 == asid && c.2.1 == n) ∧
      (g.cons < target.getD g.prod → g.cons + g.size < 2 ^ 64 →
        let rva := g.base + g.cons % g.size
        ∀ pr, s.dispXlat q .atomic rva = (s, .ok pr) → (∀ m, s.atHome none pr m true = s) → (pr.key + 8 ≤ p.key ∨ p.key + 64 ≤ pr.key) →
        let h := s.rdN pr.key 8
        let len := h % 2 ^ 32
        let freed := fun (x : State) => x.rdN pr.key 8 = 0 ∧ x.rdN (p.key + 24) 8 = g.cons + len ∧
          OnlyBytes s x [(pr.key, 8), (p.key + 24, 8)]
        (h.testBit 63 = false → ∃ x, exec e s = .next x ∧ x.mem = s.mem ∧ x.launches = s.launches ∧
          (∃ c ∈ x.consume, c = (asid, n, some (target.getD g.prod)))) ∧
        (h.testBit 63 = true → len ≠ 0 → len % 8 = 0 → g.cons % g.size + len ≤ g.size →
          (h / 2 ^ 32 % 256 = 1 → ∃ x, exec e s = .next x ∧ freed x ∧ x.launches = s.launches ∧ x.ioq = s.ioq) ∧
          (h / 2 ^ 32 % 256 ≠ 1 → len ≠ 264 → ∃ x, exec e s = .next x ∧ freed x ∧ x.launches = s.launches ∧
            x.ioq = s.ioq ++ [({ fid := s.newFid, kind := 3, cause := 1, asid := asid, aux := rva + 8, time := s.ns }, true)]) ∧
          (h / 2 ^ 32 % 256 ≠ 1 → len = 264 → s.mgmt.detmode.getLsbD 63 = false → ∀ pl : Nat → Place,
            (∀ i, rva / 128 ≤ i → i ≤ (rva + 263) / 128 → s.dispXlat q .read (i * 128) = (s, .ok (pl i)) ∧
              s.atHome none (pl i) allBytes false = s) →
            let l := BitVec.ofNat 2048 (ofBytesLE ((List.range 256).map fun i =>
              s.rd ((pl ((rva + 8 + i) / 128)).key + (rva + 8 + i) % 128)))
            ∃ w, freed w ∧ exec e s = .next (w.submitLaunch l (rva + 8) asid 0 (decide (4 ≤ n))).1 ∧
              w = { s with mem := w.mem, below := w.below, poison := w.poison, owned := w.owned, contended := w.contended, blocks := w.blocks,
                           consume := w.consume })))

/-- R337, R338, R339, R344, R346: a Waiting launch whose waits have all reached their targets is Ready; a wait that can
no longer be read refuses it with code 7. A Ready launch has its counter area zeroed and each cluster queued at the
die its number names, and is Running. Where the manual leaves a point open, the model's readings and choices of log
entries 13 and 26 stand. -/
def Obligations.LaunchesProceed : Prop :=
  ∀ (s : State) (x : Launch), s.launch? x.id = some x →
    let q := dispAsker (lrAsid x.lr) (lrPriv x.lr)
    (x.st = .waiting → ∀ f : Nat → State × DispRes,
      (∀ i < 4, lrWva x.lr i ≠ 0 → s.dispRead q .wait x.id (lrWva x.lr i) 8 = f i) →
      ((∀ i < 4, lrWva x.lr i ≠ 0 → ∃ bs, f i = (s, .ok bs) ∧ lrWtg x.lr i ≤ ofBytesLE bs) →
        exec (.launchWaitsMet x.id) s = .next (s.modLaunch x.id fun y => { y with st := .ready })) ∧
      ((∀ i < 4, lrWva x.lr i ≠ 0 → ∃ bs, f i = (s, .ok bs)) →
        (∃ i < 4, lrWva x.lr i ≠ 0 ∧ ∀ bs, f i = (s, .ok bs) → ofBytesLE bs < lrWtg x.lr i) →
        exec (.launchWaitsMet x.id) s = .next s) ∧
      (lrWva x.lr 0 ≠ 0 → f 0 = (s, .fail) → ∃ y, exec (.launchWaitsMet x.id) s = .next y ∧
        y.launch? x.id = some { x with st := .refused } ∧ y.mem = s.mem ∧
        y.ioq = s.ioq ++ [({ fid := s.newFid, kind := 3, cause := 7, asid := lrAsid x.lr, aux := x.recVa, core := x.core,
                             time := s.ns }, true)])) ∧
    (x.st = .ready →
      let base := (x.lr.extractLsb' 512 55).toNat
      let n := lrClusters x.lr
      let dies := (List.range 4).filter fun d => x.lr.getLsbD (164 + d)
      ∀ p, base / 128 = (base + 40 + 8 * n - 1) / 128 → s.dispXlat q .atomic (base / 128 * 128) = (s, .ok p) →
        (∀ m, s.atHome none p m true = s) → s.memOk →
        ∃ y, exec (.launchReady x.id) s = .next y ∧ y.launch? x.id = some { x with st := .running } ∧
          (∀ i < 40 + 8 * n, y.rd (p.key + base % 128 + i) = 0) ∧ OnlyBytes s y [(p.key + base % 128, 40 + 8 * n)] ∧
          y.reqs = s.reqs ++ (List.range n).map fun c =>
            { die := dies.getD (c % dies.length) 0, kind := .cluster x.id c, prio := (x.lr.extractLsb' 168 2).toNat,
              since := s.cyc.getD (dies.getD (c % dies.length) 0) 0, ord := s.nextReq + c })

/-- R303, R338, R343, R345, R347: a die's dispatcher that finds no room backs its first request off, and after the eighth
failure moves it behind the younger ones of its effective priority, where it keeps its age; the back-off whose time comes first
ends first; a cluster of one block that fits starts: its registers, coordinates, predicates and
allocations as at block start, all its threads in the pool at the entry. -/
def Sys2Proof.Rules.ClustersArePlaced : Prop :=
  (∀ (s : State) (die c : Nat) (r : Req) (x : Launch), s.boot.released = true → s.headReq die = some r →
    r.kind = .cluster x.id c → s.launch? x.id = some x → s.readScene die = s →
    let l := x.lr
    let due := s.cyc.getD r.die 0 + 256 * 2 ^ r.fails
    let f := fun (hi lo : Nat) => (l.extractLsb' lo (hi + 1 - lo)).toNat
    let spots := s.clusterSpots r.die (f 163 157) (f 107 96) (f 114 108 * 8) (f 140 128 * 128) (f 150 141 * 512) (f 156 151)
    (spots = none → ∃ y, exec (.clusterPlace die) s = .next y ∧ y = { s with reqs := y.reqs, nextReq := y.nextReq } ∧
      (r.fails < 7 → y.reqs = s.reqs.map fun z =>
        if z = r then { r with fails := r.fails + 1, backoff := true, due := due } else z) ∧
      (r.fails = 7 → (∀ z ∈ s.reqs, (s.reqPlace z).2 < s.nextReq) →
        ∃ r2, y.reqs = s.reqs.map (fun z => if z = r then r2 else z) ∧
        r2 = { r with fails := 0, backoff := true, due := due, moved := r2.moved } ∧
        ∀ z ∈ s.reqs, z ≠ r → z.die = r.die → s.effPrio z = s.effPrio r → s.reqBefore r z = true →
          s.reqBefore z r2 = true)) ∧
    ∀ p, spots = some [p] → s.copies = [] → s.block? p.core p.slot = none →
      ∃ y b, exec (.clusterPlace die) s = .next y ∧ y.reqs = s.reqs.erase r ∧ y.block? p.core p.slot = some b ∧
        b.launch = x.id ∧ b.bid = BitVec.ofNat 32 (c * f 163 157) ∧ b.clrank = 0 ∧ b.clid = BitVec.ofNat 32 c ∧
        b.gidx = BitVec.ofNat 32 (c * f 163 157 % f 223 192) ∧
        b.gidy = BitVec.ofNat 32 (c * f 163 157 / f 223 192 % f 255 224) ∧
        b.gidz = BitVec.ofNat 32 (c * f 163 157 / (f 223 192 * f 255 224)) ∧ b.ntid = BitVec.ofNat 32 (f 107 96) ∧
        b.codebase = BitVec.ofNat 64 (f 54 0) ∧ b.bars = f 156 151 ∧ b.carry = f 120 115 ∧
        b.asid = f 183 171 ∧ b.priv = l.getLsbD 170 ∧ b.nregs = f 114 108 * 8 ∧ b.scr = f 140 128 ∧ b.opb = f 150 141 * 512 ∧
        b.sregs = x.sregs ∧ b.krecs = x.krecs ∧ b.bstat = 0 ∧ b.trapv = 0 ∧ b.phaseno = 0 ∧
        (∀ i < 16, b.handles.getD i none = none ∧ (b.slots.getD i {}).live = false) ∧ (∀ i < 48, b.barrs.getD i 0 = 0) ∧
        (∀ i < b.scr * 128, y.rd (scrKey p.core (p.scr + i)) = 0) ∧ (∀ i < b.opb, y.rd (opbKey p.core (p.opb + i)) = 0) ∧
        (p.scr % 128 = 0 → ∀ i < b.scr, p.core * 4096 + p.scr / 128 + i ∉ y.emptyLines) ∧
        b.threads.length = f 107 96 ∧
        ∀ t < f 107 96, b.thread? t = some
          { tid := t, cond := .pool s.now false, pc := BitVec.ofNat 32 (f 95 64), regs := List.replicate b.nregs 0,
            preds := match x.pdim with
              | none => 1
              | some d => if c * f 163 157 % f 223 192 * f 107 96 + t < f (799 + 32 * d) (768 + 32 * d) then 1 else 0 }) ∧
  ∀ (s : State) (r : Req), r ∈ s.reqs → r.backoff = true →
    (∀ z ∈ s.reqs, z.die = r.die → z.backoff = true → z ≠ r → r.due < z.due) →
    exec (.placementBackoffExpiry r.die) s = .next
      { s with reqs := s.reqs.map fun z => if z = r then { r with backoff := false } else z }

/-- R340, R381: a block whose threads have exited and whose commands are complete leaves its core; the adds that cover it
fall due, DONE's with the last block. The dispatcher makes a due add at its counter's home; one that cannot be made becomes
a completion event. -/
def Sys2Proof.Rules.BlocksExit : Prop :=
  (∀ (s : State) (b : Block) (l : Launch), s.block? b.core b.slot = some b → (∀ y ∈ s.blocks, y.core = b.core → y.slot = b.slot → y = b) →
    s.launch? b.launch = some l → l.st = .running → s.copies = [] →
    ((∃ t ∈ b.threads, t.live = true) ∨ s.blockQuiet b = false → exec (.blockExit b.core b.slot) s = .next s) ∧
    ((∀ t ∈ b.threads, t.live = false) → s.blockQuiet b = true →
      let area := (l.lr.extractLsb' 512 55).toNat
      let done := (l.lr.extractLsb' 320 55).toNat
      let add := fun (va : Nat) (last : Bool) => (l.id, lrAsid l.lr, lrPriv l.lr, va, last)
      let last := l.exited + 1 = lrBlocks l.lr
      ∃ x, exec (.blockExit b.core b.slot) s = .next x ∧ x.mem = s.mem ∧ x.block? b.core b.slot = none ∧
        (∀ y ∈ s.blocks, y ≠ b → y ∈ x.blocks) ∧
        x.launch? l.id = some { l with exited := l.exited + 1, st := if last then .done else .running } ∧
        x.adds = s.adds ++ [add area false, add (area + 8 + 8 * (b.core / 128)) false, add (area + 40 + 8 * b.clid.toNat) false] ++
          (if last ∧ done ≠ 0 then [add done true] else []) ∧
        ((∀ y ∈ s.blocks, y ≠ b → ¬(y.launch = b.launch ∧ y.clid = b.clid)) → s.saved = [] →
          ∀ a ∈ x.areas, ¬(a.launch = b.launch ∧ a.clid = b.clid.toNat)))) ∧
  ∀ (s : State) (launch asid va : Nat) (priv : Bool) (rest : List (Nat × Nat × Bool × Nat × Bool)),
    s.adds = (launch, asid, priv, va, false) :: rest →
    let u := { s with adds := rest }
    (∀ p, s.memOk → u.dispXlat (dispAsker asid priv) .atomic va = (u, .ok p) → (∀ m, u.atHome none p m true = u) →
      ∃ x, exec .blockExitAdds s = .next x ∧ x.adds = rest ∧ x.rdN p.key 8 = (s.rdN p.key 8 + 1) % 2 ^ 64 ∧
        OnlyBytes s x [(p.key, 8)]) ∧
    ∀ f, u.dispXlat (dispAsker asid priv) .atomic va = (u, .error f) → f.cause ≠ 1 →
      ∃ x, exec .blockExitAdds s = .next x ∧ x.adds = rest ∧ x.mem = s.mem ∧
        x.ioq = s.ioq ++ [({ fid := s.newFid, kind := 8, cause := f.cause, asid := asid, va := va, write := true,
                             time := s.ns }, true)]

/-- R303, R338 to R347, R381: clusters are placed, and blocks exit. Where the manual leaves a point open, the model's
readings and choices of log entries 10, 13, 26 and 60 stand. -/
def Obligations.BlocksComeAndGo : Prop :=
  Rules.ClustersArePlaced ∧ Rules.BlocksExit

/-- R348 to R351: a block all of whose threads stand at a phase boundary has its phase record written and its registers
freed; once its waits are met its next phase is queued; the phase at the head of its die's queue is entered with the record
as it then stands. Threads that all yield, with nothing to admit, go on behind the instruction. -/
def Sys2Proof.Rules.PhasesGoOn : Prop :=
  ∀ (s : State) (b : Block) (l : Launch) (at_ : Nat → Nat), s.blocks = [b] → s.launch? b.launch = some l → b.phStop = none →
    b.phSkip = false → b.phNext = 0 → (∀ t ∈ b.threads, t.owes = false) → s.copies = [] → (b.threads.map (·.tid)).Nodup → b.sregs.length = 64 →
    let e := Instr.phaseEntry b.launch
    let size := (320 + 4 * b.ntid.toNat * b.carry + 63) / 64 * 64
    let va := (l.lr.extractLsb' 448 55).toNat + b.bid.toNat * size
    let live := b.threads.filter Thread.live
    (b.ph = 0 → live ≠ [] → (∀ t ∈ live, (∃ n, t.cond = .wings (.phase n)) ∨ ∃ n, t.cond = .wings (.yield n)) →
      ((∃ t ∈ live, ∃ n, t.cond = .wings (.phase n)) → s.memOk → (∀ i < size, ResidentAt s b.asker .write (va + i) (at_ i)) →
        (∀ i j, i < size → j < size → at_ i = at_ j → i = j) →
        ∃ x b', exec e s = .next x ∧ x.blocks = [b'] ∧
          b' = { b with ph := 1, phSkip := false, threads := b.threads.map fun t =>
            { t with regs := [], badRegs := [], handler := false,
                     pc := match t.cond with | .wings (.phase n) => n | .wings (.yield n) => n | _ => t.pc } } ∧
          (∀ i < size, x.rd (at_ i) = (phaseRecord b).getD i 0) ∧ ∀ k, (∀ i < size, k ≠ at_ i) → x.rd k = s.rd k) ∧
      ((∀ t ∈ live, ∃ n, t.cond = .wings (.yield n)) → s.reqs = [] → (∀ t ∈ b.threads, t.bound = none) →
        ∃ x, exec e s = .next x ∧ x = { s with blocks := x.blocks } ∧ ∀ t ∈ live, ∀ n, t.cond = .wings (.yield n) →
          x.thread? b.core b.slot t.tid = some { t with pc := n, cond := .pool s.now false })) ∧
    (b.ph = 1 →
      let met := fun (w : Ctr × Nat) => match w.1 with
        | .none => True
        | .barrier i => w.2 ≤ (b.barrs.getD i 0).toNat
        | .mem va => w.2 ≤ s.rdN (at_ va) 8
      s.owned = [] → (∀ va n, (Ctr.mem va, n) ∈ b.waits → ResidentAt s b.asker .wait va (at_ va) ∧ s.poisoned (at_ va) = false) →
      ((∀ w ∈ b.waits, met w) → exec e s = .next { s with
        blocks := [{ b with ph := 2 }]
        nextReq := s.nextReq + 1
        reqs := s.reqs ++ [{ die := b.die, kind := .phase b.core b.slot, prio := lrBits l.lr 169 168, since := s.cycOf b.die,
                             ord := s.nextReq }] }) ∧
      ((∃ w ∈ b.waits, ¬met w) → exec e s = .next s)) ∧
    (b.ph = 2 → s.readScene b.die = s → ∀ r, s.headReq b.die = some r → r.kind = .phase b.core b.slot → s.threadRoom b.core b.ntid.toNat b.nregs = true →
      (∀ i < size, ResidentAt s b.asker .read (va + i) (at_ i) ∧ s.poisoned (at_ i) = false) →
      let word := fun (o : Nat) => BitVec.ofNat 32 (ofBytesLE ((List.range 4).map fun i => s.rd (at_ (o + i))))
      ∃ x b', exec e s = .next x ∧ x.blocks = [b'] ∧ x.reqs = s.reqs.erase r ∧ x.mem = s.mem ∧
        b' = { b with ph := 0, phSkip := false, waits := [], waitTid := none, phaseno := word 0, bstat := word 4,
                      trapv := word 8, sregs := (List.range 64).map (fun i => word (64 + 4 * i)), threads := b'.threads } ∧
        ∀ t ∈ b.threads, t.live = true → t.tid < b.ntid.toNat → ∃ regs, b'.thread? t.tid = some
          { t with cond := .pool s.now false, regs := regs, mr := 0, wb := 0, fpctl := 0,
                   preds := match l.pdim with
                     | none => 1
                     | some d => if b.gidx.toNat * lrNtid l.lr + t.tid < lrShape l.lr d then 1 else 0 } ∧
          regs.length = b.nregs ∧
          ∀ i < b.nregs, regs.getD i 0 = if i < b.carry then word (320 + 4 * (t.tid * b.carry + i)) else 0)

/-- R349: the layout of a phase record. -/
def Sys2Proof.Rules.PhaseRecordLayout : Prop :=
  ∀ (b : Block), b.sregs.length = 64 → b.phaseno.toNat + 1 < 2 ^ 32 → b.waits.length ≤ 2 →
    let at_ := fun (o n : Nat) => ofBytesLE (((phaseRecord b).drop o).take n)
    (phaseRecord b).length = (320 + 4 * b.ntid.toNat * b.carry + 63) / 64 * 64 ∧
    at_ 0 4 = b.phaseno.toNat + 1 ∧ at_ 4 4 = b.bstat.toNat ∧ at_ 8 4 = b.trapv.toNat ∧ at_ 12 4 = b.waits.length ∧
    (∀ i w, b.waits[i]? = some w → at_ (24 + 16 * i) 8 = w.2 % 2 ^ 64 ∧
      (∀ j, w.1 = .barrier j → at_ (16 + 16 * i) 8 = j % 2 ^ 64) ∧
      ∀ va, w.1 = .mem va → va < 2 ^ 55 → at_ (16 + 16 * i) 8 = 2 ^ 63 + va) ∧
    (∀ i < 64, at_ (64 + 4 * i) 4 = (b.sregs.getD i 0).toNat) ∧
    ∀ t x i, t < b.ntid.toNat → b.thread? t = some x → i < b.carry →
      at_ (320 + 4 * (t * b.carry + i)) 4 = (x.regs.getD i 0).toNat

/-- R348 to R351: phases and `YIELD`. Where the manual leaves a point open, the model's readings and choices of log
entries 36 and 70 stand. -/
def Obligations.Phases : Prop :=
  Rules.PhaseAndYieldPark ∧ Rules.PhasesGoOn ∧ Rules.PhaseRecordLayout

/-! ## The I/O die: rings, commands, frame operations, shootdowns -/

/-- R363, R364, R365, R392, R395, R443: what the owner's writes of the ring registers do; another master's do nothing. A
free-frame ring is told again, and one whose EN the write clears gives up its die's reserve, each frame named in an
event. `FRING` takes its fields and the header is read again. `IOCMD` takes its fields; where its ring was bad it
acts like a doorbell, and the port of a ring that a doorbell has started, at the same place, goes on. A doorbell reads the ring: its record is taken in flight; a bad header and a record that cannot
be freed place a ring event. Where the manual leaves a point open, the model's readings and choices of log entries
13, 37 and 42 stand. -/
def Obligations.RingRegisters : Prop :=
  ∀ (s : State) (m v : Nat),
    (s.owner.owner ≠ some m → (∀ d, exec (.ffringWrite m d v) s = .next s) ∧ exec (.fringWrite m v) s = .next s ∧
      exec (.iocmdWrite m v) s = .next s ∧ exec (.iotailDoorbell m v) s = .next s) ∧
    (s.owner.owner = some m →
      (∀ d < 4, s.priv.ffring.length = 4 → ∃ x, exec (.ffringWrite m d v) s = .next x ∧
        x = { s with priv := { s.priv with ffring := x.priv.ffring }, badRings := x.badRings, reserve := x.reserve,
                     ioq := x.ioq, nextFid := x.nextFid } ∧
        x.priv.ffring.getD d 0 &&& 0x3FFFFFFFFC1 = BitVec.ofNat 64 v &&& 0x3FFFFFFFFC1 ∧
        (∀ i, i ≠ d → x.priv.ffring.getD i 0 = s.priv.ffring.getD i 0) ∧
        (∀ r, r ∈ x.badRings ↔ r ∈ s.badRings ∧ r ≠ (8192 + d, 0)) ∧
        (v % 2 = 1 → x.reserve = s.reserve ∧ x.ioq = s.ioq) ∧
        (v % 2 = 0 → x.reserve = s.reserve.filter (fun r => r.1 != d) ∧
          x.ioq.map (fun e => (e.1.kind, e.1.aux)) = s.ioq.map (fun e => (e.1.kind, e.1.aux)) ++
            (s.reserve.filter fun r => r.1 == d).map fun r => (5, r.2 * 65536))) ∧
      (∃ x, exec (.fringWrite m v) s = .next x ∧
        let at_ := hostKey (v / 64 % 2 ^ 58 * 64)
        let u := if v % 2 = 1 then s.ioReaches at_ 64 false else s
        x = { u with priv := { s.priv with fring := x.priv.fring, fringctl := x.priv.fringctl } } ∧
        x.priv.fring &&& 0xFFFFFFFFFFFFFFC1 = BitVec.ofNat 64 v &&& 0xFFFFFFFFFFFFFFC1 ∧
        x.priv.fringctl &&& 0xFFFFFFFF7FFFFFFF = s.priv.fringctl &&& 0xFFFFFFFF7FFFFFFF ∧
        x.priv.fringctl.getLsbD 31 = (decide (v % 2 = 1) && (u.ringHdr at_).isNone)) ∧
      (∃ r : Word64, r &&& 0x3FFFFFFFFC1 = BitVec.ofNat 64 v &&& 0x3FFFFFFFFC1 ∧
        let u := { s with
          priv := { s.priv with iocmd := r }
          iotold := s.iotold && decide (r.extractLsb' 6 36 = s.priv.iocmd.extractLsb' 6 36) }
        ((8200, 0) ∉ s.badRings → exec (.iocmdWrite m v) s = .next (u.ioFetch 16)) ∧
        ((8200, 0) ∉ s.badRings → u.iotold = false → exec (.iocmdWrite m v) s = .next u) ∧
        ((8200, 0) ∈ s.badRings → exec (.iocmdWrite m v) s = exec (.iotailDoorbell m s.priv.iotail.toNat) u)) ∧
      let h := (s.priv.iocmd.extractLsb' 6 36).toNat * 64
      let e := Instr.iotailDoorbell m v
      (s.priv.iocmd.getLsbD 0 = false → ∃ x, exec e s = .next x ∧ x.iocmds = s.iocmds ∧ x.mem = s.mem ∧ x.ioq = s.ioq ∧
        x.priv = { s.priv with iotail := BitVec.ofNat 64 v }) ∧
      (s.priv.iocmd.getLsbD 0 = true → s.iocmds = [] → s.boot.mediaReady = true → hbmPopulated h 64 = true →
        let bad := fun (cause aux : Nat) => ∃ x, exec e s = .next x ∧ x.mem = s.mem ∧ x.iocmds = [] ∧
          (8200, 0) ∈ x.badRings ∧ x.priv = { s.priv with iotail := BitVec.ofNat 64 v } ∧
          x.ioq = s.ioq ++ [({ fid := s.newFid, kind := 7, cause := cause, va := h, aux := aux, time := s.ns }, true)]
        (s.ringHdr h = none → bad 0 0) ∧
        ∀ g, s.ringHdr h = some g → g.prod = g.cons + 64 →
          let k := g.base + g.cons % g.size
          let w := s.rdN k 8
          let len := w % 2 ^ 32
          hbmPopulated k 64 = true →
          (w.testBit 63 = false → ∃ x, exec e s = .next x ∧ x.iocmds = [] ∧ x.mem = s.mem ∧ x.ioq = s.ioq) ∧
          (w.testBit 63 = true → (len = 0 ∨ len % 8 ≠ 0 ∨ g.size < g.cons % g.size + len) → bad 2 g.cons) ∧
          (w.testBit 63 = true → len = 64 → g.cons % g.size + 64 ≤ g.size → ∃ x, exec e s = .next x ∧
            x = { s with priv := { s.priv with iotail := BitVec.ofNat 64 v }, badRings := x.badRings, iotold := true,
                         owned := x.owned, contended := x.contended, iocmds := x.iocmds } ∧
            x.iocmds = [{ hdr := h, off := g.cons, len := 64, key := k, raw := BitVec.ofNat 512 (s.rdN k 64),
                          unused := decide (w / 2 ^ 32 % 256 = 1) }])))

/-- R395, R396, R402: what the port does with the one command in flight. It checks first: a malformed record takes STATUS
2, an address outside populated memory STATUS 4, and no byte moves. COPY moves COUNT bytes, poison along, and waits where
it names a vault of a Heath die in reset (log entry 77); FLWR writes an
HBM frame to a flash page; FLRD reads a flash page into a frame, or poisons the frame where the page is uncorrectable. -/
def Sys2Proof.Rules.IoCommands : Prop :=
  (∀ a n : Nat, 0 < n → n ≤ 2 ^ 32 → (hbmRange a n = true ↔
    ∀ i < n, (a + i) / 2 ^ 38 < 4 ∧ (a + i) % 2 ^ 38 < if (a + i) / 2 ^ 38 < 2 then 2 ^ 37 else 2 ^ 38)) ∧
  ∀ (s : State) (c : IoCmd), s.memOk → s.copies = [] → s.ioFetch 16 = s → s.iocmds = [c] → c.unused = false → c.status = 0 →
    let f := fun (hi lo : Nat) => (c.raw.extractLsb' lo (hi + 1 - lo)).toNat
    let opc := f 71 64
    let count := f 127 96
    let src := f 191 128
    let dst := f 255 192
    let cnt := f 319 256
    let win := fun (a : Nat) => s.priv.peerwin.getD (a / 2 ^ 60 % 4) 0
    let ok : Nat → Nat → Bool := fun a n => match a / 2 ^ 62 with
      | 0 => hbmRange (a % 2 ^ 52) n
      | 1 => decide (a % 2 ^ 52 + n ≤ 2 ^ 32)
      | 2 => true
      | _ => decide ((win a).extractLsb' 56 8 ≠ 0 ∧ a % 2 ^ 52 + n ≤ 2 ^ ((win a).extractLsb' 56 8).toNat)
    let key := fun (a : Nat) => match a / 2 ^ 62 with
      | 0 => a % 2 ^ 52
      | 1 => vaultKey (a % 2 ^ 52)
      | 2 => hostKey (a % 2 ^ 52)
      | _ => peerKey (((win a).extractLsb' 16 36).toNat * 65536 + a % 2 ^ 52)
    let flash := fun (fl hbm : Nat) => fl / 2 ^ 62 ≠ 0 ∨ 2 ^ 28 ≤ fl % 2 ^ 52 ∨ hbm / 2 ^ 62 ≠ 0 ∨ hbm % 2 ^ 52 % 65536 ≠ 0 ∨
      count ≠ 65536
    let malformed := f 511 320 ≠ 0 ∨ f 95 80 ≠ 0 ∨ 2 < opc ∨ src / 2 ^ 52 % 256 ≠ 0 ∨ dst / 2 ^ 52 % 256 ≠ 0 ∨ cnt % 8 ≠ 0 ∨
      (opc = 0 ∧ (src % 2 ^ 52 % 16 ≠ 0 ∨ dst % 2 ^ 52 % 16 ≠ 0 ∨ count % 16 ≠ 0 ∨ count = 0)) ∨
      (opc = 1 ∧ flash dst src) ∨ (opc = 2 ∧ flash src dst)
    let outside := (cnt ≠ 0 ∧ hbmRange cnt 8 = false) ∨ (opc = 0 ∧ (ok src count = false ∨ ok dst count = false)) ∨
      (opc = 1 ∧ ok src 65536 = false) ∨ (opc = 2 ∧ ok dst 65536 = false)
    let status := fun (n : Nat) => [{ c with status := n }]
    let ends := fun (n : Nat) => (opc = 1 → exec .flwr s = .next { s with iocmds := status n }) ∧
      (opc = 2 → exec .flrd s = .next { s with iocmds := status n }) ∧
      (opc ≠ 1 → opc ≠ 2 → exec .ioCopy s = .next { s with iocmds := status n })
    (malformed → ends 2) ∧ (¬malformed → outside → ends 4) ∧
    (¬malformed → ¬outside →
      (opc = 0 → s.boot.released = false → (src / 2 ^ 62 = 1 ∨ dst / 2 ^ 62 = 1) → exec .ioCopy s = .next s) ∧
      (opc = 0 → (s.boot.released = true ∨ (src / 2 ^ 62 ≠ 1 ∧ dst / 2 ^ 62 ≠ 1)) →
        ∃ x, exec .ioCopy s = .next x ∧ x.iocmds = status 1 ∧
        x = { s with mem := x.mem, below := x.below, poison := x.poison, blocks := x.blocks, owned := x.owned, contended := x.contended,
                     iocmds := x.iocmds } ∧
        (∀ i < count, x.rd (key dst + i) = s.rd (key src + i)) ∧ OnlyBytes s x [(key dst, count)] ∧
        ∀ j, 8 * j < count → x.poisoned (key dst + 8 * j) = s.poisoned (key src + 8 * j)) ∧
      (opc = 1 → ∃ x, exec .flwr s = .next x ∧ x.iocmds = status 1 ∧
        (∀ i < 65536, x.flashByte (dst % 2 ^ 52) i = s.rd (src % 2 ^ 52 + i)) ∧
        (∀ p i, p ≠ dst % 2 ^ 52 → i < 65536 → x.flashByte p i = s.flashByte p i) ∧
        OnlyBytes s x [(flashKey (dst % 2 ^ 52) 0, 65536)]) ∧
      (opc = 2 → s.flashBad (src % 2 ^ 52) = false → ∃ x, exec .flrd s = .next x ∧ x.iocmds = status 1 ∧
        (∀ i < 65536, x.rd (dst % 2 ^ 52 + i) = s.flashByte (src % 2 ^ 52) i) ∧ OnlyBytes s x [(dst % 2 ^ 52, 65536)]) ∧
      (opc = 2 → s.flashBad (src % 2 ^ 52) = true → ∃ x, exec .flrd s = .next x ∧ x.iocmds = status 3 ∧ x.mem = s.mem ∧
        (∀ i < 65536, x.poisoned (dst % 2 ^ 52 + i) = true) ∧
        x.ioq = s.ioq ++ [({ fid := s.newFid, kind := 4, aux := dst % 2 ^ 52, time := s.ns }, true)]))

/-- R396, R443: the oldest command in flight completes in ring order, once it has executed: its STATUS is written, on
STATUS 1 COUNT is added to its counter, and its record is freed; an unused record is only freed. -/
def Sys2Proof.Rules.IoCommandsComplete : Prop :=
  ∀ (s : State) (c : IoCmd) (rest : List IoCmd), s.memOk → s.iocmds = c :: rest → c.off + c.len < 2 ^ 64 →
    (c.key + 64 ≤ c.hdr ∨ c.hdr + 64 ≤ c.key) →
    let count := (c.raw.extractLsb' 96 32).toNat
    let cnt := (c.raw.extractLsb' 256 64).toNat
    (cnt + 8 ≤ c.key ∨ c.key + 64 ≤ cnt) → (cnt + 8 ≤ c.hdr ∨ c.hdr + 64 ≤ cnt) →
    let e := Instr.ioCommandComplete
    let freed := fun (x : State) => x.rdN c.key 8 = 0 ∧ x.rdN (c.hdr + 24) 8 = c.off + c.len ∧ x.hostOut = s.hostOut ∧
      ∃ l, x.iocmds = rest ++ l
    (c.unused = false → c.status = 0 → exec e s = .next s) ∧
    (c.unused = true → ∃ x, exec e s = .next x ∧ freed x ∧ OnlyBytes s x [(c.key, 8), (c.hdr + 24, 8)]) ∧
    (c.unused = false → c.status ≠ 0 → c.status < 256 → (c.status ≠ 1 ∨ cnt = 0) → ∃ x, exec e s = .next x ∧ freed x ∧
      (x.rd (c.key + 9)).toNat = c.status ∧ OnlyBytes s x [(c.key, 8), (c.key + 9, 1), (c.hdr + 24, 8)]) ∧
    (c.unused = false → c.status = 1 → cnt ≠ 0 → ∃ x, exec e s = .next x ∧ freed x ∧ x.rd (c.key + 9) = 1 ∧
      x.rdN cnt 8 = (s.rdN cnt 8 + count) % 2 ^ 64 ∧
      OnlyBytes s x [(c.key, 8), (c.key + 9, 1), (c.hdr + 24, 8), (cnt, 8)])

/-- R395, R396: the I/O command ring. Where the manual leaves a point open, the model's readings and choices of log
entries 13, 41 and 77 stand. -/
def Obligations.IoCommandsRun : Prop :=
  Rules.IoCommands ∧ Rules.IoCommandsComplete

/-- R69, R72, R73, R273, R274, R392: a `FRAMEOP` write of the owner, and what its operation does when it finishes. A
purge leaves no copy of a line of the frame, with dirty bytes home or discarded: a discard takes those of the home slices
along, so that HBM has again what it had below them. A back-invalidate snoops each sector of
the frame that the host may hold, merges the bytes that the host returns, and ends its tracking. Where the manual leaves a
point open, the model's readings and choices of log entries 37, 61 and 86 stand. -/
def Obligations.FrameOperations : Prop :=
  (∀ (s : State) (m v : Nat),
    let same := fun (t : State) => exec (.frameopPurgeWriteback m v) s = .next t ∧
      exec (.frameopPurgeDiscard m v) s = .next t ∧ exec (.frameopBackInvalidate m v) s = .next t
    let win := v / 2 ^ 58 % 4
    let op := v / 2 ^ 56 % 4
    let frame := v / 2 ^ 20 % 2 ^ 36
    let carve := (s.priv.stripesize.extractLsb' 16 22).toNat * 65536
    let die := frame * 65536 / 2 ^ 38
    let off := frame * 65536 % 2 ^ 38
    let base := ((s.priv.stripebase.getD die 0).extractLsb' 16 22).toNat * 65536
    let inside :=
      (win = 0 → die < 4 ∧ off + 65536 ≤ (if die < 2 then 2 ^ 37 else 2 ^ 38) ∧ (carve = 0 ∨ off + 65536 ≤ base ∨ base + carve ≤ off)) ∧
      (win = 1 → frame * 65536 + 65536 ≤ 4 * carve) ∧ (win = 2 → frame * 65536 + 65536 ≤ 2 ^ 32)
    (s.owner.owner ≠ some m ∨ s.priv.frameop.getLsbD 63 = true → same s) ∧
    (s.owner.owner = some m → s.priv.frameop.getLsbD 63 = false →
      (v % 2 = 0 → ∃ r : Word64, same { s with priv := { s.priv with frameop := r } } ∧
        r &&& 0x0FFFFFFFFFF00000 = BitVec.ofNat 64 v &&& 0x0FFFFFFFFFF00000 ∧ r.getLsbD 63 = false ∧
        r.getLsbD 62 = false) ∧
      (v % 2 = 1 → win = 3 ∨ op = 3 ∨ (op = 2 ∧ win = 2) ∨ ¬inside →
        same { s with priv := { s.priv with frameop := s.priv.frameop ||| 0x4000000000000000 } }) ∧
      (v % 2 = 1 → win ≠ 3 → op ≠ 3 → ¬(op = 2 ∧ win = 2) → inside → ∃ r : Word64,
        same { s with priv := { s.priv with frameop := r }, frameop := some (op, win, frame) } ∧
        r &&& 0x0FFFFFFFFFF00000 = BitVec.ofNat 64 v &&& 0x0FFFFFFFFFF00000 ∧ r.getLsbD 63 = true ∧ r.getLsbD 62 = false))) ∧
  ∀ (s : State) (op win frame : Nat),
    let inF := fun (line : Nat) => inSpans (s.frameSpans win frame) line = true
    let digit := fun (i : Nat) => (frame * 16 + i) % 4 ^^^ (frame * 16 + i) / 4 % 4 ^^^ (frame * 16 + i) / 16 % 4 ^^^
      (frame * 16 + i) / 64 % 4 ^^^ (frame * 16 + i) / 256 % 4
    let granule := fun (i : Nat) => digit i * 2 ^ 38 + s.carveBase (digit i) + (frame * 16 + i) / 4 * 4096
    (frame < 2 ^ 36 → ∀ line, (win = 0 → (inF line ↔ line / 512 = frame)) ∧
      (win = 2 → (inF line ↔ line / 512 = 2 ^ 24 + frame)) ∧
      (win = 1 → (inF line ↔ ∃ i < 16, granule i ≤ line * 128 ∧ line * 128 < granule i + 4096))) ∧
    (s.frameop = none → exec .frameopComplete s = .next s) ∧
    (s.frameop = some (op, win, frame) → s.memOk →
      let ended := fun (x : State) => x.frameop = none ∧ x.priv = { s.priv with frameop := s.priv.frameop &&& 0x7FFFFFFFFFFFFFFF } ∧
        x.tlb = s.tlb
      let left := fun (x : State) => ∀ c, c ∈ x.copies ↔ c ∈ s.copies ∧ ¬inF c.line
      (op = 0 → win < 3 → ∃ x, exec .frameopComplete s = .next x ∧ ended x ∧ left x ∧
        (∀ k, ¬inF (k / 128) → x.rd k = s.rd k) ∧
        (∀ k, (∀ c ∈ s.copies, c.line = k / 128 → maskBit c.dirty (k % 128) = false) → x.rd k = s.rd k) ∧
        ∀ k c, c ∈ s.copies → inF (k / 128) → c.line = k / 128 → (∀ d ∈ s.copies, d.line = k / 128 → d = c) →
          maskBit c.dirty (k % 128) = true → x.rd k = lineByte c.data (k % 128)) ∧
      (op = 1 → ∃ x, exec .frameopComplete s = .next x ∧ ended x ∧ left x ∧ x.poison = s.poison ∧
        (∀ k, (¬inF (k / 128) ∨ ∀ b ∈ s.below, b.1 ≠ k) → x.rd k = s.rd k) ∧
        ((s.below.map (·.1)).Nodup → ∀ b ∈ s.below, inF (b.1 / 128) → x.rd b.1 = b.2) ∧
        ∀ b ∈ x.below, b ∈ s.below ∧ ¬inF (b.1 / 128)) ∧
      (op = 2 → ∃ x, exec .frameopComplete s = .next x ∧ ended x ∧ x.copies = s.copies ∧
        (∀ q, q ∈ x.hostHeld ↔ q ∈ s.hostHeld ∧ ¬inF (q.1 / 2)) ∧
        ((s.hostHeld.map (·.1)).Nodup → x.hostOut = s.hostOut ++
          (s.hostHeld.filter fun q => inSpans (s.frameSpans win frame) (q.1 / 2)).map fun q => .snoop q.1) ∧
        (∀ k, (∀ q ∈ s.hostHeld, q.2 = true → inF (q.1 / 2) → k / 64 ≠ q.1) → x.rd k = s.rd k) ∧
        ∀ q, s.hostHeld = [(q, true)] → inF (q / 2) →
          ∀ i < 64, x.rd (q * 64 + i) = (Config.hostDirty s.free i).getD (s.rd (q * 64 + i))))

/-- R89, R373, R392: the owner's write of `SHOOTCTL` starts a shootdown. A die that acknowledges one keeps no covered
translation and, of the covered lines (every line, for a whole address space or all), no copy but where it is the home,
dirty bytes written home first. A frame that only an entry filled since the first acknowledgement names is covered too, on
the dies that have acknowledged before as well. Once four dies have, it completes: BUSY clears, or its thread goes on.
Where the manual leaves a point open, the model's readings and choices of log entries 37 and 55 stand. -/
def Obligations.Shootdowns : Prop :=
  (∀ (s : State) (m v : Nat),
    let same := fun (t : State) => exec (.shootRange m v) s = .next t ∧ exec (.shootAsid m v) s = .next t ∧
      exec (.shootAll m v) s = .next t
    let kind := v / 2 ^ 60 % 4
    let pages := v / 2 % 2 ^ 31
    (s.owner.owner ≠ some m ∨ s.priv.shootctl.getLsbD 63 = true → same s) ∧
    (s.owner.owner = some m → s.priv.shootctl.getLsbD 63 = false →
      let takes := fun (r : Word64) (err busy : Bool) =>
        r &&& 0x30001FFFFFFFFFFE = BitVec.ofNat 64 v &&& 0x30001FFFFFFFFFFE ∧ r.getLsbD 62 = err ∧ r.getLsbD 63 = busy
      (v % 2 = 0 → ∃ r, takes r false false ∧ same { s with priv := { s.priv with shootctl := r } }) ∧
      (v % 2 = 1 → kind = 3 → same { s with priv := { s.priv with shootctl := s.priv.shootctl ||| 0x4000000000000000 } }) ∧
      (v % 2 = 1 → kind = 0 → pages = 0 → ∃ r, takes r false false ∧ same { s with priv := { s.priv with shootctl := r } }) ∧
      (v % 2 = 1 → kind < 3 → (kind ≠ 0 ∨ pages ≠ 0) → ∃ r, takes r false true ∧
        same { s with
          priv := { s.priv with shootctl := r }
          nextShoot := s.nextShoot + 1
          shoots := s.shoots ++ [{ id := s.nextShoot, kind := kind, asid := v / 2 ^ 32 % 2 ^ 13,
                                   va := (s.priv.shootva.extractLsb' 16 39).toNat * 65536, pages := pages, acks := [],
                                   reg := true }] }))) ∧
  ∀ (s : State) (h : Shoot), s.shoots.find? (fun x => x.id == h.id) = some h →
    (∀ die < 4, die ∉ h.acks →
      let size := fun (t : TlbEntry) => match t.level with | 1 => 2 ^ 16 | 2 => 2 ^ 29 | _ => 2 ^ 42
      let global := fun (t : TlbEntry) => t.leaf.getLsbD 14 = true
      let covered := fun (t : TlbEntry) => match h.kind with
        | 0 => (t.asid = h.asid ∨ global t) ∧ t.base < h.va + h.pages * 65536 ∧ h.va < t.base + size t
        | 1 => t.asid = h.asid ∧ ¬global t
        | _ => True
      let first := h.spans.getD (if h.kind = 0 then s.shootSpans h else [])
      let late := s.lateSpans h die first
      let spans := first ++ late
      let hit := fun (line : Nat) => h.kind ≠ 0 ∨ inSpans spans line = true
      let of := fun (d : Nat) (c : Copy) => (∃ core, c.holder = .l1 core ∧ core / 128 = d) ∨
        (c.holder = .l2 d ∧ homeDie (c.line * 128) ≠ d)
      let mine := fun (c : Copy) => ∃ d, (d = die ∨ d ∈ h.acks) ∧ of d c
      let gives := fun (c : Copy) => (of die c ∧ hit c.line) ∨ ∃ d ∈ h.acks, of d c ∧ inSpans late c.line = true
      s.memOk → s.copiesOk → (∀ c ∈ s.copies, spaceOf (c.line * 128) = .hbm) →
      (∀ b ∈ s.blocks, ∀ t ∈ b.threads, t.maint = []) →
      ∃ x, exec (.shootdownAcknowledge die h.id) s = .next x ∧
        (∀ t, t ∈ x.tlb ↔ t ∈ s.tlb ∧ ¬(t.die = die ∧ covered t)) ∧
        (∀ c ∈ x.copies, ¬gives c) ∧ (∀ c ∈ s.copies, ¬hit c.line → c ∈ x.copies) ∧
        (∀ o ∈ x.owned, ¬(o.2 / 128 = die ∧ hit o.1)) ∧
        (∀ d ∈ h.acks, ∀ o ∈ x.owned, ¬(o.2 / 128 = d ∧ inSpans late o.1 = true)) ∧
        (∀ k, (∀ c ∈ s.copies, mine c → c.line = k / 128 → maskBit c.dirty (k % 128) = false) → x.rd k = s.rd k) ∧
        (∀ k c, c ∈ s.copies → gives c → c.line = k / 128 → (∀ d ∈ s.copies, d.line = k / 128 → d = c) →
          maskBit c.dirty (k % 128) = true → x.rd k = lineByte c.data (k % 128)) ∧
        ((s.shoots.map (·.id)).Nodup → { h with spans := some spans, acks := die :: h.acks } ∈ x.shoots)) ∧
    (h.acks.length < 4 → exec (.shootdownComplete h.id) s = .next s) ∧
    (4 ≤ h.acks.length → ∃ x, exec (.shootdownComplete h.id) s = .next x ∧
      x = { s with shoots := x.shoots, blocks := x.blocks, priv := { s.priv with shootctl := x.priv.shootctl } } ∧
      (∀ y ∈ x.shoots, y.id ≠ h.id) ∧
      (h.reg = true → x.priv.shootctl = s.priv.shootctl &&& 0x7FFFFFFFFFFFFFFF) ∧
      (h.reg = false → x.priv.shootctl = s.priv.shootctl) ∧
      ∀ b t, s.block? b.core b.slot = some b → b.thread? t.tid = some t →
        x.thread? b.core b.slot t.tid = some
          (if t.cond = .wings (.shootdown h.id) then
            { t with cond := if t.bound.isSome then .wings .cleared else .pool s.now false } else t))

/-! ## Ownership, the management plane, boot -/

/-- R389, R390, R391, R393: a claim by another master than the owner, one of the four that may be attached, is pending,
and on an unowned device opens the window; the claims stay in ascending order. A release by the owner, the loss of the owner and the close of the window pass the device
to the first pending claim, or leave it unowned; a host that becomes owner is sent the messages due. -/
def Obligations.OwnershipPasses : Prop :=
  ∀ (s : State) (m : Nat),
    let claims := s.owner.claims
    let passes := fun (e : Instr) =>
      (claims = [] → exec e s = .next { s with owner := { owner := none, claims := [], window := s.owner.window } }) ∧
      ∀ c r, claims = c :: r → exec e s = .next { s with
        owner := { owner := some c, claims := r, window := s.owner.window }
        hostOut := if c < 2 ^ 16 then s.hostOut ++ s.msixDue.map .msix else s.hostOut
        msixDue := if c < 2 ^ 16 then [] else s.msixDue }
    (s.owner.owner = some m → exec (.ownerClaim m) s = .next s ∧ passes (.ownerRelease m) ∧ passes .ownerLoss) ∧
    let attaches := m < 2 ^ 17 ∧ (m ∈ claims ∨ claims.length + s.owner.owner.isSome.toNat < 4)
    (s.owner.owner ≠ some m → exec (.ownerRelease m) s = .next s) ∧
    (s.owner.owner ≠ some m → ¬attaches → exec (.ownerClaim m) s = .next s) ∧
    (s.owner.owner ≠ some m → attaches → ∃ l, exec (.ownerClaim m) s = .next { s with
        owner := { owner := s.owner.owner, claims := l, window := s.owner.window || s.owner.owner.isNone } } ∧
      (∀ a, a ∈ l ↔ a = m ∨ a ∈ claims) ∧ (claims.Pairwise (· < ·) → l.Pairwise (· < ·))) ∧
    (s.owner.owner = none → exec .ownerLoss s = .next s) ∧
    (∃ l, (∀ a, a ∈ l ↔ a ∈ claims ∧ a ≠ m) ∧ (claims.Pairwise (· < ·) → l.Pairwise (· < ·)) ∧
      exec (.ownerWithdraw m) s = .next { s with owner := { s.owner with claims := l } } ∧
      exec (.pendingClaimLinkLoss m) s = .next { s with owner := { s.owner with claims := l } }) ∧
    (s.owner.window = false → exec .claimWindowClose s = .next s) ∧
    (s.owner.window = true →
      (claims = [] → exec .claimWindowClose s = .next { s with owner := { owner := none, claims := [], window := false } }) ∧
      ∀ c r, claims = c :: r → ∃ x, exec .claimWindowClose s = .next x ∧
        x.owner = { owner := some c, claims := r, window := false } ∧
        x = { s with owner := x.owner, hostOut := x.hostOut, msixDue := x.msixDue })

/-- R333, R386, R387, R388, R390, R392, R398, R399: what a write to the register windows does, BAR2's ring control pages
among them. An access that is not of 8 bytes, aligned, reads 0 and writes nothing, and so does every access while the I/O
die stands in reset; where a die stands failed, so does one to the
privileged page or a ring page (that the page then takes no write, and what a ring page does, is the model's choice, log
entry 78). Else, a write that is not to a
register, and a write by another master than the owner to the privileged page, `OWNER` apart, do nothing; a write to a
register with an action is that action; a write to a register of storage alone is read back, by every master, and no other
register reads otherwise. -/
def Obligations.RegisterWindows : Prop :=
  ∀ (s : State) (m v : Nat),
    let write := fun (off : Nat) => exec (.registerWrite m ⟨false, off, 8⟩ v) s
    (∀ bar2 off size, size ≠ 8 ∨ off % 8 ≠ 0 →
      exec (.registerWrite m ⟨bar2, off, size⟩ v) s = .next s ∧ s.readReg m bar2 off size = 0) ∧
    (s.boot.failed ≠ 0 → (∀ off < 0x10000, write off = .next s ∧ s.readReg m false off 8 = 0) ∧
      ∀ off, exec (.registerWrite m ⟨true, off, 8⟩ v) s = .next s ∧ s.readReg m true off 8 = 0) ∧
    (s.boot.stage < 2 → ∀ bar2 off, exec (.registerWrite m ⟨bar2, off, 8⟩ v) s = .next s ∧ s.readReg m bar2 off 8 = 0) ∧
    (s.boot.failed = 0 → 2 ≤ s.boot.stage →
    (∀ off, 0x20000 ≤ off → write off = .next s) ∧
    (∀ asid < 2 ^ 13, ∀ n < 4,
      exec (.registerWrite m ⟨true, asid * 4096 + 8 * n, 8⟩ v) s = exec (.lringWrite m asid n v) s ∧
      exec (.registerWrite m ⟨true, asid * 4096 + 0x40 + 8 * n, 8⟩ v) s = exec (.tailDoorbell m asid n v) s ∧
      s.readReg m true (asid * 4096 + 8 * n) 8 = (s.lring asid n).1.toNat ∧
      s.readReg m true (asid * 4096 + 0x40 + 8 * n) 8 = (s.lring asid n).2.toNat) ∧
    (∀ off, (0x20 ≤ off % 4096 ∧ off % 4096 < 0x40) ∨ 0x60 ≤ off % 4096 →
      exec (.registerWrite m ⟨true, off, 8⟩ v) s = .next s ∧ s.readReg m true off 8 = 0) ∧
    (s.owner.owner ≠ some m → ∀ off, off < 0x10000 → off ≠ 8 → write off = .next s) ∧
    (v % 8 = 1 → write 8 = exec (.ownerClaim m) s) ∧ (v % 8 = 2 → write 8 = exec (.ownerRelease m) s) ∧
    (v % 8 = 4 → write 8 = exec (.ownerWithdraw m) s) ∧
    write 0x10000 = exec (.pwrcapWrite m v) s ∧ write 0x10010 = exec (.thermClear m v) s ∧
    write 0x10100 = exec (.detmodeWrite m v) s ∧ write 0x10200 = exec (.flerase m v) s ∧
    (∀ off ∈ [0x10008, 0x10018, 0x10020, 0x10028, 0x10030, 0x10038, 0x10040, 0x10118, 0x10208], write off = .next s) ∧
    (s.owner.owner = some m →
      write 0x180 = exec (.frameopPurgeWriteback m v) s ∧ write 0x190 = exec (.shootAll m v) s ∧
      (∀ d < 4, write (0x200 + 8 * d) = exec (.ffringWrite m d v) s) ∧ write 0x220 = exec (.fringWrite m v) s ∧
      (v / 2 ^ 32 % 8 = 0 → write 0x230 = exec (.frespRetry m (v % 2 ^ 32)) s) ∧
      (v / 2 ^ 32 % 8 = 1 → write 0x230 = exec (.frespAbandon m (v % 2 ^ 32)) s) ∧
      (v / 2 ^ 32 % 8 = 2 → write 0x230 = exec (.frespKill m (v % 2 ^ 32)) s) ∧
      (v / 2 ^ 32 % 8 = 3 → write 0x230 = exec (.frespHalt m (v % 2 ^ 32)) s) ∧
      write 0x240 = exec (.preemptKillAsid m v) s ∧ write 0x250 = exec (.dbgstepPc m v) s ∧
      (∀ n < 4, write (0x300 + 8 * n) = exec (.lringWrite m 0 (4 + n) v) s ∧
        write (0x340 + 8 * n) = exec (.tailDoorbell m 0 (4 + n) v) s) ∧
      write 0x400 = exec (.iocmdWrite m v) s ∧ write 0x408 = exec (.iotailDoorbell m v) s ∧
      (∀ off ∈ [0, 0x10, 0x118, 0x198, 0x258, 0x320, 0x360, 0x410, 0xFFF8], write off = .next s)) ∧
    (s.priv.stripebase.length = 4 → s.priv.peerwin.length = 4 → s.priv.swbbase.length = 4 →
      ∀ off mask : Nat, (s.owner.owner = some m ∧ (off, mask) ∈ [(0x100, 0x00FFFFFFFFF00001), (0x108, 0x00FFFFFFFFF00000),
          (0x110, 0x3FFFFF0000), (0x120, 0x3FFFFF0000), (0x128, 0x3FFFFF0000), (0x130, 0x3FFFFF0000), (0x138, 0x3FFFFF0000),
          (0x140, 0xFF0FFFFFFFFF0000), (0x148, 0xFF0FFFFFFFFF0000), (0x150, 0xFF0FFFFFFFFF0000), (0x158, 0xFF0FFFFFFFFF0000),
          (0x160, 0x3FFFFF0000), (0x168, 0x3FFFFF0000), (0x170, 0x3FFFFF0000), (0x178, 0x3FFFFF0000),
          (0x188, 0x7FFFFFFFFF0000), (0x238, 0xFFFFFF01), (0x248, 0x00FFFFFFFFF01FFF)]) ∨
        (off, mask) ∈ [(0x10108, 0x3FFFFFF0000), (0x10110, 0xFFFFFFFFFF)] →
      ∃ x, write off = .next x ∧ x = { s with priv := x.priv, mgmt := x.mgmt } ∧ ∀ n,
        (x.readReg n false off 8) &&& mask = (v % 2 ^ 64) &&& mask ∧
        ∀ o, o ≠ off → x.readReg n false o 8 = s.readReg n false o 8) ∧
    (∀ o, s.owner.owner = some o → s.readReg m false 8 8 = 2 ^ 63 + o % 2 ^ 17 * 2 ^ 32 + if o = m then 8 else 0) ∧
    (s.owner.owner = none → s.readReg m false 8 8 = 0))

/-- R402, R404, R408, R409, R410: what writes of `FLERASE`, `DETMODE`, `PWRCAP` and `THERM` do, and what one evaluation of
the power controllers does to the clocks. A write of `THERM` that clears TRIP has the compute dies verified again, and
their links trained where all four pass. What an erased page reads is a free value (log entry 12). -/
def Sys2Proof.Rules.ManagementRegisters : Prop :=
  ∀ (s : State) (m v : Nat),
    (¬(s.owner.owner = some m ∧ v % 256 = 0x5A) → exec (.flerase m v) s = .next s) ∧
    (s.owner.owner = some m → v % 256 = 0x5A → exec (.flerase m v) s = .next { s with epoch := s.epoch + 1 } ∧
      ((∀ p ∈ s.flashEpochs, p.2 ≤ s.epoch) → ∀ page off,
        ({ s with epoch := s.epoch + 1 } : State).flashByte page off = Config.erased (page * 65536 + off) (s.epoch + 1))) ∧
    (let old := s.mgmt.detmode
     let w := BitVec.ofNat 64 v
     let freq := v / 2 ^ 16 % 2 ^ 12
     let changes := w &&& 0x0FFF0003 ≠ old &&& 0x0FFF0003
     let refused := changes ∧ ((∃ l ∈ s.launches, l.isLive = true) ∨ freq % 33 ≠ 0 ∨ freq < 1122 ∨ 3300 < freq)
     (refused → exec (.detmodeWrite m v) s =
        .next { s with mgmt := { s.mgmt with detmode := old ||| 0x4000000000000000 } }) ∧
     (¬refused → ∃ r : Word64, exec (.detmodeWrite m v) s = .next { s with
          mgmt := { s.mgmt with
            detmode := r
            pwrstat := if v % 2 = 1 then (s.mgmt.pwrstat &&& 0xFFFFFFFF00000000) ||| BitVec.ofNat 64 (freq / 33 * 0x01010101)
              else s.mgmt.pwrstat }
          clk := if v % 2 = 1 then List.replicate 4 (freq / 33) else s.clk
          replay := if v % 4 = 3 ∧ old &&& 3 ≠ 3 then { seq := 0, chain := 0, inputs := [] } else s.replay } ∧
        r &&& 0x0FFF0003 = w &&& 0x0FFF0003 ∧ (r.getLsbD 63 = decide (v % 2 = 1)) ∧ r.getLsbD 62 = false ∧
        (∀ i ∈ [60, 61], r.getLsbD i = (old.getLsbD i && !(w.getLsbD i))))) ∧
    (v % 2 ^ 16 < 1000 ∨ 4200 < v % 2 ^ 16 → exec (.pwrcapWrite m v) s =
      .next { s with mgmt := { s.mgmt with pwrcap := s.mgmt.pwrcap ||| 0x8000000000000000 } }) ∧
    (1000 ≤ v % 2 ^ 16 → v % 2 ^ 16 ≤ 4200 → exec (.pwrcapWrite m v) s =
      .next { s with mgmt := { s.mgmt with pwrcap := BitVec.ofNat 64 (v % 2 ^ 17) } }) ∧
    (¬(v.testBit 63 = true ∧ s.mgmt.therm.getLsbD 63 = true ∧ s.tripped = false) → exec (.thermClear m v) s = .next s) ∧
    (v.testBit 63 = true → s.mgmt.therm.getLsbD 63 = true → s.tripped = false → s.boot.images.length = 7 → ∃ f,
      exec (.thermClear m v) s = .next { s with
        mgmt := { s.mgmt with therm := s.mgmt.therm &&& 0x7FFFFFFFFFFFFFFF }
        boot := { s.boot with retrain := decide (f = 0), released := false
                              failed := if s.boot.failed = 0 then f else s.boot.failed } } ∧
      let passes := fun (i : Nat) => ∃ im, s.boot.images[i]? = some im ∧ im.signed = true ∧ s.fused.getD i 0 ≤ im.version
      (f = 0 ↔ ∀ i, 3 ≤ i → i < 7 → passes i) ∧
      ∀ i, 3 ≤ i → i < 7 → ¬passes i → (∀ j, 3 ≤ j → j < i → passes j) → f = i + 1) ∧
    (∀ power inlet tj : Nat, s.clk.length = 4 → (∀ c ∈ s.clk, c ≤ 100) → 1100 ≤ tj ∨ 550 < inlet →
      ∃ y, y = { s with mgmt := y.mgmt, clk := y.clk, tripped := y.tripped } ∧
        y.mgmt.pwrstat.extractLsb' 32 16 = BitVec.ofNat 16 (min inlet 65535) ∧
        y.mgmt.therm.extractLsb' 0 16 = BitVec.ofNat 16 (min tj 65535) ∧
        exec (.powerEvaluation power inlet tj) s = exec .thermalTrip y) ∧
    ∀ power inlet tj : Nat, s.clk.length = 4 → tj < 1100 → inlet ≤ 550 →
      let derated := 4200 - 150 * ((inlet - 400) / 10)
      let cap := if s.mgmt.pwrcap.getLsbD 16 then min (s.mgmt.pwrcap.extractLsb' 0 16).toNat derated else derated
      let clk := fun (d : Nat) => s.clk.getD d 0
      ∃ x, exec (.powerEvaluation power inlet tj) s = .next x ∧
        x = { s with mgmt := { s.mgmt with pwrstat := x.mgmt.pwrstat, therm := x.mgmt.therm, detmode := x.mgmt.detmode }
                     clk := x.clk, tripped := x.tripped } ∧
        x.mgmt.pwrstat.extractLsb' 48 16 = BitVec.ofNat 16 power ∧ x.mgmt.pwrstat.extractLsb' 32 16 = BitVec.ofNat 16 inlet ∧
        x.mgmt.pwrstat.extractLsb' 0 32 = BitVec.ofNat 32 (clkBits x.clk) ∧
        x.mgmt.therm.extractLsb' 0 16 = BitVec.ofNat 16 tj ∧ x.mgmt.therm.getLsbD 63 = s.mgmt.therm.getLsbD 63 ∧
        (x.tripped = true ↔ s.tripped = true ∧ ¬(tj < 950 ∧ inlet < 500)) ∧
        (s.mgmt.detmode.getLsbD 63 = true → x.clk = s.clk ∧ (410 ≤ inlet → x.mgmt.detmode.getLsbD 61 = true)) ∧
        (s.mgmt.detmode.getLsbD 63 = false → cap < power →
          (∀ d < 4, (∀ j < 4, clk j ≤ clk d) → (∀ j < d, clk j < clk d) → 34 < clk d →
            x.clk = s.clk.set d (clk d - 1) ∧ x.mgmt.therm.getLsbD 62 = s.mgmt.therm.getLsbD 62) ∧
          ((∀ d < 4, clk d ≤ 34) → x.clk = s.clk ∧ x.mgmt.therm.getLsbD 62 = true)) ∧
        (s.mgmt.detmode.getLsbD 63 = false → power ≤ cap → x.mgmt.therm.getLsbD 62 = false ∧
          (97 * cap < 100 * power → x.clk = s.clk) ∧
          (100 * power ≤ 97 * cap → (∀ d < 4, (∀ j < 4, clk d ≤ clk j) → (∀ j, d < j → j < 4 → clk d < clk j) → clk d < 100 →
              x.clk = s.clk.set d (clk d + 1)) ∧
            ((∀ d < 4, 100 ≤ clk d) → x.clk = s.clk)))

/-- R410: a junction at 110 degrees or an inlet above 55 trips: it kills every running launch, leaves no block on a core,
holds the compute dies in reset, sets TRIP, and in deterministic mode DIVERGED; memory stays where no cache held written bytes. -/
def Sys2Proof.Rules.ThermalTrip : Prop :=
  ∀ s : State,
    let inlet := (s.mgmt.pwrstat.extractLsb' 32 16).toNat
    let tj := (s.mgmt.therm.extractLsb' 0 16).toNat
    (tj < 1100 → inlet ≤ 550 → exec .thermalTrip s = .next s) ∧
    (1100 ≤ tj ∨ 550 < inlet → (s.launches.map (·.id)).Nodup → ∃ x, exec .thermalTrip s = .next x ∧
    x.blocks = [] ∧ x.warps = [] ∧ x.copies = [] ∧ x.boot = { s.boot with released := false, retrain := false } ∧ x.tripped = true ∧
    x.mgmt.therm = s.mgmt.therm ||| 0x8000000000000000 ∧ x.priv.astbase = s.priv.astbase ∧ x.owner = s.owner ∧
    (s.copies = [] → x.mem = s.mem) ∧ (s.mgmt.detmode.getLsbD 63 = true → x.mgmt.detmode.getLsbD 61 = true) ∧
    ∀ l ∈ s.launches, x.launch? l.id = some (if l.st = .running then { l with st := .killed } else l))

/-- R402, R404, R408 to R410: the management registers and the thermal trip. That a write of `DETMODE` and the first
evaluation set `PWRSTAT`.CLK is log entry 16; where the manual leaves other points open, the model's readings and choices
of log entries 12, 33, 44 and 45 stand. -/
def Obligations.ManagementPlane : Prop :=
  Rules.ManagementRegisters ∧ Rules.ThermalTrip

/-- R272, R385, R405: a host access is performed at its home where a committed decoder and populated memory back it; a read
outside answers poisoned data and a write is dropped, each counted. Each sector of HBM that it touches is tracked, shared or modified. A write merges its masked bytes and
changes no other byte and no copy; while a launch runs it sets DIVERGED in deterministic mode. -/
def Sys2Proof.Rules.HostAccesses : Prop :=
  ∀ (s : State) (hpa : Nat),
    let claimed := (hpa < 2 ^ 40 ∧ 0 ∈ s.boot.hdm) ∨ (2 ^ 40 ≤ hpa ∧ hpa < 2 ^ 40 + 2 ^ 32 ∧ 1 ∈ s.boot.hdm)
    let backed := fun (n : Nat) => 2 ^ 40 ≤ hpa ∨ hpa % 2 ^ 38 + n ≤ if hpa / 2 ^ 38 < 2 then 2 ^ 37 else 2 ^ 38
    let counted := { s with mgmt := { s.mgmt with
      hostoor := if s.mgmt.hostoor.toNat < 2 ^ 32 - 1 then s.mgmt.hostoor + 1 else s.mgmt.hostoor } }
    let reaches := hpa < 2 ^ 40 ∨ s.boot.released = true
    let tracks := fun (x : State) (modified : Bool) (touched : Nat → Prop) =>
      (∀ q, (∃ m, (q, m) ∈ x.hostHeld) ↔ (∃ m, (q, m) ∈ s.hostHeld) ∨ (hpa < 2 ^ 40 ∧ touched q)) ∧
      ∀ q m, (q, m) ∈ x.hostHeld → hpa < 2 ^ 40 → touched q → (m = true ↔ modified = true ∨ (q, true) ∈ s.hostHeld)
    (∀ n own, (¬claimed → exec (.hostMemRead hpa ⟨n, own⟩) s = .next s) ∧
      (claimed → ¬backed n →
        exec (.hostMemRead hpa ⟨n, own⟩) s = .next { counted with hostOut := s.hostOut ++ [.poisoned] }) ∧
      (claimed → backed n → ¬reaches → exec (.hostMemRead hpa ⟨n, own⟩) s = .next { s with hostOut := s.hostOut ++ [.poisoned] }) ∧
      (claimed → backed n → reaches → ∃ x, exec (.hostMemRead hpa ⟨n, own⟩) s = .next x ∧
        x = { s with owned := x.owned, contended := x.contended, hostOut := x.hostOut, hostHeld := x.hostHeld } ∧
        ((∃ i < n, s.poisoned (hpa + i) = true) → x.hostOut = s.hostOut ++ [.poisoned]) ∧
        ((∀ i < n, s.poisoned (hpa + i) = false) →
          x.hostOut = s.hostOut ++ [.bytes ((List.range n).map fun i => s.rd (hpa + i))]) ∧
        tracks x own fun q => ∃ i < n, q = (hpa + i) / 64)) ∧
    ∀ mask (data : List Byte), (¬claimed → exec (.hostMemWrite hpa mask data) s = .next s) ∧
      (claimed → ¬backed data.length → exec (.hostMemWrite hpa mask data) s = .next counted) ∧
      (claimed → backed data.length → ¬reaches → exec (.hostMemWrite hpa mask data) s = .next s) ∧
      (claimed → backed data.length → reaches → s.memOk → ∃ x, exec (.hostMemWrite hpa mask data) s = .next x ∧
        (∀ i < data.length, x.rd (hpa + i) = if mask.testBit i then data.getD i 0 else s.rd (hpa + i)) ∧
        OnlyBytes s x [(hpa, data.length)] ∧ x.copies = s.copies ∧ x.hostOut = s.hostOut ∧
        (tracks x true fun q => ∃ i < data.length, mask.testBit i = true ∧ q = (hpa + i) / 64) ∧
        ((∃ l ∈ s.launches, l.st = .running) → s.mgmt.detmode.getLsbD 63 = true → x.mgmt.detmode.getLsbD 61 = true))

/-- R105, R408: a corrected soft error changes no value and is counted; an uncorrectable one poisons its word and places an
event that names it; in the register file it poisons a word of a thread's registers, in an instruction cache the block is
fetched again. The counters saturate. -/
def Sys2Proof.Rules.SoftErrors : Prop :=
  ∀ (s : State) (key : Nat), key < 2 ^ 40 → s.mgmt.seccnt.length = 4 →
    let die := key / 2 ^ 38
    let r := (s.mgmt.seccnt.getD die 0).toNat
    (∃ x, exec (.softError (.home key) false) s = .next x ∧ x = { s with mgmt := { s.mgmt with seccnt := x.mgmt.seccnt } } ∧
      (∀ d, d ≠ die → x.mgmt.seccnt.getD d 0 = s.mgmt.seccnt.getD d 0) ∧
      (x.mgmt.seccnt.getD die 0).toNat = min (r / 2 ^ 32 + 1) (2 ^ 32 - 1) * 2 ^ 32 + r % 2 ^ 32) ∧
    (∀ core slot pair t, s.thread? core slot t.tid = some t → ∃ x t2,
      exec (.softError (.register core slot t.tid pair) true) s = .next x ∧ x.mem = s.mem ∧
      x.thread? core slot t.tid = some t2 ∧ t2 = { t with badRegs := t2.badRegs } ∧
      ∀ p, p ∈ t2.badRegs ↔ p = pair ∨ p ∈ t.badRegs) ∧
    (∀ core va, ∃ x, exec (.softError (.icache core va) true) s = .next x ∧ x.mem = s.mem ∧ x.blocks = s.blocks ∧
      ∀ y, y ∈ x.icache ↔ y ∈ s.icache ∧ ¬(y.core = core ∧ y.va ≤ va ∧ va < y.va + 64)) ∧
    ∃ x, exec (.softError (.home key) true) s = .next x ∧ x.mem = s.mem ∧ x.blocks = s.blocks ∧ x.launches = s.launches ∧
      (∀ k, x.poisoned k = true ↔ s.poisoned k = true ∨ k / 8 = key / 8) ∧
      x.ioq = s.ioq ++ [({ fid := s.newFid, kind := 4, aux := key / 8 * 8, time := s.ns }, true)] ∧
      (s.mgmt.detmode.getLsbD 63 = true → x.mgmt.detmode.getLsbD 61 = true) ∧
      (x.mgmt.seccnt.getD die 0).toNat = r / 2 ^ 32 * 2 ^ 32 + min (r % 2 ^ 32 + 1) (2 ^ 32 - 1)

/-- R105, R270 to R272, R385: host accesses and soft errors. Where the manual leaves a point open, the model's readings
and choices of log entries 13, 35, 43, 61, 76 and 77 stand. -/
def Obligations.HostAccessesAndSoftErrors : Prop :=
  Rules.HostAccesses ∧ Rules.SoftErrors

/-- R384, R385, R398, R399: a device reset puts every register and unit at its reset value and keeps flash, host and peer
memory; each image is verified, signature and security version, and the first that fails holds its dies; boot then passes
the links' training, which releases the cores or reports the link that failed (not while TRIP is set), and completes.
Configuration requests are "not ready" until then, but answered by an I/O die that was released where a compute die's image
failed; the host commits decoders; the host link's training changes its width alone. That HBM reads 0 after a
reset is the model's choice (log entry 1). -/
def Sys2Proof.Rules.BootProceeds : Prop :=
  ∀ (s : State) (n : Nat),
    (∀ images : List Image, let passes := fun (i : Nat) => ∃ im, images[i]? = some im ∧ im.signed = true ∧ s.fused.getD i 0 ≤ im.version
      ∃ x, exec (.deviceReset images) s = .next x ∧ x.priv = State.reset.priv ∧ x.mgmt = State.reset.mgmt ∧
      x.owner = State.reset.owner ∧ x.lrings = [] ∧ x.blocks = [] ∧ x.warps = [] ∧ x.launches = [] ∧ x.tlb = [] ∧
      x.copies = [] ∧ x.pending = [] ∧ x.saved = [] ∧ x.hostHeld = [] ∧ x.epoch = s.epoch ∧ x.fused = s.fused ∧
      x.clk = [100, 100, 100, 100] ∧ x.boot.boots = s.boot.boots + 1 ∧
      (∀ k, x.rd k = if 2 ^ 50 ≤ k then s.rd k else 0) ∧ x.boot.released = false ∧ x.boot.mediaReady = false ∧
      x.boot.images = images.take 7 ∧ ((∀ i < 7, passes i) → x.boot.failed = 0 ∧ x.boot.stage = 3) ∧
      ∀ i < 7, (∀ j < i, passes j) → ¬passes i → x.boot.failed = i + 1 ∧ x.boot.stage = if i < 3 then 0 else 2) ∧
    ((s.boot.stage ≠ 3 ∧ s.boot.retrain = false) ∨ s.mgmt.therm.getLsbD 63 = true →
      exec (.linkTrainingReport n) s = .next s) ∧
    (s.boot.stage = 3 ∨ s.boot.retrain = true → s.mgmt.therm.getLsbD 63 = false → exec (.linkTrainingReport n) s = .next { s with
      boot := { s.boot with
        stage := if s.boot.stage = 3 then 5 else s.boot.stage
        retrain := false
        released := decide (n = 0)
        badLink := n }
      hostOut := if n = 0 then s.hostOut else s.hostOut ++ [.linkFailed n] }) ∧
    (s.boot.stage ≠ 5 → exec .bootComplete s = .next s) ∧
    (s.boot.stage = 5 → ∃ x, exec .bootComplete s = .next x ∧ x.boot = { s.boot with stage := 7, mediaReady := true } ∧
      x = { s with boot := x.boot, iocmds := x.iocmds, badRings := x.badRings, ioq := x.ioq, nextFid := x.nextFid,
                   owned := x.owned, contended := x.contended }) ∧
    exec (.hostLinkTraining n) s = .next { s with boot := { s.boot with width := n } } ∧
    (∀ kind ∈ [ConfigKind.read, .commitHdm, .cdat],
      (s.boot.stage < 2 → exec (.configurationRequest kind n) s = .next s) ∧
      (2 ≤ s.boot.stage → s.boot.stage < 7 → s.boot.failed = 0 → exec (.configurationRequest kind n) s =
        .next { s with hostOut := s.hostOut ++ [.notReady] }) ∧
      (2 ≤ s.boot.stage → s.boot.stage < 7 → s.boot.failed ≠ 0 → kind = .commitHdm →
        exec (.configurationRequest kind n) s = .next s) ∧
      (7 ≤ s.boot.stage ∨ (2 ≤ s.boot.stage ∧ s.boot.failed ≠ 0) → kind ≠ .commitHdm → exec (.configurationRequest kind n) s = .next { s with
        hostOut := s.hostOut ++ [.word (BitVec.ofNat 64 (Config.freeWord s.free))], free := s.free + 1 })) ∧
    (7 ≤ s.boot.stage → ∃ l, exec (.configurationRequest .commitHdm n) s =
      .next { s with boot := { s.boot with hdm := l } } ∧ ∀ d, d ∈ l ↔ d ∈ s.boot.hdm ∨ (d = n ∧ n < 2))

/-- R399, R400, R401, R407: an SPDM responder that is up, over MCTP once the trust die has booted, in the DOE mailbox once
CXL.io answers, gives slots 1 to 7 as measured and slot 8 the head of the log's chain while a capture runs, else zero,
signed with the nonce; it gives two certificates, its versions, up to four sessions across the transports, and ends them. One
that is not up answers nothing, or "not ready" in a mailbox. -/
def Sys2Proof.Rules.SpdmAnswers : Prop :=
  ∀ (s : State) (doe : Bool) (n : Nat),
    let slot8 : BitVec 384 := if s.mgmt.detmode.getLsbD 63 = true ∧ s.mgmt.detmode.getLsbD 1 = true then s.replay.chain else 0
    let slots := s.boot.images.map (·.digest) ++ [slot8]
    let sig := Config.signature (Config.digest (bytesLE 32 n ++ slots.flatMap fun m => bytesLE 48 m.toNat))
    let said := fun (o : Out) => { s with hostOut := s.hostOut ++ [o] }
    let answers := fun (e : Instr) (o : Out) => exec e s = .next (said o)
    let up := if doe then (7 ≤ s.boot.stage ∨ (2 ≤ s.boot.stage ∧ s.boot.failed ≠ 0)) else s.boot.images ≠ [] ∧ s.boot.failed ≠ 1
    let silent := if doe ∧ 2 ≤ s.boot.stage then said .notReady else s
    let msg := fun (m : SpdmMsg) => Instr.configurationRequest (.spdm doe m) n
    (¬up → exec (.getMeasurements ⟨doe, n⟩) s = .next silent ∧ exec (.getCertificate ⟨doe, n⟩) s = .next silent ∧
      exec (.challenge ⟨doe, n⟩) s = .next silent ∧ exec (.keyExchange ⟨doe, n⟩) s = .next silent ∧
      ∀ m, exec (msg m) s = .next silent) ∧
    (up → answers (.getMeasurements ⟨doe, n⟩) (.meas slots sig) ∧ answers (.challenge ⟨doe, n⟩) (.chal sig) ∧
      (n < 2 → answers (.getCertificate ⟨doe, n⟩) (.cert (s.certificate n))) ∧
      (2 ≤ n → answers (.getCertificate ⟨doe, n⟩) .spdmError) ∧
      ((∀ i < 4, ∃ k, (i, k) ∈ s.boot.sessions) → answers (.keyExchange ⟨doe, n⟩) .busy) ∧
      ((∃ i < 4, ∀ k, (i, k) ∉ s.boot.sessions) → ∃ i k, i < 4 ∧ (∀ k2, (i, k2) ∉ s.boot.sessions) ∧
        exec (.keyExchange ⟨doe, n⟩) s = .next { s with
          hostOut := s.hostOut ++ [.sess i k], free := s.free + 1, boot := { s.boot with sessions := s.boot.sessions ++ [(i, k)] } }) ∧
      answers (msg .version) (.versions [0x12, 0x13]) ∧ answers (msg .unsupported) .spdmError ∧
      ((∃ k, (n, k) ∈ s.boot.sessions) → ∃ l, exec (msg .endSession) s = .next { s with
        hostOut := s.hostOut ++ [.ended n], boot := { s.boot with sessions := l } } ∧
        ∀ x, x ∈ l ↔ x ∈ s.boot.sessions ∧ x.1 ≠ n) ∧
      ((∀ k, (n, k) ∉ s.boot.sessions) → answers (msg .endSession) .spdmError))

/-- R384, R398 to R401: boot and SPDM. Where the manual leaves a point open, the model's readings and choices of log entries 1, 11, 17, 43, 46, 47, 48 and 78 stand. -/
def Obligations.BootAndAttestation : Prop :=
  Rules.BootProceeds ∧ Rules.SpdmAnswers

/-! ## The machine as a whole -/

/-- R37, R44, R58: a step runs the decoded instruction. With the issue of a warp next on the agenda and its fetch block at
hand, where its word decodes, no switch marker keeps the warp waiting or dissolves it, and every member may execute it, the
step runs `exec` of it for
the members of the warp, and then examines the block's meetings and phase boundary. A step of an agent is `exec` of it.
After each, what the caches hold beyond their capacity leaves. A warp whose turn it is not on its pipe waits, and so does a
full warp at an `MMA` or `MMAH` while the engine's queue is full. -/
def Sys2Proof.Rules.StepRunsTheInstruction : Prop :=
  (∀ (s : State) (i : Instr) (r : List Act), s.agenda = .ev i :: r →
    let u := { s.tick with agenda := r }
    (i.isWord = false → step s = match exec i u with | .next x => .next x.trim | o => o) ∧
    (i.isWord = true → step s = .next u.trim)) ∧
  (∀ (s : State) (core slot id : Nat) (r : List Act), s.agenda = .issue core slot id :: r →
    let u := { s.tick with agenda := r }
    u.warpTurn core slot id = false → step s = .next u.trim) ∧
  ∀ (s f : State) (w : Warp) (b : Block) (pc : Word) (w0 w1 : Nat) (last : Bool) (i : Instr) (n : Nat),
    Issues s f w b pc w0 w1 last → decode last w0 w1 = .ok (i, n) → barrierBeyond b i = false →
    (∀ m ∈ w.byTid, ∃ t, b.thread? m.2 = some t ∧ t.holds i b.nregs = true) →
    (opcodeOf w0 w1 ∈ [0x51, 0x58, 0x59, 0x5A, 0x74, 0x75, 0x76, 0x77] → w.byTid.length = 32) →
    (w.marked w0 w1 last = true → (w.fresh = true ∨ w.byTid.length = 32) ∧
      ∀ m ∈ w.byTid, (f.settled w).obWaits w.core w.slot m.2 = false) →
    let v := issuesFrom f w w0 w1 last
    let waits := opcodeOf w0 w1 = 0x75 ∧ 4 ≤ (v.muls.filter fun m => m.core == b.core && !m.started).length
    (¬waits → ∀ x, exec i { v with cur := some (curOf w pc n w.byTid) } = .next x →
      step s = .next ((({ x with cur := none } : State).meet w.core w.slot).phaseCheck w.core w.slot).trim) ∧
    (waits → step s = .next (if w.marked w0 w1 last then f.settled w else f).trim)

/-- R43, R44, R322: what the switch marker does, the word's own or the one that a starving core adds. First what its threads
are owed lands. A warp of 32, and one whose first instruction it is, goes on with it; any other dissolves: its threads
enter the pool, with the marked instruction still before them. -/
def Sys2Proof.Rules.SwitchMarkers : Prop :=
  ∀ (s f : State) (w : Warp) (b : Block) (pc : Word) (w0 w1 : Nat) (last : Bool),
    Issues s f w b pc w0 w1 last → w.marked w0 w1 last = true →
    let g := f.settled w
    (w.fresh = false → w.byTid.length < 32 → ∃ x : State, step s = .next x.trim ∧
      x = { g with blocks := x.blocks, warps := x.warps } ∧
      (∀ v ∈ x.warps, v.core = w.core → v.slot = w.slot → ∀ m ∈ w.byTid, some m.2 ∉ v.lanes) ∧
      ∀ m ∈ w.byTid, ∀ t, g.thread? w.core w.slot m.2 = some t →
        x.thread? w.core w.slot m.2 = some { t with cond := .pool f.now false }) ∧
    (w.fresh = true ∨ w.byTid.length = 32 → (∃ m ∈ w.byTid, g.obWaits w.core w.slot m.2 = true) → step s = .next g.trim)

/-- R46, R48, R58, R213: the traps of the decode checks at issue. A word that does not decode, and a barrier beyond the
kernel's, trap every thread of the warp. A register beyond a thread's allocation traps that thread, and the others execute;
a full warp at a collective then parks whole, as a bound group. A collective in a warp of fewer than 32 is illegal
convergence for every thread that passes the checks. -/
def Sys2Proof.Rules.DecodeTraps : Prop :=
  ∀ (s f : State) (w : Warp) (b0 b : Block) (pc : Word) (w0 w1 : Nat) (last : Bool),
    Issues s f w b0 pc w0 w1 last →
    (w.marked w0 w1 last = true → (w.fresh = true ∨ w.byTid.length = 32) ∧
      ∀ m ∈ w.byTid, (f.settled w).obWaits w.core w.slot m.2 = false) →
    let v := issuesFrom f w w0 w1 last
    v.block? w.core w.slot = some b →
    let op := opcodeOf w0 w1
    let ms := w.byTid
    let full := ms.length = 32
    let coll := op ∈ [0x51, 0x58, 0x59, 0x5A, 0x74, 0x75, 0x76, 0x77]
    let all := fun (tr : Trap) (l : List (Nat × Nat)) => l.map fun m => (m.1, m.2, tr)
    let taken := fun (bound : Prop) (l : List (Nat × Nat × Trap)) =>
      ∃ (x : State) (g : Bool), (g = true ↔ bound) ∧ step s = .next x.trim ∧ TrapsTaken v x w.core w.slot pc g l
    (∀ e, decode last w0 w1 = .error e → taken (full ∧ coll) (all { cls := 2, cause := e.subcode } ms)) ∧
    ∀ i n, decode last w0 w1 = .ok (i, n) →
      (barrierBeyond b i = true → taken False (all { cls := 2, cause := 4 } ms)) ∧
      (barrierBeyond b i = false → ∀ good bad : List (Nat × Nat),
        let holds := fun (m : Nat × Nat) => ∃ t, b.thread? m.2 = some t ∧ t.holds i b.nregs = true
        let passes := fun (m : Nat × Nat) => holds m ∧ ((∀ k ∈ ms, holds k) ∨
          ∃ t, b.thread? m.2 = some t ∧ badBase i { lane := m.1, t := t, b := b, cyc := 0 } = false)
        (∀ m, m ∈ good ↔ m ∈ ms ∧ passes m) → (∀ m, m ∈ bad ↔ m ∈ ms ∧ ¬passes m) → good.Sublist ms → bad.Sublist ms →
        let five : Trap := { cls := 2, cause := 5 }
        (coll → ¬full → taken False (all five bad ++ all { cls := 3 } good)) ∧
        (0x74 ≤ op → coll → full → bad ≠ [] → taken True (all five ms)) ∧
        (op < 0x74 → coll → full → bad ≠ [] → ∃ u x : State, TrapsTaken v u w.core w.slot pc true (all five bad) ∧
          step s = .next x.trim ∧
          ∀ k, k = b.nextBound → let e := good.foldl (fun s m => s.settle w.core w.slot m.2) u
            ∀ m ∈ good, ∀ t, e.thread? w.core w.slot m.2 = some t → x.thread? w.core w.slot m.2 = some
              (if ∃ c, u.block? w.core w.slot = some c ∧ ∃ y ∈ c.threads, y.bound = some k then
                { t with bound := some k, homeLane := m.1, cond := .wings .cleared }
              else { t with cond := .pool v.now false })) ∧
        (¬coll → bad ≠ [] → ∃ u : State, TrapsTaken v u w.core w.slot pc false (all five bad) ∧
          (good = [] → step s = .next u.trim) ∧
          (good ≠ [] → ∀ x, exec i { u with cur := some (curOf w pc n good) } = .next x →
            step s = .next ((({ x with cur := none } : State).meet w.core w.slot).phaseCheck w.core w.slot).trim)))

/-- R37, R40: a fetch block that the instruction cache holds comes from it; any other comes from memory, and then stands in
the instruction cache. -/
def Sys2Proof.Rules.FetchReadsMemory : Prop :=
  ∀ (s : State) (core va pc : Nat) (q : Asker),
    ∀ at_ : Nat → Nat, (∀ i < 64, ResidentAt s q .fetch (va + i) (at_ i)) →
      (∀ b, s.icache.find? (fun b => b.core == core && b.asid == q.asid && b.va == va) = some b →
        s.fetchBlock core q va pc = (s, .ok (b.words, none))) ∧
      (s.icache.find? (fun b => b.core == core && b.asid == q.asid && b.va == va) = none → s.copies = [] → s.poison = [] →
        ∃ f words, s.fetchBlock core q va pc = (f, .ok (words, none)) ∧
          f = { s with copies := f.copies, owned := f.owned, contended := f.contended
                       icache := { core := core, asid := q.asid, va := va, words := words } :: s.icache } ∧
          words.length = 16 ∧
          ∀ i < 16, words.getD i 0 = ofBytesLE ((List.range 4).map fun j => s.rd (at_ (4 * i + j))))

/-- R37, R40, R43, R44, R46, R48, R58, R213, R322: a step runs the instruction that the bytes at its warp's pc decode to,
once a switch marker has had its wait, unless a decode check traps it. Where the manual leaves a
point open, the model's readings and choices of log entries 2, 7, 13, 59, 79 and 88 stand. -/
def Obligations.StepRunsTheDecodedInstruction : Prop :=
  Rules.StepRunsTheInstruction ∧ Rules.SwitchMarkers ∧ Rules.DecodeTraps ∧ Rules.FetchReadsMemory

/-- Words written out from the encodings of R31 to R35 decode to the instructions they stand for, and nothing else does: a
reserved opcode and a reserved function field are refused. -/
def Obligations.WordsDecode : Prop :=
  decodeTableWord 32 0x2407FFFB = some (.movi none { d := 3, imm := 0x1FFFB }) ∧
  decodeTableWord 32 0x09000000 = some (.exit false 0) ∧
  decodeTableWord 32 0x01900000 = some (.bra { h := true, p := 1, n := false, off := 0 }) ∧
  decodeTableWord 32 0x1D07E038 = some (.and { d := 3, a := 120, b := 7 }) ∧
  decodeTableWord 32 0x91060C01 = some (.addi none { mark := true, d := 3, a := 3, imm := 1 }) ∧
  decodeTableWord 32 0x300C1820 = some (.fadd none { d := 6, a := 6, b := 4 }) ∧
  decodeTableWord 32 0x6E002872 = some (.barv none { d := 0, a := 10, b := 14 }) ∧
  decodeTableWord 32 0x580A1049 = some (.shfl .up { d := 5, a := 4, b := 9 }) ∧
  decodeTableWord 32 0x7E000005 = some (.trap { a := 0, imm := 5 }) ∧
  decodeTableWord 64 (0x60080830 * 2 ^ 32 + 0x7F000040) = some (.ld .w32 .normal (some 64) { d := 4, a := 2, k := 1 }) ∧
  decodeTableWord 64 (0x33100818 * 2 ^ 32 + 0x7F421000) = some (.ffma (some { rm := 2, cv := true, c := 4 }) { d := 8, a := 2, b := 3 }) ∧
  decodeTableWord 64 (0x6C03FC87 * 2 ^ 32 + 0x7F700000) = some (.cadd false (some 0x700000) { d := 1, a := 127, k := 4 }) ∧
  decodeTableWord 32 0x0C000000 = none ∧ decodeTableWord 32 0x100C1827 = none

/-- What State.reset holds where the manual gives a reset value: the registers of R365, R375, R388, R404 and R408, no
block, no warp, no owner, clocks of 3.3 GHz; what the registers read once the I/O die answers; and memory in canonical
form. Where the manual leaves a point open, the
model's readings and choices of log entries 1, 16 and 57 stand. -/
def Obligations.ResetState : Prop :=
  let s := State.reset
  s.memOk ∧ s.mem = [] ∧ s.priv.wdog = 0x0F424001 ∧ s.mgmt.pwrcap = 4200 ∧ s.mgmt.detmode = 3300 <<< 16 ∧
  s.owner.owner = none ∧ s.blocks = [] ∧ s.warps = [] ∧ s.launches = [] ∧ s.clk = [100, 100, 100, 100] ∧
  (let up := { s with boot := { s.boot with stage := 7 } }
   ∀ off ∈ [0x100, 0x108, 0x110, 0x120, 0x140, 0x160, 0x180, 0x188, 0x190, 0x200, 0x220, 0x228, 0x230, 0x240, 0x248, 0x250,
      0x300, 0x340, 0x400, 0x408, 0x10008, 0x10010, 0x10018, 0x10020, 0x10108, 0x10110], up.readReg 0 false off 8 = 0)

/-- Every well-formed instruction word decodes back to itself from its encoding: an instruction of one word whatever stands
in the word behind it and wherever in its fetch block it stands, one with a prefix where both words lie in one block. -/
def Obligations.EncodeThenDecode : Prop := ∀ i : Instr, i.isWord = true → i.wf = true → roundTrips i

/-- Every step keeps memory in its canonical form: the keys rise strictly and no entry is zero. -/
def Obligations.MemoryStaysCanonical : Prop := ∀ s t : State, s.memOk → step s = .next t → t.memOk

/-- R45, R202, R203, R205 to R212, R214 to R218: each of these register forms completes, whatever the operands hold, in
every state in which it executes, a quad instruction where the quads of its threads stand in the warp: every executing
thread goes on at the next instruction, its destination takes one word, two for a 64-bit result, its flags of `FPCTL`
can only rise, and nothing else changes. -/
def Obligations.RegisterFormsComplete : Prop :=
  ∀ (p : Option RPfx) (r : R3) (t : H16) (td ts : CvtTy) (q : QntTy) (dt : DqntTy) (pt : PackTy) (m : ShflMode)
    (v : VoteKind) (o : RedOp) (x : QswpKind) (n : Nat),
    let done := fun (i : Instr) (words : Nat) =>
      ∃ (vs : State → LaneCtx → List Word) (fl : State → LaneCtx → Word),
        (∀ s l, (vs s l).length = words ∧ fl s l &&& 0xFFFFFF0F = 0) ∧ Writes i r.d vs fl
    let doneQuad := fun (i : Instr) =>
      ∀ s c b, Runs s c b →
        (∀ l ∈ s.lanes, ∀ u ∈ b.threads, u.tid / 4 = l.t.tid / 4 → u.live = true →
          (4 * (l.t.tid / 4 % 8) + u.tid % 4, u.tid) ∈ c.act) →
        ∃ (vs : LaneCtx → List Word) (fl : LaneCtx → Word),
          (∀ l, (vs l).length = 1 ∧ fl l &&& 0xFFFFFF0F = 0) ∧ WritesIn s c b i r.d vs fl
    (done (.fadd p r) 1 ∧ done (.fsub p r) 1 ∧ done (.fmul p r) 1 ∧ done (.ffma p r) 1 ∧ done (.fmin r) 1 ∧
      done (.fmax r) 1 ∧ done (.frcp r) 1 ∧ done (.frsq r) 1 ∧ done (.fsqrt p r) 1 ∧ done (.fdiv p r) 1 ∧
      done (.fexp2 r) 1 ∧ done (.flog2 r) 1 ∧ done (.fsin r) 1 ∧ done (.fcos r) 1 ∧ done (.frnd p r) 1) ∧
    (done (.hadd2 t p r) 1 ∧ done (.hmul2 t p r) 1 ∧ done (.hfma2 t p r) 1 ∧
      done (.cvt td ts p r) (if td = .n64 ∨ td = .s64 then 2 else 1) ∧ done (.qnt q r) 1 ∧
      done (.dqnt dt p r) (if dt = .f32 then 2 else 1) ∧ done (.pack pt p r) 1 ∧ done (.unpk pt p r) 2) ∧
    done (.shfl m r) 1 ∧ done (.wred o p r) 1 ∧
    (if v = .ballot then done (.vote v r) 1
     else ∃ ans : State → LaneCtx → Bool, WritesPred (.vote v r) (r.d % 8) ans) ∧
    doneQuad (.qswp x r) ∧ (n < 4 → doneQuad (.qbcst n r)) ∧ doneQuad (.qred o p r)
end

