-- ==== Sys2Proof/Laws/Access.lean ====
section
/-!
SUPPORT. Access.lean: what an access does on its way to a home.
-/
namespace Sys2Proof.Machine

/-- A line that nobody owns is not recalled. -/
theorem recall_of_unowned {s : State} {line : Nat} (h : ∀ o ∈ s.owned, o.1 ≠ line) : s.recall line = s := by
  unfold State.recall
  rw [if_neg]
  simpa using fun c hc => h _ hc rfl

/-- An access of the chip's own memory in device bias, to a line that nobody owns, changes nothing on its way. -/
theorem atHome_plain {s : State} {p : Place} {m : BitVec 128} {w : Bool} (ho : ∀ o ∈ s.owned, o.1 ≠ p.key / 128)
    (hb : p.hb = false) (ht : p.tt ≠ 3) : s.atHome none p m w = s := by
  simp [State.atHome, recall_of_unowned ho, hb, ht]

end Sys2Proof.Machine
end

