-- ==== Sys2Proof/Laws/State.lean ====
section
/-!
SUPPORT. State.lean (Laws): what each plain update of the state leaves alone, one lemma for each field, and what it
changes.
-/
namespace Sys2Proof.Machine

/-! ## `modBlock` -/

@[simp] theorem State.modBlock_mem (s : State) (core slot : Nat) (f : Block → Block) : (s.modBlock core slot f).mem = s.mem := rfl
@[simp] theorem State.modBlock_below (s : State) (core slot : Nat) (f : Block → Block) : (s.modBlock core slot f).below = s.below := rfl
@[simp] theorem State.modBlock_emptyLines (s : State) (core slot : Nat) (f : Block → Block) : (s.modBlock core slot f).emptyLines = s.emptyLines := rfl
@[simp] theorem State.modBlock_poison (s : State) (core slot : Nat) (f : Block → Block) : (s.modBlock core slot f).poison = s.poison := rfl
@[simp] theorem State.modBlock_copies (s : State) (core slot : Nat) (f : Block → Block) : (s.modBlock core slot f).copies = s.copies := rfl
@[simp] theorem State.modBlock_owned (s : State) (core slot : Nat) (f : Block → Block) : (s.modBlock core slot f).owned = s.owned := rfl
@[simp] theorem State.modBlock_contended (s : State) (core slot : Nat) (f : Block → Block) : (s.modBlock core slot f).contended = s.contended := rfl
@[simp] theorem State.modBlock_hostHeld (s : State) (core slot : Nat) (f : Block → Block) : (s.modBlock core slot f).hostHeld = s.hostHeld := rfl
@[simp] theorem State.modBlock_tlb (s : State) (core slot : Nat) (f : Block → Block) : (s.modBlock core slot f).tlb = s.tlb := rfl
@[simp] theorem State.modBlock_icache (s : State) (core slot : Nat) (f : Block → Block) : (s.modBlock core slot f).icache = s.icache := rfl
@[simp] theorem State.modBlock_warps (s : State) (core slot : Nat) (f : Block → Block) : (s.modBlock core slot f).warps = s.warps := rfl
@[simp] theorem State.modBlock_nextWarp (s : State) (core slot : Nat) (f : Block → Block) : (s.modBlock core slot f).nextWarp = s.nextWarp := rfl
@[simp] theorem State.modBlock_nextTicket (s : State) (core slot : Nat) (f : Block → Block) : (s.modBlock core slot f).nextTicket = s.nextTicket := rfl
@[simp] theorem State.modBlock_cur (s : State) (core slot : Nat) (f : Block → Block) : (s.modBlock core slot f).cur = s.cur := rfl
@[simp] theorem State.modBlock_steps (s : State) (core slot : Nat) (f : Block → Block) : (s.modBlock core slot f).steps = s.steps := rfl
@[simp] theorem State.modBlock_lastCast (s : State) (core slot : Nat) (f : Block → Block) : (s.modBlock core slot f).lastCast = s.lastCast := rfl
@[simp] theorem State.modBlock_muls (s : State) (core slot : Nat) (f : Block → Block) : (s.modBlock core slot f).muls = s.muls := rfl
@[simp] theorem State.modBlock_fetches (s : State) (core slot : Nat) (f : Block → Block) : (s.modBlock core slot f).fetches = s.fetches := rfl
@[simp] theorem State.modBlock_obOps (s : State) (core slot : Nat) (f : Block → Block) : (s.modBlock core slot f).obOps = s.obOps := rfl
@[simp] theorem State.modBlock_nextOb (s : State) (core slot : Nat) (f : Block → Block) : (s.modBlock core slot f).nextOb = s.nextOb := rfl
@[simp] theorem State.modBlock_reuse (s : State) (core slot : Nat) (f : Block → Block) : (s.modBlock core slot f).reuse = s.reuse := rfl
@[simp] theorem State.modBlock_linebuf (s : State) (core slot : Nat) (f : Block → Block) : (s.modBlock core slot f).linebuf = s.linebuf := rfl
@[simp] theorem State.modBlock_turns (s : State) (core slot : Nat) (f : Block → Block) : (s.modBlock core slot f).turns = s.turns := rfl
@[simp] theorem State.modBlock_selq (s : State) (core slot : Nat) (f : Block → Block) : (s.modBlock core slot f).selq = s.selq := rfl
@[simp] theorem State.modBlock_launches (s : State) (core slot : Nat) (f : Block → Block) : (s.modBlock core slot f).launches = s.launches := rfl
@[simp] theorem State.modBlock_nextLaunch (s : State) (core slot : Nat) (f : Block → Block) : (s.modBlock core slot f).nextLaunch = s.nextLaunch := rfl
@[simp] theorem State.modBlock_lrings (s : State) (core slot : Nat) (f : Block → Block) : (s.modBlock core slot f).lrings = s.lrings := rfl
@[simp] theorem State.modBlock_badRings (s : State) (core slot : Nat) (f : Block → Block) : (s.modBlock core slot f).badRings = s.badRings := rfl
@[simp] theorem State.modBlock_consume (s : State) (core slot : Nat) (f : Block → Block) : (s.modBlock core slot f).consume = s.consume := rfl
@[simp] theorem State.modBlock_reqs (s : State) (core slot : Nat) (f : Block → Block) : (s.modBlock core slot f).reqs = s.reqs := rfl
@[simp] theorem State.modBlock_saved (s : State) (core slot : Nat) (f : Block → Block) : (s.modBlock core slot f).saved = s.saved := rfl
@[simp] theorem State.modBlock_saving (s : State) (core slot : Nat) (f : Block → Block) : (s.modBlock core slot f).saving = s.saving := rfl
@[simp] theorem State.modBlock_nextReq (s : State) (core slot : Nat) (f : Block → Block) : (s.modBlock core slot f).nextReq = s.nextReq := rfl
@[simp] theorem State.modBlock_areas (s : State) (core slot : Nat) (f : Block → Block) : (s.modBlock core slot f).areas = s.areas := rfl
@[simp] theorem State.modBlock_suspended (s : State) (core slot : Nat) (f : Block → Block) : (s.modBlock core slot f).suspended = s.suspended := rfl
@[simp] theorem State.modBlock_adds (s : State) (core slot : Nat) (f : Block → Block) : (s.modBlock core slot f).adds = s.adds := rfl
@[simp] theorem State.modBlock_batch (s : State) (core slot : Nat) (f : Block → Block) : (s.modBlock core slot f).batch = s.batch := rfl
@[simp] theorem State.modBlock_stageq (s : State) (core slot : Nat) (f : Block → Block) : (s.modBlock core slot f).stageq = s.stageq := rfl
@[simp] theorem State.modBlock_ioq (s : State) (core slot : Nat) (f : Block → Block) : (s.modBlock core slot f).ioq = s.ioq := rfl
@[simp] theorem State.modBlock_pending (s : State) (core slot : Nat) (f : Block → Block) : (s.modBlock core slot f).pending = s.pending := rfl
@[simp] theorem State.modBlock_nextFid (s : State) (core slot : Nat) (f : Block → Block) : (s.modBlock core slot f).nextFid = s.nextFid := rfl
@[simp] theorem State.modBlock_fills (s : State) (core slot : Nat) (f : Block → Block) : (s.modBlock core slot f).fills = s.fills := rfl
@[simp] theorem State.modBlock_reserve (s : State) (core slot : Nat) (f : Block → Block) : (s.modBlock core slot f).reserve = s.reserve := rfl
@[simp] theorem State.modBlock_shoots (s : State) (core slot : Nat) (f : Block → Block) : (s.modBlock core slot f).shoots = s.shoots := rfl
@[simp] theorem State.modBlock_nextShoot (s : State) (core slot : Nat) (f : Block → Block) : (s.modBlock core slot f).nextShoot = s.nextShoot := rfl
@[simp] theorem State.modBlock_frameop (s : State) (core slot : Nat) (f : Block → Block) : (s.modBlock core slot f).frameop = s.frameop := rfl
@[simp] theorem State.modBlock_iocmds (s : State) (core slot : Nat) (f : Block → Block) : (s.modBlock core slot f).iocmds = s.iocmds := rfl
@[simp] theorem State.modBlock_iotold (s : State) (core slot : Nat) (f : Block → Block) : (s.modBlock core slot f).iotold = s.iotold := rfl
@[simp] theorem State.modBlock_priv (s : State) (core slot : Nat) (f : Block → Block) : (s.modBlock core slot f).priv = s.priv := rfl
@[simp] theorem State.modBlock_mgmt (s : State) (core slot : Nat) (f : Block → Block) : (s.modBlock core slot f).mgmt = s.mgmt := rfl
@[simp] theorem State.modBlock_owner (s : State) (core slot : Nat) (f : Block → Block) : (s.modBlock core slot f).owner = s.owner := rfl
@[simp] theorem State.modBlock_boot (s : State) (core slot : Nat) (f : Block → Block) : (s.modBlock core slot f).boot = s.boot := rfl
@[simp] theorem State.modBlock_fused (s : State) (core slot : Nat) (f : Block → Block) : (s.modBlock core slot f).fused = s.fused := rfl
@[simp] theorem State.modBlock_replay (s : State) (core slot : Nat) (f : Block → Block) : (s.modBlock core slot f).replay = s.replay := rfl
@[simp] theorem State.modBlock_epoch (s : State) (core slot : Nat) (f : Block → Block) : (s.modBlock core slot f).epoch = s.epoch := rfl
@[simp] theorem State.modBlock_flashEpochs (s : State) (core slot : Nat) (f : Block → Block) : (s.modBlock core slot f).flashEpochs = s.flashEpochs := rfl
@[simp] theorem State.modBlock_clk (s : State) (core slot : Nat) (f : Block → Block) : (s.modBlock core slot f).clk = s.clk := rfl
@[simp] theorem State.modBlock_tripped (s : State) (core slot : Nat) (f : Block → Block) : (s.modBlock core slot f).tripped = s.tripped := rfl
@[simp] theorem State.modBlock_cyc (s : State) (core slot : Nat) (f : Block → Block) : (s.modBlock core slot f).cyc = s.cyc := rfl
@[simp] theorem State.modBlock_ns (s : State) (core slot : Nat) (f : Block → Block) : (s.modBlock core slot f).ns = s.ns := rfl
@[simp] theorem State.modBlock_msixDue (s : State) (core slot : Nat) (f : Block → Block) : (s.modBlock core slot f).msixDue = s.msixDue := rfl
@[simp] theorem State.modBlock_hostOut (s : State) (core slot : Nat) (f : Block → Block) : (s.modBlock core slot f).hostOut = s.hostOut := rfl
@[simp] theorem State.modBlock_now (s : State) (core slot : Nat) (f : Block → Block) : (s.modBlock core slot f).now = s.now := rfl
@[simp] theorem State.modBlock_free (s : State) (core slot : Nat) (f : Block → Block) : (s.modBlock core slot f).free = s.free := rfl
@[simp] theorem State.modBlock_agenda (s : State) (core slot : Nat) (f : Block → Block) : (s.modBlock core slot f).agenda = s.agenda := rfl

/-! ## `modThread` -/

@[simp] theorem State.modThread_mem (s : State) (core slot tid : Nat) (f : Thread → Thread) : (s.modThread core slot tid f).mem = s.mem := rfl
@[simp] theorem State.modThread_below (s : State) (core slot tid : Nat) (f : Thread → Thread) : (s.modThread core slot tid f).below = s.below := rfl
@[simp] theorem State.modThread_emptyLines (s : State) (core slot tid : Nat) (f : Thread → Thread) : (s.modThread core slot tid f).emptyLines = s.emptyLines := rfl
@[simp] theorem State.modThread_poison (s : State) (core slot tid : Nat) (f : Thread → Thread) : (s.modThread core slot tid f).poison = s.poison := rfl
@[simp] theorem State.modThread_copies (s : State) (core slot tid : Nat) (f : Thread → Thread) : (s.modThread core slot tid f).copies = s.copies := rfl
@[simp] theorem State.modThread_owned (s : State) (core slot tid : Nat) (f : Thread → Thread) : (s.modThread core slot tid f).owned = s.owned := rfl
@[simp] theorem State.modThread_contended (s : State) (core slot tid : Nat) (f : Thread → Thread) : (s.modThread core slot tid f).contended = s.contended := rfl
@[simp] theorem State.modThread_hostHeld (s : State) (core slot tid : Nat) (f : Thread → Thread) : (s.modThread core slot tid f).hostHeld = s.hostHeld := rfl
@[simp] theorem State.modThread_tlb (s : State) (core slot tid : Nat) (f : Thread → Thread) : (s.modThread core slot tid f).tlb = s.tlb := rfl
@[simp] theorem State.modThread_icache (s : State) (core slot tid : Nat) (f : Thread → Thread) : (s.modThread core slot tid f).icache = s.icache := rfl
@[simp] theorem State.modThread_warps (s : State) (core slot tid : Nat) (f : Thread → Thread) : (s.modThread core slot tid f).warps = s.warps := rfl
@[simp] theorem State.modThread_nextWarp (s : State) (core slot tid : Nat) (f : Thread → Thread) : (s.modThread core slot tid f).nextWarp = s.nextWarp := rfl
@[simp] theorem State.modThread_nextTicket (s : State) (core slot tid : Nat) (f : Thread → Thread) : (s.modThread core slot tid f).nextTicket = s.nextTicket := rfl
@[simp] theorem State.modThread_cur (s : State) (core slot tid : Nat) (f : Thread → Thread) : (s.modThread core slot tid f).cur = s.cur := rfl
@[simp] theorem State.modThread_steps (s : State) (core slot tid : Nat) (f : Thread → Thread) : (s.modThread core slot tid f).steps = s.steps := rfl
@[simp] theorem State.modThread_lastCast (s : State) (core slot tid : Nat) (f : Thread → Thread) : (s.modThread core slot tid f).lastCast = s.lastCast := rfl
@[simp] theorem State.modThread_muls (s : State) (core slot tid : Nat) (f : Thread → Thread) : (s.modThread core slot tid f).muls = s.muls := rfl
@[simp] theorem State.modThread_fetches (s : State) (core slot tid : Nat) (f : Thread → Thread) : (s.modThread core slot tid f).fetches = s.fetches := rfl
@[simp] theorem State.modThread_obOps (s : State) (core slot tid : Nat) (f : Thread → Thread) : (s.modThread core slot tid f).obOps = s.obOps := rfl
@[simp] theorem State.modThread_nextOb (s : State) (core slot tid : Nat) (f : Thread → Thread) : (s.modThread core slot tid f).nextOb = s.nextOb := rfl
@[simp] theorem State.modThread_reuse (s : State) (core slot tid : Nat) (f : Thread → Thread) : (s.modThread core slot tid f).reuse = s.reuse := rfl
@[simp] theorem State.modThread_linebuf (s : State) (core slot tid : Nat) (f : Thread → Thread) : (s.modThread core slot tid f).linebuf = s.linebuf := rfl
@[simp] theorem State.modThread_turns (s : State) (core slot tid : Nat) (f : Thread → Thread) : (s.modThread core slot tid f).turns = s.turns := rfl
@[simp] theorem State.modThread_selq (s : State) (core slot tid : Nat) (f : Thread → Thread) : (s.modThread core slot tid f).selq = s.selq := rfl
@[simp] theorem State.modThread_launches (s : State) (core slot tid : Nat) (f : Thread → Thread) : (s.modThread core slot tid f).launches = s.launches := rfl
@[simp] theorem State.modThread_nextLaunch (s : State) (core slot tid : Nat) (f : Thread → Thread) : (s.modThread core slot tid f).nextLaunch = s.nextLaunch := rfl
@[simp] theorem State.modThread_lrings (s : State) (core slot tid : Nat) (f : Thread → Thread) : (s.modThread core slot tid f).lrings = s.lrings := rfl
@[simp] theorem State.modThread_badRings (s : State) (core slot tid : Nat) (f : Thread → Thread) : (s.modThread core slot tid f).badRings = s.badRings := rfl
@[simp] theorem State.modThread_consume (s : State) (core slot tid : Nat) (f : Thread → Thread) : (s.modThread core slot tid f).consume = s.consume := rfl
@[simp] theorem State.modThread_reqs (s : State) (core slot tid : Nat) (f : Thread → Thread) : (s.modThread core slot tid f).reqs = s.reqs := rfl
@[simp] theorem State.modThread_saved (s : State) (core slot tid : Nat) (f : Thread → Thread) : (s.modThread core slot tid f).saved = s.saved := rfl
@[simp] theorem State.modThread_saving (s : State) (core slot tid : Nat) (f : Thread → Thread) : (s.modThread core slot tid f).saving = s.saving := rfl
@[simp] theorem State.modThread_nextReq (s : State) (core slot tid : Nat) (f : Thread → Thread) : (s.modThread core slot tid f).nextReq = s.nextReq := rfl
@[simp] theorem State.modThread_areas (s : State) (core slot tid : Nat) (f : Thread → Thread) : (s.modThread core slot tid f).areas = s.areas := rfl
@[simp] theorem State.modThread_suspended (s : State) (core slot tid : Nat) (f : Thread → Thread) : (s.modThread core slot tid f).suspended = s.suspended := rfl
@[simp] theorem State.modThread_adds (s : State) (core slot tid : Nat) (f : Thread → Thread) : (s.modThread core slot tid f).adds = s.adds := rfl
@[simp] theorem State.modThread_batch (s : State) (core slot tid : Nat) (f : Thread → Thread) : (s.modThread core slot tid f).batch = s.batch := rfl
@[simp] theorem State.modThread_stageq (s : State) (core slot tid : Nat) (f : Thread → Thread) : (s.modThread core slot tid f).stageq = s.stageq := rfl
@[simp] theorem State.modThread_ioq (s : State) (core slot tid : Nat) (f : Thread → Thread) : (s.modThread core slot tid f).ioq = s.ioq := rfl
@[simp] theorem State.modThread_pending (s : State) (core slot tid : Nat) (f : Thread → Thread) : (s.modThread core slot tid f).pending = s.pending := rfl
@[simp] theorem State.modThread_nextFid (s : State) (core slot tid : Nat) (f : Thread → Thread) : (s.modThread core slot tid f).nextFid = s.nextFid := rfl
@[simp] theorem State.modThread_fills (s : State) (core slot tid : Nat) (f : Thread → Thread) : (s.modThread core slot tid f).fills = s.fills := rfl
@[simp] theorem State.modThread_reserve (s : State) (core slot tid : Nat) (f : Thread → Thread) : (s.modThread core slot tid f).reserve = s.reserve := rfl
@[simp] theorem State.modThread_shoots (s : State) (core slot tid : Nat) (f : Thread → Thread) : (s.modThread core slot tid f).shoots = s.shoots := rfl
@[simp] theorem State.modThread_nextShoot (s : State) (core slot tid : Nat) (f : Thread → Thread) : (s.modThread core slot tid f).nextShoot = s.nextShoot := rfl
@[simp] theorem State.modThread_frameop (s : State) (core slot tid : Nat) (f : Thread → Thread) : (s.modThread core slot tid f).frameop = s.frameop := rfl
@[simp] theorem State.modThread_iocmds (s : State) (core slot tid : Nat) (f : Thread → Thread) : (s.modThread core slot tid f).iocmds = s.iocmds := rfl
@[simp] theorem State.modThread_iotold (s : State) (core slot tid : Nat) (f : Thread → Thread) : (s.modThread core slot tid f).iotold = s.iotold := rfl
@[simp] theorem State.modThread_priv (s : State) (core slot tid : Nat) (f : Thread → Thread) : (s.modThread core slot tid f).priv = s.priv := rfl
@[simp] theorem State.modThread_mgmt (s : State) (core slot tid : Nat) (f : Thread → Thread) : (s.modThread core slot tid f).mgmt = s.mgmt := rfl
@[simp] theorem State.modThread_owner (s : State) (core slot tid : Nat) (f : Thread → Thread) : (s.modThread core slot tid f).owner = s.owner := rfl
@[simp] theorem State.modThread_boot (s : State) (core slot tid : Nat) (f : Thread → Thread) : (s.modThread core slot tid f).boot = s.boot := rfl
@[simp] theorem State.modThread_fused (s : State) (core slot tid : Nat) (f : Thread → Thread) : (s.modThread core slot tid f).fused = s.fused := rfl
@[simp] theorem State.modThread_replay (s : State) (core slot tid : Nat) (f : Thread → Thread) : (s.modThread core slot tid f).replay = s.replay := rfl
@[simp] theorem State.modThread_epoch (s : State) (core slot tid : Nat) (f : Thread → Thread) : (s.modThread core slot tid f).epoch = s.epoch := rfl
@[simp] theorem State.modThread_flashEpochs (s : State) (core slot tid : Nat) (f : Thread → Thread) : (s.modThread core slot tid f).flashEpochs = s.flashEpochs := rfl
@[simp] theorem State.modThread_clk (s : State) (core slot tid : Nat) (f : Thread → Thread) : (s.modThread core slot tid f).clk = s.clk := rfl
@[simp] theorem State.modThread_tripped (s : State) (core slot tid : Nat) (f : Thread → Thread) : (s.modThread core slot tid f).tripped = s.tripped := rfl
@[simp] theorem State.modThread_cyc (s : State) (core slot tid : Nat) (f : Thread → Thread) : (s.modThread core slot tid f).cyc = s.cyc := rfl
@[simp] theorem State.modThread_ns (s : State) (core slot tid : Nat) (f : Thread → Thread) : (s.modThread core slot tid f).ns = s.ns := rfl
@[simp] theorem State.modThread_msixDue (s : State) (core slot tid : Nat) (f : Thread → Thread) : (s.modThread core slot tid f).msixDue = s.msixDue := rfl
@[simp] theorem State.modThread_hostOut (s : State) (core slot tid : Nat) (f : Thread → Thread) : (s.modThread core slot tid f).hostOut = s.hostOut := rfl
@[simp] theorem State.modThread_now (s : State) (core slot tid : Nat) (f : Thread → Thread) : (s.modThread core slot tid f).now = s.now := rfl
@[simp] theorem State.modThread_free (s : State) (core slot tid : Nat) (f : Thread → Thread) : (s.modThread core slot tid f).free = s.free := rfl
@[simp] theorem State.modThread_agenda (s : State) (core slot tid : Nat) (f : Thread → Thread) : (s.modThread core slot tid f).agenda = s.agenda := rfl

/-! ## `atWaiters` -/

@[simp] theorem State.atWaiters_mem (s : State) (f : Thread → Thread) : (s.atWaiters f).mem = s.mem := rfl
@[simp] theorem State.atWaiters_below (s : State) (f : Thread → Thread) : (s.atWaiters f).below = s.below := rfl
@[simp] theorem State.atWaiters_emptyLines (s : State) (f : Thread → Thread) : (s.atWaiters f).emptyLines = s.emptyLines := rfl
@[simp] theorem State.atWaiters_poison (s : State) (f : Thread → Thread) : (s.atWaiters f).poison = s.poison := rfl
@[simp] theorem State.atWaiters_copies (s : State) (f : Thread → Thread) : (s.atWaiters f).copies = s.copies := rfl
@[simp] theorem State.atWaiters_owned (s : State) (f : Thread → Thread) : (s.atWaiters f).owned = s.owned := rfl
@[simp] theorem State.atWaiters_contended (s : State) (f : Thread → Thread) : (s.atWaiters f).contended = s.contended := rfl
@[simp] theorem State.atWaiters_hostHeld (s : State) (f : Thread → Thread) : (s.atWaiters f).hostHeld = s.hostHeld := rfl
@[simp] theorem State.atWaiters_tlb (s : State) (f : Thread → Thread) : (s.atWaiters f).tlb = s.tlb := rfl
@[simp] theorem State.atWaiters_icache (s : State) (f : Thread → Thread) : (s.atWaiters f).icache = s.icache := rfl
@[simp] theorem State.atWaiters_warps (s : State) (f : Thread → Thread) : (s.atWaiters f).warps = s.warps := rfl
@[simp] theorem State.atWaiters_nextWarp (s : State) (f : Thread → Thread) : (s.atWaiters f).nextWarp = s.nextWarp := rfl
@[simp] theorem State.atWaiters_nextTicket (s : State) (f : Thread → Thread) : (s.atWaiters f).nextTicket = s.nextTicket := rfl
@[simp] theorem State.atWaiters_cur (s : State) (f : Thread → Thread) : (s.atWaiters f).cur = s.cur := rfl
@[simp] theorem State.atWaiters_steps (s : State) (f : Thread → Thread) : (s.atWaiters f).steps = s.steps := rfl
@[simp] theorem State.atWaiters_lastCast (s : State) (f : Thread → Thread) : (s.atWaiters f).lastCast = s.lastCast := rfl
@[simp] theorem State.atWaiters_muls (s : State) (f : Thread → Thread) : (s.atWaiters f).muls = s.muls := rfl
@[simp] theorem State.atWaiters_fetches (s : State) (f : Thread → Thread) : (s.atWaiters f).fetches = s.fetches := rfl
@[simp] theorem State.atWaiters_obOps (s : State) (f : Thread → Thread) : (s.atWaiters f).obOps = s.obOps := rfl
@[simp] theorem State.atWaiters_nextOb (s : State) (f : Thread → Thread) : (s.atWaiters f).nextOb = s.nextOb := rfl
@[simp] theorem State.atWaiters_reuse (s : State) (f : Thread → Thread) : (s.atWaiters f).reuse = s.reuse := rfl
@[simp] theorem State.atWaiters_linebuf (s : State) (f : Thread → Thread) : (s.atWaiters f).linebuf = s.linebuf := rfl
@[simp] theorem State.atWaiters_turns (s : State) (f : Thread → Thread) : (s.atWaiters f).turns = s.turns := rfl
@[simp] theorem State.atWaiters_selq (s : State) (f : Thread → Thread) : (s.atWaiters f).selq = s.selq := rfl
@[simp] theorem State.atWaiters_launches (s : State) (f : Thread → Thread) : (s.atWaiters f).launches = s.launches := rfl
@[simp] theorem State.atWaiters_nextLaunch (s : State) (f : Thread → Thread) : (s.atWaiters f).nextLaunch = s.nextLaunch := rfl
@[simp] theorem State.atWaiters_lrings (s : State) (f : Thread → Thread) : (s.atWaiters f).lrings = s.lrings := rfl
@[simp] theorem State.atWaiters_badRings (s : State) (f : Thread → Thread) : (s.atWaiters f).badRings = s.badRings := rfl
@[simp] theorem State.atWaiters_consume (s : State) (f : Thread → Thread) : (s.atWaiters f).consume = s.consume := rfl
@[simp] theorem State.atWaiters_reqs (s : State) (f : Thread → Thread) : (s.atWaiters f).reqs = s.reqs := rfl
@[simp] theorem State.atWaiters_saved (s : State) (f : Thread → Thread) : (s.atWaiters f).saved = s.saved := rfl
@[simp] theorem State.atWaiters_saving (s : State) (f : Thread → Thread) : (s.atWaiters f).saving = s.saving := rfl
@[simp] theorem State.atWaiters_nextReq (s : State) (f : Thread → Thread) : (s.atWaiters f).nextReq = s.nextReq := rfl
@[simp] theorem State.atWaiters_areas (s : State) (f : Thread → Thread) : (s.atWaiters f).areas = s.areas := rfl
@[simp] theorem State.atWaiters_suspended (s : State) (f : Thread → Thread) : (s.atWaiters f).suspended = s.suspended := rfl
@[simp] theorem State.atWaiters_adds (s : State) (f : Thread → Thread) : (s.atWaiters f).adds = s.adds := rfl
@[simp] theorem State.atWaiters_batch (s : State) (f : Thread → Thread) : (s.atWaiters f).batch = s.batch := rfl
@[simp] theorem State.atWaiters_stageq (s : State) (f : Thread → Thread) : (s.atWaiters f).stageq = s.stageq := rfl
@[simp] theorem State.atWaiters_ioq (s : State) (f : Thread → Thread) : (s.atWaiters f).ioq = s.ioq := rfl
@[simp] theorem State.atWaiters_pending (s : State) (f : Thread → Thread) : (s.atWaiters f).pending = s.pending := rfl
@[simp] theorem State.atWaiters_nextFid (s : State) (f : Thread → Thread) : (s.atWaiters f).nextFid = s.nextFid := rfl
@[simp] theorem State.atWaiters_fills (s : State) (f : Thread → Thread) : (s.atWaiters f).fills = s.fills := rfl
@[simp] theorem State.atWaiters_reserve (s : State) (f : Thread → Thread) : (s.atWaiters f).reserve = s.reserve := rfl
@[simp] theorem State.atWaiters_shoots (s : State) (f : Thread → Thread) : (s.atWaiters f).shoots = s.shoots := rfl
@[simp] theorem State.atWaiters_nextShoot (s : State) (f : Thread → Thread) : (s.atWaiters f).nextShoot = s.nextShoot := rfl
@[simp] theorem State.atWaiters_frameop (s : State) (f : Thread → Thread) : (s.atWaiters f).frameop = s.frameop := rfl
@[simp] theorem State.atWaiters_iocmds (s : State) (f : Thread → Thread) : (s.atWaiters f).iocmds = s.iocmds := rfl
@[simp] theorem State.atWaiters_iotold (s : State) (f : Thread → Thread) : (s.atWaiters f).iotold = s.iotold := rfl
@[simp] theorem State.atWaiters_priv (s : State) (f : Thread → Thread) : (s.atWaiters f).priv = s.priv := rfl
@[simp] theorem State.atWaiters_mgmt (s : State) (f : Thread → Thread) : (s.atWaiters f).mgmt = s.mgmt := rfl
@[simp] theorem State.atWaiters_owner (s : State) (f : Thread → Thread) : (s.atWaiters f).owner = s.owner := rfl
@[simp] theorem State.atWaiters_boot (s : State) (f : Thread → Thread) : (s.atWaiters f).boot = s.boot := rfl
@[simp] theorem State.atWaiters_fused (s : State) (f : Thread → Thread) : (s.atWaiters f).fused = s.fused := rfl
@[simp] theorem State.atWaiters_replay (s : State) (f : Thread → Thread) : (s.atWaiters f).replay = s.replay := rfl
@[simp] theorem State.atWaiters_epoch (s : State) (f : Thread → Thread) : (s.atWaiters f).epoch = s.epoch := rfl
@[simp] theorem State.atWaiters_flashEpochs (s : State) (f : Thread → Thread) : (s.atWaiters f).flashEpochs = s.flashEpochs := rfl
@[simp] theorem State.atWaiters_clk (s : State) (f : Thread → Thread) : (s.atWaiters f).clk = s.clk := rfl
@[simp] theorem State.atWaiters_tripped (s : State) (f : Thread → Thread) : (s.atWaiters f).tripped = s.tripped := rfl
@[simp] theorem State.atWaiters_cyc (s : State) (f : Thread → Thread) : (s.atWaiters f).cyc = s.cyc := rfl
@[simp] theorem State.atWaiters_ns (s : State) (f : Thread → Thread) : (s.atWaiters f).ns = s.ns := rfl
@[simp] theorem State.atWaiters_msixDue (s : State) (f : Thread → Thread) : (s.atWaiters f).msixDue = s.msixDue := rfl
@[simp] theorem State.atWaiters_hostOut (s : State) (f : Thread → Thread) : (s.atWaiters f).hostOut = s.hostOut := rfl
@[simp] theorem State.atWaiters_now (s : State) (f : Thread → Thread) : (s.atWaiters f).now = s.now := rfl
@[simp] theorem State.atWaiters_free (s : State) (f : Thread → Thread) : (s.atWaiters f).free = s.free := rfl
@[simp] theorem State.atWaiters_agenda (s : State) (f : Thread → Thread) : (s.atWaiters f).agenda = s.agenda := rfl

/-! ## `rawWrite` -/

@[simp] theorem State.rawWrite_emptyLines (s : State) (k : Nat) (bs : List Byte) : (s.rawWrite k bs).emptyLines = s.emptyLines := rfl
@[simp] theorem State.rawWrite_copies (s : State) (k : Nat) (bs : List Byte) : (s.rawWrite k bs).copies = s.copies := rfl
@[simp] theorem State.rawWrite_owned (s : State) (k : Nat) (bs : List Byte) : (s.rawWrite k bs).owned = s.owned := rfl
@[simp] theorem State.rawWrite_contended (s : State) (k : Nat) (bs : List Byte) : (s.rawWrite k bs).contended = s.contended := rfl
@[simp] theorem State.rawWrite_hostHeld (s : State) (k : Nat) (bs : List Byte) : (s.rawWrite k bs).hostHeld = s.hostHeld := rfl
@[simp] theorem State.rawWrite_tlb (s : State) (k : Nat) (bs : List Byte) : (s.rawWrite k bs).tlb = s.tlb := rfl
@[simp] theorem State.rawWrite_icache (s : State) (k : Nat) (bs : List Byte) : (s.rawWrite k bs).icache = s.icache := rfl
@[simp] theorem State.rawWrite_warps (s : State) (k : Nat) (bs : List Byte) : (s.rawWrite k bs).warps = s.warps := rfl
@[simp] theorem State.rawWrite_nextWarp (s : State) (k : Nat) (bs : List Byte) : (s.rawWrite k bs).nextWarp = s.nextWarp := rfl
@[simp] theorem State.rawWrite_nextTicket (s : State) (k : Nat) (bs : List Byte) : (s.rawWrite k bs).nextTicket = s.nextTicket := rfl
@[simp] theorem State.rawWrite_cur (s : State) (k : Nat) (bs : List Byte) : (s.rawWrite k bs).cur = s.cur := rfl
@[simp] theorem State.rawWrite_steps (s : State) (k : Nat) (bs : List Byte) : (s.rawWrite k bs).steps = s.steps := rfl
@[simp] theorem State.rawWrite_lastCast (s : State) (k : Nat) (bs : List Byte) : (s.rawWrite k bs).lastCast = s.lastCast := rfl
@[simp] theorem State.rawWrite_muls (s : State) (k : Nat) (bs : List Byte) : (s.rawWrite k bs).muls = s.muls := rfl
@[simp] theorem State.rawWrite_fetches (s : State) (k : Nat) (bs : List Byte) : (s.rawWrite k bs).fetches = s.fetches := rfl
@[simp] theorem State.rawWrite_obOps (s : State) (k : Nat) (bs : List Byte) : (s.rawWrite k bs).obOps = s.obOps := rfl
@[simp] theorem State.rawWrite_nextOb (s : State) (k : Nat) (bs : List Byte) : (s.rawWrite k bs).nextOb = s.nextOb := rfl
@[simp] theorem State.rawWrite_reuse (s : State) (k : Nat) (bs : List Byte) : (s.rawWrite k bs).reuse = s.reuse := rfl
@[simp] theorem State.rawWrite_linebuf (s : State) (k : Nat) (bs : List Byte) : (s.rawWrite k bs).linebuf = s.linebuf := rfl
@[simp] theorem State.rawWrite_turns (s : State) (k : Nat) (bs : List Byte) : (s.rawWrite k bs).turns = s.turns := rfl
@[simp] theorem State.rawWrite_selq (s : State) (k : Nat) (bs : List Byte) : (s.rawWrite k bs).selq = s.selq := rfl
@[simp] theorem State.rawWrite_launches (s : State) (k : Nat) (bs : List Byte) : (s.rawWrite k bs).launches = s.launches := rfl
@[simp] theorem State.rawWrite_nextLaunch (s : State) (k : Nat) (bs : List Byte) : (s.rawWrite k bs).nextLaunch = s.nextLaunch := rfl
@[simp] theorem State.rawWrite_lrings (s : State) (k : Nat) (bs : List Byte) : (s.rawWrite k bs).lrings = s.lrings := rfl
@[simp] theorem State.rawWrite_badRings (s : State) (k : Nat) (bs : List Byte) : (s.rawWrite k bs).badRings = s.badRings := rfl
@[simp] theorem State.rawWrite_consume (s : State) (k : Nat) (bs : List Byte) : (s.rawWrite k bs).consume = s.consume := rfl
@[simp] theorem State.rawWrite_reqs (s : State) (k : Nat) (bs : List Byte) : (s.rawWrite k bs).reqs = s.reqs := rfl
@[simp] theorem State.rawWrite_saved (s : State) (k : Nat) (bs : List Byte) : (s.rawWrite k bs).saved = s.saved := rfl
@[simp] theorem State.rawWrite_saving (s : State) (k : Nat) (bs : List Byte) : (s.rawWrite k bs).saving = s.saving := rfl
@[simp] theorem State.rawWrite_nextReq (s : State) (k : Nat) (bs : List Byte) : (s.rawWrite k bs).nextReq = s.nextReq := rfl
@[simp] theorem State.rawWrite_areas (s : State) (k : Nat) (bs : List Byte) : (s.rawWrite k bs).areas = s.areas := rfl
@[simp] theorem State.rawWrite_suspended (s : State) (k : Nat) (bs : List Byte) : (s.rawWrite k bs).suspended = s.suspended := rfl
@[simp] theorem State.rawWrite_adds (s : State) (k : Nat) (bs : List Byte) : (s.rawWrite k bs).adds = s.adds := rfl
@[simp] theorem State.rawWrite_batch (s : State) (k : Nat) (bs : List Byte) : (s.rawWrite k bs).batch = s.batch := rfl
@[simp] theorem State.rawWrite_stageq (s : State) (k : Nat) (bs : List Byte) : (s.rawWrite k bs).stageq = s.stageq := rfl
@[simp] theorem State.rawWrite_ioq (s : State) (k : Nat) (bs : List Byte) : (s.rawWrite k bs).ioq = s.ioq := rfl
@[simp] theorem State.rawWrite_pending (s : State) (k : Nat) (bs : List Byte) : (s.rawWrite k bs).pending = s.pending := rfl
@[simp] theorem State.rawWrite_nextFid (s : State) (k : Nat) (bs : List Byte) : (s.rawWrite k bs).nextFid = s.nextFid := rfl
@[simp] theorem State.rawWrite_fills (s : State) (k : Nat) (bs : List Byte) : (s.rawWrite k bs).fills = s.fills := rfl
@[simp] theorem State.rawWrite_reserve (s : State) (k : Nat) (bs : List Byte) : (s.rawWrite k bs).reserve = s.reserve := rfl
@[simp] theorem State.rawWrite_shoots (s : State) (k : Nat) (bs : List Byte) : (s.rawWrite k bs).shoots = s.shoots := rfl
@[simp] theorem State.rawWrite_nextShoot (s : State) (k : Nat) (bs : List Byte) : (s.rawWrite k bs).nextShoot = s.nextShoot := rfl
@[simp] theorem State.rawWrite_frameop (s : State) (k : Nat) (bs : List Byte) : (s.rawWrite k bs).frameop = s.frameop := rfl
@[simp] theorem State.rawWrite_iocmds (s : State) (k : Nat) (bs : List Byte) : (s.rawWrite k bs).iocmds = s.iocmds := rfl
@[simp] theorem State.rawWrite_iotold (s : State) (k : Nat) (bs : List Byte) : (s.rawWrite k bs).iotold = s.iotold := rfl
@[simp] theorem State.rawWrite_priv (s : State) (k : Nat) (bs : List Byte) : (s.rawWrite k bs).priv = s.priv := rfl
@[simp] theorem State.rawWrite_mgmt (s : State) (k : Nat) (bs : List Byte) : (s.rawWrite k bs).mgmt = s.mgmt := rfl
@[simp] theorem State.rawWrite_owner (s : State) (k : Nat) (bs : List Byte) : (s.rawWrite k bs).owner = s.owner := rfl
@[simp] theorem State.rawWrite_boot (s : State) (k : Nat) (bs : List Byte) : (s.rawWrite k bs).boot = s.boot := rfl
@[simp] theorem State.rawWrite_fused (s : State) (k : Nat) (bs : List Byte) : (s.rawWrite k bs).fused = s.fused := rfl
@[simp] theorem State.rawWrite_replay (s : State) (k : Nat) (bs : List Byte) : (s.rawWrite k bs).replay = s.replay := rfl
@[simp] theorem State.rawWrite_epoch (s : State) (k : Nat) (bs : List Byte) : (s.rawWrite k bs).epoch = s.epoch := rfl
@[simp] theorem State.rawWrite_flashEpochs (s : State) (k : Nat) (bs : List Byte) : (s.rawWrite k bs).flashEpochs = s.flashEpochs := rfl
@[simp] theorem State.rawWrite_clk (s : State) (k : Nat) (bs : List Byte) : (s.rawWrite k bs).clk = s.clk := rfl
@[simp] theorem State.rawWrite_tripped (s : State) (k : Nat) (bs : List Byte) : (s.rawWrite k bs).tripped = s.tripped := rfl
@[simp] theorem State.rawWrite_cyc (s : State) (k : Nat) (bs : List Byte) : (s.rawWrite k bs).cyc = s.cyc := rfl
@[simp] theorem State.rawWrite_ns (s : State) (k : Nat) (bs : List Byte) : (s.rawWrite k bs).ns = s.ns := rfl
@[simp] theorem State.rawWrite_msixDue (s : State) (k : Nat) (bs : List Byte) : (s.rawWrite k bs).msixDue = s.msixDue := rfl
@[simp] theorem State.rawWrite_hostOut (s : State) (k : Nat) (bs : List Byte) : (s.rawWrite k bs).hostOut = s.hostOut := rfl
@[simp] theorem State.rawWrite_now (s : State) (k : Nat) (bs : List Byte) : (s.rawWrite k bs).now = s.now := rfl
@[simp] theorem State.rawWrite_free (s : State) (k : Nat) (bs : List Byte) : (s.rawWrite k bs).free = s.free := rfl
@[simp] theorem State.rawWrite_agenda (s : State) (k : Nat) (bs : List Byte) : (s.rawWrite k bs).agenda = s.agenda := rfl

/-! ## `homeWrite` -/

@[simp] theorem State.homeWrite_emptyLines (s : State) (k : Nat) (bs : List Byte) : (s.homeWrite k bs).emptyLines = s.emptyLines := rfl
@[simp] theorem State.homeWrite_copies (s : State) (k : Nat) (bs : List Byte) : (s.homeWrite k bs).copies = s.copies := rfl
@[simp] theorem State.homeWrite_owned (s : State) (k : Nat) (bs : List Byte) : (s.homeWrite k bs).owned = s.owned := rfl
@[simp] theorem State.homeWrite_contended (s : State) (k : Nat) (bs : List Byte) : (s.homeWrite k bs).contended = s.contended := rfl
@[simp] theorem State.homeWrite_hostHeld (s : State) (k : Nat) (bs : List Byte) : (s.homeWrite k bs).hostHeld = s.hostHeld := rfl
@[simp] theorem State.homeWrite_tlb (s : State) (k : Nat) (bs : List Byte) : (s.homeWrite k bs).tlb = s.tlb := rfl
@[simp] theorem State.homeWrite_icache (s : State) (k : Nat) (bs : List Byte) : (s.homeWrite k bs).icache = s.icache := rfl
@[simp] theorem State.homeWrite_warps (s : State) (k : Nat) (bs : List Byte) : (s.homeWrite k bs).warps = s.warps := rfl
@[simp] theorem State.homeWrite_nextWarp (s : State) (k : Nat) (bs : List Byte) : (s.homeWrite k bs).nextWarp = s.nextWarp := rfl
@[simp] theorem State.homeWrite_nextTicket (s : State) (k : Nat) (bs : List Byte) : (s.homeWrite k bs).nextTicket = s.nextTicket := rfl
@[simp] theorem State.homeWrite_cur (s : State) (k : Nat) (bs : List Byte) : (s.homeWrite k bs).cur = s.cur := rfl
@[simp] theorem State.homeWrite_steps (s : State) (k : Nat) (bs : List Byte) : (s.homeWrite k bs).steps = s.steps := rfl
@[simp] theorem State.homeWrite_lastCast (s : State) (k : Nat) (bs : List Byte) : (s.homeWrite k bs).lastCast = s.lastCast := rfl
@[simp] theorem State.homeWrite_muls (s : State) (k : Nat) (bs : List Byte) : (s.homeWrite k bs).muls = s.muls := rfl
@[simp] theorem State.homeWrite_fetches (s : State) (k : Nat) (bs : List Byte) : (s.homeWrite k bs).fetches = s.fetches := rfl
@[simp] theorem State.homeWrite_obOps (s : State) (k : Nat) (bs : List Byte) : (s.homeWrite k bs).obOps = s.obOps := rfl
@[simp] theorem State.homeWrite_nextOb (s : State) (k : Nat) (bs : List Byte) : (s.homeWrite k bs).nextOb = s.nextOb := rfl
@[simp] theorem State.homeWrite_reuse (s : State) (k : Nat) (bs : List Byte) : (s.homeWrite k bs).reuse = s.reuse := rfl
@[simp] theorem State.homeWrite_linebuf (s : State) (k : Nat) (bs : List Byte) : (s.homeWrite k bs).linebuf = s.linebuf := rfl
@[simp] theorem State.homeWrite_turns (s : State) (k : Nat) (bs : List Byte) : (s.homeWrite k bs).turns = s.turns := rfl
@[simp] theorem State.homeWrite_selq (s : State) (k : Nat) (bs : List Byte) : (s.homeWrite k bs).selq = s.selq := rfl
@[simp] theorem State.homeWrite_launches (s : State) (k : Nat) (bs : List Byte) : (s.homeWrite k bs).launches = s.launches := rfl
@[simp] theorem State.homeWrite_nextLaunch (s : State) (k : Nat) (bs : List Byte) : (s.homeWrite k bs).nextLaunch = s.nextLaunch := rfl
@[simp] theorem State.homeWrite_lrings (s : State) (k : Nat) (bs : List Byte) : (s.homeWrite k bs).lrings = s.lrings := rfl
@[simp] theorem State.homeWrite_badRings (s : State) (k : Nat) (bs : List Byte) : (s.homeWrite k bs).badRings = s.badRings := rfl
@[simp] theorem State.homeWrite_consume (s : State) (k : Nat) (bs : List Byte) : (s.homeWrite k bs).consume = s.consume := rfl
@[simp] theorem State.homeWrite_reqs (s : State) (k : Nat) (bs : List Byte) : (s.homeWrite k bs).reqs = s.reqs := rfl
@[simp] theorem State.homeWrite_saved (s : State) (k : Nat) (bs : List Byte) : (s.homeWrite k bs).saved = s.saved := rfl
@[simp] theorem State.homeWrite_saving (s : State) (k : Nat) (bs : List Byte) : (s.homeWrite k bs).saving = s.saving := rfl
@[simp] theorem State.homeWrite_nextReq (s : State) (k : Nat) (bs : List Byte) : (s.homeWrite k bs).nextReq = s.nextReq := rfl
@[simp] theorem State.homeWrite_areas (s : State) (k : Nat) (bs : List Byte) : (s.homeWrite k bs).areas = s.areas := rfl
@[simp] theorem State.homeWrite_suspended (s : State) (k : Nat) (bs : List Byte) : (s.homeWrite k bs).suspended = s.suspended := rfl
@[simp] theorem State.homeWrite_adds (s : State) (k : Nat) (bs : List Byte) : (s.homeWrite k bs).adds = s.adds := rfl
@[simp] theorem State.homeWrite_batch (s : State) (k : Nat) (bs : List Byte) : (s.homeWrite k bs).batch = s.batch := rfl
@[simp] theorem State.homeWrite_stageq (s : State) (k : Nat) (bs : List Byte) : (s.homeWrite k bs).stageq = s.stageq := rfl
@[simp] theorem State.homeWrite_ioq (s : State) (k : Nat) (bs : List Byte) : (s.homeWrite k bs).ioq = s.ioq := rfl
@[simp] theorem State.homeWrite_pending (s : State) (k : Nat) (bs : List Byte) : (s.homeWrite k bs).pending = s.pending := rfl
@[simp] theorem State.homeWrite_nextFid (s : State) (k : Nat) (bs : List Byte) : (s.homeWrite k bs).nextFid = s.nextFid := rfl
@[simp] theorem State.homeWrite_fills (s : State) (k : Nat) (bs : List Byte) : (s.homeWrite k bs).fills = s.fills := rfl
@[simp] theorem State.homeWrite_reserve (s : State) (k : Nat) (bs : List Byte) : (s.homeWrite k bs).reserve = s.reserve := rfl
@[simp] theorem State.homeWrite_shoots (s : State) (k : Nat) (bs : List Byte) : (s.homeWrite k bs).shoots = s.shoots := rfl
@[simp] theorem State.homeWrite_nextShoot (s : State) (k : Nat) (bs : List Byte) : (s.homeWrite k bs).nextShoot = s.nextShoot := rfl
@[simp] theorem State.homeWrite_frameop (s : State) (k : Nat) (bs : List Byte) : (s.homeWrite k bs).frameop = s.frameop := rfl
@[simp] theorem State.homeWrite_iocmds (s : State) (k : Nat) (bs : List Byte) : (s.homeWrite k bs).iocmds = s.iocmds := rfl
@[simp] theorem State.homeWrite_iotold (s : State) (k : Nat) (bs : List Byte) : (s.homeWrite k bs).iotold = s.iotold := rfl
@[simp] theorem State.homeWrite_priv (s : State) (k : Nat) (bs : List Byte) : (s.homeWrite k bs).priv = s.priv := rfl
@[simp] theorem State.homeWrite_mgmt (s : State) (k : Nat) (bs : List Byte) : (s.homeWrite k bs).mgmt = s.mgmt := rfl
@[simp] theorem State.homeWrite_owner (s : State) (k : Nat) (bs : List Byte) : (s.homeWrite k bs).owner = s.owner := rfl
@[simp] theorem State.homeWrite_boot (s : State) (k : Nat) (bs : List Byte) : (s.homeWrite k bs).boot = s.boot := rfl
@[simp] theorem State.homeWrite_fused (s : State) (k : Nat) (bs : List Byte) : (s.homeWrite k bs).fused = s.fused := rfl
@[simp] theorem State.homeWrite_replay (s : State) (k : Nat) (bs : List Byte) : (s.homeWrite k bs).replay = s.replay := rfl
@[simp] theorem State.homeWrite_epoch (s : State) (k : Nat) (bs : List Byte) : (s.homeWrite k bs).epoch = s.epoch := rfl
@[simp] theorem State.homeWrite_flashEpochs (s : State) (k : Nat) (bs : List Byte) : (s.homeWrite k bs).flashEpochs = s.flashEpochs := rfl
@[simp] theorem State.homeWrite_clk (s : State) (k : Nat) (bs : List Byte) : (s.homeWrite k bs).clk = s.clk := rfl
@[simp] theorem State.homeWrite_tripped (s : State) (k : Nat) (bs : List Byte) : (s.homeWrite k bs).tripped = s.tripped := rfl
@[simp] theorem State.homeWrite_cyc (s : State) (k : Nat) (bs : List Byte) : (s.homeWrite k bs).cyc = s.cyc := rfl
@[simp] theorem State.homeWrite_ns (s : State) (k : Nat) (bs : List Byte) : (s.homeWrite k bs).ns = s.ns := rfl
@[simp] theorem State.homeWrite_msixDue (s : State) (k : Nat) (bs : List Byte) : (s.homeWrite k bs).msixDue = s.msixDue := rfl
@[simp] theorem State.homeWrite_hostOut (s : State) (k : Nat) (bs : List Byte) : (s.homeWrite k bs).hostOut = s.hostOut := rfl
@[simp] theorem State.homeWrite_now (s : State) (k : Nat) (bs : List Byte) : (s.homeWrite k bs).now = s.now := rfl
@[simp] theorem State.homeWrite_free (s : State) (k : Nat) (bs : List Byte) : (s.homeWrite k bs).free = s.free := rfl
@[simp] theorem State.homeWrite_agenda (s : State) (k : Nat) (bs : List Byte) : (s.homeWrite k bs).agenda = s.agenda := rfl

/-! ## `putCopy` -/

@[simp] theorem State.putCopy_mem (s : State) (c : Copy) : (s.putCopy c).mem = s.mem := rfl
@[simp] theorem State.putCopy_below (s : State) (c : Copy) : (s.putCopy c).below = s.below := rfl
@[simp] theorem State.putCopy_emptyLines (s : State) (c : Copy) : (s.putCopy c).emptyLines = s.emptyLines := rfl
@[simp] theorem State.putCopy_poison (s : State) (c : Copy) : (s.putCopy c).poison = s.poison := rfl
@[simp] theorem State.putCopy_owned (s : State) (c : Copy) : (s.putCopy c).owned = s.owned := rfl
@[simp] theorem State.putCopy_contended (s : State) (c : Copy) : (s.putCopy c).contended = s.contended := rfl
@[simp] theorem State.putCopy_hostHeld (s : State) (c : Copy) : (s.putCopy c).hostHeld = s.hostHeld := rfl
@[simp] theorem State.putCopy_tlb (s : State) (c : Copy) : (s.putCopy c).tlb = s.tlb := rfl
@[simp] theorem State.putCopy_icache (s : State) (c : Copy) : (s.putCopy c).icache = s.icache := rfl
@[simp] theorem State.putCopy_blocks (s : State) (c : Copy) : (s.putCopy c).blocks = s.blocks := rfl
@[simp] theorem State.putCopy_warps (s : State) (c : Copy) : (s.putCopy c).warps = s.warps := rfl
@[simp] theorem State.putCopy_nextWarp (s : State) (c : Copy) : (s.putCopy c).nextWarp = s.nextWarp := rfl
@[simp] theorem State.putCopy_nextTicket (s : State) (c : Copy) : (s.putCopy c).nextTicket = s.nextTicket := rfl
@[simp] theorem State.putCopy_cur (s : State) (c : Copy) : (s.putCopy c).cur = s.cur := rfl
@[simp] theorem State.putCopy_steps (s : State) (c : Copy) : (s.putCopy c).steps = s.steps := rfl
@[simp] theorem State.putCopy_lastCast (s : State) (c : Copy) : (s.putCopy c).lastCast = s.lastCast := rfl
@[simp] theorem State.putCopy_muls (s : State) (c : Copy) : (s.putCopy c).muls = s.muls := rfl
@[simp] theorem State.putCopy_fetches (s : State) (c : Copy) : (s.putCopy c).fetches = s.fetches := rfl
@[simp] theorem State.putCopy_obOps (s : State) (c : Copy) : (s.putCopy c).obOps = s.obOps := rfl
@[simp] theorem State.putCopy_nextOb (s : State) (c : Copy) : (s.putCopy c).nextOb = s.nextOb := rfl
@[simp] theorem State.putCopy_reuse (s : State) (c : Copy) : (s.putCopy c).reuse = s.reuse := rfl
@[simp] theorem State.putCopy_linebuf (s : State) (c : Copy) : (s.putCopy c).linebuf = s.linebuf := rfl
@[simp] theorem State.putCopy_turns (s : State) (c : Copy) : (s.putCopy c).turns = s.turns := rfl
@[simp] theorem State.putCopy_selq (s : State) (c : Copy) : (s.putCopy c).selq = s.selq := rfl
@[simp] theorem State.putCopy_launches (s : State) (c : Copy) : (s.putCopy c).launches = s.launches := rfl
@[simp] theorem State.putCopy_nextLaunch (s : State) (c : Copy) : (s.putCopy c).nextLaunch = s.nextLaunch := rfl
@[simp] theorem State.putCopy_lrings (s : State) (c : Copy) : (s.putCopy c).lrings = s.lrings := rfl
@[simp] theorem State.putCopy_badRings (s : State) (c : Copy) : (s.putCopy c).badRings = s.badRings := rfl
@[simp] theorem State.putCopy_consume (s : State) (c : Copy) : (s.putCopy c).consume = s.consume := rfl
@[simp] theorem State.putCopy_reqs (s : State) (c : Copy) : (s.putCopy c).reqs = s.reqs := rfl
@[simp] theorem State.putCopy_saved (s : State) (c : Copy) : (s.putCopy c).saved = s.saved := rfl
@[simp] theorem State.putCopy_saving (s : State) (c : Copy) : (s.putCopy c).saving = s.saving := rfl
@[simp] theorem State.putCopy_nextReq (s : State) (c : Copy) : (s.putCopy c).nextReq = s.nextReq := rfl
@[simp] theorem State.putCopy_areas (s : State) (c : Copy) : (s.putCopy c).areas = s.areas := rfl
@[simp] theorem State.putCopy_suspended (s : State) (c : Copy) : (s.putCopy c).suspended = s.suspended := rfl
@[simp] theorem State.putCopy_adds (s : State) (c : Copy) : (s.putCopy c).adds = s.adds := rfl
@[simp] theorem State.putCopy_batch (s : State) (c : Copy) : (s.putCopy c).batch = s.batch := rfl
@[simp] theorem State.putCopy_stageq (s : State) (c : Copy) : (s.putCopy c).stageq = s.stageq := rfl
@[simp] theorem State.putCopy_ioq (s : State) (c : Copy) : (s.putCopy c).ioq = s.ioq := rfl
@[simp] theorem State.putCopy_pending (s : State) (c : Copy) : (s.putCopy c).pending = s.pending := rfl
@[simp] theorem State.putCopy_nextFid (s : State) (c : Copy) : (s.putCopy c).nextFid = s.nextFid := rfl
@[simp] theorem State.putCopy_fills (s : State) (c : Copy) : (s.putCopy c).fills = s.fills := rfl
@[simp] theorem State.putCopy_reserve (s : State) (c : Copy) : (s.putCopy c).reserve = s.reserve := rfl
@[simp] theorem State.putCopy_shoots (s : State) (c : Copy) : (s.putCopy c).shoots = s.shoots := rfl
@[simp] theorem State.putCopy_nextShoot (s : State) (c : Copy) : (s.putCopy c).nextShoot = s.nextShoot := rfl
@[simp] theorem State.putCopy_frameop (s : State) (c : Copy) : (s.putCopy c).frameop = s.frameop := rfl
@[simp] theorem State.putCopy_iocmds (s : State) (c : Copy) : (s.putCopy c).iocmds = s.iocmds := rfl
@[simp] theorem State.putCopy_iotold (s : State) (c : Copy) : (s.putCopy c).iotold = s.iotold := rfl
@[simp] theorem State.putCopy_priv (s : State) (c : Copy) : (s.putCopy c).priv = s.priv := rfl
@[simp] theorem State.putCopy_mgmt (s : State) (c : Copy) : (s.putCopy c).mgmt = s.mgmt := rfl
@[simp] theorem State.putCopy_owner (s : State) (c : Copy) : (s.putCopy c).owner = s.owner := rfl
@[simp] theorem State.putCopy_boot (s : State) (c : Copy) : (s.putCopy c).boot = s.boot := rfl
@[simp] theorem State.putCopy_fused (s : State) (c : Copy) : (s.putCopy c).fused = s.fused := rfl
@[simp] theorem State.putCopy_replay (s : State) (c : Copy) : (s.putCopy c).replay = s.replay := rfl
@[simp] theorem State.putCopy_epoch (s : State) (c : Copy) : (s.putCopy c).epoch = s.epoch := rfl
@[simp] theorem State.putCopy_flashEpochs (s : State) (c : Copy) : (s.putCopy c).flashEpochs = s.flashEpochs := rfl
@[simp] theorem State.putCopy_clk (s : State) (c : Copy) : (s.putCopy c).clk = s.clk := rfl
@[simp] theorem State.putCopy_tripped (s : State) (c : Copy) : (s.putCopy c).tripped = s.tripped := rfl
@[simp] theorem State.putCopy_cyc (s : State) (c : Copy) : (s.putCopy c).cyc = s.cyc := rfl
@[simp] theorem State.putCopy_ns (s : State) (c : Copy) : (s.putCopy c).ns = s.ns := rfl
@[simp] theorem State.putCopy_msixDue (s : State) (c : Copy) : (s.putCopy c).msixDue = s.msixDue := rfl
@[simp] theorem State.putCopy_hostOut (s : State) (c : Copy) : (s.putCopy c).hostOut = s.hostOut := rfl
@[simp] theorem State.putCopy_now (s : State) (c : Copy) : (s.putCopy c).now = s.now := rfl
@[simp] theorem State.putCopy_free (s : State) (c : Copy) : (s.putCopy c).free = s.free := rfl
@[simp] theorem State.putCopy_agenda (s : State) (c : Copy) : (s.putCopy c).agenda = s.agenda := rfl

/-! ## `dropCopy` -/

@[simp] theorem State.dropCopy_mem (s : State) (h : Holder) (line : Nat) : (s.dropCopy h line).mem = s.mem := rfl
@[simp] theorem State.dropCopy_below (s : State) (h : Holder) (line : Nat) : (s.dropCopy h line).below = s.below := rfl
@[simp] theorem State.dropCopy_emptyLines (s : State) (h : Holder) (line : Nat) : (s.dropCopy h line).emptyLines = s.emptyLines := rfl
@[simp] theorem State.dropCopy_poison (s : State) (h : Holder) (line : Nat) : (s.dropCopy h line).poison = s.poison := rfl
@[simp] theorem State.dropCopy_owned (s : State) (h : Holder) (line : Nat) : (s.dropCopy h line).owned = s.owned := rfl
@[simp] theorem State.dropCopy_contended (s : State) (h : Holder) (line : Nat) : (s.dropCopy h line).contended = s.contended := rfl
@[simp] theorem State.dropCopy_hostHeld (s : State) (h : Holder) (line : Nat) : (s.dropCopy h line).hostHeld = s.hostHeld := rfl
@[simp] theorem State.dropCopy_tlb (s : State) (h : Holder) (line : Nat) : (s.dropCopy h line).tlb = s.tlb := rfl
@[simp] theorem State.dropCopy_icache (s : State) (h : Holder) (line : Nat) : (s.dropCopy h line).icache = s.icache := rfl
@[simp] theorem State.dropCopy_blocks (s : State) (h : Holder) (line : Nat) : (s.dropCopy h line).blocks = s.blocks := rfl
@[simp] theorem State.dropCopy_warps (s : State) (h : Holder) (line : Nat) : (s.dropCopy h line).warps = s.warps := rfl
@[simp] theorem State.dropCopy_nextWarp (s : State) (h : Holder) (line : Nat) : (s.dropCopy h line).nextWarp = s.nextWarp := rfl
@[simp] theorem State.dropCopy_nextTicket (s : State) (h : Holder) (line : Nat) : (s.dropCopy h line).nextTicket = s.nextTicket := rfl
@[simp] theorem State.dropCopy_cur (s : State) (h : Holder) (line : Nat) : (s.dropCopy h line).cur = s.cur := rfl
@[simp] theorem State.dropCopy_steps (s : State) (h : Holder) (line : Nat) : (s.dropCopy h line).steps = s.steps := rfl
@[simp] theorem State.dropCopy_lastCast (s : State) (h : Holder) (line : Nat) : (s.dropCopy h line).lastCast = s.lastCast := rfl
@[simp] theorem State.dropCopy_muls (s : State) (h : Holder) (line : Nat) : (s.dropCopy h line).muls = s.muls := rfl
@[simp] theorem State.dropCopy_fetches (s : State) (h : Holder) (line : Nat) : (s.dropCopy h line).fetches = s.fetches := rfl
@[simp] theorem State.dropCopy_obOps (s : State) (h : Holder) (line : Nat) : (s.dropCopy h line).obOps = s.obOps := rfl
@[simp] theorem State.dropCopy_nextOb (s : State) (h : Holder) (line : Nat) : (s.dropCopy h line).nextOb = s.nextOb := rfl
@[simp] theorem State.dropCopy_reuse (s : State) (h : Holder) (line : Nat) : (s.dropCopy h line).reuse = s.reuse := rfl
@[simp] theorem State.dropCopy_linebuf (s : State) (h : Holder) (line : Nat) : (s.dropCopy h line).linebuf = s.linebuf := rfl
@[simp] theorem State.dropCopy_turns (s : State) (h : Holder) (line : Nat) : (s.dropCopy h line).turns = s.turns := rfl
@[simp] theorem State.dropCopy_selq (s : State) (h : Holder) (line : Nat) : (s.dropCopy h line).selq = s.selq := rfl
@[simp] theorem State.dropCopy_launches (s : State) (h : Holder) (line : Nat) : (s.dropCopy h line).launches = s.launches := rfl
@[simp] theorem State.dropCopy_nextLaunch (s : State) (h : Holder) (line : Nat) : (s.dropCopy h line).nextLaunch = s.nextLaunch := rfl
@[simp] theorem State.dropCopy_lrings (s : State) (h : Holder) (line : Nat) : (s.dropCopy h line).lrings = s.lrings := rfl
@[simp] theorem State.dropCopy_badRings (s : State) (h : Holder) (line : Nat) : (s.dropCopy h line).badRings = s.badRings := rfl
@[simp] theorem State.dropCopy_consume (s : State) (h : Holder) (line : Nat) : (s.dropCopy h line).consume = s.consume := rfl
@[simp] theorem State.dropCopy_reqs (s : State) (h : Holder) (line : Nat) : (s.dropCopy h line).reqs = s.reqs := rfl
@[simp] theorem State.dropCopy_saved (s : State) (h : Holder) (line : Nat) : (s.dropCopy h line).saved = s.saved := rfl
@[simp] theorem State.dropCopy_saving (s : State) (h : Holder) (line : Nat) : (s.dropCopy h line).saving = s.saving := rfl
@[simp] theorem State.dropCopy_nextReq (s : State) (h : Holder) (line : Nat) : (s.dropCopy h line).nextReq = s.nextReq := rfl
@[simp] theorem State.dropCopy_areas (s : State) (h : Holder) (line : Nat) : (s.dropCopy h line).areas = s.areas := rfl
@[simp] theorem State.dropCopy_suspended (s : State) (h : Holder) (line : Nat) : (s.dropCopy h line).suspended = s.suspended := rfl
@[simp] theorem State.dropCopy_adds (s : State) (h : Holder) (line : Nat) : (s.dropCopy h line).adds = s.adds := rfl
@[simp] theorem State.dropCopy_batch (s : State) (h : Holder) (line : Nat) : (s.dropCopy h line).batch = s.batch := rfl
@[simp] theorem State.dropCopy_stageq (s : State) (h : Holder) (line : Nat) : (s.dropCopy h line).stageq = s.stageq := rfl
@[simp] theorem State.dropCopy_ioq (s : State) (h : Holder) (line : Nat) : (s.dropCopy h line).ioq = s.ioq := rfl
@[simp] theorem State.dropCopy_pending (s : State) (h : Holder) (line : Nat) : (s.dropCopy h line).pending = s.pending := rfl
@[simp] theorem State.dropCopy_nextFid (s : State) (h : Holder) (line : Nat) : (s.dropCopy h line).nextFid = s.nextFid := rfl
@[simp] theorem State.dropCopy_fills (s : State) (h : Holder) (line : Nat) : (s.dropCopy h line).fills = s.fills := rfl
@[simp] theorem State.dropCopy_reserve (s : State) (h : Holder) (line : Nat) : (s.dropCopy h line).reserve = s.reserve := rfl
@[simp] theorem State.dropCopy_shoots (s : State) (h : Holder) (line : Nat) : (s.dropCopy h line).shoots = s.shoots := rfl
@[simp] theorem State.dropCopy_nextShoot (s : State) (h : Holder) (line : Nat) : (s.dropCopy h line).nextShoot = s.nextShoot := rfl
@[simp] theorem State.dropCopy_frameop (s : State) (h : Holder) (line : Nat) : (s.dropCopy h line).frameop = s.frameop := rfl
@[simp] theorem State.dropCopy_iocmds (s : State) (h : Holder) (line : Nat) : (s.dropCopy h line).iocmds = s.iocmds := rfl
@[simp] theorem State.dropCopy_iotold (s : State) (h : Holder) (line : Nat) : (s.dropCopy h line).iotold = s.iotold := rfl
@[simp] theorem State.dropCopy_priv (s : State) (h : Holder) (line : Nat) : (s.dropCopy h line).priv = s.priv := rfl
@[simp] theorem State.dropCopy_mgmt (s : State) (h : Holder) (line : Nat) : (s.dropCopy h line).mgmt = s.mgmt := rfl
@[simp] theorem State.dropCopy_owner (s : State) (h : Holder) (line : Nat) : (s.dropCopy h line).owner = s.owner := rfl
@[simp] theorem State.dropCopy_boot (s : State) (h : Holder) (line : Nat) : (s.dropCopy h line).boot = s.boot := rfl
@[simp] theorem State.dropCopy_fused (s : State) (h : Holder) (line : Nat) : (s.dropCopy h line).fused = s.fused := rfl
@[simp] theorem State.dropCopy_replay (s : State) (h : Holder) (line : Nat) : (s.dropCopy h line).replay = s.replay := rfl
@[simp] theorem State.dropCopy_epoch (s : State) (h : Holder) (line : Nat) : (s.dropCopy h line).epoch = s.epoch := rfl
@[simp] theorem State.dropCopy_flashEpochs (s : State) (h : Holder) (line : Nat) : (s.dropCopy h line).flashEpochs = s.flashEpochs := rfl
@[simp] theorem State.dropCopy_clk (s : State) (h : Holder) (line : Nat) : (s.dropCopy h line).clk = s.clk := rfl
@[simp] theorem State.dropCopy_tripped (s : State) (h : Holder) (line : Nat) : (s.dropCopy h line).tripped = s.tripped := rfl
@[simp] theorem State.dropCopy_cyc (s : State) (h : Holder) (line : Nat) : (s.dropCopy h line).cyc = s.cyc := rfl
@[simp] theorem State.dropCopy_ns (s : State) (h : Holder) (line : Nat) : (s.dropCopy h line).ns = s.ns := rfl
@[simp] theorem State.dropCopy_msixDue (s : State) (h : Holder) (line : Nat) : (s.dropCopy h line).msixDue = s.msixDue := rfl
@[simp] theorem State.dropCopy_hostOut (s : State) (h : Holder) (line : Nat) : (s.dropCopy h line).hostOut = s.hostOut := rfl
@[simp] theorem State.dropCopy_now (s : State) (h : Holder) (line : Nat) : (s.dropCopy h line).now = s.now := rfl
@[simp] theorem State.dropCopy_free (s : State) (h : Holder) (line : Nat) : (s.dropCopy h line).free = s.free := rfl
@[simp] theorem State.dropCopy_agenda (s : State) (h : Holder) (line : Nat) : (s.dropCopy h line).agenda = s.agenda := rfl

/-! ## `takeOut` -/

@[simp] theorem State.takeOut_mem (s : State) (core slot : Nat) (tids : List Nat) : (s.takeOut core slot tids).mem = s.mem := rfl
@[simp] theorem State.takeOut_below (s : State) (core slot : Nat) (tids : List Nat) : (s.takeOut core slot tids).below = s.below := rfl
@[simp] theorem State.takeOut_emptyLines (s : State) (core slot : Nat) (tids : List Nat) : (s.takeOut core slot tids).emptyLines = s.emptyLines := rfl
@[simp] theorem State.takeOut_poison (s : State) (core slot : Nat) (tids : List Nat) : (s.takeOut core slot tids).poison = s.poison := rfl
@[simp] theorem State.takeOut_copies (s : State) (core slot : Nat) (tids : List Nat) : (s.takeOut core slot tids).copies = s.copies := rfl
@[simp] theorem State.takeOut_owned (s : State) (core slot : Nat) (tids : List Nat) : (s.takeOut core slot tids).owned = s.owned := rfl
@[simp] theorem State.takeOut_contended (s : State) (core slot : Nat) (tids : List Nat) : (s.takeOut core slot tids).contended = s.contended := rfl
@[simp] theorem State.takeOut_hostHeld (s : State) (core slot : Nat) (tids : List Nat) : (s.takeOut core slot tids).hostHeld = s.hostHeld := rfl
@[simp] theorem State.takeOut_tlb (s : State) (core slot : Nat) (tids : List Nat) : (s.takeOut core slot tids).tlb = s.tlb := rfl
@[simp] theorem State.takeOut_icache (s : State) (core slot : Nat) (tids : List Nat) : (s.takeOut core slot tids).icache = s.icache := rfl
@[simp] theorem State.takeOut_blocks (s : State) (core slot : Nat) (tids : List Nat) : (s.takeOut core slot tids).blocks = s.blocks := rfl
@[simp] theorem State.takeOut_nextWarp (s : State) (core slot : Nat) (tids : List Nat) : (s.takeOut core slot tids).nextWarp = s.nextWarp := rfl
@[simp] theorem State.takeOut_nextTicket (s : State) (core slot : Nat) (tids : List Nat) : (s.takeOut core slot tids).nextTicket = s.nextTicket := rfl
@[simp] theorem State.takeOut_cur (s : State) (core slot : Nat) (tids : List Nat) : (s.takeOut core slot tids).cur = s.cur := rfl
@[simp] theorem State.takeOut_steps (s : State) (core slot : Nat) (tids : List Nat) : (s.takeOut core slot tids).steps = s.steps := rfl
@[simp] theorem State.takeOut_lastCast (s : State) (core slot : Nat) (tids : List Nat) : (s.takeOut core slot tids).lastCast = s.lastCast := rfl
@[simp] theorem State.takeOut_muls (s : State) (core slot : Nat) (tids : List Nat) : (s.takeOut core slot tids).muls = s.muls := rfl
@[simp] theorem State.takeOut_fetches (s : State) (core slot : Nat) (tids : List Nat) : (s.takeOut core slot tids).fetches = s.fetches := rfl
@[simp] theorem State.takeOut_obOps (s : State) (core slot : Nat) (tids : List Nat) : (s.takeOut core slot tids).obOps = s.obOps := rfl
@[simp] theorem State.takeOut_nextOb (s : State) (core slot : Nat) (tids : List Nat) : (s.takeOut core slot tids).nextOb = s.nextOb := rfl
@[simp] theorem State.takeOut_reuse (s : State) (core slot : Nat) (tids : List Nat) : (s.takeOut core slot tids).reuse = s.reuse := rfl
@[simp] theorem State.takeOut_linebuf (s : State) (core slot : Nat) (tids : List Nat) : (s.takeOut core slot tids).linebuf = s.linebuf := rfl
@[simp] theorem State.takeOut_turns (s : State) (core slot : Nat) (tids : List Nat) : (s.takeOut core slot tids).turns = s.turns := rfl
@[simp] theorem State.takeOut_selq (s : State) (core slot : Nat) (tids : List Nat) : (s.takeOut core slot tids).selq = s.selq := rfl
@[simp] theorem State.takeOut_launches (s : State) (core slot : Nat) (tids : List Nat) : (s.takeOut core slot tids).launches = s.launches := rfl
@[simp] theorem State.takeOut_nextLaunch (s : State) (core slot : Nat) (tids : List Nat) : (s.takeOut core slot tids).nextLaunch = s.nextLaunch := rfl
@[simp] theorem State.takeOut_lrings (s : State) (core slot : Nat) (tids : List Nat) : (s.takeOut core slot tids).lrings = s.lrings := rfl
@[simp] theorem State.takeOut_badRings (s : State) (core slot : Nat) (tids : List Nat) : (s.takeOut core slot tids).badRings = s.badRings := rfl
@[simp] theorem State.takeOut_consume (s : State) (core slot : Nat) (tids : List Nat) : (s.takeOut core slot tids).consume = s.consume := rfl
@[simp] theorem State.takeOut_reqs (s : State) (core slot : Nat) (tids : List Nat) : (s.takeOut core slot tids).reqs = s.reqs := rfl
@[simp] theorem State.takeOut_saved (s : State) (core slot : Nat) (tids : List Nat) : (s.takeOut core slot tids).saved = s.saved := rfl
@[simp] theorem State.takeOut_saving (s : State) (core slot : Nat) (tids : List Nat) : (s.takeOut core slot tids).saving = s.saving := rfl
@[simp] theorem State.takeOut_nextReq (s : State) (core slot : Nat) (tids : List Nat) : (s.takeOut core slot tids).nextReq = s.nextReq := rfl
@[simp] theorem State.takeOut_areas (s : State) (core slot : Nat) (tids : List Nat) : (s.takeOut core slot tids).areas = s.areas := rfl
@[simp] theorem State.takeOut_suspended (s : State) (core slot : Nat) (tids : List Nat) : (s.takeOut core slot tids).suspended = s.suspended := rfl
@[simp] theorem State.takeOut_adds (s : State) (core slot : Nat) (tids : List Nat) : (s.takeOut core slot tids).adds = s.adds := rfl
@[simp] theorem State.takeOut_batch (s : State) (core slot : Nat) (tids : List Nat) : (s.takeOut core slot tids).batch = s.batch := rfl
@[simp] theorem State.takeOut_stageq (s : State) (core slot : Nat) (tids : List Nat) : (s.takeOut core slot tids).stageq = s.stageq := rfl
@[simp] theorem State.takeOut_ioq (s : State) (core slot : Nat) (tids : List Nat) : (s.takeOut core slot tids).ioq = s.ioq := rfl
@[simp] theorem State.takeOut_pending (s : State) (core slot : Nat) (tids : List Nat) : (s.takeOut core slot tids).pending = s.pending := rfl
@[simp] theorem State.takeOut_nextFid (s : State) (core slot : Nat) (tids : List Nat) : (s.takeOut core slot tids).nextFid = s.nextFid := rfl
@[simp] theorem State.takeOut_fills (s : State) (core slot : Nat) (tids : List Nat) : (s.takeOut core slot tids).fills = s.fills := rfl
@[simp] theorem State.takeOut_reserve (s : State) (core slot : Nat) (tids : List Nat) : (s.takeOut core slot tids).reserve = s.reserve := rfl
@[simp] theorem State.takeOut_shoots (s : State) (core slot : Nat) (tids : List Nat) : (s.takeOut core slot tids).shoots = s.shoots := rfl
@[simp] theorem State.takeOut_nextShoot (s : State) (core slot : Nat) (tids : List Nat) : (s.takeOut core slot tids).nextShoot = s.nextShoot := rfl
@[simp] theorem State.takeOut_frameop (s : State) (core slot : Nat) (tids : List Nat) : (s.takeOut core slot tids).frameop = s.frameop := rfl
@[simp] theorem State.takeOut_iocmds (s : State) (core slot : Nat) (tids : List Nat) : (s.takeOut core slot tids).iocmds = s.iocmds := rfl
@[simp] theorem State.takeOut_iotold (s : State) (core slot : Nat) (tids : List Nat) : (s.takeOut core slot tids).iotold = s.iotold := rfl
@[simp] theorem State.takeOut_priv (s : State) (core slot : Nat) (tids : List Nat) : (s.takeOut core slot tids).priv = s.priv := rfl
@[simp] theorem State.takeOut_mgmt (s : State) (core slot : Nat) (tids : List Nat) : (s.takeOut core slot tids).mgmt = s.mgmt := rfl
@[simp] theorem State.takeOut_owner (s : State) (core slot : Nat) (tids : List Nat) : (s.takeOut core slot tids).owner = s.owner := rfl
@[simp] theorem State.takeOut_boot (s : State) (core slot : Nat) (tids : List Nat) : (s.takeOut core slot tids).boot = s.boot := rfl
@[simp] theorem State.takeOut_fused (s : State) (core slot : Nat) (tids : List Nat) : (s.takeOut core slot tids).fused = s.fused := rfl
@[simp] theorem State.takeOut_replay (s : State) (core slot : Nat) (tids : List Nat) : (s.takeOut core slot tids).replay = s.replay := rfl
@[simp] theorem State.takeOut_epoch (s : State) (core slot : Nat) (tids : List Nat) : (s.takeOut core slot tids).epoch = s.epoch := rfl
@[simp] theorem State.takeOut_flashEpochs (s : State) (core slot : Nat) (tids : List Nat) : (s.takeOut core slot tids).flashEpochs = s.flashEpochs := rfl
@[simp] theorem State.takeOut_clk (s : State) (core slot : Nat) (tids : List Nat) : (s.takeOut core slot tids).clk = s.clk := rfl
@[simp] theorem State.takeOut_tripped (s : State) (core slot : Nat) (tids : List Nat) : (s.takeOut core slot tids).tripped = s.tripped := rfl
@[simp] theorem State.takeOut_cyc (s : State) (core slot : Nat) (tids : List Nat) : (s.takeOut core slot tids).cyc = s.cyc := rfl
@[simp] theorem State.takeOut_ns (s : State) (core slot : Nat) (tids : List Nat) : (s.takeOut core slot tids).ns = s.ns := rfl
@[simp] theorem State.takeOut_msixDue (s : State) (core slot : Nat) (tids : List Nat) : (s.takeOut core slot tids).msixDue = s.msixDue := rfl
@[simp] theorem State.takeOut_hostOut (s : State) (core slot : Nat) (tids : List Nat) : (s.takeOut core slot tids).hostOut = s.hostOut := rfl
@[simp] theorem State.takeOut_now (s : State) (core slot : Nat) (tids : List Nat) : (s.takeOut core slot tids).now = s.now := rfl
@[simp] theorem State.takeOut_free (s : State) (core slot : Nat) (tids : List Nat) : (s.takeOut core slot tids).free = s.free := rfl
@[simp] theorem State.takeOut_agenda (s : State) (core slot : Nat) (tids : List Nat) : (s.takeOut core slot tids).agenda = s.agenda := rfl

/-! ## `wakeWhere` -/

@[simp] theorem State.wakeWhere_mem (s : State) (p : Block → Thread → Park → Bool) : (s.wakeWhere p).mem = s.mem := rfl
@[simp] theorem State.wakeWhere_below (s : State) (p : Block → Thread → Park → Bool) : (s.wakeWhere p).below = s.below := rfl
@[simp] theorem State.wakeWhere_emptyLines (s : State) (p : Block → Thread → Park → Bool) : (s.wakeWhere p).emptyLines = s.emptyLines := rfl
@[simp] theorem State.wakeWhere_poison (s : State) (p : Block → Thread → Park → Bool) : (s.wakeWhere p).poison = s.poison := rfl
@[simp] theorem State.wakeWhere_copies (s : State) (p : Block → Thread → Park → Bool) : (s.wakeWhere p).copies = s.copies := rfl
@[simp] theorem State.wakeWhere_owned (s : State) (p : Block → Thread → Park → Bool) : (s.wakeWhere p).owned = s.owned := rfl
@[simp] theorem State.wakeWhere_contended (s : State) (p : Block → Thread → Park → Bool) : (s.wakeWhere p).contended = s.contended := rfl
@[simp] theorem State.wakeWhere_hostHeld (s : State) (p : Block → Thread → Park → Bool) : (s.wakeWhere p).hostHeld = s.hostHeld := rfl
@[simp] theorem State.wakeWhere_tlb (s : State) (p : Block → Thread → Park → Bool) : (s.wakeWhere p).tlb = s.tlb := rfl
@[simp] theorem State.wakeWhere_icache (s : State) (p : Block → Thread → Park → Bool) : (s.wakeWhere p).icache = s.icache := rfl
@[simp] theorem State.wakeWhere_warps (s : State) (p : Block → Thread → Park → Bool) : (s.wakeWhere p).warps = s.warps := rfl
@[simp] theorem State.wakeWhere_nextWarp (s : State) (p : Block → Thread → Park → Bool) : (s.wakeWhere p).nextWarp = s.nextWarp := rfl
@[simp] theorem State.wakeWhere_nextTicket (s : State) (p : Block → Thread → Park → Bool) : (s.wakeWhere p).nextTicket = s.nextTicket := rfl
@[simp] theorem State.wakeWhere_cur (s : State) (p : Block → Thread → Park → Bool) : (s.wakeWhere p).cur = s.cur := rfl
@[simp] theorem State.wakeWhere_steps (s : State) (p : Block → Thread → Park → Bool) : (s.wakeWhere p).steps = s.steps := rfl
@[simp] theorem State.wakeWhere_lastCast (s : State) (p : Block → Thread → Park → Bool) : (s.wakeWhere p).lastCast = s.lastCast := rfl
@[simp] theorem State.wakeWhere_muls (s : State) (p : Block → Thread → Park → Bool) : (s.wakeWhere p).muls = s.muls := rfl
@[simp] theorem State.wakeWhere_fetches (s : State) (p : Block → Thread → Park → Bool) : (s.wakeWhere p).fetches = s.fetches := rfl
@[simp] theorem State.wakeWhere_obOps (s : State) (p : Block → Thread → Park → Bool) : (s.wakeWhere p).obOps = s.obOps := rfl
@[simp] theorem State.wakeWhere_nextOb (s : State) (p : Block → Thread → Park → Bool) : (s.wakeWhere p).nextOb = s.nextOb := rfl
@[simp] theorem State.wakeWhere_reuse (s : State) (p : Block → Thread → Park → Bool) : (s.wakeWhere p).reuse = s.reuse := rfl
@[simp] theorem State.wakeWhere_linebuf (s : State) (p : Block → Thread → Park → Bool) : (s.wakeWhere p).linebuf = s.linebuf := rfl
@[simp] theorem State.wakeWhere_turns (s : State) (p : Block → Thread → Park → Bool) : (s.wakeWhere p).turns = s.turns := rfl
@[simp] theorem State.wakeWhere_selq (s : State) (p : Block → Thread → Park → Bool) : (s.wakeWhere p).selq = s.selq := rfl
@[simp] theorem State.wakeWhere_launches (s : State) (p : Block → Thread → Park → Bool) : (s.wakeWhere p).launches = s.launches := rfl
@[simp] theorem State.wakeWhere_nextLaunch (s : State) (p : Block → Thread → Park → Bool) : (s.wakeWhere p).nextLaunch = s.nextLaunch := rfl
@[simp] theorem State.wakeWhere_lrings (s : State) (p : Block → Thread → Park → Bool) : (s.wakeWhere p).lrings = s.lrings := rfl
@[simp] theorem State.wakeWhere_badRings (s : State) (p : Block → Thread → Park → Bool) : (s.wakeWhere p).badRings = s.badRings := rfl
@[simp] theorem State.wakeWhere_consume (s : State) (p : Block → Thread → Park → Bool) : (s.wakeWhere p).consume = s.consume := rfl
@[simp] theorem State.wakeWhere_reqs (s : State) (p : Block → Thread → Park → Bool) : (s.wakeWhere p).reqs = s.reqs := rfl
@[simp] theorem State.wakeWhere_saved (s : State) (p : Block → Thread → Park → Bool) : (s.wakeWhere p).saved = s.saved := rfl
@[simp] theorem State.wakeWhere_saving (s : State) (p : Block → Thread → Park → Bool) : (s.wakeWhere p).saving = s.saving := rfl
@[simp] theorem State.wakeWhere_nextReq (s : State) (p : Block → Thread → Park → Bool) : (s.wakeWhere p).nextReq = s.nextReq := rfl
@[simp] theorem State.wakeWhere_areas (s : State) (p : Block → Thread → Park → Bool) : (s.wakeWhere p).areas = s.areas := rfl
@[simp] theorem State.wakeWhere_suspended (s : State) (p : Block → Thread → Park → Bool) : (s.wakeWhere p).suspended = s.suspended := rfl
@[simp] theorem State.wakeWhere_adds (s : State) (p : Block → Thread → Park → Bool) : (s.wakeWhere p).adds = s.adds := rfl
@[simp] theorem State.wakeWhere_batch (s : State) (p : Block → Thread → Park → Bool) : (s.wakeWhere p).batch = s.batch := rfl
@[simp] theorem State.wakeWhere_stageq (s : State) (p : Block → Thread → Park → Bool) : (s.wakeWhere p).stageq = s.stageq := rfl
@[simp] theorem State.wakeWhere_ioq (s : State) (p : Block → Thread → Park → Bool) : (s.wakeWhere p).ioq = s.ioq := rfl
@[simp] theorem State.wakeWhere_pending (s : State) (p : Block → Thread → Park → Bool) : (s.wakeWhere p).pending = s.pending := rfl
@[simp] theorem State.wakeWhere_nextFid (s : State) (p : Block → Thread → Park → Bool) : (s.wakeWhere p).nextFid = s.nextFid := rfl
@[simp] theorem State.wakeWhere_fills (s : State) (p : Block → Thread → Park → Bool) : (s.wakeWhere p).fills = s.fills := rfl
@[simp] theorem State.wakeWhere_reserve (s : State) (p : Block → Thread → Park → Bool) : (s.wakeWhere p).reserve = s.reserve := rfl
@[simp] theorem State.wakeWhere_shoots (s : State) (p : Block → Thread → Park → Bool) : (s.wakeWhere p).shoots = s.shoots := rfl
@[simp] theorem State.wakeWhere_nextShoot (s : State) (p : Block → Thread → Park → Bool) : (s.wakeWhere p).nextShoot = s.nextShoot := rfl
@[simp] theorem State.wakeWhere_frameop (s : State) (p : Block → Thread → Park → Bool) : (s.wakeWhere p).frameop = s.frameop := rfl
@[simp] theorem State.wakeWhere_iocmds (s : State) (p : Block → Thread → Park → Bool) : (s.wakeWhere p).iocmds = s.iocmds := rfl
@[simp] theorem State.wakeWhere_iotold (s : State) (p : Block → Thread → Park → Bool) : (s.wakeWhere p).iotold = s.iotold := rfl
@[simp] theorem State.wakeWhere_priv (s : State) (p : Block → Thread → Park → Bool) : (s.wakeWhere p).priv = s.priv := rfl
@[simp] theorem State.wakeWhere_mgmt (s : State) (p : Block → Thread → Park → Bool) : (s.wakeWhere p).mgmt = s.mgmt := rfl
@[simp] theorem State.wakeWhere_owner (s : State) (p : Block → Thread → Park → Bool) : (s.wakeWhere p).owner = s.owner := rfl
@[simp] theorem State.wakeWhere_boot (s : State) (p : Block → Thread → Park → Bool) : (s.wakeWhere p).boot = s.boot := rfl
@[simp] theorem State.wakeWhere_fused (s : State) (p : Block → Thread → Park → Bool) : (s.wakeWhere p).fused = s.fused := rfl
@[simp] theorem State.wakeWhere_replay (s : State) (p : Block → Thread → Park → Bool) : (s.wakeWhere p).replay = s.replay := rfl
@[simp] theorem State.wakeWhere_epoch (s : State) (p : Block → Thread → Park → Bool) : (s.wakeWhere p).epoch = s.epoch := rfl
@[simp] theorem State.wakeWhere_flashEpochs (s : State) (p : Block → Thread → Park → Bool) : (s.wakeWhere p).flashEpochs = s.flashEpochs := rfl
@[simp] theorem State.wakeWhere_clk (s : State) (p : Block → Thread → Park → Bool) : (s.wakeWhere p).clk = s.clk := rfl
@[simp] theorem State.wakeWhere_tripped (s : State) (p : Block → Thread → Park → Bool) : (s.wakeWhere p).tripped = s.tripped := rfl
@[simp] theorem State.wakeWhere_cyc (s : State) (p : Block → Thread → Park → Bool) : (s.wakeWhere p).cyc = s.cyc := rfl
@[simp] theorem State.wakeWhere_ns (s : State) (p : Block → Thread → Park → Bool) : (s.wakeWhere p).ns = s.ns := rfl
@[simp] theorem State.wakeWhere_msixDue (s : State) (p : Block → Thread → Park → Bool) : (s.wakeWhere p).msixDue = s.msixDue := rfl
@[simp] theorem State.wakeWhere_hostOut (s : State) (p : Block → Thread → Park → Bool) : (s.wakeWhere p).hostOut = s.hostOut := rfl
@[simp] theorem State.wakeWhere_now (s : State) (p : Block → Thread → Park → Bool) : (s.wakeWhere p).now = s.now := rfl
@[simp] theorem State.wakeWhere_free (s : State) (p : Block → Thread → Park → Bool) : (s.wakeWhere p).free = s.free := rfl
@[simp] theorem State.wakeWhere_agenda (s : State) (p : Block → Thread → Park → Bool) : (s.wakeWhere p).agenda = s.agenda := rfl

/-! ## `setEmpty` -/

@[simp] theorem State.setEmpty_mem (s : State) (lines : List Nat) : (s.setEmpty lines).mem = s.mem := rfl
@[simp] theorem State.setEmpty_below (s : State) (lines : List Nat) : (s.setEmpty lines).below = s.below := rfl
@[simp] theorem State.setEmpty_poison (s : State) (lines : List Nat) : (s.setEmpty lines).poison = s.poison := rfl
@[simp] theorem State.setEmpty_copies (s : State) (lines : List Nat) : (s.setEmpty lines).copies = s.copies := rfl
@[simp] theorem State.setEmpty_owned (s : State) (lines : List Nat) : (s.setEmpty lines).owned = s.owned := rfl
@[simp] theorem State.setEmpty_contended (s : State) (lines : List Nat) : (s.setEmpty lines).contended = s.contended := rfl
@[simp] theorem State.setEmpty_hostHeld (s : State) (lines : List Nat) : (s.setEmpty lines).hostHeld = s.hostHeld := rfl
@[simp] theorem State.setEmpty_tlb (s : State) (lines : List Nat) : (s.setEmpty lines).tlb = s.tlb := rfl
@[simp] theorem State.setEmpty_icache (s : State) (lines : List Nat) : (s.setEmpty lines).icache = s.icache := rfl
@[simp] theorem State.setEmpty_blocks (s : State) (lines : List Nat) : (s.setEmpty lines).blocks = s.blocks := rfl
@[simp] theorem State.setEmpty_warps (s : State) (lines : List Nat) : (s.setEmpty lines).warps = s.warps := rfl
@[simp] theorem State.setEmpty_nextWarp (s : State) (lines : List Nat) : (s.setEmpty lines).nextWarp = s.nextWarp := rfl
@[simp] theorem State.setEmpty_nextTicket (s : State) (lines : List Nat) : (s.setEmpty lines).nextTicket = s.nextTicket := rfl
@[simp] theorem State.setEmpty_cur (s : State) (lines : List Nat) : (s.setEmpty lines).cur = s.cur := rfl
@[simp] theorem State.setEmpty_steps (s : State) (lines : List Nat) : (s.setEmpty lines).steps = s.steps := rfl
@[simp] theorem State.setEmpty_lastCast (s : State) (lines : List Nat) : (s.setEmpty lines).lastCast = s.lastCast := rfl
@[simp] theorem State.setEmpty_muls (s : State) (lines : List Nat) : (s.setEmpty lines).muls = s.muls := rfl
@[simp] theorem State.setEmpty_fetches (s : State) (lines : List Nat) : (s.setEmpty lines).fetches = s.fetches := rfl
@[simp] theorem State.setEmpty_obOps (s : State) (lines : List Nat) : (s.setEmpty lines).obOps = s.obOps := rfl
@[simp] theorem State.setEmpty_nextOb (s : State) (lines : List Nat) : (s.setEmpty lines).nextOb = s.nextOb := rfl
@[simp] theorem State.setEmpty_reuse (s : State) (lines : List Nat) : (s.setEmpty lines).reuse = s.reuse := rfl
@[simp] theorem State.setEmpty_linebuf (s : State) (lines : List Nat) : (s.setEmpty lines).linebuf = s.linebuf := rfl
@[simp] theorem State.setEmpty_turns (s : State) (lines : List Nat) : (s.setEmpty lines).turns = s.turns := rfl
@[simp] theorem State.setEmpty_selq (s : State) (lines : List Nat) : (s.setEmpty lines).selq = s.selq := rfl
@[simp] theorem State.setEmpty_launches (s : State) (lines : List Nat) : (s.setEmpty lines).launches = s.launches := rfl
@[simp] theorem State.setEmpty_nextLaunch (s : State) (lines : List Nat) : (s.setEmpty lines).nextLaunch = s.nextLaunch := rfl
@[simp] theorem State.setEmpty_lrings (s : State) (lines : List Nat) : (s.setEmpty lines).lrings = s.lrings := rfl
@[simp] theorem State.setEmpty_badRings (s : State) (lines : List Nat) : (s.setEmpty lines).badRings = s.badRings := rfl
@[simp] theorem State.setEmpty_consume (s : State) (lines : List Nat) : (s.setEmpty lines).consume = s.consume := rfl
@[simp] theorem State.setEmpty_reqs (s : State) (lines : List Nat) : (s.setEmpty lines).reqs = s.reqs := rfl
@[simp] theorem State.setEmpty_saved (s : State) (lines : List Nat) : (s.setEmpty lines).saved = s.saved := rfl
@[simp] theorem State.setEmpty_saving (s : State) (lines : List Nat) : (s.setEmpty lines).saving = s.saving := rfl
@[simp] theorem State.setEmpty_nextReq (s : State) (lines : List Nat) : (s.setEmpty lines).nextReq = s.nextReq := rfl
@[simp] theorem State.setEmpty_areas (s : State) (lines : List Nat) : (s.setEmpty lines).areas = s.areas := rfl
@[simp] theorem State.setEmpty_suspended (s : State) (lines : List Nat) : (s.setEmpty lines).suspended = s.suspended := rfl
@[simp] theorem State.setEmpty_adds (s : State) (lines : List Nat) : (s.setEmpty lines).adds = s.adds := rfl
@[simp] theorem State.setEmpty_batch (s : State) (lines : List Nat) : (s.setEmpty lines).batch = s.batch := rfl
@[simp] theorem State.setEmpty_stageq (s : State) (lines : List Nat) : (s.setEmpty lines).stageq = s.stageq := rfl
@[simp] theorem State.setEmpty_ioq (s : State) (lines : List Nat) : (s.setEmpty lines).ioq = s.ioq := rfl
@[simp] theorem State.setEmpty_pending (s : State) (lines : List Nat) : (s.setEmpty lines).pending = s.pending := rfl
@[simp] theorem State.setEmpty_nextFid (s : State) (lines : List Nat) : (s.setEmpty lines).nextFid = s.nextFid := rfl
@[simp] theorem State.setEmpty_fills (s : State) (lines : List Nat) : (s.setEmpty lines).fills = s.fills := rfl
@[simp] theorem State.setEmpty_reserve (s : State) (lines : List Nat) : (s.setEmpty lines).reserve = s.reserve := rfl
@[simp] theorem State.setEmpty_shoots (s : State) (lines : List Nat) : (s.setEmpty lines).shoots = s.shoots := rfl
@[simp] theorem State.setEmpty_nextShoot (s : State) (lines : List Nat) : (s.setEmpty lines).nextShoot = s.nextShoot := rfl
@[simp] theorem State.setEmpty_frameop (s : State) (lines : List Nat) : (s.setEmpty lines).frameop = s.frameop := rfl
@[simp] theorem State.setEmpty_iocmds (s : State) (lines : List Nat) : (s.setEmpty lines).iocmds = s.iocmds := rfl
@[simp] theorem State.setEmpty_iotold (s : State) (lines : List Nat) : (s.setEmpty lines).iotold = s.iotold := rfl
@[simp] theorem State.setEmpty_priv (s : State) (lines : List Nat) : (s.setEmpty lines).priv = s.priv := rfl
@[simp] theorem State.setEmpty_mgmt (s : State) (lines : List Nat) : (s.setEmpty lines).mgmt = s.mgmt := rfl
@[simp] theorem State.setEmpty_owner (s : State) (lines : List Nat) : (s.setEmpty lines).owner = s.owner := rfl
@[simp] theorem State.setEmpty_boot (s : State) (lines : List Nat) : (s.setEmpty lines).boot = s.boot := rfl
@[simp] theorem State.setEmpty_fused (s : State) (lines : List Nat) : (s.setEmpty lines).fused = s.fused := rfl
@[simp] theorem State.setEmpty_replay (s : State) (lines : List Nat) : (s.setEmpty lines).replay = s.replay := rfl
@[simp] theorem State.setEmpty_epoch (s : State) (lines : List Nat) : (s.setEmpty lines).epoch = s.epoch := rfl
@[simp] theorem State.setEmpty_flashEpochs (s : State) (lines : List Nat) : (s.setEmpty lines).flashEpochs = s.flashEpochs := rfl
@[simp] theorem State.setEmpty_clk (s : State) (lines : List Nat) : (s.setEmpty lines).clk = s.clk := rfl
@[simp] theorem State.setEmpty_tripped (s : State) (lines : List Nat) : (s.setEmpty lines).tripped = s.tripped := rfl
@[simp] theorem State.setEmpty_cyc (s : State) (lines : List Nat) : (s.setEmpty lines).cyc = s.cyc := rfl
@[simp] theorem State.setEmpty_ns (s : State) (lines : List Nat) : (s.setEmpty lines).ns = s.ns := rfl
@[simp] theorem State.setEmpty_msixDue (s : State) (lines : List Nat) : (s.setEmpty lines).msixDue = s.msixDue := rfl
@[simp] theorem State.setEmpty_hostOut (s : State) (lines : List Nat) : (s.setEmpty lines).hostOut = s.hostOut := rfl
@[simp] theorem State.setEmpty_now (s : State) (lines : List Nat) : (s.setEmpty lines).now = s.now := rfl
@[simp] theorem State.setEmpty_free (s : State) (lines : List Nat) : (s.setEmpty lines).free = s.free := rfl
@[simp] theorem State.setEmpty_agenda (s : State) (lines : List Nat) : (s.setEmpty lines).agenda = s.agenda := rfl

/-! ## `tick` -/

@[simp] theorem State.tick_mem (s : State) : s.tick.mem = s.mem := rfl
@[simp] theorem State.tick_below (s : State) : s.tick.below = s.below := rfl
@[simp] theorem State.tick_emptyLines (s : State) : s.tick.emptyLines = s.emptyLines := rfl
@[simp] theorem State.tick_poison (s : State) : s.tick.poison = s.poison := rfl
@[simp] theorem State.tick_copies (s : State) : s.tick.copies = s.copies := rfl
@[simp] theorem State.tick_owned (s : State) : s.tick.owned = s.owned := rfl
@[simp] theorem State.tick_contended (s : State) : s.tick.contended = s.contended := rfl
@[simp] theorem State.tick_hostHeld (s : State) : s.tick.hostHeld = s.hostHeld := rfl
@[simp] theorem State.tick_tlb (s : State) : s.tick.tlb = s.tlb := rfl
@[simp] theorem State.tick_icache (s : State) : s.tick.icache = s.icache := rfl
@[simp] theorem State.tick_blocks (s : State) : s.tick.blocks = s.blocks := rfl
@[simp] theorem State.tick_warps (s : State) : s.tick.warps = s.warps := rfl
@[simp] theorem State.tick_nextWarp (s : State) : s.tick.nextWarp = s.nextWarp := rfl
@[simp] theorem State.tick_nextTicket (s : State) : s.tick.nextTicket = s.nextTicket := rfl
@[simp] theorem State.tick_cur (s : State) : s.tick.cur = s.cur := rfl
@[simp] theorem State.tick_steps (s : State) : s.tick.steps = s.steps := rfl
@[simp] theorem State.tick_lastCast (s : State) : s.tick.lastCast = s.lastCast := rfl
@[simp] theorem State.tick_muls (s : State) : s.tick.muls = s.muls := rfl
@[simp] theorem State.tick_fetches (s : State) : s.tick.fetches = s.fetches := rfl
@[simp] theorem State.tick_obOps (s : State) : s.tick.obOps = s.obOps := rfl
@[simp] theorem State.tick_nextOb (s : State) : s.tick.nextOb = s.nextOb := rfl
@[simp] theorem State.tick_reuse (s : State) : s.tick.reuse = s.reuse := rfl
@[simp] theorem State.tick_linebuf (s : State) : s.tick.linebuf = s.linebuf := rfl
@[simp] theorem State.tick_turns (s : State) : s.tick.turns = s.turns := rfl
@[simp] theorem State.tick_selq (s : State) : s.tick.selq = s.selq := rfl
@[simp] theorem State.tick_launches (s : State) : s.tick.launches = s.launches := rfl
@[simp] theorem State.tick_nextLaunch (s : State) : s.tick.nextLaunch = s.nextLaunch := rfl
@[simp] theorem State.tick_lrings (s : State) : s.tick.lrings = s.lrings := rfl
@[simp] theorem State.tick_badRings (s : State) : s.tick.badRings = s.badRings := rfl
@[simp] theorem State.tick_consume (s : State) : s.tick.consume = s.consume := rfl
@[simp] theorem State.tick_reqs (s : State) : s.tick.reqs = s.reqs := rfl
@[simp] theorem State.tick_saved (s : State) : s.tick.saved = s.saved := rfl
@[simp] theorem State.tick_saving (s : State) : s.tick.saving = s.saving := rfl
@[simp] theorem State.tick_nextReq (s : State) : s.tick.nextReq = s.nextReq := rfl
@[simp] theorem State.tick_areas (s : State) : s.tick.areas = s.areas := rfl
@[simp] theorem State.tick_suspended (s : State) : s.tick.suspended = s.suspended := rfl
@[simp] theorem State.tick_adds (s : State) : s.tick.adds = s.adds := rfl
@[simp] theorem State.tick_batch (s : State) : s.tick.batch = s.batch := rfl
@[simp] theorem State.tick_stageq (s : State) : s.tick.stageq = s.stageq := rfl
@[simp] theorem State.tick_ioq (s : State) : s.tick.ioq = s.ioq := rfl
@[simp] theorem State.tick_pending (s : State) : s.tick.pending = s.pending := rfl
@[simp] theorem State.tick_nextFid (s : State) : s.tick.nextFid = s.nextFid := rfl
@[simp] theorem State.tick_fills (s : State) : s.tick.fills = s.fills := rfl
@[simp] theorem State.tick_reserve (s : State) : s.tick.reserve = s.reserve := rfl
@[simp] theorem State.tick_shoots (s : State) : s.tick.shoots = s.shoots := rfl
@[simp] theorem State.tick_nextShoot (s : State) : s.tick.nextShoot = s.nextShoot := rfl
@[simp] theorem State.tick_frameop (s : State) : s.tick.frameop = s.frameop := rfl
@[simp] theorem State.tick_iocmds (s : State) : s.tick.iocmds = s.iocmds := rfl
@[simp] theorem State.tick_iotold (s : State) : s.tick.iotold = s.iotold := rfl
@[simp] theorem State.tick_priv (s : State) : s.tick.priv = s.priv := rfl
@[simp] theorem State.tick_mgmt (s : State) : s.tick.mgmt = s.mgmt := rfl
@[simp] theorem State.tick_owner (s : State) : s.tick.owner = s.owner := rfl
@[simp] theorem State.tick_boot (s : State) : s.tick.boot = s.boot := rfl
@[simp] theorem State.tick_fused (s : State) : s.tick.fused = s.fused := rfl
@[simp] theorem State.tick_replay (s : State) : s.tick.replay = s.replay := rfl
@[simp] theorem State.tick_epoch (s : State) : s.tick.epoch = s.epoch := rfl
@[simp] theorem State.tick_flashEpochs (s : State) : s.tick.flashEpochs = s.flashEpochs := rfl
@[simp] theorem State.tick_clk (s : State) : s.tick.clk = s.clk := rfl
@[simp] theorem State.tick_tripped (s : State) : s.tick.tripped = s.tripped := rfl
@[simp] theorem State.tick_msixDue (s : State) : s.tick.msixDue = s.msixDue := rfl
@[simp] theorem State.tick_hostOut (s : State) : s.tick.hostOut = s.hostOut := rfl
@[simp] theorem State.tick_free (s : State) : s.tick.free = s.free := rfl
@[simp] theorem State.tick_agenda (s : State) : s.tick.agenda = s.agenda := rfl

@[simp] theorem State.rawWrite_mem (s : State) (k : Nat) (bs : List Byte) :
    (s.rawWrite k bs).mem = memWrite s.mem k bs := rfl
@[simp] theorem State.rawWrite_below (s : State) (k : Nat) (bs : List Byte) :
    (s.rawWrite k bs).below = s.keptBelow k bs.length := rfl
@[simp] theorem State.homeWrite_below (s : State) (k : Nat) (bs : List Byte) :
    (s.homeWrite k bs).below = s.keptBelow k bs.length := rfl
/-- Without a line in a home slice nothing is kept. -/
theorem State.keptBelow_of_no_copies (s : State) (k n : Nat) (h : s.copies = []) : s.keptBelow k n = s.below := by
  simp [State.keptBelow, h]
@[simp] theorem State.homeWrite_mem (s : State) (k : Nat) (bs : List Byte) :
    (s.homeWrite k bs).mem = memWrite s.mem k bs := rfl
@[simp] theorem State.tick_now (s : State) : s.tick.now = s.now + 1 := rfl
@[simp] theorem State.tick_ns (s : State) : s.tick.ns = s.ns + Config.nanos s.now := rfl

theorem State.modBlock_blocks (s : State) (core slot : Nat) (f : Block → Block) :
    (s.modBlock core slot f).blocks = mapIf (fun b => b.core == core && b.slot == slot) f s.blocks := rfl

end Sys2Proof.Machine
end

