-- ==== Sys2Proof/Laws/Lanes.lean ====
section
/-!
SUPPORT. Lanes.lean: what the operations that act on the executing threads do, said once for all instructions that use
them.
-/
namespace Sys2Proof.Machine

theorem find_mapIf_other {α : Type} (p q : α → Bool) (f : α → α) (l : List α)
    (hq : ∀ x ∈ l, q x = true → p x = false) (hf : ∀ x ∈ l, p x = true → q (f x) = false) :
    (mapIf p f l).find? q = l.find? q := by
  induction l with
  | nil => rfl
  | cons a l ih =>
    have ih := ih (fun x h => hq x (by simp [h])) (fun x h => hf x (by simp [h]))
    simp only [mapIf, List.map_cons] at ih ⊢
    cases hp : p a with
    | false => simp only [Bool.false_eq_true, if_false, List.find?_cons]; rw [ih]
    | true =>
      have h1 := hf a (by simp) hp
      have h2 : q a = false := by
        cases h : q a with
        | false => rfl
        | true => exact absurd (hq a (by simp) h) (by simp [hp])
      simp only [if_true, List.find?_cons, h1, h2]
      exact ih

theorem find_mapIf_same {α : Type} (p : α → Bool) (f : α → α) (l : List α) (a : α)
    (hf : ∀ x ∈ l, p x = true → p (f x) = true) (h : l.find? p = some a) : (mapIf p f l).find? p = some (f a) := by
  induction l with
  | nil => cases h
  | cons x l ih =>
    simp only [mapIf, List.map_cons]
    cases hp : p x with
    | true =>
      rw [List.find?_cons, hp] at h
      cases h
      simp [hf a (by simp) hp]
    | false =>
      rw [List.find?_cons, hp] at h
      simp only [Bool.false_eq_true, if_false, List.find?_cons, hp]
      exact ih (fun y hy => hf y (by simp [hy])) h

theorem State.block?_where {s : State} {core slot : Nat} {b : Block} (h : s.block? core slot = some b) :
    b.core = core ∧ b.slot = slot := by
  have := List.find?_some h
  simpa using this

/-- The block in a slot after a change of it. -/
theorem State.modBlock_block? {s : State} {core slot : Nat} {f : Block → Block} {b : Block}
    (h : s.block? core slot = some b) (hf : ∀ x, (f x).core = x.core ∧ (f x).slot = x.slot) :
    (s.modBlock core slot f).block? core slot = some (f b) := by
  refine find_mapIf_same _ f s.blocks b ?_ h
  intro x _ hx
  simpa [(hf x).1, (hf x).2] using hx

/-- A change of one block leaves every other one. -/
theorem State.modBlock_other (s : State) {core slot core' slot' : Nat} {f : Block → Block}
    (hf : ∀ x, (f x).core = x.core ∧ (f x).slot = x.slot) (h : ¬(core' = core ∧ slot' = slot)) :
    (s.modBlock core slot f).block? core' slot' = s.block? core' slot' := by
  refine find_mapIf_other _ _ f s.blocks ?_ ?_
  · intro x _ hx
    simp only [Bool.and_eq_true, beq_iff_eq] at hx
    simp only [Bool.and_eq_false_iff, beq_eq_false_iff_ne]
    by_cases h1 : x.core = core
    · exact Or.inr fun h2 => h ⟨hx.1 ▸ h1, hx.2 ▸ h2⟩
    · exact Or.inl h1
  · intro x _ hx
    simp only [Bool.and_eq_true, beq_iff_eq] at hx
    simp only [(hf x).1, (hf x).2, Bool.and_eq_false_iff, beq_eq_false_iff_ne]
    by_cases h1 : x.core = core'
    · exact Or.inr fun h2 => h ⟨h1 ▸ hx.1, h2 ▸ hx.2⟩
    · exact Or.inl h1

/-- A change of one block is a change of the blocks alone. -/
theorem State.modBlock_same (s : State) (c : Cur) {f : Block → Block}
    (hf : ∀ x, (f x).core = x.core ∧ (f x).slot = x.slot) : SameButBlock s (s.modBlock c.core c.slot f) c :=
  ⟨rfl, fun _ _ h => s.modBlock_other hf h⟩

theorem Block.thread?_tid {b : Block} {tid : Nat} {t : Thread} (h : b.thread? tid = some t) : t.tid = tid := by
  have := List.find?_some h
  simpa using this

/-- A thread of a block whose threads are changed one by one, each keeping its TID. -/
theorem Block.thread?_map (b : Block) (f : Thread → Thread) (hf : ∀ t, (f t).tid = t.tid) (tid : Nat) :
    ({ b with threads := b.threads.map f } : Block).thread? tid = (b.thread? tid).map f := by
  simp only [Block.thread?]
  induction b.threads with
  | nil => rfl
  | cons t l ih =>
    simp only [List.map_cons, List.find?_cons, hf]
    cases t.tid == tid <;> simp [ih]

/-- The executing lane that a thread stands in, where no thread executes twice. -/
theorem find_act {act : List (Nat × Nat)} (h : (act.map (·.2)).Nodup) {m : Nat × Nat} (hm : m ∈ act) :
    act.find? (fun x => x.2 == m.2) = some m := by
  induction act with
  | nil => cases hm
  | cons a r ih =>
    simp only [List.map_cons, List.nodup_cons] at h
    rcases List.mem_cons.mp hm with rfl | hm
    · simp
    · have hne : (a.2 == m.2) = false := by
        simp only [beq_eq_false_iff_ne]
        intro he
        exact h.1 (he ▸ List.mem_map_of_mem hm)
      simp only [List.find?_cons, hne]
      exact ih h.2 hm

theorem find_act_none {act : List (Nat × Nat)} {tid : Nat} (h : tid ∉ act.map (·.2)) :
    act.find? (fun x => x.2 == tid) = none := by
  rw [List.find?_eq_none]
  intro x hx he
  exact h (List.mem_map.mpr ⟨x, hx, by simpa using he⟩)

/-- What an executing lane is. -/
theorem Runs.lane {s : State} {c : Cur} {b : Block} (h : Runs s c b) {l : LaneCtx} (hl : l ∈ s.lanes) :
    (l.lane, l.t.tid) ∈ c.act ∧ b.thread? l.t.tid = some l.t ∧ l = s.see b l.lane l.t := by
  simp only [State.lanes, h.cur, h.block, List.mem_filterMap] at hl
  obtain ⟨⟨ln, tid⟩, hm, he⟩ := hl
  simp only [Option.map_eq_some_iff] at he
  obtain ⟨t, ht, rfl⟩ := he
  have := Block.thread?_tid ht
  refine ⟨?_, ?_, rfl⟩ <;> simpa [this] using (by assumption)

theorem Cur.onThread_tid (c : Cur) (b : Block) (cyc : Nat) (good : LaneCtx → Bool) (f : LaneCtx → Thread)
    (hf : ∀ l, (f l).tid = l.t.tid) (t : Thread) : (c.onThread b cyc good f t).tid = t.tid := by
  simp only [Cur.onThread]
  split
  · split <;> simp [hf]
  · rfl

/-- What changing the executing threads that a test admits does. -/
theorem State.vecOf_spec {s : State} {c : Cur} {b : Block} (h : Runs s c b) (good : LaneCtx → Bool)
    (f : LaneCtx → Thread) (hf : ∀ l, (f l).tid = l.t.tid) :
    OnlyThreads s (s.vecOf good f) c b ∧
      ∀ l ∈ s.lanes, (s.vecOf good f).thread? c.core c.slot l.t.tid =
        some (if good l then { f l with pc := c.nextPc } else l.t) := by
  have hv : s.vecOf good f = s.modBlock c.core c.slot fun b =>
      { b with threads := b.threads.map (c.onThread b (s.cycOf b.die) good f) } := by
    simp only [State.vecOf, h.cur]
  have hb := State.modBlock_block? (f := fun b : Block =>
      { b with threads := b.threads.map (c.onThread b (s.cycOf b.die) good f) }) h.block (fun _ => ⟨rfl, rfl⟩)
  rw [hv]
  refine ⟨⟨s.modBlock_same c fun _ => ⟨rfl, rfl⟩, _, hb, rfl, ?_⟩, ?_⟩
  · intro tid hn
    rw [Block.thread?_map b _ (Cur.onThread_tid c b _ good f hf)]
    cases ht : b.thread? tid with
    | none => rfl
    | some t =>
      have := Block.thread?_tid ht
      simp only [Option.map_some, Cur.onThread, this, find_act_none hn]
  · intro l hl
    obtain ⟨hm, ht, hs⟩ := h.lane hl
    simp only [State.thread?, hb, Option.bind_some, Block.thread?_map b _ (Cur.onThread_tid c b _ good f hf), ht,
      Option.map_some, Cur.onThread]
    have hfa := find_act h.once hm
    simp only at hfa
    rw [hfa, hs]
    rfl

/-- What acting on each executing thread alone does. -/
theorem State.vec_spec {s : State} {c : Cur} {b : Block} (h : Runs s c b) (f : LaneCtx → Thread)
    (hf : ∀ l, (f l).tid = l.t.tid) :
    OnlyThreads s (s.vec f) c b ∧
      ∀ l ∈ s.lanes, (s.vec f).thread? c.core c.slot l.t.tid = some { f l with pc := c.nextPc } :=
  State.vecOf_spec h (fun _ => true) f hf

/-- An instruction whose meaning in a state changes the executing threads completes with that effect. -/
theorem actsIn_of_vec {s : State} {c : Cur} {b : Block} {i : Instr} {f g : LaneCtx → Thread} (h : Runs s c b)
    (hx : exec i s = .next (s.vec g)) (hg : ∀ l ∈ s.lanes, { g l with pc := 0 } = { f l with pc := 0 })
    (hf : ∀ l, (g l).tid = l.t.tid) : ActsIn s c b i f := by
  obtain ⟨h1, h2⟩ := State.vec_spec h g hf
  refine ⟨_, hx, h1, fun l hl => ?_⟩
  rw [h2 l hl]
  have := congrArg (fun t : Thread => ({ t with pc := c.nextPc } : Thread)) (hg l hl)
  simpa using this

/-- An instruction whose meaning acts on each executing thread alone completes with that effect. -/
theorem actsOn_of_vec {i : Instr} {f g : State → LaneCtx → Thread} (hx : ∀ s, exec i s = .next (s.vec (g s)))
    (hg : ∀ s l, { g s l with pc := 0 } = { f s l with pc := 0 }) (hf : ∀ s l, (f s l).tid = l.t.tid) : ActsOn i f :=
  fun s _ _ h => actsIn_of_vec h (hx s) (fun l _ => hg s l) fun l => by
    have := congrArg Thread.tid (hg s l)
    simpa [hf] using this

/-- The value of a code on an executing lane. -/
theorem Runs.onLane {s : State} {c : Cur} {b : Block} (h : Runs s c b) {l : LaneCtx} (hl : l ∈ s.lanes) (code : Nat) :
    s.onLane l.lane code = l.x code := by
  have key : ∀ (act : List (Nat × Nat)) (g : Nat → Option Thread) (mk : Nat → Thread → LaneCtx),
      (∀ n t, (mk n t).lane = n) → (act.map (·.1)).Nodup →
      ∀ l ∈ act.filterMap (fun m => (g m.2).map (mk m.1)),
        (act.filterMap (fun m => (g m.2).map (mk m.1))).find? (fun k => k.lane == l.lane) = some l := by
    intro act g mk hmk
    induction act with
    | nil => intro _ l hl; cases hl
    | cons m r ih =>
      intro hn l hl
      simp only [List.map_cons, List.nodup_cons] at hn
      simp only [List.filterMap_cons] at hl ⊢
      cases hg : g m.2 with
      | none => simp only [hg, Option.map_none] at hl ⊢; exact ih hn.2 l hl
      | some t =>
        simp only [hg, Option.map_some, List.mem_cons] at hl ⊢
        rcases hl with rfl | hl
        · simp
        · have hne : ((mk m.1 t).lane == l.lane) = false := by
            simp only [hmk, beq_eq_false_iff_ne]
            intro he
            simp only [List.mem_filterMap] at hl
            obtain ⟨m', hm', e⟩ := hl
            simp only [Option.map_eq_some_iff] at e
            obtain ⟨t', _, rfl⟩ := e
            rw [hmk] at he
            exact hn.1 (he ▸ List.mem_map_of_mem hm')
          rw [List.find?_cons, hne]
          exact ih hn.2 l hl
  have e : s.lanes = c.act.filterMap fun m => (b.thread? m.2).map fun t =>
      { lane := m.1, t := t, b := b, cyc := s.cycOf b.die } := by
    simp only [State.lanes, h.cur, h.block]
  have := key c.act (fun tid => b.thread? tid) (fun n t => { lane := n, t := t, b := b, cyc := s.cycOf b.die })
    (fun _ _ => rfl) h.apart l (e ▸ hl)
  rw [State.onLane, e, this]
  rfl

end Sys2Proof.Machine
end

