-- ==== Sys2Proof/Laws/Arith.lean ====
section
/-!
SUPPORT. Arith.lean: what the operations that write a result do, said once for all instructions that use them.
-/
namespace Sys2Proof.Machine

theorem Thread.setX_eq (t : Thread) (d : Nat) (v : Word) :
    t.setX d v = { t with regs := if d < 120 then putRegs t.regs (t.wb.toNat + d) [v] else t.regs } := by
  simp only [Thread.setX]
  split <;> rfl

theorem Thread.setN_eq (t : Thread) (d v : Nat) :
    t.setN d v =
      { t with regs := if d < 120 then putRegs t.regs (t.wb.toNat + d) [BitVec.ofNat 32 v] else t.regs } :=
  t.setX_eq d _

theorem words2_ofNat (v : Nat) : words2 (BitVec.ofNat 64 v) = [BitVec.ofNat 32 v, BitVec.ofNat 32 (v / 4294967296)] := by
  simp only [words2, List.cons.injEq, and_true]
  constructor
  · apply BitVec.eq_of_toNat_eq
    simp
  · apply BitVec.eq_of_toNat_eq
    simp [Nat.shiftRight_eq_div_pow]; omega

theorem Thread.setGroup_eq (t : Thread) (d : Nat) (vs : List Word) :
    t.setGroup d vs = { t with regs := if d < 120 then putRegs t.regs (t.wb.toNat + d) vs else t.regs } := by
  simp only [Thread.setGroup]
  split <;> rfl

/-- A pair write: both registers, or nothing for `zr`. -/
theorem Thread.setPair_eq (t : Thread) (d v : Nat) :
    t.setPair d v =
      { t with regs := if d < 120 then putRegs t.regs (t.wb.toNat + d) (words2 (BitVec.ofNat 64 v)) else t.regs } := by
  simp [Thread.setPair, Thread.setGroup_eq, words2_ofNat, wordsOf]

theorem wrapNat_ofNat (w : Nat) (v : Int) : BitVec.ofNat w (wrapNat w v) = BitVec.ofInt w v := by
  apply BitVec.eq_of_toNat_eq
  have h : (0 : Int) < ((2 ^ w : Nat) : Int) := by exact_mod_cast Nat.two_pow_pos w
  have h1 := Int.emod_nonneg v (Int.ne_of_gt h)
  have h2 := Int.emod_lt_of_pos v h
  simp only [wrapNat, BitVec.toNat_ofNat, BitVec.toNat_ofInt]
  apply Nat.mod_eq_of_lt
  omega

theorem clampTo_eq (sg : Bool) (w : Nat) (e : Int) : clampTo sg w e = satTo sg w e := by
  have h1 : (1 : Int) ≤ ((2 ^ w : Nat) : Int) := by exact_mod_cast Nat.one_le_two_pow
  have h2 : (1 : Int) ≤ ((2 ^ (w - 1) : Nat) : Int) := by exact_mod_cast Nat.one_le_two_pow
  unfold clampTo satTo intLo intHi
  generalize ((2 ^ w : Nat) : Int) = a at *
  generalize ((2 ^ (w - 1) : Nat) : Int) = b at *
  rw [Int.max_def, Int.max_def, Int.min_def, Int.min_def]
  cases sg
  · simp only [Bool.false_eq_true, if_false]
    repeat' split
    all_goals omega
  · simp only [if_true]
    repeat' split
    all_goals omega

theorem nvWord_eq (b : Bool) : Fl.word { nv := b } = if b then 0x10 else 0 := by cases b <;> rfl

theorem Thread.giveInt_eq (t : Thread) (d : Nat) (sat sg : Bool) (e : Int) :
    t.giveInt d sat sg e =
      { t with
        regs := if d < 120 then putRegs t.regs (t.wb.toNat + d) [intOut 32 sat sg e] else t.regs
        fpctl := t.fpctl ||| nvOut 32 sat sg e } := by
  cases sat
  · simp [Thread.giveInt, Thread.setN_eq, wrapNat_ofNat, intOut, nvOut]
  · simp [Thread.giveInt, Thread.setN_eq, wrapNat_ofNat, intOut, nvOut, clampTo_eq, Thread.raiseNV, Thread.raise,
      nvWord_eq]

theorem Thread.giveInt64_eq (t : Thread) (d : Nat) (sat sg : Bool) (e : Int) :
    t.giveInt64 d sat sg e =
      { t with
        regs := if d < 120 then putRegs t.regs (t.wb.toNat + d) (words2 (intOut 64 sat sg e)) else t.regs
        fpctl := t.fpctl ||| nvOut 64 sat sg e } := by
  cases sat
  · simp [Thread.giveInt64, Thread.setPair_eq, wrapNat_ofNat, intOut, nvOut]
  · simp [Thread.giveInt64, Thread.setPair_eq, wrapNat_ofNat, intOut, nvOut, clampTo_eq, Thread.raiseNV,
      Thread.raise, nvWord_eq]

theorem Thread.giveF_eq (t : Thread) (d : Nat) (r : Nat × Fl) :
    t.giveF d r =
      { t with
        regs := if d < 120 then putRegs t.regs (t.wb.toNat + d) (oneWord r) else t.regs
        fpctl := t.fpctl ||| r.2.word } := by
  simp [Thread.giveF, Thread.setN_eq, Thread.raise, oneWord]

/-- An instruction that acts on each thread alone and writes a register or a pair and flags. -/
theorem writes_of {i : Instr} {d : Nat} {vs : State → LaneCtx → List Word} {fl : State → LaneCtx → Word}
    {g : State → LaneCtx → Thread} (hx : ∀ s, exec i s = .next (s.vec (g s)))
    (hg : ∀ s l, g s l =
      { l.t with
        regs := if d < 120 then putRegs l.t.regs (l.t.wb.toNat + d) (vs s l) else l.t.regs
        fpctl := l.t.fpctl ||| fl s l }) : Writes i d vs fl :=
  actsOn_of_vec hx (fun s l => by rw [hg]) fun _ _ => rfl

/-- The same without a flag. -/
theorem writes_noFlag {i : Instr} {d : Nat} {vs : State → LaneCtx → List Word} {g : State → LaneCtx → Thread}
    (hx : ∀ s, exec i s = .next (s.vec (g s)))
    (hg : ∀ s l, g s l =
      { l.t with regs := if d < 120 then putRegs l.t.regs (l.t.wb.toNat + d) (vs s l) else l.t.regs }) :
    Writes i d vs fun _ _ => 0 :=
  writes_of hx fun s l => by simp [hg]

theorem Thread.setPred_eq (t : Thread) (p : Nat) (v : Bool) :
    t.setPred p v =
      { t with preds := if p < 7 then t.preds &&& ~~~ (1#7 <<< p) ||| (if v then 1#7 <<< p else 0) else t.preds } := by
  simp only [Thread.setPred]
  split
  · cases v
    · simp
    · simp only [if_true]
      congr 1
      ext i hi
      simp only [BitVec.getElem_or, BitVec.getElem_and, BitVec.getElem_not]
      cases t.preds[i] <;> cases ((1#7 <<< p : BitVec 7)[i]) <;> rfl
  · rfl

/-- An instruction that acts on each thread alone and writes a predicate. -/
theorem writesPred_of {i : Instr} {d : Nat} {v : State → LaneCtx → Bool}
    (hx : ∀ s, exec i s = .next (s.vec fun l => l.t.setPred d (v s l))) : WritesPred i d v :=
  actsOn_of_vec hx (fun s l => by rw [Thread.setPred_eq]) fun _ _ => rfl

end Sys2Proof.Machine
end

