-- ==== Sys2Proof/Laws/Changes.lean ====
section
/-!
SUPPORT. Changes.lean: operations that change threads of one block, and perhaps the warps, and nothing else: what they do
to each thread, and that they compose.
-/
namespace Sys2Proof.Machine

/-- A state comes from another by changing threads of the block in one slot, and perhaps the warps: `g` says what becomes
of the thread with a TID. -/
structure Changes (s t : State) (core slot : Nat) (g : Nat → Thread → Thread) : Prop where
  rest : t = { s with blocks := t.blocks, warps := t.warps }
  others : ∀ c q, ¬(c = core ∧ q = slot) → t.block? c q = s.block? c q
  here : ∀ b, s.block? core slot = some b → ∃ b', t.block? core slot = some b' ∧
    b' = { b with threads := b'.threads } ∧ ∀ tid, b'.thread? tid = (b.thread? tid).map (g tid)
  gone : s.block? core slot = none → t.block? core slot = none

theorem State.modBlock_block?_eq (s : State) {core slot : Nat} {f : Block → Block}
    (hf : ∀ x, (f x).core = x.core ∧ (f x).slot = x.slot) (c q : Nat) :
    (s.modBlock core slot f).block? c q =
      if c = core ∧ q = slot then (s.block? c q).map f else s.block? c q := by
  split
  · rename_i h
    obtain ⟨rfl, rfl⟩ := h
    cases hb : s.block? c q with
    | some b => simpa using State.modBlock_block? hb hf
    | none =>
      simp only [State.block?, List.find?_eq_none] at hb
      simp only [State.block?, State.modBlock, mapIf, Option.map_none, List.find?_eq_none, List.mem_map]
      rintro x ⟨y, hy, rfl⟩
      have := hb y hy
      split <;> simp_all
  · rename_i h
    exact s.modBlock_other hf h

theorem Changes.refl (s : State) (core slot : Nat) : Changes s s core slot fun _ t => t :=
  ⟨rfl, fun _ _ _ => rfl, fun b h => ⟨b, h, rfl, fun tid => by simp⟩, id⟩

theorem Changes.trans {s t u : State} {core slot : Nat} {g h : Nat → Thread → Thread} (a : Changes s t core slot g)
    (b : Changes t u core slot h) : Changes s u core slot fun tid x => h tid (g tid x) := by
  refine ⟨?_, fun c q n => (b.others c q n).trans (a.others c q n), ?_, fun n => b.gone (a.gone n)⟩
  · rw [b.rest, a.rest]
  · intro x hx
    obtain ⟨y, hy, ey, ty⟩ := a.here x hx
    obtain ⟨z, hz, ez, tz⟩ := b.here y hy
    refine ⟨z, hz, ?_, fun tid => ?_⟩
    · rw [ez, ey]
    · rw [tz, ty, Option.map_map]; rfl

theorem Changes.congr {s t : State} {core slot : Nat} {g h : Nat → Thread → Thread} (a : Changes s t core slot g)
    (e : ∀ tid x, s.thread? core slot tid = some x → g tid x = h tid x) : Changes s t core slot h := by
  refine ⟨a.rest, a.others, fun b hb => ?_, a.gone⟩
  obtain ⟨b', hb', eb, tb⟩ := a.here b hb
  refine ⟨b', hb', eb, fun tid => ?_⟩
  rw [tb]
  cases ht : b.thread? tid with
  | none => rfl
  | some x => simp only [Option.map_some, e tid x (by simp [State.thread?, hb, ht])]

theorem Changes.thread? {s t : State} {core slot : Nat} {g : Nat → Thread → Thread} (a : Changes s t core slot g)
    (tid : Nat) : t.thread? core slot tid = (s.thread? core slot tid).map (g tid) := by
  cases hb : s.block? core slot with
  | none => simp [State.thread?, hb, a.gone hb]
  | some b =>
    obtain ⟨b', hb', _, tb⟩ := a.here b hb
    simp [State.thread?, hb, hb', tb]

/-- Changing each thread of a block, its TID kept. -/
theorem State.modBlock_changes (s : State) (core slot : Nat) (f : Block → Thread → Thread)
    (hf : ∀ b t, (f b t).tid = t.tid) (b : Block) (hb : s.block? core slot = some b) :
    Changes s (s.modBlock core slot fun b => { b with threads := b.threads.map (f b) }) core slot fun _ => f b := by
  have hk : ∀ x : Block, ({ x with threads := x.threads.map (f x) } : Block).core = x.core ∧
      ({ x with threads := x.threads.map (f x) } : Block).slot = x.slot := fun _ => ⟨rfl, rfl⟩
  refine ⟨rfl, fun c q n => by rw [s.modBlock_block?_eq hk, if_neg n], fun b1 hb1 => ?_, fun n => by simp [n] at hb⟩
  refine ⟨_, by rw [s.modBlock_block?_eq hk, if_pos ⟨rfl, rfl⟩, hb1]; rfl, rfl, fun tid => ?_⟩
  rw [hb] at hb1
  cases hb1
  exact Block.thread?_map b _ (hf b) tid

theorem mapIf_eq_map {α : Type} (p : α → Bool) (f : α → α) (l : List α) :
    mapIf p f l = l.map fun x => if p x then f x else x := rfl

/-- The same where the change does not look at the block. -/
theorem State.mapBlock_changes (s : State) (core slot : Nat) (f : Thread → Thread) (hf : ∀ t, (f t).tid = t.tid) :
    Changes s (s.modBlock core slot fun b => { b with threads := b.threads.map f }) core slot fun _ => f := by
  cases hb : s.block? core slot with
  | none =>
    have hk : ∀ x : Block, ({ x with threads := x.threads.map f } : Block).core = x.core ∧
        ({ x with threads := x.threads.map f } : Block).slot = x.slot := fun _ => ⟨rfl, rfl⟩
    refine ⟨rfl, fun c q n => ?_, fun b h => by simp [hb] at h, fun _ => ?_⟩
    · rw [s.modBlock_block?_eq hk, if_neg n]
    · rw [s.modBlock_block?_eq hk, if_pos ⟨rfl, rfl⟩, hb]; rfl
  | some b => exact s.modBlock_changes core slot (fun _ => f) (fun _ => hf) b hb

theorem State.modThread_changes (s : State) (core slot tid : Nat) (f : Thread → Thread) (hf : ∀ t, (f t).tid = t.tid) :
    Changes s (s.modThread core slot tid f) core slot fun n t => if n = tid then f t else t := by
  have h := s.mapBlock_changes core slot (fun t => if t.tid == tid then f t else t) fun t => by split <;> simp [hf]
  refine Changes.congr (g := fun _ t => if t.tid == tid then f t else t) h fun n x hx => ?_
  cases hb : s.block? core slot with
  | none => simp [State.thread?, hb] at hx
  | some b =>
    simp only [State.thread?, hb, Option.bind_some] at hx
    simp [Block.thread?_tid hx]

/-- The same change of every thread of a list. -/
theorem State.mapThreads_changes (s : State) (core slot : Nat) (tids : List Nat) (f : Thread → Thread)
    (hf : ∀ t, (f t).tid = t.tid) :
    Changes s (s.modBlock core slot fun b => { b with threads := mapIf (fun t => tids.contains t.tid) f b.threads })
      core slot fun n t => if n ∈ tids then f t else t := by
  have h := s.mapBlock_changes core slot (fun t => if tids.contains t.tid then f t else t)
    fun t => by split <;> simp [hf]
  refine Changes.congr (g := fun _ t => if tids.contains t.tid then f t else t) h fun n x hx => ?_
  cases hb : s.block? core slot with
  | none => simp [State.thread?, hb] at hx
  | some b =>
    simp only [State.thread?, hb, Option.bind_some] at hx
    simp [Block.thread?_tid hx]

/-- An idle thread settles at once. -/
theorem State.settle_idle (s : State) (core slot tid : Nat)
    (h : ∀ t, s.thread? core slot tid = some t → t.pend = [] ∧ t.maint = []) :
    Changes s (s.settle core slot tid) core slot (fun _ t => t) ∧ (s.settle core slot tid).warps = s.warps := by
  have hm : s.maintAll core slot tid = s := by
    unfold State.maintAll
    split
    · rfl
    · rename_i t ht
      simp [(h t ht).2]
  rw [State.settle, hm]
  refine ⟨?_, rfl⟩
  have hk : ∀ x : Block, (landAll x tid).core = x.core ∧ (landAll x tid).slot = x.slot := by
    intro x
    unfold landAll
    split
    · exact ⟨rfl, rfl⟩
    · rename_i t _
      generalize t.pend = l
      have : ∀ (l : List PTgt) (x : Block), (l.foldl (fun b p => landOne b tid p) x).core = x.core ∧
          (l.foldl (fun b p => landOne b tid p) x).slot = x.slot := by
        intro l
        induction l with
        | nil => exact fun _ => ⟨rfl, rfl⟩
        | cons p l ih =>
          intro x
          have := ih (landOne x tid p)
          simp only [List.foldl_cons, this]
          cases p <;> exact ⟨rfl, rfl⟩
      exact this l x
  refine ⟨rfl, fun c q n => by rw [s.modBlock_block?_eq hk, if_neg n], fun b hb => ?_, fun n => by
    rw [s.modBlock_block?_eq hk, if_pos ⟨rfl, rfl⟩, n]; rfl⟩
  refine ⟨landAll b tid, by rw [s.modBlock_block?_eq hk, if_pos ⟨rfl, rfl⟩, hb]; rfl, ?_, fun n => ?_⟩
  · unfold landAll
    split
    · rfl
    · rename_i t ht
      rw [(h t (by simp [State.thread?, hb, ht])).1]
      rfl
  · unfold landAll
    cases ht : b.thread? tid with
    | none => simp
    | some t =>
      have hp := (h t (by simp [State.thread?, hb, ht])).1
      simp only [hp, List.foldl_nil, Block.modThread]
      have := Block.thread?_map b (fun t => if t.tid == tid then { t with pend := t.pend.filter PTgt.due } else t)
        (fun t => by split <;> rfl) n
      simp only [mapIf]
      rw [this]
      cases hn : b.thread? n with
      | none => rfl
      | some x =>
        have hx := Block.thread?_tid hn
        simp only [Option.map_some, Option.some.injEq]
        split
        · rename_i hc
          have he : n = tid := by simpa [hx] using hc
          subst he
          rw [ht] at hn
          cases hn
          simp [hp]
          rw [← hp]
        · rfl

theorem State.takeOut_changes (s : State) (core slot : Nat) (tids : List Nat) :
    Changes s (s.takeOut core slot tids) core slot fun _ t => t :=
  ⟨rfl, fun _ _ _ => rfl, fun b h => ⟨b, h, rfl, fun tid => by simp⟩, id⟩

theorem State.settleAll_idle (core slot : Nat) (tids : List Nat) (s : State)
    (h : ∀ tid ∈ tids, ∀ t, s.thread? core slot tid = some t → t.pend = [] ∧ t.maint = []) :
    Changes s (tids.foldl (fun s t => s.settle core slot t) s) core slot (fun _ t => t) ∧
      (tids.foldl (fun s t => s.settle core slot t) s).warps = s.warps := by
  induction tids generalizing s with
  | nil => exact ⟨Changes.refl s core slot, rfl⟩
  | cons a l ih =>
    obtain ⟨h1, h2⟩ := s.settle_idle core slot a (h a (by simp))
    obtain ⟨h3, h4⟩ := ih (s.settle core slot a) fun tid ht t hx =>
      h tid (by simp [ht]) t (by simpa [h1.thread? tid] using hx)
    exact ⟨h1.trans h3, by simpa [h2] using h4⟩

/-- Idle threads leave their warp for a condition. -/
theorem State.leave_idle (s : State) (core slot : Nat) (tids : List Nat) (c : Cond)
    (h : ∀ tid ∈ tids, ∀ t, s.thread? core slot tid = some t → t.pend = [] ∧ t.maint = []) :
    Changes s (s.leave core slot tids c) core slot (fun n t => if n ∈ tids then { t with cond := c } else t) ∧
      (s.leave core slot tids c).warps = (s.takeOut core slot tids).warps := by
  obtain ⟨h1, h2⟩ := State.settleAll_idle core slot tids s h
  refine ⟨?_, ?_⟩
  · refine ((h1.trans (State.takeOut_changes _ core slot tids)).trans
      (State.mapThreads_changes _ core slot tids (Thread.goTo c) fun _ => rfl)).congr fun n x hx => ?_
    by_cases hn : n ∈ tids
    · simp [hn, Thread.goTo, Thread.owes, (h n hn x hx).1]
    · simp [hn]
  · simp only [State.leave, State.modBlock_warps, State.takeOut, h2]

/-- No thread taken out stands in a warp of the block, and the warps of other blocks stay. -/
theorem State.takeOut_warps (s : State) (core slot : Nat) (tids : List Nat) :
    (∀ w ∈ (s.takeOut core slot tids).warps, w.core = core → w.slot = slot → ∀ tid ∈ tids, some tid ∉ w.lanes) ∧
      ∀ w, ¬(w.core = core ∧ w.slot = slot) → w.lanes.any Option.isSome = true →
        (w ∈ (s.takeOut core slot tids).warps ↔ w ∈ s.warps) := by
  constructor
  · intro w hw hc hs tid ht hm
    simp only [State.takeOut, List.mem_filter, List.mem_map] at hw
    obtain ⟨⟨v, hv, rfl⟩, _⟩ := hw
    split at hm
    · simp only [List.mem_map] at hm
      obtain ⟨o, _, ho⟩ := hm
      cases o with
      | none => cases ho
      | some x =>
        simp only [Option.bind_some] at ho
        split at ho
        · cases ho
        · cases ho
          rename_i hn
          exact hn (by simpa using ht)
    · rename_i hn
      split at hc <;> split at hs <;> simp_all
  · intro w hn hl
    simp only [State.takeOut, List.mem_filter, List.mem_map]
    constructor
    · rintro ⟨⟨v, hv, rfl⟩, _⟩
      split
      · rename_i hc
        split at hn <;> simp_all
      · exact hv
    · intro hw
      refine ⟨⟨w, hw, ?_⟩, hl⟩
      rw [if_neg (by simpa using hn)]

/-- Operations on threads that do not touch the warps, as the frame of an instruction. -/
theorem Changes.onlyThreads {s t : State} {c : Cur} {b : Block} {g : Nat → Thread → Thread} (h : Changes s t c.core c.slot g)
    (hw : t.warps = s.warps) (hb : s.block? c.core c.slot = some b)
    (ho : ∀ tid x, tid ∉ c.act.map (·.2) → b.thread? tid = some x → g tid x = x) : OnlyThreads s t c b := by
  obtain ⟨b', hb', eb, tb⟩ := h.here b hb
  refine ⟨⟨?_, h.others⟩, b', hb', eb, fun tid hn => ?_⟩
  · have := h.rest
    rwa [hw] at this
  · rw [tb]
    cases hx : b.thread? tid with
    | none => rfl
    | some x => simp [ho tid x hn hx]

theorem Changes.onlyLeaves {s t u : State} {c : Cur} {b : Block} {tids : List Nat} {g : Nat → Thread → Thread}
    (h : Changes s t c.core c.slot g) (hw : t.warps = (u.takeOut c.core c.slot tids).warps) (hu : u.warps = s.warps)
    (hb : s.block? c.core c.slot = some b)
    (ho : ∀ tid x, tid ∉ c.act.map (·.2) → b.thread? tid = some x → g tid x = x) : OnlyLeaves s t c b tids := by
  obtain ⟨b', hb', eb, tb⟩ := h.here b hb
  obtain ⟨w1, w2⟩ := u.takeOut_warps c.core c.slot tids
  rw [hu] at w2
  refine ⟨h.rest, h.others, ⟨b', hb', eb, fun tid hn => ?_⟩, by rw [hw]; exact w1, by rw [hw]; exact w2⟩
  rw [tb]
  cases hx : b.thread? tid with
  | none => rfl
  | some x => simp [ho tid x hn hx]

end Sys2Proof.Machine
end

