-- ==== Sys2Proof/Laws/Memory.lean ====
section
/-!
SUPPORT. Memory.lean: what the operations on the memory list do: read after write, and the canonical form.
-/
namespace Sys2Proof.Machine

/-- Every key of a list lies above a bound. -/
def Above (k : Nat) (m : List Host.Cell) : Prop := ∀ c ∈ m, k < c.1

theorem Memory.wf_cons {k : Nat} {v : Byte} {r : List Host.Cell} :
    Memory.wf ((k, v) :: r) = true ↔ v ≠ 0 ∧ (∀ c ∈ r.head?, k < c.1) ∧ Memory.wf r = true := by
  cases r with
  | nil => simp [Memory.wf]
  | cons c r => simp [Memory.wf, and_assoc]

theorem Memory.wf_above {k : Nat} {v : Byte} {r : List Host.Cell} (h : Memory.wf ((k, v) :: r) = true) :
    Above k r := by
  induction r generalizing k v with
  | nil => intro c hc; cases hc
  | cons c r ih =>
    obtain ⟨_, h2, h3⟩ := Memory.wf_cons.mp h
    have hk : k < c.1 := h2 c (by simp)
    intro d hd
    rcases List.mem_cons.mp hd with rfl | hd
    · exact hk
    · exact Nat.lt_trans hk (ih (v := c.2) h3 d hd)

theorem Memory.wf_of_above {k : Nat} {v : Byte} {r : List Host.Cell} (hv : v ≠ 0) (ha : Above k r)
    (hr : Memory.wf r = true) : Memory.wf ((k, v) :: r) = true :=
  Memory.wf_cons.mpr ⟨hv, fun c hc => ha c (List.mem_of_mem_head? hc), hr⟩

theorem memGet_of_above {a : Nat} {m : List Host.Cell} (h : Above a m) : memGet m a = 0 := by
  induction m with
  | nil => rfl
  | cons c r ih =>
    have hc := h c (by simp)
    simp only [memGet]
    rw [if_neg (by omega), ih fun d hd => h d (by simp [hd])]

/-- A byte reads back as it was written; every other byte reads as before. -/
theorem memGet_memSet (m : List Host.Cell) (h : Memory.wf m = true) (a x : Nat) (b : Byte) :
    memGet (memSet m a b) x = if x = a then b else memGet m x := by
  induction m with
  | nil =>
    by_cases hb : b = 0 <;> simp only [memSet, hb, if_true, if_false, memGet]
    · split <;> rfl
    · by_cases hx : a = x
      · rw [if_pos hx, if_pos hx.symm]
      · rw [if_neg hx, if_neg (Ne.symm hx)]
  | cons c r ih =>
    obtain ⟨k, v⟩ := c
    have hr := (Memory.wf_cons.mp h).2.2
    have hab := Memory.wf_above h
    simp only [memSet]
    split
    · next hk =>
      subst hk
      have h0 := memGet_of_above hab
      split
      · next hb =>
        by_cases hx : x = k
        · subst hx; simp [h0, hb]
        · simp only [memGet, if_neg (Ne.symm hx), if_neg hx]
      · by_cases hx : x = k
        · subst hx; simp [memGet]
        · simp only [memGet, if_neg (Ne.symm hx), if_neg hx]
    · split
      · next hk hlt =>
        have h0 : memGet ((k, v) :: r) a = 0 := by
          apply memGet_of_above
          intro c hc
          rcases List.mem_cons.mp hc with rfl | hc
          · exact hlt
          · exact Nat.lt_trans hlt (hab c hc)
        split
        · next hb =>
          by_cases hx : x = a
          · subst hx; simp [h0, hb]
          · simp [hx]
        · by_cases hx : x = a
          · subst hx; simp [memGet]
          · simp only [memGet, if_neg (Ne.symm hx), if_neg hx]
      · next hk hlt =>
        simp only [memGet, ih hr]
        by_cases hx : k = x
        · subst hx; simp [hk]
        · simp [hx]

theorem memSet_above {m : List Host.Cell} {k a : Nat} {b : Byte} (h : Above k m) (hk : k < a) :
    Above k (memSet m a b) := by
  induction m with
  | nil =>
    intro c hc
    simp only [memSet] at hc
    split at hc
    · cases hc
    · simp at hc; subst hc; exact hk
  | cons d r ih =>
    obtain ⟨k', v⟩ := d
    have hd : k < k' := h (k', v) (by simp)
    have hr : Above k r := fun c hc => h c (by simp [hc])
    intro c hc
    simp only [memSet] at hc
    split at hc
    · split at hc
      · exact hr c hc
      · rcases List.mem_cons.mp hc with rfl | hc
        · exact hk
        · exact hr c hc
    · split at hc
      · split at hc
        · exact h c hc
        · rcases List.mem_cons.mp hc with rfl | hc
          · exact hk
          · exact h c hc
      · rcases List.mem_cons.mp hc with rfl | hc
        · exact hd
        · exact ih hr c hc

/-- Writing a byte keeps the canonical form. -/
theorem memSet_wf (m : List Host.Cell) (h : Memory.wf m = true) (a : Nat) (b : Byte) :
    Memory.wf (memSet m a b) = true := by
  induction m with
  | nil =>
    simp only [memSet]
    split
    · rfl
    · next hb => exact Memory.wf_of_above hb (fun c hc => by cases hc) rfl
  | cons c r ih =>
    obtain ⟨k, v⟩ := c
    obtain ⟨hv, _, hr⟩ := Memory.wf_cons.mp h
    have hab := Memory.wf_above h
    simp only [memSet]
    split
    · next hk =>
      split
      · exact hr
      · next hb => exact Memory.wf_of_above hb (hk ▸ hab) hr
    · split
      · next hk hlt =>
        split
        · exact h
        · next hb =>
          refine Memory.wf_of_above hb ?_ h
          intro c hc
          rcases List.mem_cons.mp hc with rfl | hc
          · exact hlt
          · exact Nat.lt_trans hlt (hab c hc)
      · next hk hlt => exact Memory.wf_of_above hv (memSet_above hab (by omega)) (ih hr)

/-- Writing bytes keeps the canonical form. -/
theorem memWrite_wf (bs : List Byte) (m : List Host.Cell) (h : Memory.wf m = true) (k : Nat) :
    Memory.wf (memWrite m k bs) = true := by
  induction bs generalizing m k with
  | nil => exact h
  | cons b r ih => exact ih _ (memSet_wf m h k b) _

/-- Bytes read back as they were written; every other byte reads as before. -/
theorem memGet_memWrite (bs : List Byte) (m : List Host.Cell) (h : Memory.wf m = true) (k x : Nat) :
    memGet (memWrite m k bs) x = if k ≤ x ∧ x < k + bs.length then bs.getD (x - k) 0 else memGet m x := by
  induction bs generalizing m k with
  | nil => simp [memWrite] <;> omega
  | cons b r ih =>
    simp only [memWrite, ih _ (memSet_wf m h k b), memGet_memSet m h]
    by_cases hx : x = k
    · subst hx
      simp <;> omega
    · by_cases hin : k + 1 ≤ x ∧ x < k + 1 + r.length
      · have : x - k = (x - (k + 1)) + 1 := by omega
        rw [if_pos hin, if_pos (by simp <;> omega), this]; rfl
      · rw [if_neg hin, if_neg hx, if_neg (by simp <;> omega)]

/-- A write at the home keeps the canonical form. -/
theorem State.homeWrite_wf (s : State) (h : Memory.wf s.mem = true) (k : Nat) (bs : List Byte) :
    Memory.wf (s.homeWrite k bs).mem = true := memWrite_wf bs s.mem h k

/-- What a byte reads as after a write at the home. -/
theorem State.homeWrite_rd (s : State) (h : Memory.wf s.mem = true) (k x : Nat) (bs : List Byte) :
    (s.homeWrite k bs).rd x = if k ≤ x ∧ x < k + bs.length then bs.getD (x - k) 0 else s.rd x :=
  memGet_memWrite bs s.mem h k x

theorem bytesLE_length (n v : Nat) : (bytesLE n v).length = n := by
  induction n generalizing v with
  | zero => rfl
  | succ n ih => simp [bytesLE, ih]

/-- The bytes of a value give the value back, modulo its width. -/
theorem ofBytesLE_bytesLE (n v : Nat) : ofBytesLE (bytesLE n v) = v % 256 ^ n := by
  induction n generalizing v with
  | zero => simp [bytesLE, ofBytesLE, Nat.mod_one]
  | succ n ih =>
    simp only [bytesLE, ofBytesLE, ih, BitVec.toNat_ofNat]
    rw [show (256 : Nat) ^ (n + 1) = 256 * 256 ^ n by rw [Nat.pow_succ, Nat.mul_comm], Nat.mod_mul]

end Sys2Proof.Machine
end

