-- ==== Sys2Proof/Tests/Slice0.lean ====
section
/-!
SUPPORT. Slice0.lean: tests with results taken from the manual, and for each statement of Obligations.lean that has
hypotheses a state and operands that meet them.
-/
namespace Sys2Proof.Tests
open Sys2Proof Sys2Proof.Machine

-- The tests are checked one after another, which keeps the memory of the check low.
set_option Elab.async false

/-! ## Ill-formed instructions are refused -/

/-- A register field of seven bits holds no 128. -/
theorem test_wf_inRange :
    (Instr.and { d := 128 }).inRange = false ∧ (Instr.and { d := 128 }).wf = false ∧ (Instr.and { d := 119 }).wf = true := by
  decide +kernel

/-- R216: only the floating sum takes a prefix; R256: scope code 5 is not listed. -/
theorem test_wf_functionOk :
    (Instr.wred .addN32 (some {}) { d := 1 }).functionOk = false ∧ (Instr.wred .addN32 (some {}) { d := 1 }).wf = false ∧
    (Instr.wred .addF32 (some {}) { d := 1 }).wf = true ∧ (Instr.fence .ar { d := 5 }).wf = false ∧
    (Instr.fence .ar { d := 4 }).wf = true := by decide +kernel

/-- R58 check 4: an unused register field, and an immediate shift amount beside a register. -/
theorem test_wf_reservedOk :
    (Instr.popc { d := 1, a := 2, b := 1 }).reservedOk = false ∧ (Instr.popc { d := 1, a := 2, b := 1 }).wf = false ∧
    (Instr.shl (some { ext := 3 }) { b := 4 }).wf = false ∧ (Instr.shl (some { ext := 3 }) { b := 127 }).wf = true := by
  decide +kernel

/-- R45, R47, R48, R58 check 5: a destination beyond x119, an odd pair, a register group at `zr`, a barrier above 47. -/
theorem test_wf_codesOk :
    (Instr.mov { d := 120 }).codesOk = false ∧ (Instr.mov { d := 120 }).wf = false ∧ (Instr.mov { d := 127 }).wf = true ∧
    (Instr.add64 .n64 none { d := 1 }).wf = false ∧ (Instr.obrd .b32 { d := 127 }).wf = false ∧
    (Instr.obrd .b32 { d := 104 }).wf = true ∧ (Instr.badd none { d := 48 }).wf = false ∧
    (Instr.badd none { d := 47 }).wf = true := by decide +kernel

/-! ## Decoding -/

/-- Whether each word of a list decodes to the instruction beside it, and the encoder gives the word back. -/
def decodes (l : List (Nat × Nat × Instr)) : Bool :=
  l.all fun x => decodeTableWord x.1 x.2.1 == some x.2.2 && x.2.2.wf &&
    encode x.2.2 == (if x.1 = 32 then [x.2.1] else [x.2.1 % 4294967296, x.2.1 / 4294967296])

/-- Words written out from the encodings of R31, R38, R39, R54, R316 to R320. -/
theorem test_decode_control : decodes
    [(32, 0x00000000, .nop),
     (32, 0x0197FFFF, .bra { h := true, p := 1, off := 0x7FFFF }),
     (32, 0x01180003, .bra { p := 1, n := true, off := 3 }),
     (32, 0x02F02800, .brx { h := true, a := 10 }),
     (32, 0x03700010, .call { off := 16 }),
     (32, 0x04282800, .callx { p := 2, n := true, a := 10 }),
     (32, 0x0571DC00, .ret { a := 119 }),
     (32, 0x06000000, .join false 0),
     (32, 0x07005400, .mrset none { a := 21 }),
     (32, 0x08280040, .mrswap none { d := 20, imm := 64 }),
     (32, 0x89000000, .exit true 0),
     (32, 0x0A000002, .wbase { imm := 2 })] = true := by decide +kernel

/-- Words written out from the encodings of R189 to R192. -/
theorem test_decode_integer : decodes
    [(32, 0x10101061, .add .s32 none { d := 8, a := 4, b := 12 }),
     (32, 0x111013FF, .addi none { d := 8, a := 4, imm := 0x3FF }),
     (32, 0x12101060, .sub .n32 none { d := 8, a := 4, b := 12 }),
     (32, 0x13101061, .mul .s32 none { d := 8, a := 4, b := 12 }),
     (32, 0x14101060, .mulhi .n32 { d := 8, a := 4, b := 12 }),
     (64, 0x151010617F025000, .mad .s32 (some { cv := true, c := 20 }) { d := 8, a := 4, b := 12 }),
     (64, 0x161010617F100000, .add64 .s64 (some { sat := true }) { d := 8, a := 4, b := 12 }),
     (32, 0x17101060, .sub64 .n64 none { d := 8, a := 4, b := 12 }),
     (32, 0x1810146B, .mul64 .s32 none { d := 8, a := 5, b := 13 }),
     (32, 0x19101061, .idiv .s32 { d := 8, a := 4, b := 12 }),
     (32, 0x1A101062, .irem .n64 { d := 8, a := 4, b := 12 }),
     (32, 0x1B101061, .min .s32 { d := 8, a := 4, b := 12 }),
     (32, 0x1B101062, .max .n32 { d := 8, a := 4, b := 12 }),
     (32, 0x1C101002, .abs .s64 none { d := 8, a := 4 }),
     (32, 0x1C101001, .neg .s32 none { d := 8, a := 4 })] = true := by decide +kernel

/-- Words written out from the encodings of R193 to R196, R198. -/
theorem test_decode_logic : decodes
    [(32, 0x1D07E038, .and { d := 3, a := 120, b := 7 }),
     (32, 0x1D101061, .or { d := 8, a := 4, b := 12 }),
     (32, 0x1D101062, .xor { d := 8, a := 4, b := 12 }),
     (32, 0x1D101063, .andn { d := 8, a := 4, b := 12 }),
     (64, 0x1E1013F87F00003F, .shl (some { ext := 63 }) { d := 8, a := 4, b := 127 }),
     (32, 0x1E101061, .shr none { d := 8, a := 4, b := 12 }),
     (32, 0x1E101062, .sar none { d := 8, a := 4, b := 12 }),
     (32, 0x1E101063, .rot none { d := 8, a := 4, b := 12 }),
     (64, 0x1F1010607F00001F, .fshl { ext := 31 } { d := 8, a := 4, b := 12 }),
     (32, 0x20101000, .popc { d := 8, a := 4 }),
     (32, 0x20101001, .clz { d := 8, a := 4 }),
     (32, 0x20101002, .ctz { d := 8, a := 4 }),
     (32, 0x20101003, .brev { d := 8, a := 4 }),
     (32, 0x21101061, .bfe .s32 { d := 8, a := 4, b := 12 }),
     (32, 0x22101060, .bfi { d := 8, a := 4, b := 12 }),
     (32, 0xA30E1000, .mov { mark := true, d := 7, a := 4 }),
     (32, 0x2407FFFB, .movi none { d := 3, imm := 0x1FFFB }),
     (32, 0x2510FFFF, .movhi { d := 8, imm := 0xFFFF }),
     (32, 0x2823FC89, .sel 1 { d := 17, a := 127, b := 17 })] = true := by decide +kernel

/-- Words written out from the encodings of R197, R199 to R201, R204. -/
theorem test_decode_compare : decodes
    [(32, 0x2603E494, .cmp .ltN none { d := 1, a := 121, b := 18 }),
     (32, 0x2743E401, .cmpi .ltN none { d := 1, a := 121, imm := 1 }),
     (32, 0x290A0C30, .pand { d := 5, a := 3, b := 6 }),
     (32, 0x290A0C31, .por { d := 5, a := 3, b := 6 }),
     (32, 0x290A0C32, .pxor { d := 5, a := 3, b := 6 }),
     (32, 0x290A0C03, .pnot { d := 5, a := 3 }),
     (32, 0x2A101063, .dot4 .n8s8 none { d := 8, a := 4, b := 12 }),
     (64, 0x2B1220207F000001, .wadd .n8 (some { ext := 1 }) { d := 9, a := 8, b := 4 }),
     (32, 0x35041064, .fcmp .un { d := 2, a := 4, b := 12 })] = true := by decide +kernel

/-- Words written out from the encodings of R202 to R207. -/
theorem test_decode_float : decodes
    [(32, 0x300C1820, .fadd none { d := 6, a := 6, b := 4 }),
     (64, 0x311010607F800000, .fsub (some { rm := 4 }) { d := 8, a := 4, b := 12 }),
     (32, 0x32101060, .fmul none { d := 8, a := 4, b := 12 }),
     (64, 0x331008187F421000, .ffma (some { rm := 2, cv := true, c := 4 }) { d := 8, a := 2, b := 3 }),
     (32, 0x34101060, .fmin { d := 8, a := 4, b := 12 }),
     (32, 0x34101061, .fmax { d := 8, a := 4, b := 12 }),
     (32, 0x36101000, .frcp { d := 8, a := 4 }),
     (32, 0x36101001, .frsq { d := 8, a := 4 }),
     (32, 0x37101000, .fsqrt none { d := 8, a := 4 }),
     (32, 0x38101060, .fdiv none { d := 8, a := 4, b := 12 }),
     (32, 0x39101000, .fexp2 { d := 8, a := 4 }),
     (32, 0x39101001, .flog2 { d := 8, a := 4 }),
     (32, 0x3A101000, .fsin { d := 8, a := 4 }),
     (32, 0x3A101001, .fcos { d := 8, a := 4 }),
     (32, 0x3B101000, .frnd none { d := 8, a := 4 }),
     (32, 0x3C101061, .hadd2 .bf16 none { d := 8, a := 4, b := 12 }),
     (32, 0x3D101060, .hmul2 .f16 none { d := 8, a := 4, b := 12 }),
     (64, 0xBE4062787F024000, .hfma2 .f16 (some { cv := true, c := 16 }) { mark := true, d := 32, a := 24, b := 79 })] = true := by decide +kernel

/-- Words written out from the encodings of R208 to R218. -/
theorem test_decode_convert : decodes
    [(32, 0x500A1AE0, .cvt .e4m3 .f32 none { d := 5, a := 6 }),
     (32, 0x51101062, .qnt .bf16 { d := 8, a := 4, b := 12 }),
     (64, 0x521010627F000003, .dqnt .f32 (some { ext := 3 }) { d := 8, a := 4, b := 12 }),
     (64, 0x531010677F000003, .pack .n4 (some { ext := 3 }) { d := 8, a := 4, b := 12 }),
     (32, 0x54101002, .unpk .e4m3 none { d := 8, a := 4 }),
     (32, 0x580A1049, .shfl .up { d := 5, a := 4, b := 9 }),
     (32, 0x59101802, .vote .ballot { d := 8, a := 6 }),
     (64, 0x5A1010057F200000, .wred .addF32 (some { rm := 1 }) { d := 8, a := 4 }),
     (32, 0x5B101003, .qswp .x3 { d := 8, a := 4 }),
     (32, 0x5C101002, .qbcst 2 { d := 8, a := 4 }),
     (32, 0x5D101004, .qred .maxN32 none { d := 8, a := 4 })] = true := by decide +kernel

/-- Words written out from the encodings of R32, R117 to R134. -/
theorem test_decode_memory : decodes
    [(64, 0x600808307F000040, .ld .w32 .normal (some 64) { d := 4, a := 2, k := 1 }),
     (32, 0x6011E038, .ld .b128 .normal none { d := 8, a := 120, k := 1 }),
     (64, 0x611010767F7FFFF8, .lda .w64 .keep .pkg 0x1FFFF8 { d := 8, a := 4, k := 3 }),
     (32, 0x620DE047, .stWord false none { d := 6, a := 120, k := 2 }),
     (64, 0x620C0C2A7F000008, .stWord false (some 8) { d := 6, a := 3, k := 1, n := true, p := 2 }),
     (32, 0x63101077, .stNarrow true none { d := 8, a := 4, k := 3 }),
     (32, 0x64101067, .stB128 none { d := 8, a := 4, k := 3 }),
     (64, 0x641010777F400008, .str64 .die 8 { d := 8, a := 4, k := 3 }),
     (64, 0x651010677F800004, .str32 .sys 4 { d := 8, a := 4, k := 3 }),
     (32, 0x650C0A17, .sts .b32 none { d := 6, a := 2 }),
     (32, 0x660C0810, .lds .w32 none { d := 6, a := 2 }),
     (32, 0x66205011, .tlds .w32 none { d := 16, a := 20 }),
     (32, 0x67001061, .pref .l2 none { a := 4, k := 3 }),
     (32, 0x67101065, .cwb .l2 none { d := 8, a := 4, k := 3 }),
     (32, 0x67101068, .cinv .l1 none { d := 8, a := 4, k := 3 }),
     (32, 0x6710106C, .sarm none { d := 8, a := 4, k := 3 }),
     (32, 0x67101011, .femk true none { d := 8, a := 4 }),
     (32, 0x67101076, .kld .keep none { d := 8, a := 4, k := 3 })] = true := by decide +kernel

/-- Words written out from the encodings of R281 to R297. -/
theorem test_decode_atomics : decodes
    [(64, 0x681010777F600000, .atom .exch true 0 { d := 8, a := 4, k := 3 }),
     (64, 0x690C0C477F080010, .atomr .addF32 false 16 { d := 6, a := 3, k := 2 }),
     (64, 0x6A1008277F000000, .cas .n32 0 { d := 8, a := 2, k := 1 }),
     (64, 0x6A2010777F080000, .cas .b128 0 { d := 16, a := 4, k := 3 }),
     (64, 0x6C03FC877F700000, .cadd false (some 0x700000) { d := 1, a := 127, k := 4 }),
     (64, 0x6D15FC807F700000, .cwait false (some 0x700000) { d := 10, a := 127, k := 4 }),
     (64, 0x6D1040687F050000, .waita (some 0x50000) { d := 8, a := 16, k := 3 }),
     (32, 0x6E5E0060, .badd none { d := 47, b := 12 }),
     (64, 0x6E0128017F000002, .bwait (some { ext := 2 }) { d := 0, a := 74 }),
     (32, 0x6E002872, .barv none { d := 0, a := 10, b := 14 }),
     (32, 0x6F060002, .fence .ar { d := 3 })] = true := by decide +kernel

/-- Words written out from the encodings of R139, R146, R150 to R153. -/
theorem test_decode_copies : decodes
    [(64, 0x700410307F022401, .tcpyLd { cv := true, c := 9, ext := 1 } { d := 2, a := 4, b := 6 }),
     (64, 0x700410317F000003, .tcpySt { ext := 3 } { d := 2, a := 4, b := 6 }),
     (64, 0x710410307F000000, .gcpyGather {} { d := 2, a := 4, b := 6 }),
     (64, 0x710410317F000000, .gcpyScatter {} { d := 2, a := 4, b := 6 }),
     (64, 0xF201FE007F000000, .mcpy {} { mark := true, a := 127, b := 64 }),
     (64, 0x721E10317F000002, .wcpy { ext := 2 } { d := 15, a := 4, b := 6 }),
     (32, 0x7301FC08, .thnd { a := 127, b := 1 })] = true := by decide +kernel

/-- Words written out from the encodings of R226 to R238. -/
theorem test_decode_matrix : decodes
    [(32, 0x74022000, .obres { d := 1, a := 8 }),
     (32, 0x741E0001, .obrel { d := 15 }),
     (64, 0x740220027F00003F, .obdup { ext := 63 } { d := 1, a := 8 }),
     (32, 0x74020003, .obclr { d := 1 }),
     (64, 0x752010297F000110, .mma true { ext := 0x110 } { d := 16, a := 4, b := 5 }),
     (64, 0x7520102A7F000010, .mmah false { ext := 0x10 } { d := 16, a := 4, b := 5 }),
     (32, 0x76200C29, .obrd .bf16 { d := 16, a := 3, b := 5 }),
     (32, 0x76200C2F, .obwr .e4m3 { d := 16, a := 3, b := 5 }),
     (64, 0xF70316507F000000, .obld {} { mark := true, d := 1, a := 69, b := 74 }),
     (64, 0x770210317F000001, .obst { ext := 1 } { d := 1, a := 4, b := 6 })] = true := by decide +kernel

/-- Words written out from the encodings of R244, R328 to R351. -/
theorem test_decode_selection_rings : decodes
    [(64, 0x781010307F023008, .selk { cv := true, c := 12, ext := 8 } { d := 8, a := 4, b := 6 }),
     (64, 0x781010317F000004, .selks { ext := 4 } { d := 8, a := 4, b := 6 }),
     (64, 0x791010307F000003, .selu { ext := 3 } { d := 8, a := 4, b := 6 }),
     (32, 0x7A081810, .rres { d := 4, a := 6, b := 2 }),
     (64, 0x7A0010117F000004, .rcom (some { ext := 4 }) { a := 4, b := 2 }),
     (32, 0x7B100018, .rget none { d := 8, b := 3 }),
     (32, 0x7B002019, .rfre none { a := 8, b := 3 }),
     (32, 0x7C0A0809, .launch { d := 5, a := 2, b := 1 }),
     (64, 0x7C0040007F000001, .phase (some { ext := 1 }) { a := 16 }),
     (32, 0x7C000002, .yield {})] = true := by decide +kernel

/-- Words written out from the encodings of R33, R55, R370 to R374. -/
theorem test_decode_system : decodes
    [(32, 0x7D080004, .mfsrSpecial { d := 4, imm := 4 }),
     (32, 0x7D08013F, .mfsrUniform { d := 4, imm := 63 }),
     (32, 0x7D001216, .mtsr { a := 4, imm := 0x16 }),
     (32, 0x7D000F05, .sset { a := 3, imm := 5 }),
     (32, 0x7E000005, .trap { imm := 5 }),
     (32, 0x7E020000, .bkpt {}),
     (32, 0x7E05D000, .rtt { a := 116 }),
     (32, 0x7E062000, .tlbi .range { a := 8 }),
     (32, 0x7E062002, .tlbi .all { a := 8 }),
     (32, 0x7E081000, .icinv { a := 4 })] = true := by decide +kernel

/-- R58: the first check that a word fails names its subcode. -/
theorem test_decode_refuses :
    (match decode false 0x0C000000 0 with | .error e => some e.subcode | .ok _ => none) = some 0 ∧
    (match decode false 0x100C1826 0 with | .error e => some e.subcode | .ok _ => none) = some 1 ∧
    (match decode false 0x20100001 0 with | .error e => some e.subcode | .ok _ => none) = none ∧
    (match decode false 0x20100009 0 with | .error e => some e.subcode | .ok _ => none) = some 2 ∧
    (match decode true 0x7F000040 0x60080830 with | .error e => some e.subcode | .ok _ => none) = some 3 ∧
    (match decode false 0x16021030 0 with | .error e => some e.subcode | .ok _ => none) = some 4 := by decide +kernel

/-! ## A small machine

The witnesses below apply a statement of Obligations.lean to a concrete state and operands: every hypothesis of the
statement, or of the clause the witness is for, is shown to hold there. The states are variations of one: a block of a few
threads on core 0, whose pc is 0x100, with one page of 64 KiB mapped at VA 0 by the TLB of die 0, and its lines at frame 5
of HBM. -/

/-- A record of the page: BASE 0, EXTENT 64 KiB, elements of one byte. -/
def rec0 : Rec := 0x10000 <<< 64

/-- A thread in its warp with some registers set. -/
def th (tid : Nat) (regs : List (Nat × Word) := []) : Thread :=
  { freshThread tid 128 0x100 true .cast with regs := regs.foldl (fun l p => l.set p.1 p.2) (List.replicate 128 0) }

/-- A block of some threads. -/
def blk (ts : List Thread) : Block :=
  { freshBlock 0 with ntid := BitVec.ofNat 32 ts.length, krecs := List.replicate 32 rec0, threads := ts }

/-- The instruction at 0x100, executing for some lanes. -/
def atPc (act : List (Nat × Nat)) : Cur :=
  { core := 0, slot := 0, warp := 0, pc := 0x100, len := 4, act := act, full := false }

/-- The leaf of the page: V, W, X, U, A, D, L, type REL, frame 5. -/
def leaf0 : TlbEntry := { die := 0, asid := 1, base := 0, level := 1, leaf := 0x50803F, pte := 0x40000, dset := true }

/-- The machine with one block. -/
def mac (b : Block) (act : List (Nat × Nat)) : State :=
  { tlb := [leaf0], blocks := [b], cur := some (atPc act), nextWarp := 1,
    warps := [{ core := 0, slot := 0, id := 0, pipe := 0, lanes := (List.range 32).map fun i => (act.find? fun m => m.1 == i).map (·.2) }],
    owner := { owner := some 7 }, boot := { stage := 7, released := true, mediaReady := true } }

/-- Two threads with values in their low registers, both executing. -/
def two : Block := blk [th 0 [(1, 7), (2, 0x80000000), (4, 3), (5, 1)], th 1 [(1, 9), (2, 5), (4, 2)]]
def both : List (Nat × Nat) := [(0, 0), (1, 1)]
/-- One thread executing. -/
def one (regs : List (Nat × Word)) : Block := blk [th 0 regs]

theorem runs_two : Runs (mac two both) (atPc both) two := ⟨rfl, rfl, by decide, by decide, by decide, by decide⟩

/-! ## Instructions that act on registers alone

A statement `Writes`, `WritesPred`, `ActsOn`, `ByFirst` or `Branches` begins with `Runs`. -/

theorem witness_runs : Runs (mac two both) (atPc both) two := ⟨rfl, rfl, by decide, by decide, by decide, by decide⟩

/-- `PACK` admits an EXT up to 3 for the 4-bit types and 0 for the 16-bit ones. -/
theorem witness_pack (h : Rules.Conversions) :
    (∃ t, exec (.pack .n4 (some { ext := 3 }) { d := 3, a := 1, b := 2 }) (mac two both) = .next t) ∧
    ∃ t, exec (.pack .f16 none { d := 3, a := 1, b := 2 }) (mac two both) = .next t :=
  ⟨((h .f32 .f32 (some { ext := 3 }) { d := 3, a := 1, b := 2 } .n4 .f32).2.2.1 (by decide) _ _ _ witness_runs).imp fun _ q => q.1,
   ((h .f32 .f32 none { d := 3, a := 1, b := 2 } .f16 .f32).2.2.1 (by decide) _ _ _ witness_runs).imp fun _ q => q.1⟩

/-- A NaN compares unordered, and 1 less than 2. -/
theorem witness_order (h : Rules.FloatOrder) :
    fccHolds .lt .nan (.fin false 1 0) = false ∧ (fccHolds .lt (.fin false 1 0) (.fin false 2 0)).toNat +
      (fccHolds .eq (.fin false 1 0) (.fin false 2 0)).toNat + (fccHolds .lt (.fin false 2 0) (.fin false 1 0)).toNat = 1 :=
  ⟨((h .nan (.fin false 1 0)).2.2.2.1 (by decide)).2.1, (h (.fin false 1 0) (.fin false 2 0)).2.2.2.2 (by decide)⟩

/-- The largest encodings of FP32 and FP16. -/
theorem witness_rounding (h : Rules.RoundingKeepsRepresentable) :
    f32.round .rne false (f32.val (2 ^ 32 - 1)) = (if f32.val (2 ^ 32 - 1) = .nan then f32.nan else 2 ^ 32 - 1, {}) ∧
    fp16.round .rz false (fp16.val (2 ^ 16 - 1)) = (if fp16.val (2 ^ 16 - 1) = .nan then fp16.nan else 2 ^ 16 - 1, {}) :=
  ⟨(h .rne _).1 (by decide), (h .rz _).2 (by decide)⟩

/-- A quad whose four members stand in their lanes; the last member is broadcast. -/
theorem witness_quads (h : Rules.Quads) :
    let b := blk [th 0 [(1, 1)], th 1 [(1, 2)], th 2 [(1, 3)], th 3 [(1, 4)]]
    let s := mac b [(0, 0), (1, 1), (2, 2), (3, 3)]
    (∃ t, exec (.qbcst 3 { d := 2, a := 1 }) s = .next t) ∧ ∃ t, exec (.qswp .x3 { d := 2, a := 1 }) s = .next t := by
  intro b s
  have q := h s (atPc [(0, 0), (1, 1), (2, 2), (3, 3)]) b .x3 3 .addN32 none { d := 2, a := 1 }
    ⟨rfl, rfl, by decide, by decide, by decide, by decide⟩ (by decide)
  exact ⟨(q.2.1 (by decide)).imp fun _ q => q.1, q.1.imp fun _ q => q.1⟩

/-- Every form on two threads, the quad forms on a whole quad. -/
theorem witness_register_forms (h : Obligations.RegisterFormsComplete) :
    let b := blk [th 0 [(1, 1)], th 1 [(1, 2)], th 2 [(1, 3)], th 3 [(1, 4)]]
    let s := mac b [(0, 0), (1, 1), (2, 2), (3, 3)]
    (∃ t, exec (.fadd none { d := 2, a := 1 }) (mac two both) = .next t) ∧ (∃ t, exec (.unpk .f16 none { d := 118, a := 1 }) (mac two both) = .next t) ∧
    (∃ t, exec (.vote .ballot { d := 2, a := 1 }) (mac two both) = .next t) ∧ (∃ t, exec (.vote .all { d := 2, a := 1 }) (mac two both) = .next t) ∧
    (∃ t, exec (.qswp .x1 { d := 2, a := 1 }) s = .next t) ∧ ∃ t, exec (.qbcst 3 { d := 2, a := 1 }) s = .next t := by
  intro b s
  have q := fun r m v n => h none r .f16 .f32 .f32 .f32 .f32 .f16 m v .addN32 .x1 n
  have rq : Runs s (atPc [(0, 0), (1, 1), (2, 2), (3, 3)]) b := ⟨rfl, rfl, by decide, by decide, by decide, by decide⟩
  obtain ⟨_, _, _, e1⟩ := (q { d := 2, a := 1 } .up .ballot 0).1.1
  obtain ⟨_, _, _, e2⟩ := (q { d := 118, a := 1 } .up .ballot 0).2.1.2.2.2.2.2.2.2
  obtain ⟨_, _, _, e3⟩ := (q { d := 2, a := 1 } .up .ballot 0).2.2.2.2.1
  obtain ⟨_, e4⟩ := (q { d := 2, a := 1 } .up .all 0).2.2.2.2.1
  obtain ⟨_, _, _, e5⟩ := (q { d := 2, a := 1 } .up .all 0).2.2.2.2.2.1 s _ b rq (by decide)
  obtain ⟨_, _, _, e6⟩ := (q { d := 2, a := 1 } .up .all 3).2.2.2.2.2.2.1 (by decide) s _ b rq (by decide)
  exact ⟨(e1 _ _ _ witness_runs).imp fun _ q => q.1, (e2 _ _ _ witness_runs).imp fun _ q => q.1, (e3 _ _ _ witness_runs).imp fun _ q => q.1,
    (e4 _ _ _ witness_runs).imp fun _ q => q.1, e5.imp fun _ q => q.1, e6.imp fun _ q => q.1⟩

/-! ## Control flow -/

/-- A branch that all take, one that part the warp, one with the pool hint; the highest target. -/
theorem witness_branches (h : Rules.BranchesGoToTheirTargets) :
    (∃ t, exec (.bra { off := 1 }) (mac two both) = .next t) ∧
    (∃ t, exec (.call { h := true, off := 0x7FFFF }) (mac two both) = .next t) ∧
    ∃ t, exec (.brx { p := 1, a := 3 }) (mac (blk [{ th 0 [(3, 0xFFFFFFC0)] with preds := 2 }, th 1 [(3, 1)]]) both) = .next t := by
  have r := (h { off := 1 } {}).1 _ _ _ witness_runs (by decide)
  have q := (h { h := true, off := 0x7FFFF } {}).2.2.1 _ _ _ witness_runs (by decide)
  have p := (h {} { p := 1, a := 3 }).2.1 (mac (blk [{ th 0 [(3, 0xFFFFFFC0)] with preds := 2 }, th 1 [(3, 1)]]) both) (atPc both) _
    ⟨rfl, rfl, by decide, by decide, by decide, by decide⟩ (by decide)
  exact ⟨(r.1 (by decide)).imp fun _ q => q.1, (q.2 (by decide) (by unfold Thread.idle; decide)).imp fun _ q => q.1,
    (p.2 (by decide) (by unfold Thread.idle; decide)).imp fun _ q => q.1⟩

/-- `JOIN` where nobody is due passes; where one executing thread names it and another thread is due, it holds. -/
theorem witness_join (h : Rules.JoinHoldsOrPasses) :
    (∃ t, exec (.join false 0) (mac two both) = .next t) ∧
    ∃ t, exec (.join false 0) (mac (blk [{ th 0 with mr := 0x100 }, th 1, { th 2 with mr := 0x100, pc := 0x80, cond := .pool 0 true }]) both) =
      .next t :=
  ⟨((h false 0 _ _ _ witness_runs).1 (by decide)).imp fun _ q => q.1,
   ((h false 0 (mac (blk [{ th 0 with mr := 0x100 }, th 1, { th 2 with mr := 0x100, pc := 0x80, cond := .pool 0 true }]) both) (atPc both) _
      ⟨rfl, rfl, by decide, by decide, by decide, by decide⟩).2 (by decide) (by decide)
      (by unfold Thread.idle; decide)).imp fun _ q => q.1⟩

/-- A thread held at 0x200 with nobody due goes on at 0x204; with a thread due there it stays. -/
theorem witness_meet (h : Rules.MeetingReleases) :
    let t : Thread := { th 0 with cond := .held 0x200 }
    let u : Thread := { th 1 with mr := 0x200 }
    ((mac (blk [t]) []).meet 0 0).thread? 0 0 0 = some { t with cond := .pool 0 false, pc := 0x204 } ∧
    ((mac (blk [t, u]) []).meet 0 0).thread? 0 0 0 = some t := by
  intro t u
  obtain ⟨b, e, _, _, f⟩ := h (mac (blk [t]) []) _ 0 0 rfl
  obtain ⟨d, g, _, _, k⟩ := h (mac (blk [t, u]) []) _ 0 0 rfl
  refine ⟨?_, ?_⟩
  · unfold State.thread?; rw [e]; exact (f 0 t rfl).1 0x200 rfl (by decide)
  · unfold State.thread?; rw [g]; exact (k 0 t rfl).2 (.inr ⟨0x200, rfl, by decide⟩)

/-- The lowest and the highest window base of an allocation of 128 registers. -/
theorem witness_wbase (h : Rules.MeetingAndWindowRegisters) :
    (∃ t, exec (.wbase { imm := 0 }) (mac two both) = .next t) ∧ ∃ t, exec (.wbase { imm := 15 }) (mac two both) = .next t :=
  ⟨(h.2 { imm := 0 } _ _ _ witness_runs (by decide) (by decide)).imp fun _ q => q.1,
   (h.2 { imm := 15 } _ _ _ witness_runs (by decide) (by decide)).imp fun _ q => q.1⟩

theorem witness_exit (h : Rules.ExitEndsThreads) : ∃ t, exec (.exit false 0) (mac two both) = .next t :=
  (h false 0 _ _ _ witness_runs (by unfold Thread.idle; decide)).imp fun _ q => q.1

/-! ## Special registers, traps, system instructions -/

/-- Window bases 120 and 128 of an allocation of 128: the last that fits, the first that does not. -/
theorem witness_window_base (h : Rules.RegisterWrites) :
    (∃ t, exec (.mtsr { a := 1, imm := 0x15 }) (mac (one [(1, 120)]) [(0, 0)]) = .next t) ∧
    (∃ t, exec (.mtsr { a := 1, imm := 0x15 }) (mac (one [(1, 128)]) [(0, 0)]) = .next t) ∧
    (∃ t, exec (.mtsr { a := 1, imm := 0x15 }) (mac (one [(1, 7)]) [(0, 0)]) = .next t) ∧
    ∃ t, exec (.sset { a := 1, imm := 63 }) (mac two both) = .next t := by
  have q := fun v => (h { a := 1, imm := 0x15 }).2.2.2.2.2.1 rfl (mac (one [(1, v)]) [(0, 0)]) (atPc [(0, 0)]) (one [(1, v)]) 0
    (th 0 [(1, v)]) ⟨rfl, rfl, rfl, rfl⟩ ⟨rfl, rfl⟩ rfl (Nat.zero_lt_succ _)
  exact ⟨((h { a := 1, imm := 0x15 }).2.2.2.2.1 rfl (mac (one [(1, 120)]) [(0, 0)]) (atPc [(0, 0)]) _
      ⟨rfl, rfl, by decide, by decide, by decide, by decide⟩ (by decide)).imp fun _ q => q.1,
    (q 128 (by decide)).imp fun _ q => q.1, (q 7 (by decide)).imp fun _ q => q.1,
    let ⟨t, _, e, _⟩ := (h { a := 1, imm := 63 }).2.2.2.2.2.2 _ _ _ _ witness_runs rfl; ⟨t, e⟩⟩

/-- One thread; with a user handler, and without. -/
theorem witness_traps (h : Rules.SoftwareTraps) (p : Rules.TrapReturn) :
    (∃ t, exec (.trap { imm := 5 }) (mac { one [] with trapv := 0x1001 } [(0, 0)]) = .next t) ∧
    (∃ t, exec (.bkpt { imm := 5 }) (mac (one []) [(0, 0)]) = .next t) ∧
    (∃ t, exec (.rtt { a := 1 }) (mac (one [(1, 0x104)]) [(0, 0)]) = .next t) ∧
    ∃ t, exec (.rtt { a := 1 }) (mac (one [(1, 0x102)]) [(0, 0)]) = .next t := by
  have q := p { a := 1 } (mac (one [(1, 0x104)]) [(0, 0)]) (atPc [(0, 0)]) _
    ⟨rfl, rfl, by decide, by decide, by decide, by decide⟩ (by unfold Thread.idle; decide)
  have r := p { a := 1 } (mac (one [(1, 0x102)]) [(0, 0)]) (atPc [(0, 0)]) _
    ⟨rfl, rfl, by decide, by decide, by decide, by decide⟩ (by unfold Thread.idle; decide)
  exact ⟨((h { imm := 5 } (mac { one [] with trapv := 0x1001 } [(0, 0)]) (atPc [(0, 0)]) _ 0 (th 0) ⟨rfl, rfl, rfl, rfl⟩
      ⟨rfl, rfl⟩ rfl (by decide)).1).imp fun _ q => q.1,
    ((h { imm := 5 } (mac (one []) [(0, 0)]) (atPc [(0, 0)]) _ 0 (th 0) ⟨rfl, rfl, rfl, rfl⟩
      ⟨rfl, rfl⟩ rfl (by decide)).2).imp fun _ q => q.1,
    (q.1 (by decide)).imp fun _ q => q.1,
    (r.2 0 (th 0 [(1, 0x102)]) ⟨rfl, rfl, rfl, rfl⟩ rfl (by decide) (by decide)).imp fun _ q => q.1⟩

/-- A register that is read at once, and one whose value lands later. -/
theorem witness_register_reads (h : Rules.RegisterReads) :
    (∃ t, exec (.mfsrSpecial { d := 3, imm := 0x18 }) (mac two both) = .next t) ∧
    ∃ t, exec (.mfsrSpecial { d := 119, imm := 0x1A }) (mac two both) = .next t :=
  ⟨((h { d := 3, imm := 0x18 }).2.2.2.2.2.2.2.2.2.2.2.2.2.2.2.2.2.2.2.2.1 rfl _ _ _ witness_runs).imp fun _ q => q.1,
   ((h { d := 119, imm := 0x1A }).2.2.2.2.2.2.2.2.2.2.2.2.2.2.2.2.2.2.2.2.2.2.2.1 rfl _ _ _ witness_runs).imp fun _ q => q.1⟩

/-- A linear record at its last byte, and a pitched one whose row ends. -/
theorem witness_record_offsets (h : Rules.RecordOffsets) :
    (recOffset rec0 0xFFFF 0 1).1 = 0xFFFF ∧ (recOffset (rec0 ||| 1 <<< 199 ||| 1 <<< 230) 0x20040 0 1).1 = 320 :=
  ⟨((h rec0 0xFFFF 0 1).1 (by decide)).1.trans (by decide), ((h (rec0 ||| 1 <<< 199 ||| 1 <<< 230) 0x20040 0 1).2.1 (by decide)).1.trans (by decide)⟩

/-- A target that is a multiple of 4 but no fetch block. -/
theorem witness_indirect_traps (h : Rules.IndirectTargetsTrap) : ∃ t, exec (.callx { a := 1, p := 7 }) (mac (one [(1, 0x104)]) [(0, 0)]) = .next t :=
  (h { a := 1, p := 7 } (mac (one [(1, 0x104)]) [(0, 0)]) (atPc [(0, 0)]) _ 0 (th 0 [(1, 0x104)]) ⟨rfl, rfl, rfl, rfl⟩ ⟨rfl, rfl⟩ rfl (by decide)
    rfl (by decide)).2.1.imp fun _ q => q.1

/-! ## Accesses to memory -/

/-- What `Reached` asks of a table of translations, as a test. -/
def reachedOk (fs : Forms) (k : AccKind) (tab : LineTab) : Bool :=
  fs.traps.isEmpty && fs.accs.all (fun a => (a.failure tab k).isNone) &&
    tab.all (fun x => match x.2 with | .ok p => p.key % 128 == 0 | .error _ => true) &&
    tab.all fun x => tab.all fun y => match x.2, y.2 with
      | .ok p, .ok q => p.key != q.key || p == q
      | _, _ => true

theorem reached {s : State} {c : Cur} {fs : Forms} {k : AccKind}
    (h : reachedOk fs k (s.xlatLines (s.askerOf c) k (allLines fs.accs)).2 = true) :
    Reached s c fs k (s.xlatLines (s.askerOf c) k (allLines fs.accs)).1 (s.xlatLines (s.askerOf c) k (allLines fs.accs)).2 := by
  simp only [reachedOk, Bool.and_eq_true, List.all_eq_true, List.isEmpty_iff] at h
  obtain ⟨⟨⟨h1, h2⟩, h3⟩, h4⟩ := h
  refine ⟨h1, rfl, fun a ha => Option.isNone_iff_eq_none.1 (h2 a ha), fun x hx p hp => ?_, fun x hx y hy p q hp hq e => ?_⟩
  · have := h3 x hx; rw [hp] at this; exact beq_iff_eq.1 this
  · have := h4 x hx y hy; rw [hp, hq] at this; simpa [e] using this

/-- Every line of a list translates. -/
def allOk (tab : LineTab) (lines : List Nat) : Bool := lines.all fun x => match tab.get x with | .ok _ => true | .error _ => false
theorem ofAllOk {tab : LineTab} {lines : List Nat} (h : allOk tab lines = true) : ∀ x ∈ lines, ∃ p, tab.get x = .ok p := by
  intro x hx
  have q := List.all_eq_true.1 h x hx
  revert q
  cases tab.get x with
  | ok p => exact fun _ => ⟨p, rfl⟩
  | error f => exact fun q => (nomatch q)

/-- Every entry of a table is a translation. -/
def tabOk (tab : LineTab) : Bool := tab.all fun x => match x.2 with | .ok _ => true | .error _ => false
theorem ofTabOk {tab : LineTab} (h : tabOk tab = true) : ∀ x ∈ tab, ∃ p, x.2 = .ok p := by
  intro x hx
  have q := List.all_eq_true.1 h x hx
  revert q
  cases x.2 with
  | ok p => exact fun _ => ⟨p, rfl⟩
  | error f => exact fun q => (nomatch q)

/-- Two threads: the last word in bounds and the first out of bounds. -/
def edge : Block := blk [th 0 [(1, 0xFFFC), (2, 0xFFF8)], th 1 [(1, 0xFFFD), (2, 0x10000)]]
theorem runs_edge : Runs (mac edge both) (atPc both) edge := ⟨rfl, rfl, by decide, by decide, by decide, by decide⟩

/-- A load at the edge of the record; one that crosses two lines; a load-acquire. -/
theorem witness_loads (h : Rules.LoadsRead) :
    (∃ t, exec (.ld .w32 .normal none { d := 3, a := 1 }) (mac edge both) = .next t) ∧
    (∃ t, exec (.ld .b128 .normal (some 120) { d := 4, a := 1 }) (mac two both) = .next t) ∧
    ∃ t, exec (.lda .w64 .normal .sys 0x1FFFF8 { d := 4, a := 2 }) (mac edge both) = .next t :=
  ⟨((h .w32 .normal .sys none 0 { d := 3, a := 1 }).1 _ _ _ _ _ runs_edge (by unfold Standing; decide) (reached (by decide))
      (by unfold Full; decide) (by decide)).imp fun _ q => q.1,
   ((h .b128 .normal .sys (some 120) 0 { d := 4, a := 1 }).1 _ _ _ _ _ witness_runs (by unfold Standing; decide) (reached (by decide))
      (by unfold Full; decide) (by decide)).imp fun _ q => q.1,
   ((h .w64 .normal .sys none 0x1FFFF8 { d := 4, a := 2 }).2 _ _ _ _ _ runs_edge (by unfold Standing; decide) (reached (by decide))
      (by unfold Full; decide) (by decide)).imp fun _ q => q.1⟩

/-- An answer that is an error, or is none. -/
def errOf {ε α : Type} : Except ε α → Option ε | .error e => some e | .ok _ => none
def okOf {ε α : Type} : Except ε α → Option α | .ok v => some v | .error _ => none
theorem ofErr {ε α : Type} {x : Except ε α} {e : ε} (h : errOf x = some e) : x = .error e := by
  cases x with
  | error f => cases h; rfl
  | ok v => cases h
theorem ofOk {ε α : Type} {x : Except ε α} {v : α} (h : okOf x = some v) : x = .ok v := by
  cases x with
  | error f => cases h
  | ok v => cases h; rfl
theorem ofErr2 {α ε β : Type} {x : α × Except ε β} {s : α} {e : ε} (h : x.1 = s ∧ errOf x.2 = some e) : x = (s, .error e) := by
  rw [← h.1, ← ofErr h.2]
theorem ofOk2 {α ε β : Type} {x : α × Except ε β} {s : α} {v : β} (h : x.1 = s ∧ okOf x.2 = some v) : x = (s, .ok v) := by
  rw [← h.1, ← ofOk h.2]

/-- What the second of two states satisfies first. -/
theorem snd {p : State → Prop} {q : State → State → Prop} (h : ∃ y t, p t ∧ q y t) : ∃ t, p t := h.elim fun _ g => g.imp fun _ r => r.1

/-- Stores at the edge of the record, of every form. -/
theorem witness_stores (h : Obligations.StoresWrite) :
    (∃ t, exec (.stWord false none { d := 3, a := 1 }) (mac edge both) = .next t) ∧
    (∃ t, exec (.stB128 none { d := 4, a := 1 }) (mac two both) = .next t) ∧
    ∃ t, exec (.str64 .pkg 0 { d := 4, a := 2 }) (mac edge both) = .next t :=
  ⟨snd ((h false .pkg none 0 { d := 3, a := 1 }).1.1 _ _ _ _ _ runs_edge (by unfold Standing; decide) rfl (reached (by decide))
      (by decide) (by decide) (by decide) (by decide)),
   snd ((h false .pkg none 0 { d := 4, a := 1 }).2.2.1.1 _ _ _ _ _ witness_runs (by unfold Standing; decide) rfl (reached (by decide))
      (by decide) (by decide) (by decide) (by decide)),
   snd ((h false .pkg none 0 { d := 4, a := 2 }).2.2.2.1.1 _ _ _ _ _ runs_edge (by unfold Standing; decide) rfl (reached (by decide))
      (by decide) (by decide) (by decide) (by decide))⟩

/-- A store into a page of type STRM, whose line is not written yet. -/
theorem witness_stores_strm (h : Obligations.StoresWrite) :
    let s : State := { mac two both with
      tlb := [{ leaf0 with leaf := 0x5080BF }]
      priv := { swbbase := [0x100000, 0, 0, 0] } }
    ∃ t, exec (.stWord false none { d := 3, a := 1 }) s = .next t := by
  intro s
  exact snd ((h false .pkg none 0 { d := 3, a := 1 }).1.1 s (atPc both) two _ _ ⟨rfl, rfl, by decide, by decide, by decide, by decide⟩
    (by unfold Standing; decide) rfl (reached (by decide)) (by decide) (by decide) (by decide) (by decide))

/-- A store and an atomic on a page of type SEQ. -/
theorem witness_seq (h : Obligations.StoresWrite) (a : Rules.AtomicsReadModifyWrite) :
    let s : State := { mac two both with tlb := [{ leaf0 with leaf := 0x50807F }] }
    (∃ t, exec (.stWord false none { d := 3, a := 1 }) s = .next t) ∧
    ∃ t, exec (.atom .add false 0 { d := 3, a := 127 }) s = .next t := by
  intro s
  have r : Runs s (atPc both) two := ⟨rfl, rfl, by decide, by decide, by decide, by decide⟩
  exact ⟨snd ((h false .pkg none 0 { d := 3, a := 1 }).1.1 s (atPc both) two _ _ r
      (by unfold Standing; decide) rfl (reached (by decide)) (by decide) (by decide) (by decide) (by decide)),
    snd ((a .add false .n32 0 none { d := 3, a := 127 }).2.2.2.2.1 s (atPc both) two _ _ r
      (by unfold Standing; decide) rfl (reached (by decide)) (by decide))⟩

/-- A store to a line of a STRM page that is written already. -/
theorem witness_rewrite (h : Obligations.StoresWrite) :
    let s : State := { mac (one [(1, 4)]) [(0, 0)] with
      tlb := [{ leaf0 with leaf := 0x5080BF }]
      priv := { swbbase := [0x100000, 0, 0, 0] }
      mem := [(0x100140, 1)] }
    ∃ t, exec (.stWord false none { d := 3, a := 1 }) s = .next t := by
  intro s
  exact ((h false .pkg none 0 { d := 3, a := 1 }).1.2.2 s (atPc [(0, 0)]) (one [(1, 4)]) 0 (th 0 [(1, 4)]) ⟨rfl, rfl, rfl, rfl⟩
    ⟨rfl, rfl⟩ rfl (by decide) rfl rfl 4 [5, 6, 7] { tt := 0, ct := 2, hb := false, key := 0x50000 } (by decide +kernel) (by decide)
    (ofOk2 (by decide +kernel)) rfl rfl rfl (by decide +kernel)).imp fun _ q => q.1

/-- Scratchpad accesses at the last word of an allocation of 1,024 bytes, and one beyond it. -/
theorem witness_scratchpad (h : Rules.ScratchpadLoads) (p : Rules.ScratchpadStores) :
    let b := blk [th 0 [(1, 1020)], th 1 [(1, 1024)]]
    (∃ t, exec (.lds .w32 none { d := 3, a := 1 }) (mac b both) = .next t) ∧
    (∃ t, exec (.tlds .n8 none { d := 3, a := 1 }) (mac (blk [th 0 [(1, 0)], th 1 [(1, 1023)]]) both) = .next t) ∧
    ∃ t, exec (.sts .b32 none { d := 3, a := 1 }) (mac b both) = .next t := by
  intro b
  exact ⟨((h .w32 .n8 none { d := 3, a := 1 }).1 (mac b both) (atPc both) b ⟨rfl, rfl, by decide, by decide, by decide, by decide⟩
      (by decide)).imp fun _ q => q.1,
    ((h .w32 .n8 none { d := 3, a := 1 }).2 (mac (blk [th 0 [(1, 0)], th 1 [(1, 1023)]]) both) (atPc both) _
      ⟨rfl, rfl, by decide, by decide, by decide, by decide⟩ (by decide)).imp fun _ q => q.1,
    (p .b32 none { d := 3, a := 1 } (mac b both) (atPc both) b ⟨rfl, rfl, by decide, by decide, by decide, by decide⟩
      (by unfold Standing; decide) rfl (by decide)).imp fun _ q => q.1⟩

/-- `FEMK` on the last line of the allocation, and one line too many. -/
theorem witness_femk (h : Rules.FullEmptyMarks) :
    (∃ t, exec (.femk true none { d := 2, a := 1 }) (mac (one [(1, 896), (2, 1)]) [(0, 0)]) = .next t) ∧
    ∃ t, exec (.femk false none { d := 2, a := 1 }) (mac (one [(1, 896), (2, 2)]) [(0, 0)]) = .next t :=
  ⟨((h true none { d := 2, a := 1 } (mac (one [(1, 896), (2, 1)]) [(0, 0)]) (atPc [(0, 0)]) _ 0 (th 0 [(1, 896), (2, 1)])
      ⟨rfl, rfl, rfl, rfl⟩ rfl).1 (by decide) (by decide) (by decide)).imp fun _ q => q.1,
   ((h false none { d := 2, a := 1 } (mac (one [(1, 896), (2, 2)]) [(0, 0)]) (atPc [(0, 0)]) _ 0 (th 0 [(1, 896), (2, 2)])
      ⟨rfl, rfl, rfl, rfl⟩ rfl).2 (by decide)).imp fun _ q => q.1⟩

/-- `KLD` of the last record of the page, `THND` of its first 256 bytes. -/
theorem witness_record_loads (h : Rules.RecordAndHandleLoads) :
    (∃ t, exec (.kld .normal none { d := 31, a := 1 }) (mac (one [(1, 0xFFE0)]) [(0, 0)]) = .next t) ∧
    ∃ t, exec (.thnd { d := 15, a := 3, b := 31 }) (mac two both) = .next t :=
  ⟨((h .normal none { d := 31, a := 1 } {}).1 (mac (one [(1, 0xFFE0)]) [(0, 0)]) (atPc [(0, 0)]) _ _ _ _
      ⟨rfl, rfl, by decide, by decide, by decide, by decide⟩ (by unfold Standing; decide) rfl (reached (by decide +kernel))
      (by unfold Full; decide +kernel) (by decide +kernel)).imp fun _ q => q.1,
   ((h .normal none {} { d := 15, a := 3, b := 31 }).2 _ _ _ _ _ _ witness_runs (by unfold Standing; decide) rfl (reached (by decide +kernel))
      (by unfold Full; decide +kernel) (by decide +kernel)).imp fun _ q => q.1⟩

/-- A thread with an outstanding result of each kind. -/
theorem witness_results (h : Rules.ResultsLand) (p : Rules.AccumulatorReadsLand) :
    let t : Thread := { th 0 with pend := [.regs 119 [5], .krec 31 rec0 5, .handle 15 0 6, .obrd 8 [1, 2]] }
    (∃ u, exec (.variableResultLands 0 0 0 1) (mac (blk [t]) []) = .next u) ∧
    (∃ u, exec (.variableResultLands 0 0 0 2) (mac (blk [t]) []) = .next u) ∧
    ∃ u, exec (.obrdLands 0 0 0) (mac (blk [t]) []) = .next u := by
  intro t
  exact ⟨(h (mac (blk [t]) []) 0 0 0 1 _ t _ rfl rfl rfl).imp fun _ q => q.1,
    (h (mac (blk [t]) []) 0 0 0 2 _ t _ rfl rfl rfl).imp fun _ q => q.1,
    (p (mac (blk [t]) []) 0 0 0 8 3 _ t _ rfl rfl rfl
      (by intro j hj x y e; rcases j with _ | _ | _ | j <;> first | cases e | omega) (by decide)).imp fun _ q => q.1⟩

/-- `PREF`; `CWB` of nothing and of a range across two lines; `SARM` of one STRM line. -/
theorem witness_maintenance (h : Rules.PrefetchIsSilent) (p : Rules.MaintenanceIsIssued) :
    let s := mac (one [(1, 100), (2, 60)]) [(0, 0)]
    let z := mac (one [(1, 100)]) [(0, 0)]
    let r := { mac (one [(1, 128), (2, 128)]) [(0, 0)] with tlb := [{ leaf0 with leaf := 0x5080BF }] }
    (∃ t, exec (.pref .both none { a := 1 }) s = .next t) ∧ (∃ t, exec (.cwb .l1 none { d := 2, a := 1 }) s = .next t) ∧
    (∃ t, exec (.cinv .l2 none { d := 2, a := 1 }) z = .next t) ∧ ∃ t, exec (.sarm none { d := 2, a := 1 }) r = .next t := by
  intro s z r
  refine ⟨(h .both none { a := 1 } s (atPc [(0, 0)]) _ ⟨rfl, rfl, by decide, by decide, by decide, by decide⟩
      (by unfold Standing; decide) (by unfold State.copiesOk; decide)).imp fun _ q => q.1, ?_, ?_, ?_⟩
  · obtain ⟨v, w, e, _⟩ := (p .l1 none { d := 2, a := 1 } s _ (atPc [(0, 0)]) _ 0 (th 0 [(1, 100), (2, 60)]) _
      ⟨rfl, rfl, rfl, rfl⟩ rfl).1.2 (by decide) (by decide) (by decide) (by decide) rfl
      (ofAllOk (by decide))
    exact ⟨v, e⟩
  · exact ((p .l2 none { d := 2, a := 1 } z z (atPc [(0, 0)]) _ 0 (th 0 [(1, 100)]) [] ⟨rfl, rfl, rfl, rfl⟩ rfl).2.1.1
      (by decide) (by decide)).imp fun _ q => q.1
  · obtain ⟨v, w, e, _⟩ := (p .l1 none { d := 2, a := 1 } r _ (atPc [(0, 0)]) _ 0 (th 0 [(1, 128), (2, 128)]) _
      ⟨rfl, rfl, rfl, rfl⟩ rfl).2.2.2 (by decide) (by decide) (by decide) (by decide) rfl
      (ofAllOk (by decide))
    exact ⟨v, e⟩

/-- A block whose records are the page, a malformed record (bit 140 is reserved), the page with TRAP set, and one from the
first byte that is not mapped. -/
def recs (b : Block) : Block := { b with krecs := [rec0, rec0 ||| 1 <<< 140, rec0 ||| 1 <<< 135, rec0 ||| 0x10000] }

/-- The four traps of a load. -/
theorem witness_load_traps (h : Rules.LoadsTrapPrecisely) :
    let b := recs (one [(1, 0xFFFD)])
    (∃ t, exec (.ld .w32 .normal none { d := 3, a := 1, k := 1 }) (mac b [(0, 0)]) = .next t) ∧
    (∃ t, exec (.ld .w32 .normal none { d := 3, a := 1, k := 2 }) (mac b [(0, 0)]) = .next t) ∧
    (∃ t, exec (.lda .w32 .normal .blk 0x1FFFFE { d := 3, a := 1 }) (mac b [(0, 0)]) = .next t) ∧
    ∃ t, exec (.ld .w32 .normal none { d := 3, a := 127, k := 3 }) (mac b [(0, 0)]) = .next t := by
  intro b
  have q := fun n r => (h .w32 .normal .blk none n r).1 (mac b [(0, 0)]) (atPc [(0, 0)]) b 0 (th 0 [(1, 0xFFFD)]) ⟨rfl, rfl, rfl, rfl⟩
    ⟨rfl, rfl⟩ rfl (Nat.zero_lt_succ _) rfl
  have z := fun n r => (h .w32 .normal .blk none n r).2 (mac b [(0, 0)]) (atPc [(0, 0)]) b 0 (th 0 [(1, 0xFFFD)]) ⟨rfl, rfl, rfl, rfl⟩
    ⟨rfl, rfl⟩ rfl (Nat.zero_lt_succ _) rfl
  exact ⟨((q 0 { d := 3, a := 1, k := 1 }).1 (by decide)).imp fun _ q => q.1,
    ((q 0 { d := 3, a := 1, k := 2 }).2.1 (by decide) (by decide) (by decide)).imp fun _ q => q.1,
    ((z 0x1FFFFE { d := 3, a := 1 }).2.2.1 (by decide) (by decide) (by decide)).imp fun _ q => q.1,
    ((q 0 { d := 3, a := 127, k := 3 }).2.2.2 0x10000 [0x10001, 0x10002, 0x10003] { cause := 0 } (by decide +kernel) (by decide)
      (ofErr2 (by decide +kernel))).imp
      fun _ q => q.1⟩

/-- A `TLBI` in a user launch; unaligned; of no page; of one page; of everything. -/
theorem witness_tlbi (h : Rules.ShootdownInstruction) :
    (∃ t, exec (.tlbi .all { a := 4 }) (mac { one [] with priv := false } [(0, 0)]) = .next t) ∧
    (∃ t, exec (.tlbi .range { a := 4 }) (mac (one [(4, 0x8000)]) [(0, 0)]) = .next t) ∧
    (∃ t, exec (.tlbi .range { a := 4 }) (mac (one []) [(0, 0)]) = .next t) ∧
    (∃ t, exec (.tlbi .range { a := 116 }) (mac (one [(118, 1)]) [(0, 0)]) = .next t) ∧
    ∃ t, exec (.tlbi .all { a := 4 }) (mac (one []) [(0, 0)]) = .next t :=
  ⟨((h .all { a := 4 } (mac { one [] with priv := false } [(0, 0)]) (atPc [(0, 0)]) _ 0 (th 0) ⟨rfl, rfl, rfl, rfl⟩
      ⟨rfl, rfl⟩ rfl (by decide) (by decide)).1 rfl).imp fun _ q => q.1,
   ((h .range { a := 4 } (mac (one [(4, 0x8000)]) [(0, 0)]) (atPc [(0, 0)]) _ 0 (th 0 [(4, 0x8000)]) ⟨rfl, rfl, rfl, rfl⟩
      ⟨rfl, rfl⟩ rfl (by decide) (by decide)).2 rfl).1 rfl (by decide) |>.imp fun _ q => q.1,
   ((h .range { a := 4 } (mac (one []) [(0, 0)]) (atPc [(0, 0)]) _ 0 (th 0) ⟨rfl, rfl, rfl, rfl⟩
      ⟨rfl, rfl⟩ rfl (by decide) (by decide)).2 rfl).2.1 rfl (by decide) (by decide) |>.imp fun _ q => q.1,
   ((h .range { a := 116 } (mac (one [(118, 1)]) [(0, 0)]) (atPc [(0, 0)]) _ 0 (th 0 [(118, 1)]) ⟨rfl, rfl, rfl, rfl⟩
      ⟨rfl, rfl⟩ rfl (by decide) (by decide)).2 rfl).2.2 (.inr (by decide)) |>.imp fun _ q => q.1,
   ((h .all { a := 4 } (mac (one []) [(0, 0)]) (atPc [(0, 0)]) _ 0 (th 0) ⟨rfl, rfl, rfl, rfl⟩
      ⟨rfl, rfl⟩ rfl (by decide) (by decide)).2 rfl).2.2 (.inl (by decide)) |>.imp fun _ q => q.1⟩

/-- Lines of the page are resident: line n of it at home line 2560 + n. -/
def residentOk (s : State) (q : Asker) (k : AccKind) (line home : Nat) : Bool :=
  decide (line * 128 < 2 ^ 55) && match s.tlbHit q (line * 128) with
    | none => false
    | some e => e.dset && pteTt e.leaf.toNat == 0 && pteCt e.leaf.toNat == 0 && !(bitAt e.leaf.toNat 13) &&
      accessCheck q k e.leaf.toNat == none && s.leafKey q e.leaf.toNat (line * 128 - e.base) == home * 128

theorem resident {s : State} {q : Asker} {k : AccKind} {line home : Nat} (h : residentOk s q k line home = true) :
    Resident s q k line home := by
  unfold residentOk at h
  revert h
  cases e : s.tlbHit q (line * 128) with
  | none => simp
  | some t =>
    intro h
    simp only [Bool.and_eq_true, decide_eq_true_eq, beq_iff_eq, Bool.not_eq_true'] at h
    exact ⟨h.1, t, e, h.2.1.1.1.1.1, h.2.1.1.1.1.2, h.2.1.1.1.2, h.2.1.1.2, h.2.1.2, h.2.2⟩

theorem residentAt {s : State} {q : Asker} {k : AccKind} {va key : Nat}
    (h : (residentOk s q k (va / 128) (key / 128) && key % 128 == va % 128) = true) : ResidentAt s q k va key := by
  simp only [Bool.and_eq_true, beq_iff_eq] at h
  exact ⟨key / 128, resident h.1, by omega⟩

/-- `ICINV` of the last 64 bytes of the page, and of nothing. -/
theorem witness_icinv (h : Rules.InstructionInvalidate) :
    (∃ t, exec (.icinv { a := 4 }) (mac (one [(4, 0xFFC0), (5, 64)]) [(0, 0)]) = .next t) ∧
    ∃ t, exec (.icinv { a := 118 }) (mac (one []) [(0, 0)]) = .next t := by
  refine ⟨(h { a := 4 } (mac (one [(4, 0xFFC0), (5, 64)]) [(0, 0)]) (atPc [(0, 0)]) _ 0 (th 0 [(4, 0xFFC0), (5, 64)])
      (fun i => 2560 + i) ⟨rfl, rfl, rfl, rfl⟩ rfl (by decide) fun p h1 h2 => ?_).imp fun _ q => q.1,
    (h { a := 118 } (mac (one []) [(0, 0)]) (atPc [(0, 0)]) _ 0 (th 0) (fun _ => 0) ⟨rfl, rfl, rfl, rfl⟩ rfl (by decide)
      fun p h1 h2 => ?_).imp fun _ q => q.1⟩
  · have c : p * 65536 < 65536 := h2
    obtain rfl : p = 0 := by omega
    refine ⟨by decide, leaf0, by decide +kernel, by decide +kernel, by decide +kernel, fun i _ hi => ?_⟩
    have all : ∀ i < 512, (mac (one [(4, 0xFFC0), (5, 64)]) [(0, 0)]).leafKey (one [(4, 0xFFC0), (5, 64)]).asker
        leaf0.leaf.toNat (i * 128 - leaf0.base) / 128 = 2560 + i ∧ spaceOf ((2560 + i) * 128) = .hbm := by decide +kernel
    exact all i (by omega)
  · have c : p * 65536 < 0 := h2
    omega

/-- A thread with one `CWB`, `CINV` or `SARM` of the line at 2560, which its L1 holds with written bytes. -/
theorem witness_maintenance_completes (h : Rules.MaintenanceCompletes) (op : Nat) (l2 : Bool) :
    let t : Thread := { th 0 with maint := [{ op := op, l2 := l2, lines := [(2560, 15)] }] }
    let s := { mac (blk [t]) [] with copies := [{ holder := .l1 0, line := 2560, data := 7, valid := 15, dirty := 15, ct := 0 }] }
    ∃ u, exec (.maintenanceComplete 0 0 0) s = .next u := by
  intro t s
  exact (h s 0 0 0 op 2560 15 l2 t [] rfl rfl rfl rfl).imp fun _ q => q.1

/-! ## Atomics, waits, fences -/

/-- Two threads at one word, one beyond the record; the same in single form; a release. -/
theorem witness_atomics (h : Rules.AtomicsReadModifyWrite) :
    let b := blk [th 0 [(1, 0xFFF8), (2, 1)], th 1 [(1, 0xFFF8), (2, 2)], th 2 [(1, 0x10000)]]
    let act := [(0, 0), (1, 1), (2, 2)]
    (∃ t, exec (.atomr .add false 0 { d := 2, a := 1 }) (mac b act) = .next t) ∧
    (∃ t, exec (.atom .exch true 0 { d := 2, a := 1 }) (mac b act) = .next t) ∧
    (∃ t, exec (.cas .n64 0 { d := 4, a := 1 }) (mac b act) = .next t) ∧
    ∃ t, exec (.cadd true (some 0x700000) { d := 2, a := 1 }) (mac b act) = .next t := by
  intro b act
  have r : Runs (mac b act) (atPc act) b := ⟨rfl, rfl, by decide, by decide, by decide, by decide⟩
  exact ⟨snd ((h .add false .n32 0 none { d := 2, a := 1 }).2.2.2.2.2.1 _ _ _ _ _ r (by unfold Standing; decide) rfl (reached (by decide))
      (by decide)),
    snd ((h .exch true .n32 0 none { d := 2, a := 1 }).2.2.2.2.1 _ _ _ _ _ r (by unfold Standing; decide) rfl (reached (by decide))
      (by decide)),
    snd ((h .exch true .n64 0 none { d := 4, a := 1 }).2.2.2.2.2.2.1 _ _ _ _ _ r (by unfold Standing; decide) rfl (reached (by decide))
      (by decide)),
    snd ((h .exch true .n64 0 (some 0x700000) { d := 2, a := 1 }).2.2.2.2.2.2.2 _ _ _ _ _ r (by unfold Standing; decide) rfl (reached (by decide))
      (by decide))⟩

/-- An atomic beyond its record, whose bounds trap. -/
theorem witness_atomic_traps (h : Rules.AtomicsReadModifyWrite) :
    let b := recs (one [(1, 0xFFFD)])
    ∃ t, exec (.atom .add false 0 { d := 2, a := 1, k := 2 }) (mac b [(0, 0)]) = .next t := by
  intro b
  exact (((h .add false .n32 0 none { d := 2, a := 1, k := 2 }).1 (mac b [(0, 0)]) (atPc [(0, 0)]) b 0 (th 0 [(1, 0xFFFD)])
    ⟨rfl, rfl, rfl, rfl⟩ ⟨rfl, rfl⟩ rfl (Nat.zero_lt_succ _) rfl).2.1 (by decide) (by decide) (by decide)).imp fun _ q => q.1

/-- The extreme operands of 4 and 8 bytes. -/
theorem witness_atomic_operations (h : Rules.AtomicOperations) :
    BitVec.ofNat 32 (atomApply .add 4 (2 ^ 32 - 1) 1) = 0xFFFFFFFF#32 + 1#32 ∧
    BitVec.ofNat 64 (atomApply .add 8 (2 ^ 64 - 1) 1) = 0xFFFFFFFFFFFFFFFF#64 + 1#64 :=
  ⟨(h.1 4 (2 ^ 32 - 1) 1 (.inl rfl) (by decide) (by decide)).1, (h.1 8 (2 ^ 64 - 1) 1 (.inr rfl) (by decide) (by decide)).1⟩

/-- The first word of a line that the L1 holds with bytes of its own. -/
theorem witness_own_bytes (h : Rules.AtomicsSeeOwnBytes) :
    let x : Copy := { holder := .l1 0, line := 2560, data := 7, valid := 15, dirty := 15, ct := 0 }
    let s := { mac (one [(1, 0), (2, 1)]) [(0, 0)] with copies := [x] }
    ∃ t, exec (.atomr .add false 0 { d := 2, a := 1 }) s = .next t := by
  intro x s
  exact (h .add 0 { d := 2, a := 1 } s s (atPc [(0, 0)]) _ 0 0 (th 0 [(1, 0), (2, 1)]) { key := 327680, ct := 0, hb := false, tt := 0 } x
    ⟨rfl, rfl, rfl, rfl⟩ rfl rfl rfl (by decide +kernel) (by decide +kernel) rfl (ofOk2 (by decide +kernel)) rfl rfl rfl rfl
    (by decide +kernel) (by decide +kernel) (by decide +kernel) (by decide +kernel) rfl rfl (by decide)).imp fun _ q => q.1

/-- `CWAIT` on a word that has its target, on one that has not, and out of bounds. -/
theorem witness_counter_waits (h : Rules.CounterWaits) :
    let s := mac (one [(1, 0xFFF8)]) [(0, 0)]
    let t := mac (one [(1, 0xFFF8), (2, 1)]) [(0, 0)]
    (∃ v, exec (.cwait true none { d := 2, a := 1 }) s = .next v) ∧ (∃ v, exec (.cwait true none { d := 2, a := 1 }) t = .next v) ∧
    ∃ v, exec (.cwait true none { d := 2, a := 1 }) (mac (one [(1, 0xFFF9)]) [(0, 0)]) = .next v := by
  intro s t
  exact ⟨(((h true none { d := 2, a := 1 } s s (atPc [(0, 0)]) _ 0 (th 0 [(1, 0xFFF8)]) 0xFFF8
      [0xFFF9, 0xFFFA, 0xFFFB, 0xFFFC, 0xFFFD, 0xFFFE, 0xFFFF] { key := 393088, ct := 0, hb := false, tt := 0 }
      ⟨rfl, rfl, rfl, rfl⟩ rfl).1 (by decide +kernel) (ofOk2 (by decide +kernel)) rfl).1 (by decide +kernel) (by decide +kernel)).1
      (by decide +kernel) |>.imp fun _ q => q.1,
   (((h true none { d := 2, a := 1 } t t (atPc [(0, 0)]) _ 0 (th 0 [(1, 0xFFF8), (2, 1)]) 0xFFF8
      [0xFFF9, 0xFFFA, 0xFFFB, 0xFFFC, 0xFFFD, 0xFFFE, 0xFFFF] { key := 393088, ct := 0, hb := false, tt := 0 }
      ⟨rfl, rfl, rfl, rfl⟩ rfl).1 (by decide +kernel) (ofOk2 (by decide +kernel)) rfl).1 (by decide +kernel) (by decide +kernel)).2
      (by decide +kernel) ⟨rfl, rfl⟩ |>.imp fun _ q => q.1,
   ((h true none { d := 2, a := 1 } (mac (one [(1, 0xFFF9)]) [(0, 0)]) (mac (one [(1, 0xFFF9)]) [(0, 0)]) (atPc [(0, 0)]) _ 0
      (th 0 [(1, 0xFFF9)]) 0 [] { key := 0, ct := 0, hb := false, tt := 0 } ⟨rfl, rfl, rfl, rfl⟩ rfl).2 (by decide)).imp
      fun _ q => q.1⟩

/-- `WAITA` with slots 0 and 2 armed: neither word differs; the word of slot 2 differs; both out of bounds. -/
theorem witness_address_waits (h : Rules.AddressWaits) :
    let i := Instr.waita (some 0x50000) { d := 2, a := 8 }
    let s := mac (one [(10, 8)]) [(0, 0)]
    let t := mac (one [(10, 8), (14, 1)]) [(0, 0)]
    (∃ v, exec i s = .next v) ∧ (∃ v, exec i t = .next v) ∧
    ∃ v, exec i (mac (one [(8, 0x10000), (10, 0xFFF9)]) [(0, 0)]) = .next v := by
  intro i s t
  let p : Nat → Place := fun _ => { key := 327680, ct := 0, hb := false, tt := 0 }
  have q := fun s b t hr => h (some 0x50000) { d := 2, a := 8 } s (atPc [(0, 0)]) b 0 t (fun i => 4 * i) p hr
  have u := (q s _ (th 0 [(10, 8)]) ⟨rfl, rfl, rfl, rfl⟩ rfl rfl (by decide) rfl rfl).1 (by decide) (fun i hi => by
    have : i = 0 ∨ i = 2 := by revert i; decide
    rcases this with rfl | rfl
    · exact ⟨⟨[1, 2, 3, 4, 5, 6, 7], by decide +kernel⟩, ofOk2 (by decide +kernel), by decide, by decide, rfl, by decide, rfl, rfl⟩
    · exact ⟨⟨[9, 10, 11, 12, 13, 14, 15], by decide +kernel⟩, ofOk2 (by decide +kernel), by decide, by decide, rfl, by decide, rfl, rfl⟩)
  have v := (q t _ (th 0 [(10, 8), (14, 1)]) ⟨rfl, rfl, rfl, rfl⟩ rfl rfl (by decide) rfl rfl).1 (by decide) (fun i hi => by
    have : i = 0 ∨ i = 2 := by revert i; decide
    rcases this with rfl | rfl
    · exact ⟨⟨[1, 2, 3, 4, 5, 6, 7], by decide +kernel⟩, ofOk2 (by decide +kernel), by decide, by decide, rfl, by decide, rfl, rfl⟩
    · exact ⟨⟨[9, 10, 11, 12, 13, 14, 15], by decide +kernel⟩, ofOk2 (by decide +kernel), by decide, by decide, rfl, by decide, rfl, rfl⟩)
  exact ⟨(u.2 (by decide +kernel) ⟨rfl, rfl⟩).imp fun _ q => q.1,
    (v.1 2 (by decide) (by decide +kernel) (by decide +kernel)).imp fun _ q => q.1,
    ((q (mac (one [(8, 0x10000), (10, 0xFFF9)]) [(0, 0)]) _ (th 0 [(8, 0x10000), (10, 0xFFF9)]) ⟨rfl, rfl, rfl, rfl⟩ rfl rfl (by decide)
      rfl rfl).2 (by decide +kernel)).imp fun _ q => q.1⟩

/-- `BADD`; `BWAIT` met and unmet; `BARV` on the last barrier. -/
theorem witness_barriers (h : Rules.NamedBarriers) :
    (∃ t, exec (.badd none { d := 47, b := 5 }) (mac two both) = .next t) ∧
    (∃ t, exec (.bwait none { a := 2 }) (mac (one []) [(0, 0)]) = .next t) ∧
    (∃ t, exec (.bwait none { a := 2 }) (mac (one [(2, 1)]) [(0, 0)]) = .next t) ∧
    ∃ t, exec (.barv none { d := 47, a := 4, b := 5 }) (mac two both) = .next t := by
  have one := fun s b => h none { a := 2 } s (atPc [(0, 0)]) b
  refine ⟨?_, ?_, ?_, ?_⟩
  · obtain ⟨t, _, e, _⟩ := (h none { d := 47, b := 5 } _ _ _ witness_runs (by unfold Standing; decide)).1; exact ⟨t, e⟩
  · exact ((one _ _ ⟨rfl, rfl, by decide, by decide, by decide, by decide⟩ (by unfold Standing; decide)).2.1 0 (th 0)
      ⟨rfl, rfl, rfl, rfl⟩).1 (by decide) |>.imp fun _ q => q.1
  · exact ((one _ _ ⟨rfl, rfl, by decide, by decide, by decide, by decide⟩ (by unfold Standing; decide)).2.1 0 (th 0 [(2, 1)])
      ⟨rfl, rfl, rfl, rfl⟩).2 (by decide) ⟨rfl, rfl⟩ |>.imp fun _ q => q.1
  · obtain ⟨t, _, e, _⟩ := (h none { d := 47, a := 4, b := 5 } _ _ _ witness_runs (by unfold Standing; decide)).2.2 (by decide)
      (by decide)
    exact ⟨t, e⟩

theorem witness_fences (h : Rules.FencesOrder) : ∃ t, exec (.fence .ar { d := 4 }) (mac two both) = .next t :=
  (h .ar { d := 4 } _ _ _ witness_runs (by unfold Standing; decide) (by decide) (fun x hx => by cases hx)).imp fun _ q => q.1

/-- Waiters whose reason has cleared, and whose reason stands. -/
theorem witness_waiters (h : Rules.WaitersResume) :
    let w := fun (r : Park) => mac (blk [{ th 0 with cond := .wings r }]) []
    let slot : WaSlot := { idx := 2, key := 327680, va := 0, fired := true }
    (∃ u, exec (.waiterWake 0 0 0) (w (.counter 327680 0 0 false)) = .next u) ∧
    exec (.slicePoll 0 0 0) (w (.counter 327680 0 1 false)) = .next (w (.counter 327680 0 1 false)) ∧
    (∃ u, exec (.slicePoll 0 0 0) (w (.counter 327680 0 1 true)) = .next u) ∧
    (∃ u, exec (.ioDiePoll 0 0 0) (w (.barrier 3 0 .blk)) = .next u) ∧
    exec (.waiterWake 0 0 0) (w (.barrier 3 1 .blk)) = .next (w (.barrier 3 1 .blk)) ∧
    (∃ u, exec (.waiterWake 0 0 0) (w (.address [slot] (some 3) none 0x104)) = .next u) ∧
    exec (.waiterWake 0 0 0) (w (.address [{ slot with fired := false }] (some 3) none 0x104)) =
      .next (w (.address [{ slot with fired := false }] (some 3) none 0x104)) := by
  intro w slot
  have q := fun i hi r => (h i (w r) 0 0 0 _ { th 0 with cond := .wings r } r hi rfl rfl rfl rfl).2 rfl
  exact ⟨((q _ (.inl rfl) (.counter 327680 0 0 false)).1 _ _ _ _ rfl).1 (.inr (by decide)) |>.imp fun _ q => q.1,
    ((q _ (.inr (.inl rfl)) (.counter 327680 0 1 false)).1 _ _ _ _ rfl).2 rfl (by decide),
    ((q _ (.inr (.inl rfl)) (.counter 327680 0 1 true)).1 _ _ _ _ rfl).1 (.inl rfl) |>.imp fun _ q => q.1,
    ((q _ (.inr (.inr rfl)) (.barrier 3 0 .blk)).2.1 _ _ _ rfl).1 (by decide) |>.imp fun _ q => q.1,
    ((q _ (.inl rfl) (.barrier 3 1 .blk)).2.1 _ _ _ rfl).2 (by decide),
    ((q _ (.inl rfl) (.address [slot] (some 3) none 0x104)).2.2 _ _ _ _ rfl).1 slot rfl (.inr rfl) |>.imp fun _ q => q.1,
    ((q _ (.inl rfl) (.address [{ slot with fired := false }] (some 3) none 0x104)).2.2 _ _ _ _ rfl).2 (by decide)⟩

/-! ## Caches and walks -/

/-- A written line homed on the L1's own die, one homed elsewhere, a host sector, an owned line, a contended one. -/
theorem witness_caches (h : Rules.CacheAndOwnershipEvents) :
    let c : Copy := { holder := .l1 0, line := 2560, data := 7, valid := 15, dirty := 15, ct := 0 }
    let x := { c with holder := .l2 0, line := hostKey 0 / 128 }
    (∃ t, exec (.cacheEviction false 0 2560) { mac two [] with copies := [c] } = .next t) ∧
    (∃ t, exec (.cacheEviction false 0 2147483648) { mac two [] with copies := [{ c with line := 2147483648 }] } = .next t) ∧
    (∃ t, exec (.hostSnoop 1) { mac two [] with copies := [x] } = .next t) ∧
    (∃ t, exec (.ownershipRecall 2560) { mac two [] with owned := [(2560, 0)] } = .next t) ∧
    exec (.ownershipRecall 2560) (mac two []) = .next (mac two []) ∧
    ∃ t, exec (.contentionEntryExpiry 2560) { mac two [] with contended := [2560] } = .next t := by
  intro c x
  exact ⟨(h.1 false 0 2560 { mac two [] with copies := [c] } c rfl rfl).imp fun _ q => q.1,
   (h.1 false 0 2147483648 { mac two [] with copies := [{ c with line := 2147483648 }] } _ rfl rfl).imp fun _ q => q.1,
   (h.2.1 1 { mac two [] with copies := [x] } x rfl rfl (by rintro d (rfl | rfl | rfl) <;> rfl)).imp fun _ q => q.1,
   ((h.2.2.1 2560 _).1 ⟨0, by decide⟩).imp fun _ q => q.1, (h.2.2.1 2560 _).2 (by intro c e; cases e),
   ⟨_, (h.2.2.2 2560 _).1 (by decide)⟩⟩

/-- The tables of `placeProgram`: a walk of VA 0 that succeeds, and of the next page, which fails. -/
theorem witness_walk (h : Rules.PageWalkFills) :
    let s := State.reset.placeProgram []
    (∃ t, exec (.pageWalk 0 1 0 .read) s = .next t) ∧ exec (.pageWalk 0 1 65536 .read) s = .next s := by
  intro s
  exact ⟨((h s 0 1 0 .read _ (by unfold State.memOk; decide +kernel) rfl (by decide) rfl).1 0x50803F 0x40000 1 (ofOk (by decide +kernel)) (by decide)).imp
      fun _ q => q.1,
    (h s 0 1 65536 .read _ (by unfold State.memOk; decide +kernel) rfl (by decide) rfl).2 { cause := 0 } (ofErr (by decide +kernel)) rfl⟩

/-! ## The block transfer engine -/

/-- A box of 128 bytes of a tensor of one dimension of 256 bytes from a VA. -/
def lay1 (base : Nat) : Layout := 
  BitVec.ofNat 2048 base ||| (1 <<< 64) ||| (256 <<< 128) ||| (1 <<< 512) ||| (128 <<< 1280)

/-- A block with the box under handle 0, and one of the page beyond under handle 1. -/
def copier (ts : List Thread) : Block := { blk ts with handles := [some (lay1 0), some (lay1 0x10000)] }

/-- A command of a stream. -/
def cmd1 (k : CmdKind) (lay : Layout) (ctr : Ctr) : Cmd := { kind := k, seq := 3, ticket := 0, lay := lay, off := 896, d0 := 0, d1 := 0, ctr := ctr }

/-- Copies that end with the last byte of the scratchpad, to stream 3, with each kind of counter. -/
theorem witness_copy_commands (h : Rules.CopyCommandsAreQueued) :
    let t := th 0 [(1, 896), (4, 1016), (5, 1), (10, 47), (11, 0x80000000)]
    let b := copier [t]
    let s := mac b [(0, 0)]
    (∃ x, exec (.tcpyLd { ext := 3 } { d := 0, a := 1, b := 2 }) s = .next x) ∧
    (∃ x, exec (.mcpy { ext := 3, cv := true, c := 10 } { d := 0, a := 1, b := 12 }) s = .next x) ∧
    ∃ x, exec (.gcpyGather { ext := 3, cv := true, c := 11 } { d := 0, a := 1, b := 4 }) s = .next x := by
  intro t b s
  exact ⟨((h { ext := 3 } { d := 0, a := 1, b := 2 } s s (atPc [(0, 0)]) b 0 t (lay1 0) .none ⟨rfl, rfl, rfl, rfl⟩ rfl rfl
      (by decide +kernel) (fun w e => nomatch e) rfl (by decide) (by decide)).1 (by decide +kernel)).1.imp fun _ q => q.1,
    (((h { ext := 3, cv := true, c := 10 } { d := 0, a := 1, b := 12 } s s (atPc [(0, 0)]) b 0 t (lay1 0) (.barrier 47) ⟨rfl, rfl, rfl, rfl⟩
      rfl rfl (by decide +kernel) (fun w e => by cases e; decide) (by decide +kernel) (by decide) (by decide)).1
      (by decide +kernel)).2.2.2 (by decide)).imp fun _ q => q.1,
    ((h { ext := 3, cv := true, c := 11 } { d := 0, a := 1, b := 4 } s s (atPc [(0, 0)]) b 0 t (lay1 0) (.mem 0) ⟨rfl, rfl, rfl, rfl⟩
      rfl rfl (by decide +kernel) (fun w e => by cases e; decide) (by decide +kernel) (by decide) (by decide)).2 (by decide)
      (by decide) (by decide +kernel) (by decide)).1.imp fun _ q => q.1⟩

/-- A stream of eight commands parks; a parked thread with a place, and with none. -/
theorem witness_full_streams (h : Rules.FullStreamsPark) :
    let eight := List.replicate 8 (cmd1 .tld (lay1 0) .none)
    let t := th 0 [(1, 896)]
    let p : Thread := { t with cond := .wings (.stream 3) }
    (∃ x, exec (.tcpyLd { ext := 3 } { d := 0, a := 1, b := 2 }) (mac { copier [t] with streams := [[], [], [], eight] } [(0, 0)]) =
      .next x) ∧
    (∃ x, exec (.streamPlaceFrees 0 0 0) (mac { copier [p] with streams := [[], [], [], eight.drop 1] } []) = .next x) ∧
    ∃ x, exec (.streamPlaceFrees 0 0 0) (mac { copier [p] with streams := [[], [], [], eight] } []) = .next x := by
  intro eight t p
  exact ⟨(h.1 { ext := 3 } { d := 0, a := 1, b := 2 } _ (mac { copier [t] with streams := [[], [], [], eight] } [(0, 0)]) (atPc [(0, 0)]) _ 0 t
      (lay1 0) .none ⟨rfl, rfl, rfl, rfl⟩ rfl ⟨rfl, rfl⟩ rfl (by decide +kernel) (fun w e => nomatch e) rfl (by decide)
      (by decide +kernel) (by decide)).imp fun _ q => q.1,
    ((h.2 _ 0 0 3 _ p rfl rfl rfl rfl).1 (by decide)).imp fun _ q => q.1,
    ⟨_, (h.2 _ 0 0 3 _ p rfl rfl rfl rfl).2 (by decide)⟩⟩

/-- A tensor of one element reflects. -/
theorem witness_reflect (h : Rules.TensorElements) : 0 ≤ reflect (-5) 1 false ∧ reflect (-5) 1 true < (1 : Nat) :=
  ⟨(h.2 (-5) 1 false (by decide)).1, (h.2 (-5) 1 true (by decide)).2.1⟩

/-- Every entry of a table is a translation to a page that is not STRM. -/
def tabPlain (tab : LineTab) : Bool := tab.all fun x => match x.2 with | .ok p => p.ct != 2 | .error _ => false
theorem ofTabPlain {tab : LineTab} (h : tabPlain tab = true) : ∀ x ∈ tab, ∃ p, x.2 = .ok p ∧ p.ct ≠ 2 := by
  intro x hx
  have q := List.all_eq_true.1 h x hx
  revert q
  cases x.2 with
  | ok p => exact fun q => ⟨p, rfl, bne_iff_ne.1 q⟩
  | error f => exact fun q => (nomatch q)

/-- No byte of a list of moves comes from an empty scratchpad line. -/
def noneEmpty (s : State) (ms : List (Dst × Src)) : Bool :=
  ms.all fun m => match m.2 with | .key k => !(spaceOf k == .scr && s.emptyLines.contains ((k - scrKey 0 0) / 128)) | _ => true
theorem ofNoneEmpty {s : State} {ms : List (Dst × Src)} (h : noneEmpty s ms = true) :
    ∀ k x, (x, .key k) ∈ ms → spaceOf k = .scr → (k - scrKey 0 0) / 128 ∉ s.emptyLines := by
  intro k x hm hk
  have q := List.all_eq_true.1 h _ hm
  simpa [hk] using q

/-- A line of a `TCPY.ld` and of a `TCPY.st`, and a source that fails. -/
theorem witness_copy_serves (h : Rules.CopyServesLines) :
    let s := fun c => mac { copier [] with streams := [[], [c], [], []] } []
    (∃ t, exec (.copyLineServe 0 0 1) (s (cmd1 .tld (lay1 0) .none)) = .next t) ∧
    (∃ t, exec (.copyLineServe 0 0 1) (s (cmd1 .tst (lay1 0) .none)) = .next t) ∧
    ∃ t, exec (.copyLineServe 0 0 1) (s (cmd1 .tld (lay1 0x10000) .none)) = .next t := by
  intro s
  let b := fun c => { copier [] with streams := [[], [c], [], []] }
  have q := fun c u tab turn => h (s c) u 0 0 1 (b c) c [] tab rfl rfl rfl (show 1 < 4 from by decide) (fun _ hx => absurd hx List.not_mem_nil) turn
  let ld := fun base => cmd1 .tld (lay1 base) .none
  let x := fun base => (s (ld base)).xlatLines (b (ld base)).asker .read (moveLines ((s (ld base)).fillMoves (b (ld base)) 1 (ld base)) true)
  let st := cmd1 .tst (lay1 0) .none
  let ms := (st.entryLines (b st) 0).getD 0 []
  let y := (s st).xlatLines (b st).asker .write (moveLines ms false)
  refine ⟨?_, ?_, ?_⟩
  · have r := (q (ld 0) (x 0).1 (x 0).2 (by decide +kernel) rfl rfl rfl).1 (by decide) (by decide +kernel) (Prod.eta _).symm
    exact (r.1 (ofTabOk (by decide +kernel)) (by decide +kernel)).2.imp fun _ q => q.1
  · have r := (q st y.1 y.2 (by decide +kernel) rfl rfl rfl).2 ms (by decide) (by decide) (by decide +kernel) (Prod.eta _).symm (ofTabPlain (by decide +kernel))
      (ofNoneEmpty (by decide +kernel)) (by decide +kernel)
    exact r.2.imp fun _ q => q.1
  · have r := (q (ld 0x10000) (x 0x10000).1 (x 0x10000).2 (by decide +kernel) rfl rfl rfl).1 (by decide) (by decide +kernel) (Prod.eta _).symm
    exact (r.2 512 { cause := 0 } (by decide +kernel)).imp fun _ q => q.1

/-- Commands served to the end: without a counter, with a barrier, with a counter in memory, and with one on a page that is
not mapped. -/
theorem witness_copy_completes (h : Rules.CopiesCompleteWithOneAdd) :
    let s := fun ctr => mac { copier [] with streams := [[], [{ cmd1 .tld (lay1 0) ctr with next := 1 }], [], []] } []
    (∃ t, exec (.copyComplete 0 0 1) (s .none) = .next t) ∧ (∃ t, exec (.copyComplete 0 0 1) (s (.barrier 47)) = .next t) ∧
    (∃ t, exec (.copyComplete 0 0 1) (s (.mem 0)) = .next t) ∧ ∃ t, exec (.copyComplete 0 0 1) (s (.mem 65536)) = .next t := by
  intro s
  have q := fun ctr al => h (s ctr) 0 0 1 _ { cmd1 .tld (lay1 0) ctr with next := 1 } [] rfl rfl rfl (show 1 < 4 from by decide) (fun _ hx => absurd hx List.not_mem_nil) rfl al nofun nofun rfl
    (fun _ hx => absurd hx List.not_mem_nil)
  refine ⟨?_, ?_, ?_, ?_⟩
  · obtain ⟨t, _, e, _⟩ := (q .none (by decide +kernel)).1 rfl; exact ⟨t, e.1⟩
  · obtain ⟨t, _, e, _⟩ := (q (.barrier 47) (by decide +kernel)).2.1 47 rfl; exact ⟨t, e.1⟩
  · obtain ⟨t, _, e, _⟩ := (q (.mem 0) (by decide +kernel)).2.2.1 0 (s (.mem 0)) { key := 327680, ct := 0, hb := false, tt := 0 } rfl
      (ofOk2 (by decide +kernel)) rfl (by decide +kernel)
    exact ⟨t, e.1⟩
  · obtain ⟨t, e, _⟩ := (q (.mem 65536) (by decide +kernel)).2.2.2 65536 (s (.mem 65536)) { cause := 0 } rfl (ofErr2 (by decide +kernel))
    exact ⟨t, e⟩

/-! ## The matrix engine -/

/-- An FP32 accumulator of 32 by 128 in rows 0 to 31, and an FP8 operand of 64 by 128 in rows 32 to 47. -/
def accR : BitVec 128 := BitVec.ofNat 128 (32 * 2 ^ 10 + 1 * 2 ^ 24 + 32 * 2 ^ 32 + 128 * 2 ^ 48)
def opR : BitVec 128 := BitVec.ofNat 128 (32 + 16 * 2 ^ 10 + 2 * 2 ^ 20 + 1 * 2 ^ 24 + 64 * 2 ^ 32 + 128 * 2 ^ 48 + 2 * 2 ^ 92)

/-- A box of 128 by 64 bytes. -/
def lay2 : Layout :=
  (2 <<< 64) ||| (256 <<< 128) ||| (256 <<< 160) ||| (1 <<< 512) ||| (256 <<< 576) ||| (128 <<< 1280) ||| (64 <<< 1312)

/-- A block with both reservations and the box. -/
def mat (ts : List Thread) : Block :=
  { blk ts with
    opb := 48 * 512
    handles := [some lay2, some (lay1 0)]
    slots := { live := true, rv := accR, gen := 1 } :: { live := true, rv := opR, gen := 2 } :: List.replicate 14 {} }

/-- `OBRES` of the operand into a free slot; `OBREL`; `OBCLR`; `OBDUP` on a reservation with a map. -/
theorem witness_reservations (h : Rules.Reservations) :
    let t := th 0 [(4, 0x00304020), (5, 0x00800040), (6, 0), (7, 0x20000000), (8, 0xFFFF)]
    let b := { mat [t] with slots := { live := true, rv := accR } :: List.replicate 15 {} }
    let d := { mat ((List.range 32).map fun i => th i [(8, 0xFFFF)]) with
      slots := { live := true, rv := opR ||| (1 <<< 127) } :: List.replicate 15 {} }
    let all := (List.range 32).map fun i => (i, i)
    (∃ u, exec (.obrel { d := 0 }) (mac b [(0, 0)]) = .next u) ∧ (∃ u, exec (.obclr { d := 0 }) (mac b [(0, 0)]) = .next u) ∧
    ∃ u, exec (.obdup { ext := 0 } { d := 0, a := 8 }) (mac d all) = .next u := by
  intro t b d all
  have q := fun b p r hr => h p r (mac b [(0, 0)]) (atPc [(0, 0)]) b ((mac b [(0, 0)]).see b 0 t) hr
  refine ⟨?_, ?_, ?_⟩
  · obtain ⟨u, _, e, _⟩ := (q b {} { d := 0 } ⟨rfl, rfl, by decide, by decide, by decide, by decide⟩ (by unfold Standing; decide)
      rfl rfl rfl (fun _ hx => absurd hx List.not_mem_nil)).2.1
    exact ⟨u, e⟩
  · obtain ⟨u, _, e, _⟩ := (q b {} { d := 0 } ⟨rfl, rfl, by decide, by decide, by decide, by decide⟩ (by unfold Standing; decide)
      rfl rfl rfl (fun _ hx => absurd hx List.not_mem_nil)).2.2.1 rfl
    exact ⟨u, e⟩
  · obtain ⟨u, _, e, _⟩ := (h { ext := 0 } { d := 0, a := 8 } (mac d all) (atPc all) d ((mac d all).see d 0 (th 0 [(8, 0xFFFF)]))
      ⟨rfl, rfl, by decide +kernel, by decide +kernel, by decide +kernel, by decide +kernel⟩ (by unfold Standing; decide +kernel)
      rfl rfl rfl (fun _ hx => absurd hx List.not_mem_nil)).2.2.2 rfl (by decide +kernel) (by decide +kernel) (by decide +kernel)
    exact ⟨u, e⟩

/-- The operand's record is well formed beside the accumulator, and `OBRES` takes it. -/
theorem witness_obres (h : Rules.Reservations) :
    let t := th 0 [(4, 0x01204020), (5, 0x00800040), (6, 0x20000000), (7, 0)]
    let b := { mat [t] with slots := { live := true, rv := accR } :: List.replicate 15 {} }
    rvBad b opR = false ∧ ∃ u, exec (.obres { d := 15, a := 4 }) (mac b [(0, 0)]) = .next u := by
  intro t b
  obtain ⟨u, _, e, _⟩ := (h {} { d := 15, a := 4 } (mac b [(0, 0)]) (atPc [(0, 0)]) b ((mac b [(0, 0)]).see b 0 t)
    ⟨rfl, rfl, by decide, by decide, by decide, by decide⟩ (by unfold Standing; decide) rfl rfl rfl
    (fun _ hx => absurd hx List.not_mem_nil)).1 rfl (by decide +kernel)
  exact ⟨by decide +kernel, u, e⟩

/-- Accumulator rows from the last column that a multiple of 16 names. -/
theorem witness_rows (h : Rules.AccumulatorRows) :
    let t := th 0 [(4, 112)]
    (∃ u, exec (.obwr .b32 { d := 16, a := 0, b := 4 }) (mac (mat [t]) [(0, 0)]) = .next u) ∧
    ∃ u, exec (.obrd .e4m3 { d := 16, a := 0, b := 4 }) (mac (mat [t]) [(0, 0)]) = .next u := by
  intro t
  have q := fun ty => h ty { d := 16, a := 0, b := 4 } (mac (mat [t]) [(0, 0)]) (atPc [(0, 0)]) (mat [t])
    ((mac (mat [t]) [(0, 0)]).see (mat [t]) 0 t) ⟨rfl, rfl, by decide, by decide, by decide, by decide⟩ (by unfold Standing; decide)
    rfl rfl rfl (fun _ hx => absurd hx List.not_mem_nil) rfl (by decide) rfl (by decide) (by decide) (by decide) (by decide)
  exact ⟨((q .b32).1 (.inl rfl)).imp fun _ q => q.1, ((q .e4m3).2 (by decide)).imp fun _ q => q.1⟩

/-- A copy that ends with the last byte of the operand buffer. -/
theorem witness_buffer_copies (h : Rules.BufferCopiesAreQueued) :
    let t := th 0 [(4, 24448)]
    let s := mac (mat [t]) [(0, 0)]
    ∃ u, exec (.obld { ext := 3 } { d := 1, a := 4, b := 6 }) s = .next u := by
  intro t s
  obtain ⟨u, _, e, _⟩ := (h { ext := 3 } { d := 1, a := 4, b := 6 } s s (atPc [(0, 0)]) (mat [t]) (s.see (mat [t]) 0 t) (lay1 0) .none
    ⟨rfl, rfl, by decide, by decide, by decide, by decide⟩ (by unfold Standing; decide) rfl rfl (by decide +kernel) nofun rfl
    (by decide) (by decide) (by decide +kernel)).1
  exact ⟨u, e⟩

/-- Multiplies in the last columns of the window: queued, with the queue full, with an operand fetch, and one whose operand
has a map, behind an earlier multiply. -/
theorem witness_multiplies (h : Rules.MultipliesAreQueued) :
    let t := th 0 [(4, 0x007F003F)]
    let m : Mul := { core := 0, slot := 0, id := 0, z := true, acc := accR, bres := opR, gen := 2, stage := false, k0 := 0, n0 := 0,
                     c0 := 0, a := [] }
    let s := mac (mat [t]) [(0, 0)]
    let mapped := { mat [t] with slots := { live := true, rv := accR, gen := 1 } ::
      { live := true, rv := opR ||| (1 <<< 127), gen := 2 } :: List.replicate 14 {} }
    (∃ u, exec (.mma true { ext := 0x10 } { d := 16, a := 4, b := 6 }) s = .next u) ∧
    (∃ u, exec (.mmah true { ext := 0x10 } { d := 16, a := 6, b := 6 }) s = .next u) ∧
    (∃ u, exec (.mma true { ext := 0x10 } { d := 16, a := 4, b := 6 }) { s with muls := List.replicate 4 m } = .next u) ∧
    ∃ u, exec (.mma true { ext := 0x10 } { d := 16, a := 4, b := 6 }) { mac mapped [(0, 0)] with muls := [m] } = .next u := by
  intro t m s mapped
  have q := fun s r hr l hl => h true { ext := 0x10 } r s (atPc [(0, 0)]) (mat [t]) l 64 16 0 hr hl rfl rfl (by decide) (by decide)
    (by decide +kernel) (by decide)
  refine ⟨?_, ?_, ?_, ?_⟩
  · obtain ⟨u, _, e, _⟩ := ((q s { d := 16, a := 4, b := 6 } ⟨rfl, rfl, by decide, by decide, by decide, by decide⟩ (s.see (mat [t]) 0 t) rfl)
      (by decide) (by decide) (by decide) (by decide)).2.1 (by decide) (by decide +kernel) (by decide)
    exact ⟨u, e⟩
  · obtain ⟨u, _, e, _⟩ := ((q s { d := 16, a := 6, b := 6 } ⟨rfl, rfl, by decide, by decide, by decide, by decide⟩ (s.see (mat [t]) 0 t) rfl)
      (by decide) (by decide) (by decide) (by decide)).2.2 (by decide) lay2 (by decide +kernel) (by decide +kernel) (by decide +kernel) (by decide +kernel)
    exact ⟨u, e⟩
  · exact ⟨_, (((q { s with muls := List.replicate 4 m } { d := 16, a := 4, b := 6 } ⟨rfl, rfl, by decide, by decide, by decide, by decide⟩
      (s.see (mat [t]) 0 t) rfl) (by decide) (by decide) (by decide) (by decide)).1 (by decide)).1⟩
  · obtain ⟨u, _, e, _⟩ := (h true { ext := 0x10 } { d := 16, a := 4, b := 6 } { mac mapped [(0, 0)] with muls := [m] } (atPc [(0, 0)]) mapped
      ((mac mapped [(0, 0)]).see mapped 0 t) 64 16 0 ⟨rfl, rfl, by decide, by decide, by decide, by decide⟩ rfl rfl rfl (by decide)
      (by decide) (by decide +kernel) (by decide) (by decide) (by decide) (by decide) (by decide)).2.1 (by decide) (by decide +kernel) (by decide)
    exact ⟨u, e⟩

/-- A fetch all of whose lines have landed. -/
theorem witness_fetch (h : Rules.FetchesLand) :
    let f : Fetch := { core := 0, slot := 0, id := 5, bSlot := 1, bres := opR, gen := 2, stage := false, pc := 0,
                       cmd := { cmd1 .obld lay2 .none with next := 64 } }
    ∃ u, exec (.mmahFetchLanded 0 0) { mac (mat []) [] with fetches := [f] } = .next u := by
  intro f
  obtain ⟨u, _, e, _⟩ := h { mac (mat []) [] with fetches := [f] } (mat []) f rfl rfl (by decide +kernel) rfl rfl (by decide)
    (by decide +kernel) rfl (by decide +kernel) (fun _ hx => absurd hx List.not_mem_nil)
  exact ⟨u, e⟩

/-- A queued multiply that nothing holds, and one whose window is there. -/
theorem witness_engine (h : Rules.MultipliesRun) :
    let m : Mul := { core := 0, slot := 0, id := 0, z := true, acc := accR, bres := opR, gen := 2, stage := false, k0 := 0, n0 := 0,
                     c0 := 0, a := [] }
    let d : Mul := { m with started := true, result := [(0, 1), (1, 2)] }
    (∃ u, exec (.engineMultiply 0) { mac (mat []) [] with muls := [m] } = .next u) ∧
    (∃ x, (((mac (mat []) []).mulResult (mat []) m).find? fun x => x.1 == rvStart accR false + 31 * rvPitch accR + 4 * (0 + 127) + 3) = some x) ∧
    ∃ u, exec (.multiplyLands 0) { mac (mat []) [] with muls := [d] } = .next u := by
  intro m d
  exact ⟨⟨_, h.1 { mac (mat []) [] with muls := [m] } (mat []) m rfl rfl (by decide) rfl (by decide +kernel) rfl⟩,
    ⟨_, (h.2.1 (mac (mat []) []) (mat []) m 64 16 31 127) (by decide) (by decide) (by decide) (by decide) (by decide)
      (by decide +kernel) 3 (by decide)⟩,
    (h.2.2.1 { mac (mat []) [] with muls := [d] } (mat []) d rfl rfl rfl (by decide)
      (fun _ hx => absurd hx List.not_mem_nil)).imp fun _ q => q.1⟩

/-! ## The selection engine -/

/-- A descriptor: N elements, K outputs, payload size 0, record 0 for everything; and a `SELU` of the same keys. -/
def selB (k n : Nat) : Block := one [(8, BitVec.ofNat 32 n), (9, BitVec.ofNat 32 k), (4, 0x100)]

theorem witness_selection (h : Obligations.SelectionCommandsAreQueued) :
    (∃ x, exec (.selk {} { d := 8, a := 4, b := 6 }) (mac (selB 1024 4) [(0, 0)]) = .next x) ∧
    (∃ x, exec (.selks {} { d := 8, a := 4, b := 6 }) (mac (selB 1 4) [(0, 0)]) = .next x) ∧
    ∃ x, exec (.selu {} { d := 8, a := 4, b := 6 }) (mac (selB 0 16) [(0, 0)]) = .next x := by
  have q := fun k n => h.1 {} { d := 8, a := 4, b := 6 } (mac (selB k n) [(0, 0)]) (mac (selB k n) [(0, 0)]) (atPc [(0, 0)]) (selB k n) 0
    (th 0 [(8, BitVec.ofNat 32 n), (9, BitVec.ofNat 32 k), (4, 0x100)]) .none ⟨rfl, rfl, rfl, rfl⟩ rfl
  refine ⟨?_, ?_, ?_⟩
  · obtain ⟨x, _, e, _⟩ := (((q 1024 4) (by decide) (by decide) (by decide) (by decide) (by decide) (by decide) (by decide) nofun rfl).1
      (by decide) (by decide) (by decide) (by decide) (by decide)).1 (by decide) (by decide) (by decide) (by decide) |>.1 (by decide)
    exact ⟨x, e⟩
  · obtain ⟨x, _, e, _⟩ := (((q 1 4) (by decide) (by decide) (by decide) (by decide) (by decide) (by decide) (by decide) nofun rfl).1
      (by decide) (by decide) (by decide) (by decide) (by decide)).2 (by decide) (by decide) (by decide) (by decide) |>.1 (by decide)
    exact ⟨x, e⟩
  · obtain ⟨x, _, e, _⟩ := (((q 0 16) (by decide) (by decide) (by decide) (by decide) (by decide) (by decide) (by decide) nofun rfl).2
      (by decide) (by decide) (by decide) (by decide) (by decide) (by decide) (by decide)) (by decide) |>.1 (by decide)
    exact ⟨x, e⟩

/-- A selection queue with four commands of the core parks; a waiter with a place, and with none. -/
theorem witness_selection_full (h : Obligations.SelectionCommandsAreQueued) :
    let c : SelCmd := { bed := 0, core := 0, slot := 0, seq := 0, op := 0, ext := 0, desc := 0, oo := 0, dO := 0, pst := 0, recs := [], ctr := .none }
    let s := { mac (selB 1 4) [(0, 0)] with selq := [c, c, c, c] }
    let p : Thread := { th 0 with cond := .wings .selQueue }
    (∃ x, exec (.selk {} { d := 8, a := 4, b := 6 }) s = .next x) ∧
    (∃ x, exec (.selectionQueuePlaceFrees 0 0 0) { mac (blk [p]) [] with selq := [c, c, c] } = .next x) ∧
    ∃ x, exec (.selectionQueuePlaceFrees 0 0 0) { mac (blk [p]) [] with selq := [c, c, c, c] } = .next x := by
  intro c s p
  have q := h.1 {} { d := 8, a := 4, b := 6 } s s (atPc [(0, 0)]) (selB 1 4) 0 (th 0 [(8, 4), (9, 1), (4, 0x100)]) .none ⟨rfl, rfl, rfl, rfl⟩ rfl
  refine ⟨?_, ((h.2 _ 0 0 p rfl rfl rfl).1 (by decide)).imp fun _ q => q.1, ⟨_, (h.2 _ 0 0 p rfl rfl rfl).2 (by decide)⟩⟩
  exact (((q (by decide) (by decide) (by decide) (by decide) (by decide) (by decide) (by decide) nofun rfl).1
      (by decide) (by decide) (by decide) (by decide) (by decide)).1 (by decide) (by decide) (by decide) (by decide) |>.2 (by decide)
      ⟨rfl, rfl⟩).imp fun _ q => q.1

/-- Keys of which one is a NaN; equal keys; a key above another. -/
theorem witness_better (h : Rules.BetterIsTotal) :
    better false (0, some 5) (1, none) = true ∧ better true (0, some 5) (1, some 5) = true ∧ better true (4, some 3) (1, some 5) = true :=
  ⟨(h false (0, some 5) (1, none) (0, none)).2.2.1 (by decide) rfl, (h true (0, some 5) (1, some 5) (0, none)).2.2.2.1 rfl (by decide),
   (h true (4, some 3) (1, some 5) (0, none)).2.2.2.2 3 5 rfl rfl (by decide)⟩

/-- The largest key word, of two types. -/
theorem witness_keys (h : Rules.KeysCompareByValue) : keyRank 1 2 (2 ^ 32 - 1) = some (-1) ∧ keyRank 2 1 (2 ^ 32 - 1) = some (2 ^ 32 - 1) :=
  ⟨((h 1 (2 ^ 32 - 1) 0 (by decide) (by decide)).1 (by decide)).2.2.1.trans (by decide),
   ((h 2 (2 ^ 32 - 1) 0 (by decide) (by decide)).2 rfl).2⟩

/-- The last rank of a segment of three keys, and the rank beyond; the values of R250's example. -/
theorem witness_ranks (h : Rules.SelectionRanks) :
    let c : SelCmd := { bed := 0, core := 0, slot := 0, seq := 0, op := 0, ext := 0, desc := 4 <<< 32, oo := 0, dO := 0, pst := 0, recs := [], ctr := .none }
    ((∃ j, 1 ≤ j ∧ j < 4) ∧ (segOut c [9, 7, 8, 7] 0 1 4)[3]? = some (.bytes 24 (bytesLE 4 0xFFFFFFFF ++ bytesLE 4 0))) ∧
    (seluOut { c with op := 2, desc := 6 } [7, 3, 7, 7, 3, 9]).length = 4 := by
  intro c
  refine ⟨⟨?_, (h.1 c [9, 7, 8, 7] 0 1 4 3 (by decide) (by decide) (by decide) (by decide)).1 (by decide)⟩,
    (h.2 { c with op := 2, desc := 6 } [7, 3, 7, 7, 3, 9] (by decide) (by decide)).2.1⟩
  obtain ⟨j, a, b, _⟩ := (h.1 c [9, 7, 8, 7] 0 1 4 2 (by decide) (by decide) (by decide) (by decide)).2 (by decide)
  exact ⟨j, a, b⟩

/-- The keys that a read gave. -/
def okKb (x : Except SelStop (List (Byte × Bool))) : List (Byte × Bool) := match x with | .ok v => v | .error _ => []
def isOk (x : Except SelStop (List (Byte × Bool))) : Bool := match x with | .ok _ => true | .error _ => false
theorem ofSel {x : State × SelCmd × Except SelStop (List (Byte × Bool))} (h : isOk x.2.2 = true) :
    x = (x.1, x.2.1, .ok (okKb x.2.2)) := by
  obtain ⟨a, b, c⟩ := x
  cases c with
  | ok v => rfl
  | error e => cases h

/-- A `SELK` of four keys at the page's start: what it reads, and its two outputs at 0x100; commands whose writes are
done. -/
theorem witness_selection_runs (h : Obligations.SelectionCommandsRun) :
    let c : SelCmd := { bed := 0, core := 0, slot := 0, seq := 0, op := 0, ext := 0, desc := 4 ||| (2 <<< 32), oo := 0x100, dO := 0, pst := 0,
                        recs := List.replicate 5 rec0, ctr := .none }
    let s := { mac (one []) [] with selq := [c] }
    let d := fun ctr => { mac (one []) [] with selq := [{ c with ctr := ctr, out := some [] }] }
    isOk (s.selRead (one []) c rec0 0 16).2.2 = true ∧
    (∃ t, exec (.selectionCommandRun 0) s = .next t) ∧ (∃ t, exec (.selectionComplete 0) (d .none) = .next t) ∧
    (∃ t, exec (.selectionComplete 0) (d (.barrier 47)) = .next t) ∧ ∃ t, exec (.selectionComplete 0) (d (.mem 0)) = .next t := by
  intro c s d
  let x := s.selRead (one []) c (c.recs.getD 0 0) (seKofs c.desc) (seN c.desc * keySize c.op c.ext)
  have q := fun ctr => h.2.2 (d ctr) { c with ctr := ctr, out := some [] } (one []) rfl rfl rfl rfl rfl rfl
  refine ⟨?_, ?_, ?_, ?_, ?_⟩
  · obtain ⟨u, ls, e, _⟩ := h.1 s (one []) c rec0 0 16 (fun l => 2560 + l) rfl rfl (fun l hl => resident (by revert l; decide +kernel))
    rw [e]; rfl
  · refine (h.2.1 s x.1 c x.2.1 (one []) (okKb x.2.2) rfl rfl rfl rfl rfl (.inl rfl) (by decide) (ofSel (by decide +kernel))
      (by decide +kernel) (fun va => 327680 + va) (fun w hw => residentAt ?_) (by decide +kernel)).imp fun _ q => q.1
    revert w
    decide +kernel
  · obtain ⟨t, e, _⟩ := (q .none).1 rfl; exact ⟨t, e.1⟩
  · obtain ⟨t, _, e, _⟩ := (q (.barrier 47)).2.1 47 rfl; exact ⟨t, e.1⟩
  · obtain ⟨t, _, e, _⟩ := (q (.mem 0)).2.2 0 (d (.mem 0)) { key := 327680, ct := 0, hb := false, tt := 0 } rfl
      (ofOk2 (by decide +kernel)) rfl (by decide +kernel)
    exact ⟨t, e.1⟩

/-! ## Rings -/

/-- The small machine with the tables of `placeProgram` and some 8-byte values in memory. -/
def withMem (s : State) (vs : List (Nat × Nat)) : State :=
  let p := State.reset.placeProgram []
  { s with mem := vs.foldl (fun m x => put8 m x.1 x.2) p.mem, priv := { s.priv with astbase := p.priv.astbase, fttbase := p.priv.fttbase } }

/-- A ring of 256 bytes whose header stands at VA 0 and whose buffer at VA 0x1000, with some record headers by offset. -/
def ringS (b : Block) (prod cons : Nat) (rs : List (Nat × Nat)) : State :=
  withMem (mac b [(0, 0)]) ([(327680, 0x1000), (327688, 8), (327696, prod), (327704, cons)] ++ rs.map fun r => (331776 + r.1 % 256, r.2))

/-- READY with a length; a skip record of a length. -/
def readyH (len : Nat) : Nat := 2 ^ 63 + len
def skipH (len : Nat) : Nat := 2 ^ 63 + 2 ^ 32 + len

theorem ringAt {regs : List (Nat × Word)} {s : State} {g : Ring}
    (h1 : s.cur = some (atPc [(0, 0)]) ∧ s.block? 0 0 = some (one regs) ∧ s.copies = [] ∧ s.poison = [])
    (h2 : residentOk s (one regs).asker .atomic 0 2560 = true) (h3 : s.ringHdr 327680 = some g) (h4 : g.prod + g.size < 2 ^ 64)
    (h5 : Memory.wf s.mem = true) :
    RingAt s (atPc [(0, 0)]) (one regs) 0 (th 0 regs) 0 0 327680 g :=
  { one := ⟨h1.1, h1.2.1, rfl, rfl⟩, mem := h5, cast := rfl, idle := ⟨rfl, rfl⟩, copies := h1.2.2.1, poison := h1.2.2.2
    form := ⟨(List.range 63).map (· + 1), show formOf rec0 0 0 64 64 = _ by decide +kernel⟩, home := ⟨2560, resident h2, rfl⟩, hdr := h3, room := h4 }

theorem recAt {s : State} {b : Block} {g : Ring} {off rk : Nat}
    (h : (residentOk s b.asker .atomic ((g.base + off % g.size) / 128) (rk / 128) && rk % 128 == (g.base + off % g.size) % 128) = true)
    (h2 : rk + 8 ≤ 327680 ∨ 327680 + 64 ≤ rk) : RecAt s b g 327680 off rk := ⟨residentAt h, h2⟩

/-- A record that fills the free space exactly; one that wraps behind a skip record, to the last free byte; a ring without
the space; one with space for the skip record alone; a length that is no multiple of 8. -/
theorem witness_reserve (h : Rules.RingReserve) :
    let e := Instr.rres { d := 4, a := 6, b := 0 }
    (∃ x, exec e (ringS (one [(6, 64)]) 448 256 []) = .next x) ∧ (∃ x, exec e (ringS (one [(6, 128)]) 448 384 []) = .next x) ∧
    (∃ x, exec e (ringS (one [(6, 64)]) 448 200 []) = .next x) ∧ (∃ x, exec e (ringS (one [(6, 72)]) 448 256 []) = .next x) ∧
    ∃ x, exec e (ringS (one [(6, 12)]) 448 256 []) = .next x := by
  intro e
  have q := fun n c h0 h1 => h { d := 4, a := 6, b := 0 } (ringS (one [(6, n)]) 448 c []) (atPc [(0, 0)]) (one [(6, n)]) 0 (th 0 [(6, n)]) 0
    327680 331968 { base := 0x1000, size := 256, prod := 448, cons := c } h0 (by decide) h1 (Nat.zero_lt_succ _)
  refine ⟨?_, ?_, ?_, ?_, ?_⟩
  · exact ((q 64 256 (ringAt (by decide +kernel) (by decide +kernel) (by decide +kernel) (by decide) (by decide +kernel)) (recAt (by decide +kernel) (by decide)) (by decide +kernel)).2
      (by decide) (by decide) (by decide)).1 (by decide) (by decide) |>.imp fun _ q => q.1
  · exact (((q 128 384 (ringAt (by decide +kernel) (by decide +kernel) (by decide +kernel) (by decide) (by decide +kernel)) (recAt (by decide +kernel) (by decide)) (by decide +kernel)).2
      (by decide) (by decide) (by decide)).2.1 (by decide) (by decide) (by decide) 331776 (recAt (by decide +kernel) (by decide))
      (by decide)).imp fun _ q => q.1
  · exact (((q 64 200 (ringAt (by decide +kernel) (by decide +kernel) (by decide +kernel) (by decide) (by decide +kernel)) (recAt (by decide +kernel) (by decide)) (by decide +kernel)).2
      (by decide) (by decide) (by decide)).2.2.1 (by decide)).imp fun _ q => q.1
  · exact (((q 72 256 (ringAt (by decide +kernel) (by decide +kernel) (by decide +kernel) (by decide) (by decide +kernel)) (recAt (by decide +kernel) (by decide)) (by decide +kernel)).2
      (by decide) (by decide) (by decide)).2.2.2 (by decide) (by decide) (by decide)).imp fun _ q => q.1
  · exact ((q 12 256 (ringAt (by decide +kernel) (by decide +kernel) (by decide +kernel) (by decide) (by decide +kernel)) (recAt (by decide +kernel) (by decide)) (by decide +kernel)).1
      (by decide) rfl).imp fun _ q => q.1

/-- Commit; a ready record, an empty ring, a record that is not ready, a ready record behind a skip record; a free of the
record at CONS, of one with a bad length, and of another offset. -/
theorem witness_commit_get_free (h : Rules.RingCommitGetFree) :
    let off := fun n => one [(4, n)]
    (∃ x, exec (.rcom none { a := 4, b := 0 }) (ringS (off 192) 320 192 [(192, 64)]) = .next x) ∧
    (∃ x, exec (.rget none { d := 4, b := 0 }) (ringS (off 0) 320 192 [(192, readyH 64)]) = .next x) ∧
    (∃ x, exec (.rget none { d := 4, b := 0 }) (ringS (off 0) 192 192 []) = .next x) ∧
    (∃ x, exec (.rget none { d := 4, b := 0 }) (ringS (off 0) 320 192 [(192, 64)]) = .next x) ∧
    (∃ x, exec (.rget none { d := 4, b := 0 }) (ringS (off 0) 320 192 [(192, skipH 64), (256, readyH 64)]) = .next x) ∧
    (∃ x, exec (.rfre none { a := 4, b := 0 }) (ringS (off 192) 320 192 [(192, readyH 64)]) = .next x) ∧
    (∃ x, exec (.rfre none { a := 4, b := 0 }) (ringS (off 192) 320 192 [(192, readyH 60)]) = .next x) ∧
    ∃ x, exec (.rfre none { a := 4, b := 0 }) (ringS (off 200) 320 192 [(192, readyH 64)]) = .next x := by
  intro off
  have q := fun n rs r p c h0 => h none r (ringS (off n) p c rs) (atPc [(0, 0)]) (off n) 0 (th 0 [(4, n)]) 0 327680 331968
    { base := 0x1000, size := 256, prod := p, cons := c } h0
  refine ⟨?_, ?_, ?_, ?_, ?_, ?_, ?_, ?_⟩
  · exact ((q 192 [(192, 64)] { a := 4, b := 0 } 320 192 (ringAt (by decide +kernel) (by decide +kernel) (by decide +kernel) (by decide) (by decide +kernel))).1
      (by decide) (recAt (by decide +kernel) (by decide))).imp fun _ q => q.1
  · exact (((q 0 [(192, readyH 64)] { d := 4, b := 0 } 320 192 (ringAt (by decide +kernel) (by decide +kernel) (by decide +kernel) (by decide) (by decide +kernel))).2.1
      (by decide) (recAt (by decide +kernel) (by decide))).1 (by decide) (by decide +kernel) (.inl (by decide +kernel))).imp fun _ q => q.1
  · exact (((q 0 [] { d := 4, b := 0 } 192 192 (ringAt (by decide +kernel) (by decide +kernel) (by decide +kernel) (by decide) (by decide +kernel))).2.1
      (by decide) (recAt (by decide +kernel) (by decide))).2.1 rfl).imp fun _ q => q.1
  · exact (((q 0 [(192, 64)] { d := 4, b := 0 } 320 192 (ringAt (by decide +kernel) (by decide +kernel) (by decide +kernel) (by decide) (by decide +kernel))).2.1
      (by decide) (recAt (by decide +kernel) (by decide))).2.2.1 (by decide) (by decide +kernel)).imp fun _ q => q.1
  · exact ((((q 0 [(192, skipH 64), (256, readyH 64)] { d := 4, b := 0 } 320 192
      (ringAt (by decide +kernel) (by decide +kernel) (by decide +kernel) (by decide) (by decide +kernel))).2.1 (by decide) (recAt (by decide +kernel) (by decide))).2.2.2
      (by decide +kernel) (by decide +kernel) (by decide +kernel) (by decide +kernel)) 331776
      (recAt (by decide +kernel) (by decide)) (by decide) (by decide +kernel) (by decide +kernel)).imp fun _ q => q.1
  · exact ((q 192 [(192, readyH 64)] { a := 4, b := 0 } 320 192 (ringAt (by decide +kernel) (by decide +kernel) (by decide +kernel) (by decide) (by decide +kernel))).2.2.1
      (recAt (by decide +kernel) (by decide)) (by decide) (by decide +kernel)).imp fun _ q => q.1
  · exact ((q 192 [(192, readyH 60)] { a := 4, b := 0 } 320 192 (ringAt (by decide +kernel) (by decide +kernel) (by decide +kernel) (by decide) (by decide +kernel))).2.2.2.1
      (recAt (by decide +kernel) (by decide)) (by decide) (by decide +kernel)).imp fun _ q => q.1
  · exact ((q 200 [(192, readyH 64)] { a := 4, b := 0 } 320 192 (ringAt (by decide +kernel) (by decide +kernel) (by decide +kernel) (by decide) (by decide +kernel))).2.2.2.2
      (by decide)).imp fun _ q => q.1

/-! ## Launches, blocks, phases -/

/-- A launch record: one block of one thread with 16 registers, on die 0, of address space 1, privileged, counters at
0x400, phase records at 0x800, at DONE 0x500; with a number of registers per thread carried over a phase boundary. -/
def lr1 : BitVec 2048 :=
  (1 <<< 96) ||| (2 <<< 108) ||| (1 <<< 115) ||| (1 <<< 128) ||| (1 <<< 141) ||| (1 <<< 157) ||| (1 <<< 164) ||| (1 <<< 170) ||| (1 <<< 171) |||
  (1 <<< 192) ||| (1 <<< 224) ||| (1 <<< 256) ||| (0x500 <<< 320) ||| (0x800 <<< 448) ||| (0x400 <<< 512)

/-- The launch of that record, in a state. -/
def launch1 (st : LState) : Launch :=
  { id := 0, lr := lr1, recVa := 0, pdim := none, sregs := List.replicate 64 0, krecs := List.replicate 32 0, st := st }

/-- The small machine with the record at VA 0. -/
def recS (b : Block) (act : List (Nat × Nat)) (l : BitVec 2048) : State :=
  withMem (mac b act) ([1, 2, 3, 4, 5, 7, 8].map fun i => (327680 + 8 * i, l.toNat / 2 ^ (64 * i) % 2 ^ 64))

/-- An accepted record; one with GRIDX 0; one out of bounds. -/
theorem witness_launch (h : Rules.LaunchSubmits) :
    (∃ v, exec (.launch { d := 5, a := 1, b := 0 }) (recS (one []) [(0, 0)] lr1) = .next v) ∧
    (∃ v, exec (.launch { d := 5, a := 1, b := 0 }) (recS (one []) [(0, 0)] (lr1 ^^^ (1 <<< 192))) = .next v) ∧
    ∃ v, exec (.launch { d := 5, a := 1, b := 0 }) (recS (one [(1, 0xFF01)]) [(0, 0)] lr1) = .next v := by
  let x := fun (s : State) => s.xlatLines (one []).asker .read (linesOf (0 :: (List.range 255).map (· + 1)))
  refine ⟨?_, ?_, ?_⟩
  · have q := h { d := 5, a := 1, b := 0 } (recS (one []) [(0, 0)] lr1) (x (recS (one []) [(0, 0)] lr1)).1 (atPc [(0, 0)]) (one []) 0 (th 0) 0
      ((List.range 255).map (· + 1)) (x (recS (one []) [(0, 0)] lr1)).2 ⟨rfl, rfl, rfl, rfl⟩ rfl ⟨rfl, rfl⟩ rfl rfl (by decide)
    have k : ∀ x y : Nat, x / 128 = 8 → y / 128 = 8 → ∀ n, x / 128 ≤ n → n ≤ y / 128 → n = 8 := by intro x y hx hy n a b; omega
    obtain ⟨v, e, _⟩ := (q.2 (by decide +kernel) (by decide +kernel) (Prod.eta _).symm (by decide +kernel) (by decide +kernel) (by decide +kernel)).2
      (by decide +kernel) (by decide +kernel) (by decide +kernel) (by decide +kernel) (by decide +kernel) (by decide +kernel) (by decide +kernel)
      (fun n h1 h2 => by
        obtain rfl := k _ _ (by decide +kernel) (by decide +kernel) n h1 h2
        exact ⟨{ key := 328704, ct := 0, hb := false, tt := 0 }, ofOk2 (by decide +kernel), by decide +kernel⟩)
    exact ⟨v, e⟩
  · have q := h { d := 5, a := 1, b := 0 } (recS (one []) [(0, 0)] (lr1 ^^^ (1 <<< 192))) (x (recS (one []) [(0, 0)] (lr1 ^^^ (1 <<< 192)))).1
      (atPc [(0, 0)]) (one []) 0 (th 0) 0 ((List.range 255).map (· + 1)) (x (recS (one []) [(0, 0)] (lr1 ^^^ (1 <<< 192)))).2
      ⟨rfl, rfl, rfl, rfl⟩ rfl ⟨rfl, rfl⟩ rfl rfl (by decide)
    obtain ⟨v, e, _⟩ := (q.2 (by decide +kernel) (by decide +kernel) (Prod.eta _).symm (by decide +kernel) (by decide +kernel) (by decide +kernel)).1
      (by decide +kernel)
    exact ⟨v, e⟩
  · have q := h { d := 5, a := 1, b := 0 } (recS (one [(1, 0xFF01)]) [(0, 0)] lr1) (recS (one [(1, 0xFF01)]) [(0, 0)] lr1) (atPc [(0, 0)])
      (one [(1, 0xFF01)]) 0 (th 0 [(1, 0xFF01)]) 0 [] [] ⟨rfl, rfl, rfl, rfl⟩ rfl ⟨rfl, rfl⟩ rfl rfl (by decide)
    exact (q.1 (by decide +kernel)).imp fun _ q => q.1

/-- The record's checks: NTID 2,049; another address space in a user launch; a privileged record from a user launch; an
operand buffer of 257 units on a die that has none so large; a record that passes. -/
theorem witness_record_checks (h : Rules.LaunchRecordsAreChecked) :
    let s := recS (one []) [] lr1
    s.earlyCode (lr1 ||| (2048 <<< 96)) 1 true = 1 ∧ s.earlyCode lr1 2 false = 2 ∧ s.earlyCode lr1 1 false = 3 ∧
    s.earlyCode (lr1 ||| (256 <<< 141) ||| (4 <<< 164)) 1 true = 4 ∧ s.earlyCode lr1 1 true = 0 := by
  intro s
  have q := fun l own p => h s l own p
  refine ⟨(q (lr1 ||| (2048 <<< 96)) 1 true).1 (.inr (.inl (by decide +kernel))),
    ((q lr1 2 false).2 (by decide +kernel)).1 (.inr (by decide +kernel)),
    (((q lr1 1 false).2 (by decide +kernel)).2 (by decide +kernel) (.inr (by decide +kernel))).1 (by decide +kernel) rfl,
    ((((q (lr1 ||| (256 <<< 141) ||| (4 <<< 164)) 1 true).2 (by decide +kernel)).2 (by decide +kernel) (.inl rfl)).2 (.inr rfl)).1
      (.inr (by decide +kernel)),
    ((((q lr1 1 true).2 (by decide +kernel)).2 (by decide +kernel) (.inl rfl)).2 (.inr rfl)).2 (by decide +kernel) (.inl (by decide +kernel))⟩

/-- `YIELD`; a `PHASE` with two waits, first of the block and behind a lower TID's. -/
theorem witness_phase_yield (h : Rules.PhaseAndYieldPark) :
    let b := one [(16, 47), (20, 3)]
    (∃ t, exec (.yield {}) (mac two both) = .next t) ∧
    (∃ t, exec (.phase (some { ext := 2 }) { a := 16 }) (mac b [(0, 0)]) = .next t) ∧
    ∃ t, exec (.phase (some { ext := 2 }) { a := 16 }) (mac { b with waitTid := some 0 } [(0, 0)]) = .next t := by
  intro b
  have q := fun b hr h1 => h.2 (some { ext := 2 }) { a := 16 } (mac b [(0, 0)]) (atPc [(0, 0)]) b 0 (th 0 [(16, 47), (20, 3)])
    (fun i => .barrier (if i = 0 then 47 else 3)) hr rfl ⟨rfl, rfl⟩ (by decide) h1
  refine ⟨?_, ?_, ?_⟩
  · exact (h.1 {} _ _ _ witness_runs (by unfold Thread.idle; decide)).imp fun _ q => q.1
  · obtain ⟨x, _, e, _⟩ := (q b ⟨rfl, rfl, rfl, rfl⟩ (by decide +kernel)).1 nofun
    exact ⟨x, e⟩
  · obtain ⟨x, _, e, _⟩ := (q { b with waitTid := some 0 } ⟨rfl, rfl, rfl, rfl⟩ (by decide +kernel)).2 0 rfl (by decide)
    exact ⟨x, e⟩

/-- A launch ring of address space 1 whose header stands at VA 0, with a doorbell to serve. -/
def lringS (prod cons : Nat) (rs : List (Nat × Nat)) : State :=
  { ringS (one []) prod cons rs with lrings := [(1, 0, 1, 0)], consume := [(1, 0, none)] }

/-- Deterministic mode is off at reset. -/
theorem detOff : (3300 <<< 16 : Word64).getLsbD 63 = false := by decide

/-- A doorbell of a host, and of a peer; an empty ring; a record that is not ready; a skip record; a record of another
length; a bad header. -/
theorem witness_launch_rings (h : Obligations.LaunchRingsAreConsumed) :
    let e := Instr.launchRingConsume 1 0
    (∃ x, exec (.tailDoorbell 65535 1 0 5) (lringS 0 0 []) = .next x) ∧
    exec (.tailDoorbell 65536 1 0 5) (lringS 0 0 []) = .next (lringS 0 0 []) ∧
    (∃ x, exec e (lringS 192 192 []) = .next x) ∧ (∃ x, exec e (lringS 320 192 []) = .next x) ∧
    (∃ x, exec e (lringS 320 192 [(192, skipH 64)]) = .next x) ∧ (∃ x, exec e (lringS 320 192 [(192, readyH 64)]) = .next x) ∧
    ∃ x, exec e { lringS 0 0 [] with mem := (State.reset.placeProgram []).mem } = .next x := by
  intro e
  let p : Place := { key := 327680, ct := 0, hb := false, tt := 0 }
  have q := fun p c rs h3 h0 => h.2 (lringS p c rs) 1 0 none { key := 327680, ct := 0, hb := false, tt := 0 } rfl (show (1 : Word64).getLsbD 0 = true from by decide) (.inl detOff) (fun hx => absurd hx List.not_mem_nil) h3
    (fun _ => atHome_plain (fun _ hx => absurd hx List.not_mem_nil) rfl (by decide)) h0
  have g := fun p c rs h3 h0 h4 => (q p c rs h3 h0).2 { base := 0x1000, size := 256, prod := p, cons := c } h4
  have r := fun p c rs h3 h0 h4 h5 h6 h7 => (g p c rs h3 h0 h4).2 h5 h6 { key := 331776 + c % 256, ct := 0, hb := false, tt := 0 } h7
    (fun _ => atHome_plain (fun _ hx => absurd hx List.not_mem_nil) rfl (show (0 : Nat) ≠ 3 from by decide))
  refine ⟨?_, ?_, ?_, ?_, ?_, ?_, ?_⟩
  · exact ((h.1 (lringS 0 0 []) 65535 1 0 5).2 (by decide)).1.imp fun _ q => q.1
  · exact ((h.1 (lringS 0 0 []) 65536 1 0 5).1 (by decide)).1
  · exact ((g 192 192 [] (ofOk2 (by decide +kernel)) (by unfold State.memOk; decide +kernel) (by decide +kernel)).1 (by decide)).imp fun _ q => q.1
  · exact ((r 320 192 [] (ofOk2 (by decide +kernel)) (by unfold State.memOk; decide +kernel) (by decide +kernel) (by decide) (by decide) (ofOk2 (by decide +kernel)) (by decide)).1
      (by decide +kernel)).imp fun _ q => q.1
  · exact (((r 320 192 [(192, skipH 64)] (ofOk2 (by decide +kernel)) (by unfold State.memOk; decide +kernel) (by decide +kernel) (by decide) (by decide) (ofOk2 (by decide +kernel))
      (by decide)).2 (by decide +kernel) (by decide +kernel) (by decide +kernel) (by decide +kernel)).1 (by decide +kernel)).imp fun _ q => q.1
  · exact (((r 320 192 [(192, readyH 64)] (ofOk2 (by decide +kernel)) (by unfold State.memOk; decide +kernel) (by decide +kernel) (by decide) (by decide) (ofOk2 (by decide +kernel))
      (by decide)).2 (by decide +kernel) (by decide +kernel) (by decide +kernel) (by decide +kernel)).2.1 (by decide +kernel)
      (by decide +kernel)).imp fun _ q => q.1
  · exact ((h.2 { lringS 0 0 [] with mem := (State.reset.placeProgram []).mem } 1 0 none p rfl (by decide +kernel) (.inl detOff)
      (fun hx => absurd hx List.not_mem_nil) (ofOk2 (by decide +kernel)) (fun _ => atHome_plain (fun _ hx => absurd hx List.not_mem_nil) rfl (by decide))
      (by unfold State.memOk; decide +kernel)).1
      (by decide +kernel)).imp fun _ q => q.1

/-- A launch record in the ring is submitted. -/
theorem witness_ring_submits (h : Obligations.LaunchRingsAreConsumed) :
    let s : State := { withMem (mac (one []) [(0, 0)]) ([(327680, 0x1000), (327688, 9), (327696, 264), (331776, readyH 264)] ++
      ([1, 2, 3, 4, 5, 7, 8].map fun i => (331784 + 8 * i, lr1.toNat / 2 ^ (64 * i) % 2 ^ 64))) with
      lrings := [(1, 0, 1, 0)], consume := [(1, 0, none)] }
    ∃ x, exec (.launchRingConsume 1 0) s = .next x := by
  intro s
  have k := ((((h.2 s 1 0 none { key := 327680, ct := 0, hb := false, tt := 0 } rfl
    (by decide +kernel) (.inl detOff) (fun hx => absurd hx List.not_mem_nil) (ofOk2 (by decide +kernel))
    (fun _ => atHome_plain (fun _ hx => absurd hx List.not_mem_nil) rfl (by decide)) (by unfold State.memOk; decide +kernel)).2 { base := 0x1000, size := 512, prod := 264, cons := 0 }
    (by decide +kernel)).2 (by decide) (by decide) { key := 331776, ct := 0, hb := false, tt := 0 } (ofOk2 (by decide +kernel))
    (fun _ => atHome_plain (fun _ hx => absurd hx List.not_mem_nil) rfl (by decide)) (by decide)).2 (by decide +kernel)
    (by decide +kernel) (by decide +kernel) (by decide +kernel)).2.2 (by decide +kernel) (by decide +kernel) detOff
    (fun i => { key := 327680 + i * 128, ct := 0, hb := false, tt := 0 }) (fun i h1 h2 => by
      have : i = 32 ∨ i = 33 ∨ i = 34 := by revert h1 h2; simp only []; omega
      rcases this with rfl | rfl | rfl <;> exact ⟨ofOk2 (by decide +kernel), atHome_plain (fun _ hx => absurd hx List.not_mem_nil) rfl (by decide)⟩)
  obtain ⟨_, _, e, _⟩ := k
  exact ⟨_, e⟩

/-- A state with the launch of `lr1`. -/
def launchS (b : Block) (st : LState) (vs : List (Nat × Nat)) : State :=
  { withMem (mac b []) vs with launches := [launch1 st] }

/-- A launch that waits for 0x300 to reach 5, met and unmet, and one whose wait is not mapped; a ready launch. -/
theorem witness_launches_proceed (h : Obligations.LaunchesProceed) :
    let w := fun (va : Nat) (n : Nat) => { withMem (mac (one []) []) [(328448, n)] with
      launches := [{ launch1 .waiting with lr := lr1 ||| BitVec.ofNat 2048 va <<< 896 ||| 5 <<< 960 }] }
    (∃ y, exec (.launchWaitsMet 0) (w 0x300 5) = .next y) ∧ (∃ y, exec (.launchWaitsMet 0) (w 0x300 4) = .next y) ∧
    (∃ y, exec (.launchWaitsMet 0) (w 0x20000 5) = .next y) ∧
    ∃ y, exec (.launchReady 0) (launchS (one []) .ready []) = .next y := by
  intro w
  have q := fun va n => (h (w va n) { launch1 .waiting with lr := lr1 ||| BitVec.ofNat 2048 va <<< 896 ||| 5 <<< 960 } rfl).1 rfl _
    (fun i _ _ => rfl)
  have lt : ∀ i < 4, lrWva (lr1 ||| BitVec.ofNat 2048 0x300 <<< 896 ||| 5 <<< 960) i ≠ 0 → i = 0 := by decide +kernel
  refine ⟨⟨_, (q 0x300 5).1 fun i h1 h2 => ?_⟩, ⟨_, (q 0x300 4).2.1 (fun i h1 h2 => ?_) ⟨0, by decide, by decide +kernel, ?_⟩⟩,
    ((q 0x20000 5).2.2 (by decide +kernel) ?_).imp fun _ q => q.1, ?_⟩
  · obtain rfl := lt i h1 h2
    exact ⟨[5, 0, 0, 0, 0, 0, 0, 0], by decide +kernel, by decide +kernel⟩
  · obtain rfl := lt i h1 h2
    exact ⟨[4, 0, 0, 0, 0, 0, 0, 0], by decide +kernel⟩
  · intro bs hb
    have e : (w 0x300 4, DispRes.ok [4, 0, 0, 0, 0, 0, 0, 0]) = (w 0x300 4, .ok bs) := Eq.trans (by decide +kernel) hb
    cases e
    decide +kernel
  · decide +kernel
  · exact ((h (launchS (one []) .ready []) (launch1 .ready) rfl).2 rfl { key := 328704, ct := 0, hb := false, tt := 0 }
      (by decide +kernel) (ofOk2 (by decide +kernel)) (fun _ => atHome_plain (fun _ hx => absurd hx List.not_mem_nil) rfl (by decide))
      (by unfold State.memOk; decide +kernel)).imp fun _ q => q.1

/-! ## Casting, placement, exits, phases -/

/-- Threads in the pool, ready. -/
def pooled : Block := blk ([3, 4, 35, 67].map fun t => { th t with cond := .pool 5 true })

/-- Ready threads; none ready; 64 warps. The four threads of the first are those of R306's example. -/
theorem witness_casting (h : Rules.CastingForms) :
    (∃ u, exec (.warpForm 0) (mac pooled []) = .next u) ∧ (∃ u, exec (.warpForm 0) (mac two both) = .next u) ∧
    ∃ u, exec (.warpForm 0) { mac pooled [] with warps := List.replicate 64 { core := 0, slot := 0, id := 0, pipe := 0, lanes := [] } } = .next u := by
  have n : ∀ t, ¬(t ∈ two.threads ∧ ∃ e, t.cond = .pool e true) := by
    intro t ⟨m, e, q⟩
    have k : ∀ t ∈ two.threads, t.cond = .cast := by decide
    rw [k t m] at q
    cases q
  have a : ∀ t ∈ pooled.threads, t.bound = none ∧ t.quadUnit = false ∧ t.stepping = false := by decide
  refine ⟨?_, ⟨_, (h (mac two both) two rfl (by decide) (by decide) rfl rfl (fun _ hx => absurd hx List.not_mem_nil) (by decide) (fun t r => (n t r).elim)).1 (.inr n)⟩,
    ⟨_, (h _ pooled rfl (by decide) (by decide) rfl rfl (fun _ hx => absurd hx List.not_mem_nil) (by decide) (fun t r => a t r.1)).1 (.inl (by decide))⟩⟩
  obtain ⟨u, w, pc, e, _⟩ := (h (mac pooled []) pooled rfl (by decide) (by decide) rfl rfl (fun _ hx => absurd hx List.not_mem_nil) (by decide) (fun t r => a t r.1)).2 (by decide)
    ⟨{ th 3 with cond := .pool 5 true }, by decide, 5, rfl⟩
  exact ⟨u, e⟩

/-- R306: TIDs 3, 4, 35 and 67 stand in lanes 3, 4, 0 and 1; the two displaced from their home lanes mark the warp. -/
theorem test_warp_lanes :
    (match exec (.warpForm 0) { mac pooled [] with warps := [] } with
      | .next u => u.warps.map fun w => (w.lanes.take 5, (w.lanes.drop 5).all Option.isNone, w.displaced)
      | _ => []) = [([some 35, some 67, none, some 3, some 4], true, true)] := by decide +kernel

/-- A pooled thread; one whose `OBRD` still waits; a bound group of one member, cleared; a core with 64 warps and a ready thread, and with fewer. -/
theorem witness_pool (h : Rules.PoolEvents) :
    let g := blk [{ th 2047 with cond := .wings .cleared, bound := some 3 }]
    let o := mac (blk [{ th 3 with cond := .pool 5 true, pend := [.obrdDue 0] }]) []
    (∃ u, exec (.poolReady 0 0 3) o = .next u) ∧
    (∃ u, exec (.poolReady 0 0 3) (mac pooled []) = .next u) ∧ (∃ u, exec (.boundGroupRelease 0 0 3) (mac g []) = .next u) ∧
    (∃ u, exec (.castingStarvation 0) (mac pooled []) = .next u) ∧
    ∃ u, exec (.castingStarvation 0) { mac pooled [] with warps := List.replicate 64 { core := 0, slot := 0, id := 0, pipe := 0, lanes := [] } } =
      .next u := by
  intro g o
  exact ⟨⟨o, (h.1 o 0 0 { th 3 with cond := .pool 5 true, pend := [.obrdDue 0] } rfl).1 5 true rfl (by decide)⟩,
    ((h.1 (mac pooled []) 0 0 { th 3 with cond := .pool 5 true } rfl).2 5 true rfl (by decide)).imp fun _ q => q.1,
    (h.2.1 (mac g []) g 3 rfl (by decide)).imp fun _ q => q.1,
    ⟨_, (h.2.2 (mac pooled []) 0).1 (by decide)⟩,
    ⟨_, (h.2.2 _ 0).2 (by decide) ⟨pooled, by decide, rfl, { th 3 with cond := .pool 5 true }, by decide, 5, rfl⟩⟩⟩

/-- The launch running, with its cluster queued. -/
def queued (fails : Nat) : State :=
  { launchS pooled .running [] with blocks := [], nextReq := 1, reqs := [{ die := 0, kind := .cluster 0 0, prio := 0, since := 0, ord := 0, fails := fails }] }

/-- A cluster that fits; one for which no core has registers, at its seventh and its eighth failure; a back-off that ends. -/
theorem witness_placement (h : Rules.ClustersArePlaced) :
    let fullS := fun fails => { queued fails with blocks := (List.range 128).map fun c => { one [] with core := c, nregs := 2 ^ 20 } }
    (∃ y, exec (.clusterPlace 0) (queued 0) = .next y) ∧ (∃ y, exec (.clusterPlace 0) (fullS 6) = .next y) ∧
    (∃ y, exec (.clusterPlace 0) (fullS 7) = .next y) ∧
    ∃ y, exec (.placementBackoffExpiry 0) { queued 3 with reqs := (queued 3).reqs.map fun r => { r with backoff := true } } = .next y := by
  intro fullS
  have q := fun s n e0 e1 e2 e3 => h.1 s 0 0 { die := 0, kind := .cluster 0 0, prio := 0, since := 0, ord := 0, fails := n } (launch1 .running) e0 e1 rfl e2 e3
  refine ⟨?_, ?_, ?_, ⟨_, h.2 { queued 3 with reqs := (queued 3).reqs.map fun r => { r with backoff := true } }
    { die := 0, kind := .cluster 0 0, prio := 0, since := 0, ord := 0, fails := 3, backoff := true } List.mem_cons_self rfl (fun z hz _ _ n => absurd (List.mem_singleton.1 hz) n)⟩⟩
  · obtain ⟨y, b, e, _⟩ := (q (queued 0) 0 rfl (by decide +kernel) rfl (by decide +kernel)).2 { core := 0, slot := 0, scr := 0, opb := 0 } (by decide +kernel) rfl rfl
    exact ⟨y, e⟩
  · exact ((q (fullS 6) 6 rfl (by decide +kernel) rfl (by decide +kernel)).1 (by decide +kernel)).imp fun _ q => q.1
  · exact ((q (fullS 7) 7 rfl (by decide +kernel) rfl (by decide +kernel)).1 (by decide +kernel)).imp fun _ q => q.1

/-- A block with a live thread, and one whose threads have exited; an add at the counter area's home, and one at a page that
is not mapped. -/
theorem witness_block_exit (h : Rules.BlocksExit) :
    let gone := blk [{ th 2047 with cond := .exited }]
    let add := fun (va : Nat) => { launchS gone .running [] with adds := [(0, 1, true, va, false)] }
    (∃ x, exec (.blockExit 0 0) (launchS pooled .running []) = .next x) ∧ (∃ x, exec (.blockExit 0 0) (launchS gone .running []) = .next x) ∧
    (∃ x, exec .blockExitAdds (add 0xFFF8) = .next x) ∧ ∃ x, exec .blockExitAdds (add 0x10000) = .next x := by
  intro gone add
  refine ⟨⟨_, (h.1 (launchS pooled .running []) pooled (launch1 .running) rfl (by decide) rfl rfl rfl).1 (.inl ⟨{ th 3 with cond := .pool 5 true }, by decide, rfl⟩)⟩,
    ((h.1 (launchS gone .running []) gone (launch1 .running) rfl (by decide) rfl rfl rfl).2 (by decide) (by decide +kernel)).imp fun _ q => q.1,
    ((h.2 (add 0xFFF8) 0 1 0xFFF8 true [] rfl).1 { key := 393208, ct := 0, hb := false, tt := 0 } (by unfold State.memOk; decide +kernel)
      (ofOk2 (by decide +kernel)) (fun _ => atHome_plain (fun _ hx => absurd hx List.not_mem_nil) rfl (by decide))).imp fun _ q => q.1,
    ((h.2 (add 0x10000) 0 1 0x10000 true [] rfl).2 { cause := 0 } (ofErr2 (by decide +kernel)) (by decide)).imp fun _ q => q.1⟩

/-- The bytes of a span are at home one after another. -/
def spanOk (s : State) (q : Asker) (k : AccKind) (va key n : Nat) : Bool :=
  (List.range n).all fun i => residentOk s q k ((va + i) / 128) ((key + i) / 128) && (key + i) % 128 == (va + i) % 128
theorem spanAt {s : State} {q : Asker} {k : AccKind} {va key n : Nat} (h : spanOk s q k va key n = true) :
    ∀ i < n, ResidentAt s q k (va + i) (key + i) := fun i hi => residentAt (List.all_eq_true.1 h i (List.mem_range.2 hi))

/-- A block of one thread whose phase record, of 384 bytes at VA 0x800, carries one register. -/
def phased (c : Cond) (ph : Nat) (waits : List (Ctr × Nat)) : Block :=
  { blk [{ th 0 [(0, 77)] with cond := c }] with carry := 1, ph := ph, waits := waits }

/-- A thread at a phase boundary, and at a yield; a wait met and one that is not; a phase queued. -/
theorem witness_phases (h : Rules.PhasesGoOn) :
    let s := fun b => launchS b .running []
    let r : Req := { die := 0, kind := .phase 0 0, prio := 0, since := 0, ord := 0 }
    (∃ x, exec (.phaseEntry 0) (s (phased (.wings (.phase 0x104)) 0 [(.barrier 47, 1)])) = .next x) ∧
    (∃ x, exec (.phaseEntry 0) (s (phased (.wings (.yield 0x104)) 0 [])) = .next x) ∧
    (∃ x, exec (.phaseEntry 0) (s (phased (.wings (.phase 0x104)) 1 [(.barrier 47, 0)])) = .next x) ∧
    (∃ x, exec (.phaseEntry 0) (s (phased (.wings (.phase 0x104)) 1 [(.mem 0x300, 1)])) = .next x) ∧
    ∃ x, exec (.phaseEntry 0) { s (phased (.wings (.phase 0x104)) 2 []) with reqs := [r] } = .next x := by
  intro s r
  have q' := fun at_ c ph w rs => h { s (phased c ph w) with reqs := rs } (phased c ph w) (launch1 .running) at_ rfl rfl rfl rfl rfl
    (fun t m => by obtain rfl := List.mem_singleton.1 m; rfl) rfl (by simp [phased, blk]) rfl
  have q := q' (0x50800 + ·)
  refine ⟨?_, ?_, ?_, ?_, ?_⟩
  · obtain ⟨x, _, e, _⟩ := (((q (.wings (.phase 0x104)) 0 [(.barrier 47, 1)] []).1 rfl (by decide) (fun t m => .inl ⟨0x104, by revert t; decide⟩)).1
      ⟨{ th 0 [(0, 77)] with cond := .wings (.phase 0x104) }, by decide, 0x104, rfl⟩
      (by unfold State.memOk; decide +kernel) (spanAt (key := 0x50800) (by decide +kernel)) (fun i j _ _ e => Nat.add_left_cancel e))
    exact ⟨x, e⟩
  · exact (((q (.wings (.yield 0x104)) 0 [] []).1 rfl (by decide) (fun t m => .inr ⟨0x104, by revert t; decide⟩)).2
      (fun t m => ⟨0x104, by revert t; decide⟩) rfl (by decide)).imp fun _ q => q.1
  · exact ⟨_, ((q (.wings (.phase 0x104)) 1 [(.barrier 47, 0)] []).2.1 rfl rfl (fun va n m => by cases List.mem_singleton.1 m)).1
      fun w m => by cases List.mem_singleton.1 m; exact Nat.zero_le _⟩
  · exact ⟨_, ((q' (0x50000 + ·) (.wings (.phase 0x104)) 1 [(.mem 0x300, 1)] []).2.1 rfl rfl (fun va n m => by
        cases List.mem_singleton.1 m; exact ⟨residentAt (by decide +kernel), rfl⟩)).2 ⟨_, List.mem_cons_self,
      show ¬(1 ≤ (s (phased (.wings (.phase 0x104)) 1 [(.mem 0x300, 1)])).rdN (0x50000 + 0x300) 8) from by decide +kernel⟩⟩
  · obtain ⟨x, _, e, _⟩ := (q (.wings (.phase 0x104)) 2 [] [r]).2.2 rfl (by decide +kernel) r (by decide +kernel) rfl (by decide +kernel)
      (fun i hi => ⟨spanAt (key := 0x50800) (by decide +kernel) i hi, rfl⟩)
    exact ⟨x, e⟩

/-- The layout holds of a record with two waits. -/
theorem witness_phase_record (h : Rules.PhaseRecordLayout) :
    (phaseRecord (phased .exited 0 [(.barrier 47, 1), (.mem 0x300, 1)])).length = 384 :=
  (h _ rfl (by decide) (by decide)).1

/-! ## Faults and their answers -/

/-- A record of a fault of thread 0 of the small block, and the state with its thread parked on it. -/
def rec5 : FRec := { fid := 5, cls := 0, asid := 1, va := 0x10000, pages := [1] }
def pend5 : PendRec := { fr := rec5, launch := 0, tids := [0], hits := [(0, 0x10000)] }
def faulted (left : Option Cond) : Block := blk [{ th 0 with cond := .wings (.fault (some 5)), left := left }]
def faultS (b : Block) : State := { mac b [] with pending := [pend5], launches := [launch1 .running] }

/-- A batch that finds room, and one that finds none. -/
theorem witness_batch (h : Rules.FaultRecordsTravel) :
    let s := fun n => { faultS (faulted none) with batch := [(0, rec5), (1, rec5)], ioq := List.replicate n (rec5, true) }
    (∃ x, exec (.faultBatchSend 0) (s 4095) = .next x ∧ (∀ p ∈ x.batch, p.1 ≠ 0)) ∧
    ∃ x, exec (.faultBatchSend 0) (s 4096) = .next x ∧ x.ioq = (s 4096).ioq := by
  intro s
  obtain ⟨x, e, _, _, _, q, _⟩ := h.1 (s 4095) 0
  obtain ⟨y, f, _, _, _, _, r⟩ := h.1 (s 4096) 0
  exact ⟨⟨x, e, (q (show (List.replicate 4095 (rec5, true)).length + 1 ≤ 4096 from by rw [List.length_replicate] <;> decide)).1⟩,
    ⟨y, f, (r (show 4096 < (List.replicate 4096 (rec5, true)).length + 1 from by rw [List.length_replicate] <;> decide)).1⟩⟩

/-- A fault ring in host memory with its header at 0x40 and 256 bytes from 0x1000: one free record's space, and a host
owner; a disabled ring; a malformed header. -/
theorem witness_fault_ring (h : Rules.FaultRecordsTravel) :
    let s := fun (en : Word64) (n : Nat) => withMem { faultS (faulted none) with
      ioq := [(rec5, true)], priv := { fring := 0x40 ||| en } }
      [(hostKey 0x40, hostKey 0x1000 - hostKey 0), (hostKey 0x48, n), (hostKey 0x50, 120), (hostKey 0x58, 0)]
    (∃ x, exec .faultRingWrite (s 1 8) = .next x) ∧ (∃ x, exec .faultRingWrite (s 0 8) = .next x) ∧
    ∃ x, exec .faultRingWrite (s 1 7) = .next x := by
  intro s
  have q := fun en n hm => h.2 (s en n) rec5 true [] hm rfl
  exact ⟨((q 1 8 (by unfold State.memOk; decide +kernel)).2.2 { base := 0x1000, size := 256, prod := 120, cons := 0 } (by decide +kernel) (by decide +kernel) (by decide) (by decide)
      (by decide) (by decide)).imp fun _ q => q.1,
    ((q 0 8 (by unfold State.memOk; decide +kernel)).1 (by decide +kernel)).imp fun _ q => q.1, ((q 1 7 (by unfold State.memOk; decide +kernel)).2.1 (by decide +kernel) (by decide +kernel)).imp fun _ q => q.1⟩

/-- The layout's fields at their largest. -/
theorem witness_record_layout (h : Rules.FaultRecordLayout) :
    { rec5 with tid0 := 2047, pages := [1, 32] }.bits / 2 ^ 160 % 2 ^ 11 = 2047 :=
  (h { rec5 with tid0 := 2047, pages := [1, 32] } (by decide)).2.2.2.2.2.2.2.2.2.2.2.2.2.2.2.2.2.2.2.1

/-- Threads that wait on a counter, on two addresses, on a barrier and in a pool; a disabled watchdog. -/
theorem witness_watchdog (h : Obligations.WatchdogTraps) :
    let b := fun c => blk [{ th 2047 with cond := c }]
    let s := fun w c => { mac (b c) [] with priv := { wdog := w } }
    let w : Nat → WaSlot := fun i => { idx := i, key := 0, va := 0x100, fired := false }
    let e := Instr.watchdogExpiry 0 0 [2047]
    (∃ x, exec e (s 1 (.wings (.counter 0 0x100 0 false))) = .next x) ∧ (∃ x, exec e (s 1 (.wings (.address [w 0, w 3] none none 0))) = .next x) ∧
    (∃ x, exec e (s 1 (.wings (.barrier 47 1 .pkg))) = .next x) ∧ (∃ x, exec e (s 1 (.held 0x200)) = .next x) ∧
    (∃ x, exec e (s 1 (.pool 0 true)) = .next x) ∧ ∃ x, exec e (s 0 (.held 0x200)) = .next x := by
  intro b s w e
  have q := fun k c => h (s k c) 0 0 (b c) { th 2047 with cond := c } rfl rfl (by simp [b, blk]) rfl (by decide : 2047 < 2048) rfl
  exact ⟨((q 1 (.wings (.counter 0 0x100 0 false))).2 (by decide)).2.1 _ _ _ _ rfl |>.imp fun _ q => q.1,
    ((q 1 (.wings (.address [w 0, w 3] none none 0))).2 (by decide)).2.2.1 _ _ _ _ _ rfl (by decide) |>.imp fun _ q => q.1,
    ((q 1 (.wings (.barrier 47 1 .pkg))).2 (by decide)).2.2.2.1 _ _ _ rfl |>.imp fun _ q => q.1,
    ((q 1 (.held 0x200)).2 (by decide)).1 _ rfl |>.imp fun _ q => q.1,
    (((q 1 (.pool 0 true)).2 (by decide)).2.2.2.2.2.2.2.2.2.2.2.2 (.inl ⟨0, true, rfl⟩)).imp fun _ q => q.1,
    ⟨_, (q 0 (.held 0x200)).1 (by decide)⟩⟩

/-- Answers to a record of a thread, of a thread that a watchdog trap took from its wait, and of a stopped stream; an
unknown record; a kill; a master that is not the owner. -/
theorem witness_fault_answers (h : Obligations.FaultAnswers) :
    let w := Cond.wings (.counter 0 0x100 0 false)
    let p1 : PendRec := { pend5 with fr := { rec5 with kind := 1 }, tids := [] }
    let c : Cmd := { cmd1 .tld (lay1 0) .none with stopped := some 5 }
    let b := { copier [] with streams := [[], [], [], [c]] }
    let s := { faultS b with pending := [p1] }
    (∃ x, exec (.frespRetry 7 5) (faultS (faulted none)) = .next x) ∧ (∃ x, exec (.frespRetry 7 5) (faultS (faulted (some w))) = .next x) ∧
    (∃ x, exec (.frespHalt 7 5) (faultS (faulted none)) = .next x) ∧ (∃ x, exec (.frespAbandon 7 5) (faultS (faulted none)) = .next x) ∧
    (∃ x, exec (.frespRetry 7 5) s = .next x) ∧ (∃ x, exec (.frespAbandon 7 5) s = .next x) ∧ (∃ x, exec (.frespHalt 7 5) s = .next x) ∧
    (∃ x, exec (.frespKill 7 5) s = .next x) ∧ (∃ x, exec (.frespKill 7 6) s = .next x) ∧ exec (.frespKill 8 5) s = .next s := by
  intro w p1 c b s
  have k := fun s => (h s 7 5).2
  have t := fun l => (((k (faultS (faulted l)) rfl).2 pend5 rfl).2.2.1 (faulted l)
    { th 0 with cond := .wings (.fault (some 5)), left := l } rfl rfl 
    (fun x m => by cases List.mem_singleton.1 m; exact ⟨fun _ => rfl, fun _ => rfl⟩) rfl (List.mem_singleton.2 rfl) rfl rfl)
  have e := ((k s rfl).2 p1 rfl).2.2.2.1 b 3 c [] rfl (by decide) rfl rfl rfl (fun _ hx => absurd hx List.not_mem_nil) (by decide) rfl (fun _ hx => absurd hx List.not_mem_nil)
  exact ⟨((t none).1 rfl).imp fun _ q => q.1, ((t (some w)).2.1 _ _ _ _ rfl).imp fun _ q => q.1, (t none).2.2.imp fun _ q => q.1,
    ⟨_, ((k (faultS (faulted none)) rfl).2 pend5 rfl).1 rfl⟩, e.1.imp fun _ q => q.1, e.2.imp fun _ q => q.1,
    ⟨_, ((k s rfl).2 p1 rfl).2.1 (by decide)⟩,
    (((k s rfl).2 p1 rfl).2.2.2.2 (launch1 .running) rfl rfl).imp fun _ q => q.1,
    ⟨_, (((h s 7 6).2 rfl).1 (by decide)).2.2.1⟩, ((h s 8 5).1 (by decide)).2.2.1⟩

/-- Two halted threads at one pc and one elsewhere; a core without a free warp slot; a thread that is not halted. -/
theorem witness_debug (h : Obligations.DebugSteps) :
    let d : Cond := .wings (.debug none)
    let b := blk [{ th 0 with cond := d }, { th 1 with cond := d }, { th 2047 with cond := d, pc := 0x200 }]
    let full := { mac b [] with warps := List.replicate 64 { core := 0, slot := 0, id := 0, pipe := 0, lanes := [] } }
    (∃ x, exec (.dbgstepThread 7 (2047 * 2 ^ 29 + 1)) (mac b []) = .next x) ∧
    (∃ x, exec (.dbgstepThread 7 (2047 * 2 ^ 29 + 1)) full = .next x) ∧
    (∃ x, exec (.dbgstepPc 7 (2 ^ 60 + 2 ^ 29 + 1)) (mac b []) = .next x) ∧
    ∃ x, exec (.dbgstepThread 7 1) (mac pooled []) = .next x := by
  intro d b full
  have q := fun s h0 h1 h2 => h s 7 (2047 * 2 ^ 29 + 1) b { th 2047 with cond := d, pc := 0x200 } h0 h1 h2 rfl (by decide) (by decide) (by decide)
  refine ⟨?_, ?_, ?_, ?_⟩
  · obtain ⟨x, _, e, _⟩ := (q (mac b []) rfl (by decide) rfl).2.1 (by decide) ⟨⟨none, rfl⟩, rfl⟩ (by decide)
    exact ⟨x, e⟩
  · exact ((q full rfl (by decide) rfl).1 (by decide) ⟨⟨none, rfl⟩, rfl⟩ (by decide)).imp fun _ q => q.1
  · exact ((h (mac b []) 7 (2 ^ 60 + 2 ^ 29 + 1) b { th 1 with cond := d } rfl (by decide) rfl rfl (by decide) (by decide) (by decide)).2.2.1 (by decide)
      ⟨⟨none, rfl⟩, rfl⟩ (fun t m _ => (by decide : ∀ t ∈ b.threads, t.bound = none) t m) (by decide)).imp fun _ q => q.1
  · exact ⟨_, (h (mac pooled []) 7 (3 * 2 ^ 29 + 1) pooled { th 3 with cond := .pool 5 true } rfl (by decide) rfl rfl (by decide) (by decide) (by decide)).2.2.2
      (fun a => nomatch a.1)⟩

/-! ## The Stagehand, pre-emption -/

/-- The leaf of page 1 names flash page 9; thread 0 waits for it; the die's reserve holds frame 8. -/
def flashS (leaf : Nat) (reserve : List (Nat × Nat)) (fills : List Fill) : State :=
  { withMem (faultS (faulted none)) [(0x40008, leaf)] with
    reserve := reserve, fills := fills, stageq := if fills.isEmpty then [rec5] else [] }

/-- A frame in the reserve; none, and no ring; a leaf that is not flash-backed. -/
theorem witness_stagehand (h : Rules.StagehandServes) :
    (∃ x, exec .stagehandFill (flashS 0x91800E [(0, 8)] []) = .next x) ∧ (∃ x, exec .stagehandFill (flashS 0x91800E [] []) = .next x) ∧
    ∃ x, exec .stagehandFill (flashS 0 [] []) = .next x := by
  have q := fun leaf r => h (flashS leaf r []) rec5 [] 1 pend5 rfl rfl rfl rfl rfl
  exact ⟨⟨_, ((q 0x91800E [(0, 8)]).1 0x40008 0x91800E (by decide +kernel)).1 (0, 8) (by decide +kernel)⟩,
    (((q 0x91800E []).1 0x40008 0x91800E (by decide +kernel)).2 nofun (by decide +kernel)).imp fun _ q => q.1,
    ((q 0 []).2 (by decide +kernel) (faulted none) { th 0 with cond := .wings (.fault (some 5)) } rfl rfl
      (fun x m => by cases List.mem_singleton.1 m; exact ⟨fun _ => rfl, fun _ => rfl⟩) rfl rfl ⟨_, rfl, by decide⟩ rfl rfl rfl).imp fun _ q => q.1⟩

/-- A fill into frame 8 that completes, and one whose flash page is uncorrectable. -/
theorem witness_fill (h : Rules.FillsComplete) :
    let f : Fill := { leafKey := 0x40008, leaf := 0x91800E, frame := some 8, joined := [(5, 1)] }
    (∃ x, exec (.stagehandFillComplete 0x40008 true) (flashS 0x91800E [] [f]) = .next x) ∧
    ∃ x, exec (.stagehandFillComplete 0x40008 false) (flashS 0x91800E (List.replicate 15 (0, 9)) [f]) = .next x := by
  intro f
  have q := fun r hm => h (flashS 0x91800E r [f]) f 8 1 5 pend5 (faulted none) { th 0 with cond := .wings (.fault (some 5)) } (0, 0x10000) hm
    rfl rfl rfl rfl rfl rfl (fun x m => by cases List.mem_singleton.1 m; exact ⟨fun _ => rfl, fun _ => rfl⟩) rfl rfl rfl (by decide)
    (by decide) rfl rfl rfl
  exact ⟨((q [] (by unfold State.memOk; decide +kernel)).1 (by decide +kernel) (by decide) (by decide) (by decide +kernel) (by decide +kernel) (by decide +kernel)
      (by decide +kernel) (by decide +kernel)).imp fun _ q => q.1,
    ((q (List.replicate 15 (0, 9)) (by unfold State.memOk; decide +kernel)).2 (by decide +kernel) rfl).imp fun _ q => q.1⟩

/-- Suspend and resume an address space, restore a cluster, kill a launch and an address space; an empty slot, a reserved
operation, an empty frame; another master. -/
theorem witness_preempt (h : Obligations.PreemptionCommands) :
    let y : Saved := { id := 0, frame := 9, die := 0, blks := [pooled] }
    let s := { faultS pooled with saved := [y], priv := { preemptarg := 0x900001 } }
    (∃ x, exec (.preemptSuspendAsid 7 0) s = .next x) ∧ (∃ x, exec (.preemptSuspendAsid 7 1) s = .next x) ∧ (∃ x, exec (.preemptResumeAsid 7 (1 + 2 ^ 59)) s = .next x) ∧
    (∃ x, exec (.restore 7 (1 + 3 * 2 ^ 59)) s = .next x) ∧ (∃ x, exec (.preemptKillLaunch 7 (1 + 4 * 2 ^ 59)) s = .next x) ∧
    (∃ x, exec (.preemptKillAsid 7 (1 + 5 * 2 ^ 59)) s = .next x) ∧
    (∃ x, exec (.restore 7 (1 + 3 * 2 ^ 59)) { s with saved := [] } = .next x) ∧
    (∃ x, exec (.preemptKillLaunch 7 (1 + 4 * 2 ^ 59)) { s with blocks := [] } = .next x) ∧
    (∃ x, exec (.preemptKillLaunch 7 (1 + 7 * 2 ^ 59)) s = .next x) ∧ exec (.preemptKillAsid 8 1) s = .next s := by
  intro y s
  have q := fun v => (h s 7 v).2.2 rfl (by decide)
  exact ⟨let ⟨_, e, _⟩ := (h s 7 0).2.1 rfl (by decide) rfl; ⟨_, e.1⟩, ((q 1 rfl).1 rfl).imp fun _ q => q.1, ((q (1 + 2 ^ 59) rfl).2.1 rfl).imp fun _ q => q.1,
    ((q (1 + 3 * 2 ^ 59) rfl).2.2.1 rfl y pooled (launch1 .running) (by decide +kernel) rfl rfl rfl).imp fun _ q => q.1,
    ((q (1 + 4 * 2 ^ 59) rfl).2.2.2.2.1 rfl pooled (launch1 .running) rfl rfl rfl).imp fun _ q => q.1,
    ((q (1 + 5 * 2 ^ 59) rfl).2.2.2.2.2.2.1 rfl (by decide)).imp fun _ q => q.1,
    ⟨_, (((h { s with saved := [] } 7 (1 + 3 * 2 ^ 59)).2.2 rfl (by decide) rfl).2.2.2.1 rfl nofun).2.2.1⟩,
    ⟨_, (((h { s with blocks := [] } 7 (1 + 4 * 2 ^ 59)).2.2 rfl (by decide) rfl).2.2.2.2.2.1 rfl rfl).2.2.2.1⟩,
    ⟨_, ((q (1 + 7 * 2 ^ 59) rfl).2.2.2.2.2.2.2 (by decide)).2.2.2.1⟩, ((h s 8 1).1 (.inl (by decide))).2.2.2.2⟩

/-- A force-save that is asked for, and one whose block is quiet. -/
theorem witness_force_save (h : Rules.ForceSaves) :
    let s := faultS pooled
    let b := blk [{ th 0 with cond := .wings .preempt }]
    let q := { faultS b with saving := some (0, 0, 9) }
    (∃ x, exec (.forceSave 7 (1 + 2 * 2 ^ 59)) s = .next x) ∧ ∃ x, exec (.forceSave 7 0) q = .next x := by
  intro s b q
  exact ⟨((h s 7 (1 + 2 * 2 ^ 59) pooled rfl (by decide) (by decide) (by decide) (by unfold Thread.idle; decide) (by decide)).1 rfl rfl (by decide) rfl rfl rfl rfl).imp
      fun _ q => q.1,
    ((h q 7 0 b rfl (by decide) (by decide) (by decide) (by unfold Thread.idle; decide) (by decide)).2 9 (launch1 .running) rfl rfl rfl rfl rfl
      (by decide +kernel) (by decide) rfl (fun _ hx => absurd hx List.not_mem_nil) (fun t m => by cases List.mem_singleton.1 m; exact ⟨nofun, nofun, nofun⟩) (by decide +kernel)).imp fun _ q => q.1⟩

/-- The image of a block of four threads ends with its operand buffer. -/
theorem witness_save_image (h : Rules.SaveImageLayout) : ((faultS pooled).blockImage pooled).length = 10112 := by
  have q := (h (faultS pooled) pooled rfl rfl rfl rfl rfl).2.2.2.2.2.2.2.2.2.2.2.2.2.2.2
  exact q.trans (by decide)

/-! ## The I/O die and the management plane -/

/-- The I/O ring with its header at HBM 0x50000 and its buffer at 0x51000, with a record header; and commands in flight. -/
def ioS (iocmd : Word64) (size rec : Nat) (cmds : List IoCmd) : State :=
  { withMem (mac two []) [(0x50000, 0x51000), (0x50008, size), (0x50010, 256), (0x50018, 192), (0x510C0, rec)] with
    priv := { iocmd := iocmd }, iocmds := cmds }

/-- Writes of the owner to each register, and of another master; doorbells of a disabled ring, of a bad header, of records
that are not ready, of a bad length and of 64 bytes. -/
theorem witness_ring_registers (h : Obligations.RingRegisters) :
    let s := fun i n r => ioS i n r []
    let d := fun i n r => ∃ x, exec (.iotailDoorbell 7 5) (s i n r) = .next x
    (∃ x, exec (.ffringWrite 7 3 0) { s 0 8 0 with reserve := [(3, 8), (2, 9)] } = .next x) ∧
    (∃ x, exec (.ffringWrite 7 3 0x41) (s 0 8 0) = .next x) ∧ (∃ x, exec (.fringWrite 7 0x41) (s 0 8 0) = .next x) ∧
    (∃ x, exec (.iocmdWrite 7 0x41) (s 0 8 0) = .next x) ∧ (∃ x, exec (.iocmdWrite 7 0x41) { s 0 8 0 with badRings := [(8200, 0)] } = .next x) ∧
    exec (.iocmdWrite 6 0x41) (s 0 8 0) = .next (s 0 8 0) ∧
    d 0 8 0 ∧ d 0x50001 7 0 ∧ d 0x50001 8 0 ∧ d 0x50001 8 (readyH 72) ∧ d 0x50001 8 (readyH 64) := by
  intro s d
  have r := fun v i n x => (h (s i n x) 7 v).2 rfl
  have q := fun i n x => (r 5 i n x).2.2.2
  have w := fun x => ((q 0x50001 8 x).2 (show (0x50001 : Word64).getLsbD 0 = true from by decide) rfl rfl
    (show hbmPopulated (((0x50001 : Word64).extractLsb' 6 36).toNat * 64) 64 = true from by decide)).2 { base := 0x51000, size := 256, prod := 256, cons := 192 }
  refine ⟨(((h { s 0 8 0 with reserve := [(3, 8), (2, 9)] } 7 0).2 rfl).1 3 (by decide) rfl).imp fun _ q => q.1,
    ((r 0x41 0 8 0).1 3 (by decide) rfl).imp fun _ q => q.1, (r 0x41 0 8 0).2.1.imp fun _ q => q.1, ?_, ?_,
    ((h (s 0 8 0) 6 0x41).1 (by decide)).2.2.1, ((q 0 8 0).1 (by decide +kernel)).imp fun _ q => q.1,
    (((q 0x50001 7 0).2 (by decide +kernel) rfl rfl (by decide)).1 (by decide +kernel)).imp fun _ q => q.1,
    ((w 0 (by decide +kernel) rfl (by decide)).1 (by decide +kernel)).imp fun _ q => q.1,
    ((w (readyH 72) (by decide +kernel) rfl (by decide)).2.1 (by decide +kernel) (by decide +kernel)).imp fun _ q => q.1,
    ((w (readyH 64) (by decide +kernel) rfl (by decide)).2.2 (by decide +kernel) (by decide +kernel) (by decide +kernel)).imp fun _ q => q.1⟩
  · obtain ⟨_, _, e, _⟩ := (r 0x41 0 8 0).2.2.1
    exact ⟨_, e nofun⟩
  · obtain ⟨_, _, _, _, e⟩ := ((h { s 0 8 0 with badRings := [(8200, 0)] } 7 0x41).2 rfl).2.2.1
    exact ⟨_, (e (by decide)).trans rfl⟩

/-- A command record. -/
def ioRec (opc count src dst cnt : Nat) : IoCmd :=
  { hdr := 0x50000, off := 192, len := 64, key := 0x510C0, unused := false
    raw := BitVec.ofNat 512 (opc <<< 64 ||| count <<< 96 ||| src <<< 128 ||| dst <<< 192 ||| cnt <<< 256) }

/-- Each operation; an uncorrectable page; a record with a COUNT of 8; a copy beyond populated memory; one to a vault of a
die held in reset. -/
theorem witness_io_commands (h : Rules.IoCommands) :
    let s := fun c => ioS 0x50001 8 (readyH 64) [c]
    hbmRange (2 ^ 37 - 16) 16 = true ∧
    (∃ x, exec .ioCopy (s (ioRec 0 16 (2 ^ 37 - 16) (1 <<< 62 ||| (2 ^ 32 - 16)) 0)) = .next x) ∧
    (∃ x, exec .flwr (s (ioRec 1 65536 0x50000 (2 ^ 28 - 1) 0)) = .next x) ∧
    (∃ x, exec .flrd (s (ioRec 2 65536 9 0x90000 0)) = .next x) ∧
    (∃ x, exec .flrd { s (ioRec 2 65536 9 0x90000 0) with poison := [flashKey 9 0] } = .next x) ∧
    (∃ x, exec .ioCopy (s (ioRec 0 8 0 0 0)) = .next x) ∧ (∃ x, exec .ioCopy (s (ioRec 0 16 (2 ^ 37) 0 0)) = .next x) ∧
    ∃ y : State, y.iocmds ≠ [] ∧ exec .ioCopy y = .next y := by
  intro s
  have q := fun c hm hf => h.2 (s c) c hm rfl hf rfl
  have k := fun c hm hf n m o => (q c hm hf n m).2.2 o
  refine ⟨(h.1 (2 ^ 37 - 16) 16 (by decide) (by decide)).2 fun i hi => ⟨by omega, by rw [if_pos (by omega)]; omega⟩, ?_, ?_, ?_, ?_, ?_, ?_, ?_⟩
  · exact ((k (ioRec 0 16 (2 ^ 37 - 16) (1 <<< 62 ||| (2 ^ 32 - 16)) 0)
      (by unfold State.memOk; decide +kernel) (by decide +kernel) rfl rfl (by decide +kernel) (by decide +kernel)).2.1
      (by decide +kernel) (.inl rfl)).imp fun _ q => q.1
  · exact ((k (ioRec 1 65536 0x50000 (2 ^ 28 - 1) 0) (by unfold State.memOk; decide +kernel) (by decide +kernel) rfl rfl
       (by decide +kernel) (by decide +kernel)).2.2.1 (by decide +kernel)).imp fun _ q => q.1
  · exact ((k (ioRec 2 65536 9 0x90000 0) (by unfold State.memOk; decide +kernel) (by decide +kernel) rfl rfl
       (by decide +kernel) (by decide +kernel)).2.2.2.1 (by decide +kernel) (by decide +kernel)).imp
      fun _ q => q.1
  · exact (((h.2 { s (ioRec 2 65536 9 0x90000 0) with poison := [flashKey 9 0] } (ioRec 2 65536 9 0x90000 0) (by unfold State.memOk; decide +kernel)
      rfl (by decide +kernel) rfl rfl rfl).2.2 (by decide +kernel)
      (by decide +kernel)).2.2.2.2 (by decide +kernel) (by decide +kernel)).imp fun _ q => q.1
  · exact ⟨_, (q (ioRec 0 8 0 0 0) (by unfold State.memOk; decide +kernel) (by decide +kernel) rfl rfl).1 (by decide +kernel) |>.2.2 (by decide +kernel) (by decide +kernel)⟩
  · exact ⟨_, (q (ioRec 0 16 (2 ^ 37) 0 0) (by unfold State.memOk; decide +kernel) (by decide +kernel) rfl rfl).2.1 (by decide +kernel) (by decide +kernel) |>.2.2 (by decide +kernel) (by decide +kernel)⟩
  · let c := ioRec 0 16 (2 ^ 37 - 16) (1 <<< 62) 0
    let y : State := { s c with boot := { stage := 3, failed := 0 } }
    refine ⟨y, by simp [y, s, ioS, withMem], ?_⟩
    exact ((h.2 y c (by unfold State.memOk; decide +kernel) rfl (by decide +kernel) rfl rfl rfl).2.2
      (by decide +kernel) (by decide +kernel)).1 (by decide +kernel) rfl (.inr (by decide +kernel))

/-- An unused record; one that has not executed; one with an error; one with a counter. -/
theorem witness_io_completes (h : Rules.IoCommandsComplete) :
    let c := fun n => ioRec 0 16 0 0x60000 n
    let s := fun c => ioS 0x50001 8 (readyH 64) [c]
    (∃ x, exec .ioCommandComplete (s { c 0 with unused := true }) = .next x) ∧ (∃ x, exec .ioCommandComplete (s (c 0)) = .next x) ∧
    (∃ x, exec .ioCommandComplete (s { c 0x70000 with status := 4 }) = .next x) ∧
    ∃ x, exec .ioCommandComplete (s { c 0x70000 with status := 1 }) = .next x := by
  intro c s
  have q := fun c hm h0 => h (s c) c [] hm rfl h0
  exact ⟨((q { c 0 with unused := true } (by unfold State.memOk; decide +kernel) (by decide) (by decide) (by decide +kernel) (by decide +kernel)).2.1 rfl).imp fun _ q => q.1,
    ⟨_, (q (c 0) (by unfold State.memOk; decide +kernel) (by decide) (by decide) (by decide +kernel) (by decide +kernel)).1 rfl rfl⟩,
    ((q { c 0x70000 with status := 4 } (by unfold State.memOk; decide +kernel) (by decide) (by decide) (by decide +kernel) (by decide +kernel)).2.2.1 rfl (by decide) (by decide)
      (.inl (by decide))).imp fun _ q => q.1,
    ((q { c 0x70000 with status := 1 } (by unfold State.memOk; decide +kernel) (by decide) (by decide) (by decide +kernel) (by decide +kernel)).2.2.2 rfl rfl (by decide +kernel)).imp
      fun _ q => q.1⟩

/-- A carve-out of one frame from 1 GiB of each die on, and a dirty copy of the first line of frame 5. -/
def frameS (frameop : Option (Nat × Nat × Nat)) : State :=
  { mac two [] with
    frameop := frameop
    hostHeld := [(5120, true)]
    copies := [{ holder := .l2 1, line := 2560, data := 7, valid := BitVec.allOnes 128, dirty := 1, ct := 0 }]
    priv := { stripesize := 1 <<< 16, stripebase := List.replicate 4 (1 <<< 30) } }

/-- The last frame of the smaller dies' memory, the frame behind it, a back-invalidate of the vault; another master; and the
three operations on a striped frame and on frame 5. -/
theorem witness_frame_operations (h : Obligations.FrameOperations) :
    let s := frameS none
    (∃ x, exec (.frameopPurgeWriteback 7 ((2 ^ 21 - 1) * 2 ^ 20 + 1)) s = .next x) ∧
    (∃ x, exec (.frameopPurgeWriteback 7 (2 ^ 21 * 2 ^ 20 + 1)) s = .next x) ∧
    (∃ x, exec (.frameopBackInvalidate 7 (2 ^ 59 + 2 ^ 57 + 1)) s = .next x) ∧ (∃ x, exec (.frameopPurgeDiscard 7 0) s = .next x) ∧
    exec (.frameopPurgeDiscard 6 1) s = .next s ∧ (∃ x, exec .frameopComplete (frameS (some (0, 0, 5))) = .next x) ∧
    (∃ x, exec .frameopComplete (frameS (some (1, 1, 0))) = .next x) ∧ (∃ x, exec .frameopComplete (frameS (some (2, 0, 5))) = .next x) ∧
    exec .frameopComplete s = .next s := by
  intro s
  have q := fun v => (h.1 s 7 v).2 rfl (by decide)
  refine ⟨?_, ⟨_, ((q (2 ^ 21 * 2 ^ 20 + 1)).2.1 (by decide) (.inr (.inr (.inr (by decide +kernel))))).1⟩,
    ⟨_, ((q (2 ^ 59 + 2 ^ 57 + 1)).2.1 (by decide) (.inr (.inr (.inl (by decide))))).2.2⟩, ?_, ((h.1 s 6 1).1 (.inl (by decide))).2.1,
    ((h.2 (frameS (some (0, 0, 5))) 0 0 5).2.2 rfl rfl).1 rfl (by decide) |>.imp fun _ q => q.1,
    ((h.2 (frameS (some (1, 1, 0))) 1 1 0).2.2 rfl rfl).2.1 rfl |>.imp fun _ q => q.1,
    ((h.2 (frameS (some (2, 0, 5))) 2 0 5).2.2 rfl rfl).2.2 rfl |>.imp fun _ q => q.1, (h.2 s 0 0 0).2.1 rfl⟩
  · obtain ⟨_, e, _⟩ := (q ((2 ^ 21 - 1) * 2 ^ 20 + 1)).2.2 (by decide) (by decide) (by decide) (by decide) (by decide +kernel)
    exact ⟨_, e.1⟩
  · obtain ⟨_, e, _⟩ := (q 0).1 (by decide)
    exact ⟨_, e.2.1⟩

/-- A shootdown of one page, of none and of a reserved kind; the first and the last acknowledgement, of a range and of an
address space; the completion. -/
theorem witness_shootdowns (h : Obligations.Shootdowns) :
    let s := frameS none
    let x : Nat → List Nat → Shoot := fun k a => { id := 4, kind := k, asid := 1, va := 0, pages := 1, acks := a, reg := true }
    let r := fun (k : Nat) a => { frameS none with shoots := [x k a] }
    (∃ y, exec (.shootRange 7 3) s = .next y) ∧ (∃ y, exec (.shootRange 7 1) s = .next y) ∧
    (∃ y, exec (.shootAll 7 (3 * 2 ^ 60 + 1)) s = .next y) ∧ exec (.shootAsid 6 3) s = .next s ∧
    (∃ y, exec (.shootdownAcknowledge 0 4) (r 0 []) = .next y) ∧ (∃ y, exec (.shootdownAcknowledge 3 4) (r 1 [0, 1, 2]) = .next y) ∧
    (∃ y, exec (.shootdownComplete 4) (r 1 [0, 1, 2]) = .next y) ∧ ∃ y, exec (.shootdownComplete 4) (r 1 [0, 1, 2, 3]) = .next y := by
  intro s x r
  have q := fun v => (h.1 s 7 v).2 rfl (by decide)
  have k := fun (i : Nat) a => h.2 (r i a) (x i a) (by simp [r])
  have OK : ∀ i a, (r i a).copiesOk := by intro _ _; show (frameS none).copiesOk; unfold State.copiesOk; decide
  have HB : ∀ i a, ∀ c ∈ (r i a).copies, spaceOf (c.line * 128) = .hbm := by
    intro _ _; show ∀ c ∈ (frameS none).copies, _; decide
  have QM : ∀ i a, ∀ b ∈ (r i a).blocks, ∀ t ∈ b.threads, t.maint = [] := by
    intro _ _; show ∀ b ∈ (frameS none).blocks, _; decide
  refine ⟨?_, ?_, ⟨_, ((q (3 * 2 ^ 60 + 1)).2.1 (by decide) (by decide)).2.2⟩, ((h.1 s 6 3).1 (.inl (by decide))).2.1,
    ((k 0 []).1 0 (by decide) (by decide) rfl (OK 0 []) (HB 0 []) (QM 0 [])).imp fun _ q => q.1, ((k 1 [0, 1, 2]).1 3 (by decide) (by decide) rfl (OK 1 [0, 1, 2]) (HB 1 [0, 1, 2]) (QM 1 [0, 1, 2])).imp fun _ q => q.1,
    ⟨_, (k 1 [0, 1, 2]).2.1 (by decide)⟩, ((k 1 [0, 1, 2, 3]).2.2 (by decide)).imp fun _ q => q.1⟩
  · obtain ⟨_, _, e⟩ := (q 3).2.2.2 (by decide) (by decide) (.inr (by decide))
    exact ⟨_, e.1⟩
  · obtain ⟨_, _, e⟩ := (q 1).2.2.1 (by decide) (by decide) (by decide)
    exact ⟨_, e.1⟩

/-- A device without an owner, and an owned one with two claims; the steps of R393's protocol; an identity of 18 bits. -/
theorem witness_ownership (h : Obligations.OwnershipPasses) :
    let n : State := { mac two [] with owner := {} }
    let s : State := { mac two [] with owner := { owner := some 7, claims := [3, 70000], window := true }, msixDue := [5] }
    (∃ x, exec (.ownerClaim 7) n = .next x) ∧ (∃ x, exec (.ownerClaim 5) s = .next x) ∧ exec (.ownerClaim 7) s = .next s ∧
    (∃ x, exec (.ownerRelease 7) s = .next x) ∧ (∃ x, exec .ownerLoss s = .next x) ∧ exec .ownerLoss n = .next n ∧
    (∃ x, exec (.ownerWithdraw 3) s = .next x) ∧ (∃ x, exec (.pendingClaimLinkLoss 70000) s = .next x) ∧
    (∃ x, exec .claimWindowClose s = .next x) ∧ exec .claimWindowClose n = .next n ∧
    exec (.ownerClaim 131072) s = .next s ∧ exec (.ownerRelease 5) s = .next s := by
  intro n s
  have a := (h n 7).2.2.2.1 (by decide) (by decide)
  have b := (h s 5).2.2.2.1 (by decide) (by decide)
  obtain ⟨l1, e1, -⟩ := a
  obtain ⟨l2, e2, -⟩ := b
  obtain ⟨l3, -, -, e3, -⟩ := (h s 3).2.2.2.2.2.1
  obtain ⟨l4, -, -, -, e4⟩ := (h s 70000).2.2.2.2.2.1
  obtain ⟨x, e5, -⟩ := ((h s 7).2.2.2.2.2.2.2 rfl).2 3 [70000] rfl
  exact ⟨⟨_, e1⟩, ⟨_, e2⟩, ((h s 7).1 rfl).1, ⟨_, ((h s 7).1 rfl).2.1.2 3 [70000] rfl⟩, ⟨_, ((h s 7).1 rfl).2.2.2 3 [70000] rfl⟩,
    (h n 0).2.2.2.2.1 rfl, ⟨_, e3⟩, ⟨_, e4⟩, ⟨x, e5⟩, (h n 7).2.2.2.2.2.2.1 rfl,
    (h s 131072).2.2.1 (by decide) (by decide), (h s 5).2.1 (by decide)⟩

/-- A write of the owner and of another master to a register of storage, to the management page and beyond it; of four
bytes; to a ring page and between its registers; with a die held; before the I/O die runs. -/
theorem witness_windows (h : Obligations.RegisterWindows) :
    let s := mac two []
    let f : State := { mac two [] with boot := { stage := 0, failed := 3 } }
    (∃ x, exec (.registerWrite 7 ⟨false, 0x248, 8⟩ 5) s = .next x) ∧ (∃ x, exec (.registerWrite 6 ⟨false, 0x10110, 8⟩ 5) s = .next x) ∧
    exec (.registerWrite 6 ⟨false, 0x248, 8⟩ 5) s = .next s ∧ exec (.registerWrite 7 ⟨false, 0x20000, 8⟩ 5) s = .next s ∧
    exec (.registerWrite 7 ⟨false, 0x248, 4⟩ 5) s = .next s ∧ exec (.registerWrite 7 ⟨false, 0x24C, 8⟩ 5) s = .next s ∧
    exec (.registerWrite 7 ⟨true, 0x1FFF058, 8⟩ 5) s = exec (.tailDoorbell 7 8191 3 5) s ∧ exec (.registerWrite 7 ⟨true, 0x1020, 8⟩ 5) s = .next s ∧
    exec (.registerWrite 7 ⟨false, 0xFFF8, 8⟩ 5) f = .next f ∧ exec (.registerWrite 7 ⟨true, 0, 8⟩ 5) State.reset = .next State.reset ∧ s.readReg 7 false 8 8 = 2 ^ 63 + 7 * 2 ^ 32 + 8 := by
  intro s f
  have q := fun m => (h s m 5).2.2.2 rfl (by decide)
  refine ⟨((q 7).2.2.2.2.2.2.2.2.2.2.2.2.2.1 rfl rfl rfl 0x248 0x00FFFFFFFFF01FFF (.inl ⟨rfl, by decide⟩)).imp fun _ q => q.1,
    ((q 6).2.2.2.2.2.2.2.2.2.2.2.2.2.1 rfl rfl rfl 0x10110 0xFFFFFFFFFF (.inr (by decide))).imp fun _ q => q.1,
    (q 6).2.2.2.1 (by decide) 0x248 (by decide) (by decide), (q 7).1 0x20000 (by decide),
    ((h s 7 5).1 false 0x248 4 (.inl (by decide))).1, ((h s 7 5).1 false 0x24C 8 (.inr (by decide))).1,
    ((q 7).2.1 8191 (by decide) 3 (by decide)).2.1, ((q 7).2.2.1 0x1020 (.inl (by decide))).1,
    (((h f 7 5).2.1 (by decide)).1 0xFFF8 (by decide)).1, ((h State.reset 7 5).2.2.1 (by decide) true 0).1,
    ((q 7).2.2.2.2.2.2.2.2.2.2.2.2.2.2.1 7 rfl).trans (by decide)⟩

/-- An erasure, a change of the frequency, one refused; the caps' limits; a trip cleared; a power evaluation at R409's caps
of 2,000 and an inlet of 45 °C, and one of 55.1 °C. -/
theorem witness_management (h : Rules.ManagementRegisters) :
    let s := mac two []
    let t : State := { mac two [] with mgmt := { therm := 0x8000000000000000, pwrcap := 2000 + 65536 },
                                       boot := { stage := 7, images := List.replicate 7 ⟨true, 0, 5⟩ } }
    (∃ x, exec (.flerase 7 0x5A) s = .next x) ∧ (∃ x, exec (.detmodeWrite 7 (1122 <<< 16 ||| 3)) s = .next x) ∧
    (∃ x, exec (.detmodeWrite 7 (1121 <<< 16 ||| 3)) s = .next x) ∧ (∃ x, exec (.pwrcapWrite 7 999) s = .next x) ∧
    (∃ x, exec (.pwrcapWrite 7 4200) s = .next x) ∧ (∃ x, exec (.thermClear 7 (1 <<< 63)) t = .next x) ∧
    (∃ x, exec (.thermClear 7 0) t = .next x) ∧ (∃ x, exec (.powerEvaluation 2001 450 900) t = .next x) ∧
    ∃ y, exec (.powerEvaluation 2001 551 900) t = exec .thermalTrip y := by
  intro s t
  have q := fun v => h s 7 v
  have r := fun v => h t 7 v
  refine ⟨⟨_, ((q 0x5A).2.1 rfl (by decide)).1⟩, ?_, ⟨_, (q (1121 <<< 16 ||| 3)).2.2.1.1 (by decide)⟩, ⟨_, (q 999).2.2.2.1 (by decide)⟩,
    ⟨_, (q 4200).2.2.2.2.1 (by decide) (by decide)⟩, ((r (1 <<< 63)).2.2.2.2.2.2.1 (by decide) (by decide) rfl rfl).elim fun _ q => ⟨_, q.1⟩,
    ⟨_, (r 0).2.2.2.2.2.1 (by decide)⟩, ((r 0).2.2.2.2.2.2.2.2 2001 450 900 rfl (by decide) (by decide)).imp fun _ q => q.1,
    ((r 0).2.2.2.2.2.2.2.1 2001 551 900 rfl (by decide) (.inr (by decide))).imp fun _ q => q.2.2.2⟩
  obtain ⟨_, e, _⟩ := (q (1122 <<< 16 ||| 3)).2.2.1.2 (by decide)
  exact ⟨_, e⟩

/-- A trip while a launch runs, and readings at the limits. -/
theorem witness_trip (h : Rules.ThermalTrip) :
    let s : Nat → Nat → State := fun inlet tj =>
      { faultS pooled with mgmt := { pwrstat := BitVec.ofNat 64 (inlet * 2 ^ 32), therm := BitVec.ofNat 64 tj } }
    (∃ x, exec .thermalTrip (s 400 1100) = .next x) ∧ (∃ x, exec .thermalTrip (s 551 900) = .next x) ∧
    exec .thermalTrip (s 550 1099) = .next (s 550 1099) := by
  intro s
  exact ⟨((h (s 400 1100)).2 (.inl (by decide)) (by decide)).imp fun _ q => q.1,
    ((h (s 551 900)).2 (.inr (by decide)) (by decide)).imp fun _ q => q.1, (h (s 550 1099)).1 (by decide) (by decide)⟩

/-- The last bytes of the vault and of a smaller die's memory; beyond it; an address that no decoder claims; the vault while
the dies are held in reset. -/
theorem witness_host (h : Rules.HostAccesses) :
    let s : State := { mac two [] with boot := { released := true, hdm := [0, 1] } }
    let r : State := { mac two [] with boot := { released := false, hdm := [0, 1] } }
    (∃ x, exec (.hostMemRead (2 ^ 40 + 2 ^ 32 - 64) ⟨64, false⟩) s = .next x) ∧ (∃ x, exec (.hostMemRead (2 ^ 37 - 64) ⟨64, true⟩) s = .next x) ∧
    (∃ x, exec (.hostMemRead (2 ^ 37) ⟨64, false⟩) s = .next x) ∧ exec (.hostMemRead (2 ^ 40 + 2 ^ 32) ⟨64, false⟩) s = .next s ∧
    (∃ x, exec (.hostMemWrite (2 ^ 37 - 2) 2 [1, 2]) s = .next x) ∧ (∃ x, exec (.hostMemWrite (2 ^ 37 - 1) 2 [1, 2]) s = .next x) ∧
    (∃ x, exec (.hostMemRead (2 ^ 40) ⟨64, false⟩) r = .next x) ∧ exec (.hostMemWrite (2 ^ 40) 2 [1, 2]) r = .next r := by
  intro s r
  have q := fun a => h s a
  exact ⟨((q (2 ^ 40 + 2 ^ 32 - 64)).1 64 false).2.2.2 (.inr ⟨by decide, by decide, by decide⟩) (.inl (by decide)) (.inr rfl) |>.imp fun _ q => q.1,
    ((q (2 ^ 37 - 64)).1 64 true).2.2.2 (.inl ⟨by decide, by decide⟩) (.inr (by decide)) (.inl (by decide)) |>.imp fun _ q => q.1,
    ⟨_, ((q (2 ^ 37)).1 64 false).2.1 (.inl ⟨by decide, by decide⟩) (by decide)⟩, ((q (2 ^ 40 + 2 ^ 32)).1 64 false).1 (by decide),
    ((q (2 ^ 37 - 2)).2 2 [1, 2]).2.2.2 (.inl ⟨by decide, by decide⟩) (.inr (by decide)) (.inl (by decide)) rfl |>.imp fun _ q => q.1,
    ⟨_, ((q (2 ^ 37 - 1)).2 2 [1, 2]).2.1 (.inl ⟨by decide, by decide⟩) (by decide)⟩,
    ⟨_, ((h r (2 ^ 40)).1 64 false).2.2.1 (.inr ⟨by decide, by decide, by decide⟩) (.inl (by decide)) (by decide)⟩,
    ((h r (2 ^ 40)).2 2 [1, 2]).2.2.1 (.inr ⟨by decide, by decide, by decide⟩) (.inl (by decide)) (by decide)⟩

/-- The last word of HBM, and a register of a thread. -/
theorem witness_soft (h : Rules.SoftErrors) : (∃ x, exec (.softError (.home (2 ^ 40 - 1)) true) (mac two []) = .next x) ∧
    ∃ x, exec (.softError (.register 0 0 1 5) true) (mac two []) = .next x := by
  have q := h (mac two []) (2 ^ 40 - 1) (by decide) rfl
  obtain ⟨x, -, e, -⟩ := q.2.1 0 0 5 (th 1 [(1, 9), (2, 5), (4, 2)]) rfl
  exact ⟨q.2.2.2.imp fun _ q => q.1, x, e⟩

/-- Each stage of boot; images that pass, and a fourth that fails its version; a request to the I/O die that runs alone. -/
theorem witness_boot (h : Rules.BootProceeds) :
    let s : Nat → State := fun n => { boot := { stage := n } }
    let im : Image := { signed := true, version := 0, digest := 5 }
    let f : State := { fused := [0, 0, 0, 1, 0, 0, 0] }
    let d : State := { boot := { stage := 2, failed := 4 } }
    (∃ x, exec (.deviceReset (List.replicate 7 im)) (s 7) = .next x ∧ x.boot.stage = 3) ∧
    (∃ x, exec (.deviceReset (List.replicate 7 im)) f = .next x ∧ x.boot.failed = 4) ∧
    (∃ x, exec (.linkTrainingReport 1) (s 3) = .next x) ∧
    (∃ x, exec (.linkTrainingReport 0) (s 5) = .next x) ∧ (∃ x, exec .bootComplete (s 5) = .next x) ∧
    (∃ x, exec .bootComplete (s 3) = .next x) ∧ exec (.configurationRequest .read 0) (s 1) = .next (s 1) ∧
    (∃ x, exec (.configurationRequest .commitHdm 0) (s 6) = .next x) ∧ (∃ x, exec (.configurationRequest .commitHdm 1) (s 7) = .next x) ∧
    (∃ x, exec (.configurationRequest .read 0) (s 7) = .next x) ∧ exec (.configurationRequest .commitHdm 0) d = .next d := by
  intro s im f d
  obtain ⟨x, e, p⟩ := (h (s 7) 0).1 (List.replicate 7 im)
  obtain ⟨y, g, r⟩ := (h f 0).1 (List.replicate 7 im)
  have pass : ∀ l : List Nat, l = List.replicate 7 0 → ∀ i < 7, ∃ k, (List.replicate 7 im)[i]? = some k ∧ k.signed = true ∧ l.getD i 0 ≤ k.version := by
    rintro _ rfl i hi
    match i, hi with
    | 0, _ | 1, _ | 2, _ | 3, _ | 4, _ | 5, _ | 6, _ => exact ⟨im, rfl, rfl, by decide⟩
  have k := fun n => (h (s n) 0).2.2.2.2.2.2.1 .read (by decide)
  have c := fun n m => (h (s n) m).2.2.2.2.2.2.1 .commitHdm (by simp)
  refine ⟨⟨x, e, (p.2.2.2.2.2.2.2.2.2.2.2.2.2.2.2.2.2.2.2.2.1 (pass _ rfl)).2⟩,
    ⟨y, g, (r.2.2.2.2.2.2.2.2.2.2.2.2.2.2.2.2.2.2.2.2.2 3 (by decide)
      (fun j hj => match j, hj with | 0, _ | 1, _ | 2, _ => ⟨im, rfl, rfl, by decide⟩) (by rintro ⟨k, hk, -, hv⟩; cases hk; exact absurd hv (by decide))).1⟩,
    ⟨_, (h (s 3) 1).2.2.1 (.inl rfl) (by decide)⟩, ⟨_, (h (s 5) 0).2.1 (.inl ⟨by decide, rfl⟩)⟩,
    ((h (s 5) 0).2.2.2.2.1 rfl).imp fun _ q => q.1, ⟨_, (h (s 3) 0).2.2.2.1 (by decide)⟩, (k 1).1 (by decide),
    ⟨_, (c 6 0).2.1 (by decide) (by decide) rfl⟩, ?_, ⟨_, (k 7).2.2.2 (.inl (by decide)) (by decide)⟩, ((h d 0).2.2.2.2.2.2.1 .commitHdm (by simp)).2.2.1 (by decide) (by decide) (by decide) rfl⟩
  obtain ⟨_, e, _⟩ := (h (s 7) 1).2.2.2.2.2.2.2 (by decide)
  exact ⟨_, e⟩

/-- Before the measurement, and in the mailbox before CXL.io answers; with three sessions and with four; one that ends. -/
theorem witness_spdm (h : Rules.SpdmAnswers) :
    let im : Image := { signed := true, version := 0, digest := 5 }
    let s : List Image → Nat → State := fun m n => { boot := { images := m, sessions := (List.range n).map fun i => (i, 0) } }
    let up : State := { boot := { stage := 7 } }
    exec (.getMeasurements ⟨false, 5⟩) (s [] 0) = .next (s [] 0) ∧ (∃ x, exec (.getCertificate ⟨true, 1⟩) (s [im] 3) = .next x) ∧
    (∃ x, exec (.getCertificate ⟨true, 1⟩) up = .next x) ∧
    (∃ x, exec (.keyExchange ⟨false, 5⟩) (s [im] 4) = .next x) ∧ (∃ x, exec (.keyExchange ⟨false, 5⟩) (s [im] 3) = .next x) ∧
    (∃ x, exec (.configurationRequest (.spdm false .endSession) 2) (s [im] 3) = .next x) ∧
    ∃ x, exec (.configurationRequest (.spdm false .endSession) 3) (s [im] 3) = .next x := by
  intro im s up
  have no : ∀ k, (3, k) ∉ (s [im] 3).boot.sessions := fun k hk => by
    obtain ⟨i, hi, e⟩ := List.mem_map.1 hk
    exact absurd (List.mem_range.1 hi) (by rw [(Prod.mk.inj e).1]; decide)
  have q := fun n m => (h (s [im] n) false m).2 ⟨List.cons_ne_nil _ _, Nat.zero_ne_one⟩
  obtain ⟨_, _, _, _, e⟩ := (q 3 5).2.2.2.2.2.1 ⟨3, by decide, no⟩
  obtain ⟨_, f, _⟩ := (q 3 2).2.2.2.2.2.2.2.2.1 ⟨0, List.mem_map.2 ⟨2, by decide, rfl⟩⟩
  exact ⟨((h (s [] 0) false 5).1 (by decide)).1, ⟨_, ((h (s [im] 3) true 1).1 (by decide)).2.1⟩, ⟨_, ((h up true 1).2 (by decide)).2.2.1 (by decide)⟩,
    ⟨_, (q 4 5).2.2.2.2.1 fun i hi => ⟨0, List.mem_map.2 ⟨i, List.mem_range.2 hi, rfl⟩⟩⟩, ⟨_, e⟩, ⟨_, f⟩,
    ⟨_, (q 3 3).2.2.2.2.2.2.2.2.2 no⟩⟩

/-! ## The machine as a whole -/

/-- What the next step after reset does with a word. -/
def after (nbits w : Nat) (regs : List (Nat × Word)) (f : Thread → Nat) : Option (List Nat) :=
  let s := State.reset.withFetchWord nbits w
  let s := { s with blocks := s.blocks.map fun b => { b with threads := b.threads.map fun t =>
    { t with regs := regs.foldl (fun l p => l.set p.1 p.2) t.regs } } }
  match step s with
  | .next t => (t.block? 0 0).map fun b => (b.threads.take 2).map f
  | _ => none

/-- `MOVI x3, -5` (R196: sign-extended), and every thread's pc goes on. -/
theorem test_step_movi : after 32 0x2407FFFB [] (fun t => (t.regs.getD 3 0).toNat + 2 ^ 32 * t.pc.toNat) =
    some [2 ^ 34 + 0xFFFFFFFB, 2 ^ 34 + 0xFFFFFFFB] := by decide +kernel

/-- `ADDI x3, x3, 1` wraps (R189). -/
theorem test_step_addi : after 32 0x11060C01 [(3, 0xFFFFFFFF)] (fun t => (t.regs.getD 3 0).toNat) = some [0, 0] := by decide +kernel

/-- `EXIT`: the threads leave. -/
theorem test_step_exit : after 32 0x09000000 [] (fun t => if t.live then 1 else 0) = some [0, 0] := by decide +kernel

/-- An undefined opcode: an illegal instruction parks every thread on its record (R58, R357). -/
theorem test_step_illegal : after 32 0x0C000000 [] (fun t => match t.cond with | .wings (.fault (some n)) => n | _ => 99) = some [0, 0] := by
  decide +kernel

/-- Steps of agents: an event, and a word, which is no event. -/
theorem witness_agent_steps (h : Rules.StepRunsTheInstruction) :
    (∃ t, step { State.reset with agenda := [.ev .thermalTrip] } = .next t) ∧
    step { State.reset with agenda := [.ev (.exit false 0)] } = .next State.reset.tick.trim :=
  ⟨⟨_, ((h.1 { State.reset with agenda := [.ev .thermalTrip] } .thermalTrip [] rfl).1 rfl).trans rfl⟩,
    (h.1 { State.reset with agenda := [.ev (.exit false 0)] } (.exit false 0) [] rfl).2 rfl⟩

/-- The state after reset with a `MOVI`, as its step finds it, and after its fetch. -/
def moviS : State := State.reset.withFetchWord 32 0x2407FFFB
def moviU : State := { moviS.tick with agenda := [] }
def moviF : State := (moviU.fetchBlock 0 (freshBlock 0).asker 0 0).1

def moviW : Warp := { core := 0, slot := 0, id := 0, pipe := 0, lanes := (List.range 32).map some, last := moviS.now }

theorem movi_issues : Issues moviS moviF moviW (freshBlock 0) 0 0x2407FFFB 0 false where
  next := ⟨[], by decide +kernel, by decide +kernel, by decide +kernel, by decide +kernel, 0x2407FFFB :: List.replicate 15 0,
    Prod.ext rfl (ofOk (by decide +kernel)), by decide +kernel, by decide +kernel, by decide +kernel⟩
  at_ := ⟨(0, 0), freshThread 0 128 0 true .cast, by decide +kernel, by decide +kernel, by decide +kernel⟩
  there m hm := Option.isSome_iff_exists.1 ((by decide +kernel : ∀ m ∈ moviW.byTid, ((freshBlock 0).thread? m.2).isSome = true) m hm)
  stays := by decide +kernel
  plain := rfl
  sound := by decide +kernel

/-- A step of a `MOVI` after reset; a warp that does not exist has no turn. -/
theorem witness_step_movi (h : Rules.StepRunsTheInstruction) :
    let v := { issuesFrom moviF moviW 0x2407FFFB 0 false with cur := some (curOf moviW 0 1 moviW.byTid) }
    (∀ x, exec (.movi none { d := 3, imm := 0x1FFFB }) v = .next x →
      step moviS = .next ((({ x with cur := none } : State).meet 0 0).phaseCheck 0 0).trim) ∧
    step { moviS with agenda := [.issue 0 0 9] } = .next moviU.trim := by
  have q := h.2.2 moviS moviF moviW (freshBlock 0) 0 0x2407FFFB 0 false (.movi none { d := 3, imm := 0x1FFFB }) 1 movi_issues
    (ofOk (by decide +kernel)) (by decide +kernel) (by decide +kernel) (by decide +kernel) (fun hm => absurd hm (by decide +kernel))
  have q3 := q.1 (by decide +kernel)
  exact ⟨q3, h.2.1 { moviS with agenda := [.issue 0 0 9] } 0 0 9 [] rfl (by decide +kernel)⟩

/-- A fetch of the last block of the page, which no core holds, and one of a block that its core holds. -/
theorem witness_fetch_block (h : Rules.FetchReadsMemory) :
    let c : State := { mac two [] with icache := [{ core := 0, asid := 1, va := 0xFFC0, words := List.replicate 16 7 }] }
    (∃ f words, (mac two []).fetchBlock 0 two.asker 0xFFC0 0xFFC0 = (f, .ok (words, none))) ∧
    c.fetchBlock 0 two.asker 0xFFC0 0xFFC0 = (c, .ok (List.replicate 16 7, none)) := by
  intro c
  obtain ⟨f, w, e, _⟩ := (h (mac two []) 0 0xFFC0 0xFFC0 two.asker (393152 + ·) (spanAt (key := 393152) (by decide +kernel))).2 rfl rfl rfl
  exact ⟨⟨f, w, e⟩, (h c 0 0xFFC0 0xFFC0 two.asker (393152 + ·) (spanAt (key := 393152) (by decide +kernel))).1 _ rfl⟩

/-- A word with the largest fields. -/
theorem witness_round_trip (h : Obligations.EncodeThenDecode) : roundTrips (.and { d := 127, a := 127, b := 127 }) :=
  h _ rfl (by decide)

/-- Reset memory is canonical, so what a step from reset leaves is. -/
theorem witness_canonical (h : Obligations.MemoryStaysCanonical) :
    ∀ t, step (State.reset.withFetchWord 32 0x2407FFFB) = .next t → t.memOk :=
  fun t e => h _ t (by unfold State.memOk; decide +kernel) e

/-! ## Worked examples of the manual -/

/-- Register `d` of thread 0 after one step of an instruction, with some registers set. -/
def gives (i : Instr) (regs : List (Nat × Word)) (d : Nat) : Option Nat :=
  let ws := encode i
  (after (32 * ws.length) (ws.headD 0 + 2 ^ 32 * ws.getD 1 0) regs fun t => (t.regs.getD d 0).toNat).map (·.headD 0)

/-- R169: 70,000.0 converts to FP16 infinity under RNE and to 65,504 under RZ. -/
theorem test_cvt_f16 : gives (.cvt .f16 .f32 (some {}) { d := 3, a := 1 }) [(1, 0x4788B800)] 3 = some 0x7C00 ∧
    gives (.cvt .f16 .f32 (some { rm := 2 }) { d := 3, a := 1 }) [(1, 0x4788B800)] 3 = some 0x7BFF := by decide +kernel

/-- R170: 1.0e10 to `.s32` is the upper bound, -3.5 to a natural type 0. -/
theorem test_cvt_bounds : gives (.cvt .s32 .f32 (some {}) { d := 3, a := 1 }) [(1, 0x501502F9)] 3 = some 0x7FFFFFFF ∧
    gives (.cvt .n32 .f32 (some {}) { d := 3, a := 1 }) [(1, 0xC0600000)] 3 = some 0 := by decide +kernel

/-- R206: -2.5 rounds to -2.0 under RNE and to -3.0 under RD. -/
theorem test_frnd : gives (.frnd none { d := 3, a := 1 }) [(1, 0xC0200000)] 3 = some 0xC0000000 ∧
    gives (.frnd (some { rm := 4 }) { d := 3, a := 1 }) [(1, 0xC0200000)] 3 = some 0xC0400000 := by decide +kernel

/-- R190: division by zero, and the most negative number by -1. -/
theorem test_idiv_corners : gives (.idiv .s32 { d := 3, a := 1, b := 2 }) [(1, 0xFFFFFFFB)] 3 = some 0x80000000 ∧
    gives (.irem .s32 { d := 3, a := 1, b := 2 }) [(1, 0xFFFFFFFB)] 3 = some 0xFFFFFFFB ∧
    gives (.idiv .s32 { d := 3, a := 1, b := 2 }) [(1, 0x80000000), (2, 0xFFFFFFFF)] 3 = some 0x80000000 ∧
    gives (.idiv .s32 { d := 3, a := 1, b := 2 }) [(1, 0xFFFFFFF9), (2, 2)] 3 = some 0xFFFFFFFD := by decide +kernel

/-- R202: 1.5 + 2.25; the product of 2^-75 and itself underflows to the even zero of 2^-150. -/
theorem test_fadd_fmul : gives (.fadd none { d := 3, a := 1, b := 2 }) [(1, 0x3FC00000), (2, 0x40100000)] 3 = some 0x40700000 ∧
    gives (.fmul none { d := 3, a := 1, b := 1 }) [(1, 0x1A000000)] 3 = some 0 := by decide +kernel

/-- R183: 448 splits into 224 exactly; 9 * 2^-9 into 4 * 2^-9. -/
theorem test_halved : halved 2 1 0x7E = 0x76 ∧ halved 2 1 0x08 = 0x04 ∧ halved 2 2 0x09 = 0x04 := by decide +kernel

/-! ## Switch markers and the decode checks at issue -/

/-- After reset, a word at the pc of a warp of the first `n` threads, in a block changed by `f`. -/
def wordS (w n : Nat) (f : Block → Block) : State :=
  let s := State.reset.withFetchWord 32 w
  { s with
    blocks := s.blocks.map f
    warps := s.warps.map fun x => { x with lanes := (List.range 32).map fun i => if i < n then some i else none, fresh := false } }
def wordF (w n : Nat) (f : Block → Block) : State :=
  (({ (wordS w n f).tick with agenda := [] } : State).fetchBlock 0 (freshBlock 0).asker 0 0).1
def wordW (n : Nat) : Warp :=
  { core := 0, slot := 0, id := 0, pipe := 0, lanes := (List.range 32).map fun i => if i < n then some i else none
    last := (State.reset.withFetchWord 32 0).now, fresh := false }

theorem word_issues {w n : Nat} {f : Block → Block} (b : Block) (h : let u := { (wordS w n f).tick with agenda := [] }
    (wordS w n f).agenda = [.issue 0 0 0] ∧ u.warpTurn 0 0 0 = true ∧ u.warp? 0 0 0 = some (wordW n) ∧ u.block? 0 0 = some b ∧
    b.asker = (freshBlock 0).asker ∧ b.codebase = 0 ∧
    okOf ((u.fetchBlock 0 (freshBlock 0).asker 0 0).2) = some (w :: List.replicate 15 0, none) ∧
    (wordW n).byTid.head? = some (0, 0) ∧ (b.thread? 0).map (·.pc) = some 0 ∧
    (∀ m ∈ (wordW n).byTid, (b.thread? m.2).isSome = true) ∧ (wordF w n f).block? 0 0 = some b ∧
    ∀ t ∈ b.threads, t.badRegs = []) : Issues (wordS w n f) (wordF w n f) (wordW n) b 0 w 0 false := by
  obtain ⟨h1, h2, h3, h4, h5, h6, h7, h8, h9, hA, hB, hC⟩ := h
  obtain ⟨t, e, p⟩ := Option.map_eq_some_iff.1 h9
  refine ⟨⟨[], h1, h2, h3, h4, w :: List.replicate 15 0, ?_, rfl, rfl, by decide⟩, ⟨(0, 0), t, h8, e, p⟩,
    fun m hm => Option.isSome_iff_exists.1 (hA m hm), hB, rfl, hC⟩
  rw [h5, h6]
  exact Prod.ext rfl (ofOk h7)

/-- An `ADDI` with the switch marker in a warp of two; one in a full warp, where a result waits that cannot land yet. -/
theorem witness_switch_markers (h : Rules.SwitchMarkers) :
    let d := fun (b : Block) => { b with threads := b.threads.map fun t => { t with pend := [.obrdDue 3] } }
    (∃ x : State, step (wordS 0x91060C01 2 id) = .next x.trim ∧ (x.thread? 0 0 1).map (·.cond) = some (.pool (wordF 0x91060C01 2 id).now false)) ∧
    ∃ x, step (wordS 0x91060C01 32 d) = .next x := by
  intro d
  have q := (h _ _ _ _ _ _ _ _ (word_issues (w := 0x91060C01) (n := 2) (f := id) (freshBlock 0) (by decide +kernel)) (by decide)).1 rfl (by decide)
  obtain ⟨x, e, -, -, g⟩ := q
  refine ⟨⟨x, e, ?_⟩, _, (h _ _ _ _ _ _ _ _ (word_issues (w := 0x91060C01) (n := 32) (f := d) (d (freshBlock 0)) (by decide +kernel))
    (by decide)).2 (.inr (by decide)) ⟨(0, 0), by decide, by decide +kernel⟩⟩
  have k := g (1, 1) (by decide) (freshThread 1 128 0 true .cast) (by decide +kernel)
  exact congrArg _ k

/-- The members of a warp that pass the checks, and the others, where `k` says which registers lie in their allocations. -/
theorem parted (i : Instr) (n : Nat) (b : Block) (k : Nat × Nat → Bool) (hb : ∀ l, badBase i l = false)
    (h : ∀ m ∈ (wordW n).byTid, (b.thread? m.2).map (·.holds i b.nregs) = some (k m)) :
    let ms := (wordW n).byTid
    let holds := fun (m : Nat × Nat) => ∃ t, b.thread? m.2 = some t ∧ t.holds i b.nregs = true
    let passes := fun (m : Nat × Nat) => holds m ∧ ((∀ k ∈ ms, holds k) ∨
      ∃ t, b.thread? m.2 = some t ∧ badBase i { lane := m.1, t := t, b := b, cyc := 0 } = false)
    (∀ m, m ∈ ms.filter k ↔ m ∈ ms ∧ passes m) ∧ (∀ m, m ∈ ms.filter (fun m => !k m) ↔ m ∈ ms ∧ ¬passes m) ∧
    (ms.filter k).Sublist ms ∧ (ms.filter fun m => !k m).Sublist ms := by
  intro ms holds passes
  have key : ∀ m ∈ ms, (k m = true ↔ passes m) := by
    intro m hm
    obtain ⟨t, e, p⟩ := Option.map_eq_some_iff.1 (h m hm)
    refine ⟨fun hk => ⟨⟨t, e, p.trans hk⟩, .inr ⟨t, e, hb _⟩⟩, ?_⟩
    rintro ⟨⟨u, f, q⟩, -⟩
    rw [e] at f
    cases f
    exact p.symm.trans q
  refine ⟨fun m => ?_, fun m => ?_, List.filter_sublist, List.filter_sublist⟩ <;> rw [List.mem_filter] <;> refine and_congr_right fun hm => ?_
  · exact key m hm
  · rw [← key m hm, Bool.not_eq_true', Bool.not_eq_true]

/-- An undefined word; a `BADD` beyond `.barriers`; in a warp of two a `SHFL`; in a full one, with thread 1's window at the end of its
allocation, a `SHFL`, an `OBRD` and an `ADDI`. -/
theorem witness_decode_traps (h : Rules.DecodeTraps) :
    let f := fun (b : Block) => { b with bars := 8 }
    let g := fun (b : Block) => { b with threads := b.threads.map fun t => if t.tid = 1 then { t with wb := 120 } else t }
    let word := fun (i : Instr) => (encode i).headD 0
    let steps := fun s => ∃ x : State, step s = .next x.trim
    steps (wordS 0x0C000000 32 id) ∧ steps (wordS (word (.badd none { d := 8 })) 32 f) ∧
    steps (wordS (word (.shfl .up { d := 3, a := 1, b := 2 })) 2 id) ∧
    steps (wordS (word (.shfl .up { d := 3, a := 1, b := 9 })) 32 g) ∧
    steps (wordS (word (.obrd .b32 { d := 8, a := 9 })) 32 g) ∧
    ∃ u, TrapsTaken (issuesFrom (wordF (word (.addi none { d := 9, a := 3, imm := 1 })) 32 g) (wordW 32) (word (.addi none { d := 9, a := 3, imm := 1 })) 0 false)
      u 0 0 0 false [(1, 1, { cls := 2, cause := 5 })] := by
  intro f g word steps
  have q := fun w n F b hi hm hv => h _ _ _ _ b _ _ _ _ (word_issues (w := w) (n := n) (f := F) b hi) hm hv
  refine ⟨?_, ?_, ?_, ?_, ?_, ?_⟩
  · obtain ⟨x, _, _, e, _⟩ := (q 0x0C000000 32 id (freshBlock 0) (by decide +kernel) (fun hm => absurd hm (by decide)) (by decide +kernel)).1
      .unassigned (ofErr (by decide +kernel))
    exact ⟨x, e⟩
  · obtain ⟨x, _, _, e, _⟩ := ((q (word (.badd none { d := 8 })) 32 f (f (freshBlock 0)) (by decide +kernel) (fun hm => absurd hm (by decide)) (by decide +kernel)).2
      (.badd none { d := 8 }) 1 (ofOk (by decide +kernel))).1 (by decide)
    exact ⟨x, e⟩
  · have p := parted (.shfl .up { d := 3, a := 1, b := 2 }) 2 (freshBlock 0) (fun _ => true) (fun _ => rfl) (by decide)
    obtain ⟨x, _, _, e, _⟩ := (((q (word (.shfl .up { d := 3, a := 1, b := 2 })) 2 id (freshBlock 0) (by decide +kernel) (fun hm => absurd hm (by decide)) (by decide +kernel)).2
      (.shfl .up { d := 3, a := 1, b := 2 }) 1 (ofOk (by decide +kernel))).2 (by decide) _ _ p.1 p.2.1 p.2.2.1 p.2.2.2).1 (by decide) (by decide)
    exact ⟨x, e⟩
  · have p := parted (.shfl .up { d := 3, a := 1, b := 9 }) 32 (g (freshBlock 0)) (fun m => m.1 != 1) (fun _ => rfl) (by decide)
    obtain ⟨_, x, _, e, _⟩ := (((q (word (.shfl .up { d := 3, a := 1, b := 9 })) 32 g (g (freshBlock 0)) (by decide +kernel) (fun hm => absurd hm (by decide)) (by decide +kernel)).2
      (.shfl .up { d := 3, a := 1, b := 9 }) 1 (ofOk (by decide +kernel))).2 (by decide) _ _ p.1 p.2.1 p.2.2.1 p.2.2.2).2.2.1 (by decide) (by decide) (by decide) (by decide)
    exact ⟨x, e⟩
  · have p := parted (.obrd .b32 { d := 8, a := 9 }) 32 (g (freshBlock 0)) (fun m => m.1 != 1) (fun _ => rfl) (by decide)
    obtain ⟨x, _, _, e, _⟩ := (((q (word (.obrd .b32 { d := 8, a := 9 })) 32 g (g (freshBlock 0)) (by decide +kernel) (fun hm => absurd hm (by decide)) (by decide +kernel)).2
      (.obrd .b32 { d := 8, a := 9 }) 1 (ofOk (by decide +kernel))).2 (by decide) _ _ p.1 p.2.1 p.2.2.1 p.2.2.2).2.1 (by decide) (by decide) (by decide) (by decide)
    exact ⟨x, e⟩
  · have p := parted (.addi none { d := 9, a := 3, imm := 1 }) 32 (g (freshBlock 0)) (fun m => m.1 != 1) (fun _ => rfl) (by decide)
    exact ((((q (word (.addi none { d := 9, a := 3, imm := 1 })) 32 g (g (freshBlock 0)) (by decide +kernel) (fun hm => absurd hm (by decide)) (by decide +kernel)).2
      (.addi none { d := 9, a := 3, imm := 1 }) 1 (ofOk (by decide +kernel))).2 (by decide) _ _ p.1 p.2.1 p.2.2.1 p.2.2.2).2.2.2 (by decide) (by decide)).imp fun _ q => q.1

/-! ## Quad meetings, the approximate functions -/

/-- Threads 0 and 1 execute and thread 2 is parked elsewhere: they park. With threads 2 and 3 parked there, the quad enters the
pool. -/
theorem witness_quad_meeting (h : Rules.QuadsMeet) :
    let p := fun (u : Thread) => { u with cond := .wings .quad }
    let b := blk [th 0, th 1, p { th 2 with pc := 0x200 }]
    let c := blk [th 0, th 1, p (th 2), p (th 3)]
    (∃ t, exec (.qbcst 3 { d := 2, a := 1 }) (mac b both) = .next t ∧ t.thread? 0 0 0 = some (p (th 0))) ∧
    ∃ t, exec (.qred .addN32 none { d := 2, a := 1 }) (mac c both) = .next t ∧
      t.thread? 0 0 0 = some { th 0 with cond := .pool 0 false, quadUnit := true } := by
  intro p b c
  obtain ⟨t, e, -, -, -, f, -⟩ := (h (mac b both) (atPc both) b .x1 3 .addN32 none { d := 2, a := 1 }
    ⟨rfl, rfl, by decide, by decide, by decide, by decide⟩ (by unfold Standing; decide) (by decide) (by unfold Thread.idle; decide)).2.1 (by decide)
  obtain ⟨u, eu, gu⟩ := (f ((mac b both).lanes.head (by decide)) (List.head_mem _) (by decide)).1
  obtain ⟨t2, e2, -, -, -, f2, -⟩ := (h (mac c both) (atPc both) c .x1 3 .addN32 none { d := 2, a := 1 }
    ⟨rfl, rfl, by decide, by decide, by decide, by decide⟩ (by unfold Standing; decide) (by decide) (by unfold Thread.idle; decide)).2.2
  obtain ⟨v, ev, gv⟩ := (f2 ((mac c both).lanes.head (by decide)) (List.head_mem _) (by decide)).1
  exact ⟨⟨t, e, eu.trans (congrArg some (gu.2 (by decide)))⟩, t2, e2, ev.trans (congrArg some (gv.1 (by decide)))⟩

/-- A signed byte to an unsigned word and a word to a signed pair: exact integers. -/
theorem witness_integer_conversions (h : Rules.Conversions) :
    (∃ t, exec (.cvt .n8 .s32 none { d := 3, a := 1 }) (mac two both) = .next t) ∧
    ∃ t, exec (.cvt .s64 .n32 (some { sat := true }) { d := 6, a := 2 }) (mac two both) = .next t :=
  ⟨((h .n8 .s32 none { d := 3, a := 1 } .n4 .f32).1 false 8 true 32 rfl rfl _ _ _ witness_runs).imp fun _ q => q.1,
   ((h .s64 .n32 (some { sat := true }) { d := 6, a := 2 } .n4 .f32).1 true 64 false 32 rfl rfl _ _ _ witness_runs).imp fun _ q => q.1⟩

/-- The values of 3.0, 4.0 and 1.0. -/
theorem value_three : f32.val 0x40400000 = .fin false 0xC00000 (-22) ∧ (f32.val 0x40400000).rat = 3 := by decide +kernel
theorem value_four : f32.val 0x40800000 = .fin false 0x800000 (-21) ∧ (f32.val 0x40800000).rat = 4 := by decide +kernel
theorem value_half : f32.val 0x3F000000 = .fin false 0x800000 (-24) ∧ (f32.val 0x3F000000).rat = 1 / 2 := by decide +kernel

theorem two_pow (n : Nat) : (2 : Rat) ^ n = ((2 ^ n : Nat) : Rat) := by
  induction n with
  | zero => rfl
  | succ n ih => rw [Rat.pow_succ, ih, Nat.pow_succ]; exact (Rat.natCast_mul ..).symm
/-- No power of two is 3. -/
theorem no_power (j : Int) : (3 : Rat) ≠ 2 ^ j := by
  obtain ⟨n, rfl | rfl⟩ := j.eq_nat_or_neg
  · rw [Rat.zpow_natCast, two_pow]
    intro h
    have : (3 : Nat) = 2 ^ n := Rat.natCast_inj.1 h
    cases n <;> omega
  · rw [Rat.zpow_neg, Rat.zpow_natCast, two_pow]
    intro h
    have p : ((2 ^ n : Nat) : Rat) ≠ 0 := fun e => absurd (Rat.natCast_inj.1 e) (Nat.pos_iff_ne_zero.1 (Nat.two_pow_pos n))
    have q : ((3 * 2 ^ n : Nat) : Rat) = (1 : Nat) := by
      rw [Rat.natCast_mul]; show (3 : Rat) * _ = 1; rw [h]; exact Rat.inv_mul_cancel _ p
    have := Rat.natCast_inj.1 q
    omega

/-- An exact reciprocal, root, power, logarithm; ones that are not; an angle. -/
theorem witness_approximate_bounds (h : Rules.ApproximateBounds) :
    (rcpOf 0x40800000).2 = {} ∧ (rsqOf 0x40800000).2 = {} ∧ (exp2Of 0x40400000).2 = {} ∧ (log2Of 0x40800000).2 = {} ∧
    (rcpOf 0x40400000).2.nx = true ∧ (rsqOf 0x40400000).2.nx = true ∧ (exp2Of 0x3F000000).2.nx = true ∧
    (log2Of 0x40400000).2.nx = true ∧ (trigOf 0x40400000 0).2.nx = true := by
  have q3 := h 0x40400000 (by decide) _ _ _ value_three.1 (by decide)
  have q4 := h 0x40800000 (by decide) _ _ _ value_four.1 (by decide)
  have qh := h 0x3F000000 (by decide) _ _ _ value_half.1 (by decide)
  simp only [value_three.2] at q3
  simp only [value_four.2] at q4
  simp only [value_half.2] at qh
  refine ⟨(q4.1.1 ⟨2, by decide, by decide, by decide +kernel⟩).2, (q4.2.1 (by decide +kernel)).1 1 (by decide +kernel) |>.2,
    ((q3.2.2.1 (by decide +kernel) (by decide +kernel)).1 3 (by decide +kernel) (by decide) (by decide)).2,
    ((q4.2.2.2.1 (by decide +kernel)).1 2 (by decide +kernel)).2, ?_, ?_, ?_, ?_,
    (q3.2.2.2.2 (by decide +kernel) (by decide +kernel) 0 (by decide)).1⟩
  · exact (q3.1.2 (fun ⟨j, _, _, c⟩ => c.elim (no_power j) fun c => by
      have p : (0 : Rat) ≤ 2 ^ j := Rat.zpow_nonneg (by decide)
      rw [← c] at p
      exact absurd p (by decide +kernel)) (-2) (by unfold Binade; decide +kernel)).1
  · exact ((q3.2.1 (by decide +kernel)).2 (fun j => no_power _) (-1) (by decide +kernel) (by decide +kernel)).1
  · exact ((qh.2.2.1 (by decide +kernel) (by decide +kernel)).2 0 (2 ^ 511) (by decide +kernel) (by decide +kernel) (by decide +kernel)).1
  · exact ((q3.2.2.2.1 (by decide +kernel)).2 (fun i => no_power i) 1 (3 * 2 ^ 511) (by decide +kernel) (by decide +kernel) (by decide +kernel)).1

/-- A NaN; a negative root and logarithm; powers at the ends; an angle just beyond the range. -/
theorem witness_approximate_specials (h : Rules.ApproximateSpecials) :
    rcpOf 0xFFFFFFFF = (0x7FC00000, {}) ∧ rsqOf 0xBF800000 = (0x7FC00000, { nv := true }) ∧
    exp2Of 0x43000000 = (0x7F800000, { of := true, nx := true }) ∧ exp2Of 0xC3160000 = (0, { uf := true, nx := true }) ∧
    trigOf 0x48000001 1 = (0x7FC00000, { nv := true }) := by
  have q := h.2.2.2.2.2.2.2.2.2.2.2.2.2.2.2.2.2.2.2.2
  exact ⟨h.1 0xFFFFFFFF (by decide) (by decide +kernel) _ List.mem_cons_self,
    ((q 0xBF800000 (by decide) true 0x800000 (-23) (by decide +kernel) (by decide)).1 (by decide +kernel)).1,
    (q 0x43000000 (by decide) false 0x800000 (-16) (by decide +kernel) (by decide)).2.1 (by decide +kernel),
    (q 0xC3160000 (by decide) true 0x960000 (-16) (by decide +kernel) (by decide)).2.2.1 (by decide +kernel),
    (q 0x48000001 (by decide) false 0x800001 (-6) (by decide +kernel) (by decide)).2.2.2 (.inl (by decide +kernel)) 1 (by decide)⟩

end Sys2Proof.Tests
end

section
/-!
Branches and `EXIT` (O11): the executing lanes by TID, what a branch does to them, what a quad meeting leaves alone.
-/
namespace Sys2Proof.Machine

/-! ## The executing lanes by TID -/

/-- The lanes of an instruction carry the TIDs that execute it, in their order. -/
theorem Runs.lanes_tids {s : State} {c : Cur} {b : Block} (h : Runs s c b) :
    s.lanes.map (·.t.tid) = c.act.map (·.2) := by
  have hthere := h.there
  simp only [State.lanes, h.cur, h.block]
  generalize c.act = act at hthere ⊢
  induction act with
  | nil => rfl
  | cons m r ih =>
    obtain ⟨t, ht⟩ := Option.isSome_iff_exists.mp (hthere m (by simp))
    simp [ht, Block.thread?_tid ht, ih fun k hk => hthere k (by simp [hk])]

theorem Runs.thread?_lane {s : State} {c : Cur} {b : Block} (h : Runs s c b) {l : LaneCtx} (hl : l ∈ s.lanes) :
    s.thread? c.core c.slot l.t.tid = some l.t := by
  simp [State.thread?, h.block, (h.lane hl).2.1]

/-- A thread that executes is that of a lane. -/
theorem Runs.exists_lane {s : State} {c : Cur} {b : Block} (h : Runs s c b) {tid : Nat} (ht : tid ∈ c.act.map (·.2)) :
    ∃ l ∈ s.lanes, l.t.tid = tid := by
  rw [← h.lanes_tids] at ht
  exact List.mem_map.mp ht

/-- The executing threads are idle where the lanes are. -/
theorem Runs.idle_of_tid {s : State} {c : Cur} {b : Block} (h : Runs s c b) (hi : ∀ l ∈ s.lanes, l.t.idle) :
    ∀ tid ∈ c.act.map (·.2), ∀ t, s.thread? c.core c.slot tid = some t → t.idle := by
  intro tid ht t hx
  obtain ⟨l, hl, rfl⟩ := h.exists_lane ht
  rw [h.thread?_lane hl] at hx
  cases hx
  exact hi l hl

/-- No two lanes hold one thread. -/
theorem Runs.lane_ext {s : State} {c : Cur} {b : Block} (h : Runs s c b) {k l : LaneCtx} (hk : k ∈ s.lanes)
    (hl : l ∈ s.lanes) (he : k.t.tid = l.t.tid) : k = l := by
  obtain ⟨hkact, hkthread, hksee⟩ := h.lane hk
  obtain ⟨hlact, hlthread, hlsee⟩ := h.lane hl
  rw [he] at hkact hkthread
  have ht : k.t = l.t := Option.some.inj (hkthread.symm.trans hlthread)
  have hact : some (k.lane, l.t.tid) = some (l.lane, l.t.tid) :=
    (find_act h.once hkact).symm.trans (find_act h.once hlact)
  have hlane : k.lane = l.lane := congrArg Prod.fst (Option.some.inj hact)
  rw [hksee, hlsee, ht, hlane]

theorem Runs.find_lane {s : State} {c : Cur} {b : Block} (h : Runs s c b) {l : LaneCtx} (hl : l ∈ s.lanes) :
    s.lanes.find? (fun k => k.t.tid == l.t.tid) = some l := by
  cases hf : s.lanes.find? (fun k => k.t.tid == l.t.tid) with
  | none => exact absurd (List.find?_eq_none.mp hf l hl) (by simp)
  | some k =>
    have hk : k.t.tid = l.t.tid := by simpa using List.find?_some hf
    rw [h.lane_ext (List.mem_of_find?_eq_some hf) hl hk]

theorem Runs.find_lane_none {s : State} {c : Cur} {b : Block} (h : Runs s c b) {tid : Nat} (ht : tid ∉ c.act.map (·.2)) :
    s.lanes.find? (fun k => k.t.tid == tid) = none := by
  rw [← h.lanes_tids] at ht
  exact List.find?_eq_none.mpr fun l hl he => ht (List.mem_map.mpr ⟨l, hl, by simpa using he⟩)

/-! ## What a branch does -/

/-- A thread of the block once the executing lanes have become what `f` says. -/
def onLanes (ls : List LaneCtx) (f : LaneCtx → Thread) (t : Thread) : Thread :=
  match ls.find? fun l => l.t.tid == t.tid with
  | some l => f l
  | none => t

theorem onLanes_tid (ls : List LaneCtx) (f : LaneCtx → Thread) (hf : ∀ l, (f l).tid = l.t.tid) (t : Thread) :
    (onLanes ls f t).tid = t.tid := by
  unfold onLanes
  split
  · next l hl => simpa [hf] using List.find?_some hl
  · rfl

theorem Runs.onLanes_lane {s : State} {c : Cur} {b : Block} (h : Runs s c b) {l : LaneCtx} (hl : l ∈ s.lanes)
    (f : LaneCtx → Thread) : onLanes s.lanes f l.t = f l := by
  simp [onLanes, h.find_lane hl]

theorem Runs.onLanes_other {s : State} {c : Cur} {b : Block} (h : Runs s c b) {t : Thread}
    (ht : t.tid ∉ c.act.map (·.2)) (f : LaneCtx → Thread) : onLanes s.lanes f t = t := by
  simp [onLanes, h.find_lane_none ht]

/-- The state once the executing threads have become what `f` says. -/
def State.setLanes (s : State) (c : Cur) (f : LaneCtx → Thread) : State :=
  s.modBlock c.core c.slot fun b => { b with threads := b.threads.map (onLanes s.lanes f) }

theorem State.setLanes_changes (s : State) (c : Cur) {f : LaneCtx → Thread} (hf : ∀ l, (f l).tid = l.t.tid) :
    Changes s (s.setLanes c f) c.core c.slot fun _ => onLanes s.lanes f :=
  s.mapBlock_changes c.core c.slot _ (onLanes_tid _ _ hf)

theorem Runs.setLanes_lane {s : State} {c : Cur} {b : Block} (h : Runs s c b) {f : LaneCtx → Thread}
    (hf : ∀ l, (f l).tid = l.t.tid) {l : LaneCtx} (hl : l ∈ s.lanes) :
    (s.setLanes c f).thread? c.core c.slot l.t.tid = some (f l) := by
  rw [(s.setLanes_changes c hf).thread?, h.thread?_lane hl, Option.map_some, h.onLanes_lane hl]

/-- Idle threads enter the pool with nothing else of them changed. -/
theorem State.toPool_idle (s : State) (core slot : Nat) (tids : List Nat)
    (h : ∀ tid ∈ tids, ∀ t, s.thread? core slot tid = some t → t.idle) :
    Changes s (s.toPool core slot tids) core slot
        (fun n t => if n ∈ tids then { t with cond := .pool s.now false } else t) ∧
      (s.toPool core slot tids).warps = (s.takeOut core slot tids).warps :=
  s.leave_idle core slot tids s.poolNow h

/-- Where a lane goes at a branch (R315). -/
def Cur.branchPc (c : Cur) (n : Bool) (p : Nat) (target : LaneCtx → Word) (l : LaneCtx) : Word :=
  if l.t.guard n p then target l else c.nextPc

/-- What a branch makes of a lane's thread: its link where it takes a call (R39), and its pc. -/
def Cur.branchThread (c : Cur) (n : Bool) (p : Nat) (target : LaneCtx → Word) (call : Bool) (l : LaneCtx) : Thread :=
  { withRegs l.t 119 (if call && l.t.guard n p then [linkOf c.pc c.len] else []) 0 with pc := c.branchPc n p target l }

theorem Cur.branchThread_tid (c : Cur) (n : Bool) (p : Nat) (target : LaneCtx → Word) (call : Bool) (l : LaneCtx) :
    (c.branchThread n p target call l).tid = l.t.tid := rfl

/-- Whether all lanes of a list go to one place. -/
def agreeOn (goes : LaneCtx → Word) : List LaneCtx → Bool
  | [] => true
  | l :: r => r.all fun m => goes m == goes l

theorem agreeOn_iff (goes : LaneCtx → Word) (ls : List LaneCtx) :
    agreeOn goes ls = true ↔ ∀ l ∈ ls, ∀ m ∈ ls, goes l = goes m := by
  cases ls with
  | nil => simp [agreeOn]
  | cons a r =>
    simp only [agreeOn, List.all_eq_true, beq_iff_eq]
    constructor
    · intro ha
      have hall : ∀ l ∈ a :: r, goes l = goes a := by simpa using ha
      exact fun l hl m hm => (hall l hl).trans (hall m hm).symm
    · exact fun ha m hm => ha m (by simp [hm]) a (by simp)

/-- The register write of a link, in the form of the statements. -/
theorem setX_link_eq (t : Thread) (take : Bool) (v pc : Word) :
    { (if take then t.setX 119 v else t) with pc := pc } =
      { withRegs t 119 (if take then [v] else []) 0 with pc := pc } := by
  cases take <;> simp [Thread.setX_eq, putRegs]

/-- No trap is taken of no thread. -/
theorem State.trapLanes_nil (s : State) : s.trapLanes [] = s := by
  unfold State.trapLanes
  cases s.cur with
  | none => rfl
  | some c => rfl

/-- Nobody traps: the executing threads branch, and leave their warp for the pool with the hint or without agreement. -/
theorem State.branch_aligned {s : State} {c : Cur} (hc : s.cur = some c) (h n : Bool) (p : Nat) (target : LaneCtx → Word)
    (call : Bool) (ha : ∀ l ∈ s.lanes, l.t.guard n p = true → (target l).toNat % 64 = 0) :
    s.branch h n p target call =
      if h || !agreeOn (c.branchPc n p target) s.lanes then
        (s.setLanes c (c.branchThread n p target call)).toPool c.core c.slot (s.lanes.map fun l => l.t.tid)
      else s.setLanes c (c.branchThread n p target call) := by
  have hbad : ∀ l ∈ s.lanes, (l.t.guard n p && (target l).toNat % 64 != 0) = false := by
    intro l hl
    cases hg : l.t.guard n p with
    | false => rfl
    | true => simp [ha l hl hg]
  have hok : (s.lanes.filter fun l => !(l.t.guard n p && (target l).toNat % 64 != 0)) = s.lanes :=
    List.filter_eq_self.mpr fun l hl => by simp [hbad l hl]
  have hno : (s.lanes.filter fun l => l.t.guard n p && (target l).toNat % 64 != 0) = [] :=
    List.filter_eq_nil_iff.mpr fun l hl => by simp [hbad l hl]
  have hstep : c.branchThread n p target call = fun l =>
      { (if call && l.t.guard n p then l.t.setX 119 (linkOf c.pc c.len) else l.t) with pc := c.branchPc n p target l } :=
    funext fun l => (setX_link_eq l.t _ _ _).symm
  rw [State.branch, hc]
  simp only [hok, hno, List.map_nil, State.trapLanes_nil, hstep]
  rfl

/-- An instruction whose meaning is a branch branches. -/
theorem branches_of {i : Instr} {h n : Bool} {p : Nat} {call : Bool} {target : Cur → LaneCtx → Word}
    (hx : ∀ s c, s.cur = some c → exec i s = .next (s.branch h n p (target c) call)) : Branches i h n p call target := by
  intro s c b hr ha
  have hs := s.setLanes_changes c (c.branchThread_tid n p (target c) call)
  have hlane : ∀ l ∈ s.lanes, (s.setLanes c (c.branchThread n p (target c) call)).thread? c.core c.slot l.t.tid =
      some (c.branchThread n p (target c) call l) := fun l hl =>
    hr.setLanes_lane (c.branchThread_tid n p (target c) call) hl
  have hother : ∀ tid x, tid ∉ c.act.map (·.2) → b.thread? tid = some x →
      onLanes s.lanes (c.branchThread n p (target c) call) x = x :=
    fun tid x hn hb => hr.onLanes_other (by rwa [Block.thread?_tid hb]) _
  have hagree := agreeOn_iff (c.branchPc n p (target c)) s.lanes
  refine ⟨fun ⟨hh, hall⟩ => ⟨_, hx s c hr.cur, ?_⟩, fun hpart hidle => ⟨_, hx s c hr.cur, ?_⟩⟩
  · rw [State.branch_aligned hr.cur h n p _ call ha, if_neg (by simp [hh, hagree.mpr hall])]
    exact ⟨hs.onlyThreads rfl hr.block hother, hlane⟩
  · have hcond : (h || !agreeOn (c.branchPc n p (target c)) s.lanes) = true := by
      rcases hpart with rfl | ⟨l, hl, m, hm, hne⟩
      · rfl
      · simp only [Bool.or_eq_true, Bool.not_eq_true', ← Bool.not_eq_true, hagree]
        exact .inr fun hall => hne (hall l hl m hm)
    rw [State.branch_aligned hr.cur h n p _ call ha, if_pos hcond]
    obtain ⟨hpool, hwarps⟩ := State.toPool_idle (s.setLanes c (c.branchThread n p (target c) call)) c.core c.slot
      (s.lanes.map fun l => l.t.tid) (by
        intro tid ht t hthread
        obtain ⟨l, hl, rfl⟩ := List.mem_map.mp ht
        rw [hlane l hl] at hthread
        cases hthread
        exact hidle l hl)
    refine ⟨(hs.trans hpool).onlyLeaves hwarps rfl hr.block fun tid x hn hb => ?_, fun l hl => ?_⟩
    · simp only [hr.lanes_tids, hn, if_false]
      exact hother tid x hn hb
    · rw [hpool.thread?, hlane l hl, Option.map_some, if_pos (List.mem_map_of_mem hl)]
      rfl

/-! ## The five branches -/

/-- R38, R39, R315, R316. -/
theorem branchesGoToTheirTargets : Rules.BranchesGoToTheirTargets := fun _ _ =>
  ⟨branches_of fun _ _ hc => by simp only [exec, execBra, hc, directTarget, sextN],
    branches_of fun _ _ _ => rfl,
    branches_of fun _ _ hc => by simp only [exec, execCall, hc, directTarget, sextN],
    branches_of fun _ _ _ => rfl,
    branches_of fun _ _ _ => rfl⟩

/-- R38: both summands of a direct target are multiples of 64, and so is 2^32. -/
theorem directTargetsAreAligned : Rules.DirectTargetsAreAligned := by
  intro pc off
  have hblock : (pc &&& 0xFFFFFFC0).toNat % 64 = 0 := by
    rw [BitVec.toNat_and, show (64 : Nat) = 2 ^ 6 from rfl, Nat.and_mod_two_pow]
    exact Nat.and_zero _
  have hoff : (BitVec.ofInt 32 (sextN 19 off * 64)).toNat % 64 = 0 := by
    rw [BitVec.toNat_ofInt]
    omega
  rw [directTarget, BitVec.toNat_add]
  omega

/-! ## `EXIT` -/

/-- Examining the quads of a block changes no thread but those parked for a quad meeting (R217). -/
theorem State.meetQuads_changes {s : State} {core slot : Nat} {b : Block} (hb : s.block? core slot = some b) :
    ∃ g, Changes s (s.meetQuads core slot) core slot g ∧ ∀ tid t, t.cond ≠ .wings .quad → g tid t = t := by
  refine ⟨_, s.modBlock_changes core slot _ ?_ b hb, ?_⟩
  · intro b t
    dsimp only
    split <;> rfl
  · intro _ t ht
    simp [ht]

/-- R319, R44. -/
theorem exitEndsThreads : Rules.ExitEndsThreads := by
  intro mark low s c b hr hidle
  obtain ⟨hleave, hwarps⟩ := State.leave_idle s c.core c.slot (c.act.map (·.2)) .exited (hr.idle_of_tid hidle)
  obtain ⟨b', hb', _⟩ := hleave.here b hr.block
  obtain ⟨g, hquads, hkeep⟩ := State.meetQuads_changes hb'
  have hall := hleave.trans hquads
  refine ⟨(s.leave c.core c.slot (c.act.map (·.2)) .exited).meetQuads c.core c.slot, by simp only [exec, execExit, hr.cur],
    hall.rest, hall.others, fun l hl => ?_, ?_, fun u hu hn hq => ?_⟩
  · have hm : l.t.tid ∈ c.act.map (·.2) := List.mem_map_of_mem (hr.lane hl).1
    rw [hall.thread?, hr.thread?_lane hl, Option.map_some, if_pos hm, hkeep _ _ (by simp)]
  · intro w hw hcore hslot l hl
    have hout := (s.takeOut_warps c.core c.slot (c.act.map (·.2))).1
    rw [← hwarps] at hout
    exact hout w hw hcore hslot _ (List.mem_map_of_mem (hr.lane hl).1)
  · have hx : s.thread? c.core c.slot u.tid = some u := by simp [State.thread?, hr.block, hu]
    rw [hall.thread?, hx, Option.map_some, if_neg hn, hkeep _ _ hq]

/-- Settles O11: each branch is `State.branch`, whose threads go to their targets together or through the pool, and
`EXIT` is a departure that a quad meeting follows. -/
theorem branchesAndExit : Obligations.BranchesAndExit :=
  ⟨branchesGoToTheirTargets, directTargetsAreAligned, exitEndsThreads⟩

end Sys2Proof.Machine
end

section
/-!
What the operations on memory do to blocks and threads: a write may fire the waiters of its words, an access first
completes maintenance of its thread (R115, R135), and nothing else of a thread changes.
-/
namespace Sys2Proof.Machine

/-! ## States that keep their blocks and relate their threads -/

/-- Every block of a state is there in another, with every field but its threads, and each thread is related to what it
was. -/
structure Keeps (R : Thread → Thread → Prop) (s t : State) : Prop where
  block : ∀ {core slot b}, s.block? core slot = some b → ∃ b', t.block? core slot = some b' ∧
    b' = { b with threads := b'.threads }
  thread : ∀ {core slot tid x}, s.thread? core slot tid = some x → ∃ y, t.thread? core slot tid = some y ∧ R x y

theorem Keeps.trans {R S T : Thread → Thread → Prop} (hR : ∀ {x y z}, R x y → S y z → T x z) {s t u : State}
    (hst : Keeps R s t) (htu : Keeps S t u) : Keeps T s u where
  block hb := by
    obtain ⟨b', hb', he⟩ := hst.block hb
    obtain ⟨b'', hb'', he'⟩ := htu.block hb'
    exact ⟨b'', hb'', by rw [he', he]⟩
  thread hx := by
    obtain ⟨y, hy, hxy⟩ := hst.thread hx
    obtain ⟨z, hz, hyz⟩ := htu.thread hy
    exact ⟨z, hz, hR hxy hyz⟩

theorem Keeps.mono {R S : Thread → Thread → Prop} (hRS : ∀ {x y}, R x y → S x y) {s t : State} (h : Keeps R s t) :
    Keeps S s t where
  block := h.block
  thread hx := by
    obtain ⟨y, hy, hxy⟩ := h.thread hx
    exact ⟨y, hy, hRS hxy⟩

theorem State.block?_congr {s t : State} (h : t.blocks = s.blocks) : t.block? = s.block? := by
  unfold State.block?
  rw [h]

theorem State.thread?_congr {s t : State} (h : t.blocks = s.blocks) : t.thread? = s.thread? := by
  unfold State.thread?
  rw [State.block?_congr h]

/-- Of the threads, only some that wait on words change: a write may fire them (R293, R294). -/
def OnlyWaiters : State → State → Prop := Keeps fun x y => x.onWord = false → y = x

/-- Of the threads, only some that wait on words change, and some complete maintenance that is outstanding (R135). -/
def OnlyMaint : State → State → Prop :=
  Keeps fun x y => x.onWord = false → y = { x with maint := y.maint } ∧ (x.maint = [] → y = x)

theorem OnlyWaiters.of_blocks {s t : State} (h : t.blocks = s.blocks) : OnlyWaiters s t where
  block hb := ⟨_, by rw [State.block?_congr h]; exact hb, rfl⟩
  thread hx := ⟨_, by rw [State.thread?_congr h]; exact hx, fun _ => rfl⟩

theorem OnlyWaiters.refl (s : State) : OnlyWaiters s s := .of_blocks rfl

theorem OnlyWaiters.trans {s t u : State} (h : OnlyWaiters s t) (k : OnlyWaiters t u) : OnlyWaiters s u :=
  Keeps.trans (fun hxy hyz hx => by obtain rfl := hxy hx; exact hyz hx) h k

/-- What stands in between leaves the blocks alone. -/
theorem OnlyWaiters.trans_blocks {s t u : State} (h : OnlyWaiters s t) (k : u.blocks = t.blocks) : OnlyWaiters s u :=
  h.trans (.of_blocks k)

/-- What comes before leaves the blocks alone. -/
theorem OnlyWaiters.after {s t u : State} (k : OnlyWaiters t u) (h : t.blocks = s.blocks) : OnlyWaiters s u :=
  OnlyWaiters.trans (.of_blocks h) k

theorem OnlyWaiters.onlyMaint {s t : State} (h : OnlyWaiters s t) : OnlyMaint s t :=
  Keeps.mono (fun hxy hx => ⟨by rw [hxy hx], fun _ => hxy hx⟩) h

theorem OnlyMaint.refl (s : State) : OnlyMaint s s := (OnlyWaiters.refl s).onlyMaint

theorem OnlyMaint.trans {s t u : State} (h : OnlyMaint s t) (k : OnlyMaint t u) : OnlyMaint s u := by
  refine Keeps.trans (fun {x y z} hxy hyz hx => ?_) h k
  obtain ⟨hy, hnone⟩ := hxy hx
  have hword : y.onWord = false := by rw [hy]; exact hx
  obtain ⟨hz, hnone'⟩ := hyz hword
  refine ⟨by rw [hz, hy], fun hm => ?_⟩
  have hyx := hnone hm
  exact (hnone' (hyx ▸ hm)).trans hyx

/-- A thread that waits on no word, behind an operation that changes only waiters. -/
theorem OnlyWaiters.thread?_eq {s t : State} (h : OnlyWaiters s t) {core slot tid : Nat} {x : Thread}
    (hx : s.thread? core slot tid = some x) (hw : x.onWord = false) : t.thread? core slot tid = some x := by
  obtain ⟨y, hy, hxy⟩ := h.thread hx
  rw [hy, hxy hw]

/-- What each step of a fold keeps, the fold keeps. -/
theorem foldl_related {α : Type} {R : State → State → Prop} (refl : ∀ s, R s s)
    (trans : ∀ {s t u}, R s t → R t u → R s u) {f : State → α → State} (h : ∀ s a, R s (f s a)) (l : List α)
    (s : State) : R s (l.foldl f s) := by
  induction l generalizing s with
  | nil => exact refl s
  | cons a l ih => exact trans (h s a) (ih (f s a))

theorem OnlyWaiters.foldl {α : Type} {f : State → α → State} (h : ∀ s a, OnlyWaiters s (f s a)) :
    ∀ (l : List α) s, OnlyWaiters s (l.foldl f s) :=
  foldl_related .refl .trans h

theorem OnlyMaint.foldl {α : Type} {f : State → α → State} (h : ∀ s a, OnlyMaint s (f s a)) :
    ∀ (l : List α) s, OnlyMaint s (l.foldl f s) :=
  foldl_related .refl .trans h

/-! ## Writes at a home -/

theorem fireSlots_tid (lo hi : Nat) (t : Thread) : (fireSlots lo hi t).tid = t.tid := by
  unfold fireSlots
  split <;> rfl

theorem fireSlots_of_not_onWord (lo hi : Nat) {t : Thread} (h : t.onWord = false) : fireSlots lo hi t = t := by
  unfold fireSlots
  split
  · next he => simp [Thread.onWord, he] at h
  · rfl

theorem State.meetTarget_tid (s : State) (touched : Nat → Bool) (t : Thread) :
    (s.meetTarget touched t).tid = t.tid := by
  unfold State.meetTarget
  split <;> rfl

theorem State.meetTarget_of_not_onWord (s : State) (touched : Nat → Bool) {t : Thread} (h : t.onWord = false) :
    s.meetTarget touched t = t := by
  unfold State.meetTarget
  split
  · next he => simp [Thread.onWord, he] at h
  · rfl

/-- The block in a slot once the threads of the blocks with waiters have changed. -/
theorem State.atWaiters_block? (s : State) (f : Thread → Thread) (core slot : Nat) :
    (s.atWaiters f).block? core slot = (s.block? core slot).map fun b =>
      if b.threads.any Thread.onWord then { b with threads := b.threads.map f } else b := by
  simp only [State.block?, State.atWaiters, List.find?_map]
  congr 2
  funext b
  simp only [Function.comp]
  split <;> rfl

theorem State.atWaiters_onlyWaiters (s : State) {f : Thread → Thread} (htid : ∀ x, (f x).tid = x.tid)
    (hf : ∀ x, x.onWord = false → f x = x) : OnlyWaiters s (s.atWaiters f) where
  block hb := by
    rw [State.atWaiters_block?, hb]
    refine ⟨_, rfl, ?_⟩
    dsimp only
    split <;> rfl
  thread {core slot tid x} hx := by
    obtain ⟨b, hb, hbx⟩ := Option.bind_eq_some_iff.mp hx
    rw [State.thread?, State.atWaiters_block?, hb]
    simp only [Option.map_some, Option.bind_some]
    split
    · exact ⟨f x, by rw [Block.thread?_map b f htid, hbx]; rfl, hf x⟩
    · exact ⟨x, hbx, fun _ => rfl⟩

theorem State.evalWaiters_onlyWaiters (s : State) (touched : Nat → Bool) : OnlyWaiters s (s.evalWaiters touched) :=
  s.atWaiters_onlyWaiters (s.meetTarget_tid touched) fun _ => s.meetTarget_of_not_onWord touched

theorem State.rawWrite_onlyWaiters (s : State) (k : Nat) (bs : List Byte) : OnlyWaiters s (s.rawWrite k bs) :=
  (State.atWaiters_onlyWaiters _ (fireSlots_tid _ _) fun _ => fireSlots_of_not_onWord _ _).after rfl

theorem State.homeWrite_onlyWaiters (s : State) (k : Nat) (bs : List Byte) : OnlyWaiters s (s.homeWrite k bs) :=
  (s.rawWrite_onlyWaiters k bs).trans (State.evalWaiters_onlyWaiters _ _)

theorem State.writeCells_onlyWaiters (cells : List (Nat × Byte)) (s : State) : OnlyWaiters s (s.writeCells cells) := by
  induction cells generalizing s with
  | nil => exact .refl s
  | cons x r ih => exact (s.rawWrite_onlyWaiters x.1 [x.2]).trans (ih _)

theorem State.homeWriteCells_onlyWaiters (s : State) (cells : List (Nat × Byte)) :
    OnlyWaiters s (s.homeWriteCells cells) :=
  (State.writeCells_onlyWaiters cells s).trans ((State.evalWaiters_onlyWaiters _ _).after rfl)

/-! ## Recalls, copies and their way home -/

theorem State.contend_blocks (s : State) (line : Nat) : (s.contend line).blocks = s.blocks := by
  unfold State.contend
  split <;> rfl

theorem State.recall_blocks (s : State) (line : Nat) : (s.recall line).blocks = s.blocks := by
  unfold State.recall
  split
  · exact State.contend_blocks _ _
  · rfl

theorem State.recallFor_blocks (s : State) (core line : Nat) : (s.recallFor core line).blocks = s.blocks := by
  unfold State.recallFor
  split
  · rfl
  · exact s.recall_blocks line

theorem State.firstInL2_blocks (s : State) (die line : Nat) : (s.firstInL2 die line).blocks = s.blocks := by
  unfold State.firstInL2
  split <;> rfl

theorem State.bringHome_onlyWaiters (s : State) (c : Copy) (m : BitVec 128) : OnlyWaiters s (s.bringHome c m) := by
  have hw := s.homeWriteCells_onlyWaiters (maskedCells c.line c.data m)
  unfold State.bringHome
  dsimp only
  split
  · exact hw
  · exact hw.trans_blocks rfl

theorem State.hostTake_onlyWaiters (s : State) (line : Nat) (m : BitVec 128) (inv : Bool) (die : Nat) :
    OnlyWaiters s (s.hostTake line m inv die) := by
  unfold State.hostTake
  split
  · exact .refl s
  · next c _ =>
    extract_lets x c'
    have hx : OnlyWaiters s x := by
      unfold x
      split
      · exact .refl s
      · exact s.bringHome_onlyWaiters _ _
    split <;> exact hx.trans_blocks rfl

theorem State.hostTakeAll_onlyWaiters (s : State) (line : Nat) (m : BitVec 128) (inv : Bool) (but : Option Nat) :
    OnlyWaiters s (s.hostTakeAll line m inv but) := by
  refine OnlyWaiters.foldl (fun s die => ?_) _ s
  split
  · exact .refl s
  · exact s.hostTake_onlyWaiters _ _ _ _

theorem State.writeOnward_onlyWaiters (s : State) (c : Copy) (m : BitVec 128) : OnlyWaiters s (s.writeOnward c m) := by
  unfold State.writeOnward
  extract_lets out x
  refine OnlyWaiters.trans (t := x) (.of_blocks rfl) ?_
  split
  · exact .refl x
  · split
    · exact (State.bringHome_onlyWaiters _ c out).after (x.recall_blocks c.line)
    · next core _ =>
      extract_lets die below
      have hbelow : ∀ y, OnlyWaiters y (below y) := by
        intro y
        unfold below
        extract_lets z
        split
        · exact .of_blocks (z.firstInL2_blocks die c.line)
        · exact .of_blocks rfl
      split
      · split
        · exact (State.bringHome_onlyWaiters _ c out).after (x.recallFor_blocks core c.line)
        · exact hbelow x
      · exact (x.hostTakeAll_onlyWaiters c.line out true (some die)).trans (hbelow _)
      · exact x.bringHome_onlyWaiters c out

theorem State.drain_onlyWaiters (s : State) (p : Copy → Bool) : OnlyWaiters s (s.drain p) :=
  OnlyWaiters.foldl (fun s c => s.writeOnward_onlyWaiters c allBytes) _ s

theorem State.invalidate_onlyWaiters (s : State) (p : Copy → Bool) : OnlyWaiters s (s.invalidate p) :=
  (s.drain_onlyWaiters p).trans_blocks rfl

theorem State.releaseCopies_onlyWaiters (s : State) (core : Nat) (sc : Scope) :
    OnlyWaiters s (s.releaseCopies core sc) := by
  cases sc with
  | blk | cls | die => exact s.drain_onlyWaiters _
  | pkg | sys => exact (s.drain_onlyWaiters _).trans (State.drain_onlyWaiters _ _)

theorem State.acquire_onlyWaiters (s : State) (core : Nat) (sc : Scope) : OnlyWaiters s (s.acquire core sc) := by
  cases sc with
  | blk => exact .refl s
  | cls | die => exact s.invalidate_onlyWaiters _
  | pkg | sys => exact (s.invalidate_onlyWaiters _).trans (State.invalidate_onlyWaiters _ _)

theorem State.giveUp_onlyWaiters (s : State) (core line : Nat) : OnlyWaiters s (s.giveUp core line) :=
  (s.invalidate_onlyWaiters _).trans (State.invalidate_onlyWaiters _ _)

/-! ## Reaching a home -/

theorem State.hostSnoop_onlyWaiters (s : State) (sector : Nat) (inv : Bool) :
    OnlyWaiters s (s.hostSnoop sector inv) := by
  unfold State.hostSnoop
  split
  · exact .refl s
  · next modified _ =>
    split
    · exact .refl s
    · cases modified with
      | false => exact .of_blocks rfl
      | true => exact (s.homeWriteCells_onlyWaiters _).trans_blocks rfl

theorem State.atHome_onlyWaiters (s : State) (core : Option Nat) (p : Place) (m : BitVec 128) (write : Bool) :
    OnlyWaiters s (s.atHome core p m write) := by
  unfold State.atHome
  extract_lets line x
  have hx : x.blocks = s.blocks := by
    unfold x
    split
    · exact s.recallFor_blocks _ line
    · exact s.recall_blocks line
  refine OnlyWaiters.after ?_ hx
  split
  · refine OnlyWaiters.foldl (fun s i => ?_) _ x
    split
    · exact .refl s
    · exact s.hostSnoop_onlyWaiters _ _
  · split
    · exact x.hostTakeAll_onlyWaiters _ _ _ _
    · exact .refl x

theorem State.approach_onlyWaiters (s : State) (core : Nat) (k : AccKind) (bypass : Bool) (p : Place) (m : BitVec 128) :
    OnlyWaiters s (s.approach core k bypass p m) := by
  have hhome : ∀ o w, OnlyWaiters s ((s.giveUp core (p.key / 128)).atHome o p m w) := fun o w =>
    (s.giveUp_onlyWaiters core _).trans (State.atHome_onlyWaiters _ o p m w)
  unfold State.approach
  extract_lets line die x
  split
  · split
    · have hx : OnlyWaiters s x := by
        unfold x
        split
        · exact s.invalidate_onlyWaiters _
        · exact .refl s
      split
      · exact hx.trans (x.hostTakeAll_onlyWaiters _ _ _ _)
      · split
        · exact hx
        · exact hx.trans_blocks (x.recallFor_blocks _ _)
    · exact s.atHome_onlyWaiters _ p m false
  · split
    · exact .refl s
    · exact hhome _ _
  · exact hhome _ _
  · exact hhome _ _

/-! ## Translations -/

theorem State.diverge_blocks (s : State) : s.diverge.blocks = s.blocks := by
  unfold State.diverge
  split <;> rfl

theorem State.event_blocks (s : State) (r : FRec) : (s.event r).blocks = s.blocks := by
  unfold State.event
  dsimp only
  split
  · exact State.diverge_blocks _
  · rfl

theorem State.orLeaf_onlyWaiters (s : State) (at_ bit : Nat) : OnlyWaiters s (s.orLeaf at_ bit) := by
  unfold State.orLeaf
  dsimp only
  split
  · exact .refl s
  · exact (OnlyWaiters.of_blocks (s.recall_blocks _)).trans (State.homeWrite_onlyWaiters _ _ _)

theorem State.leafOf_onlyWaiters (s : State) (q : Asker) (va : Nat) : OnlyWaiters s (s.leafOf q va).1 := by
  unfold State.leafOf
  dsimp only
  split
  · split
    · split
      · exact .refl s
      · split <;> exact .refl s
    · exact .refl s
  · split
    · split
      · exact .of_blocks (State.event_blocks _ _)
      · exact .refl s
    · exact (s.orLeaf_onlyWaiters _ _).trans_blocks rfl

theorem State.translate_onlyWaiters (s : State) (q : Asker) (k : AccKind) (va : Nat) :
    OnlyWaiters s (s.translate q k va).1 := by
  have hleaf := s.leafOf_onlyWaiters q va
  unfold State.translate
  split
  · next he => simpa [he] using hleaf
  · next x t he =>
    rw [he] at hleaf
    extract_lets e needsW o y z
    split
    · exact hleaf
    · have hy : OnlyWaiters x y := by
        unfold y
        split
        · exact (x.orLeaf_onlyWaiters t.pte 32).trans_blocks rfl
        · exact .refl x
      have hz : z.blocks = y.blocks := by
        unfold z
        split
        · exact y.diverge_blocks
        · rfl
      exact (hleaf.trans hy).trans_blocks hz

theorem State.xlatFrom_onlyWaiters (q : Asker) (k : AccKind) (ls : List Nat) (s : State) (last : Option (Nat × XFail)) :
    OnlyWaiters s (s.xlatFrom q k last ls).1 := by
  induction ls generalizing s last with
  | nil => exact .refl s
  | cons l r ih =>
    unfold State.xlatFrom
    split
    · exact ih s _
    · exact (s.translate_onlyWaiters q k (l * 128)).trans (ih _ _)

theorem State.xlatLines_onlyWaiters (s : State) (q : Asker) (k : AccKind) (ls : List Nat) :
    OnlyWaiters s (s.xlatLines q k ls).1 :=
  State.xlatFrom_onlyWaiters q k ls s none

/-! ## Maintenance, releases and what stands before an access -/

theorem State.setWritten_onlyWaiters (s : State) (line : Nat) (v : Bool) : OnlyWaiters s (s.setWritten line v) := by
  unfold State.setWritten
  split
  · exact s.homeWrite_onlyWaiters _ _
  · exact .refl s

theorem State.maintLine_onlyWaiters (s : State) (core op : Nat) (l2 : Bool) (line m : Nat) :
    OnlyWaiters s (s.maintLine core op l2 line m) := by
  unfold State.maintLine
  extract_lets die mask x one y z
  split
  · have hx : OnlyWaiters s x := by
      unfold x
      split
      · exact s.writeOnward_onlyWaiters _ mask
      · exact .refl s
    refine hx.trans ?_
    split
    · split
      · split
        · exact x.writeOnward_onlyWaiters _ mask
        · exact .refl x
      · exact .refl x
    · exact .refl x
  · have hone : ∀ a h, OnlyWaiters a (one a h) := by
      intro a h
      unfold one
      split
      · exact (a.writeOnward_onlyWaiters _ _).trans_blocks rfl
      · exact .refl a
    refine (hone s _ : OnlyWaiters s y).trans ?_
    split
    · split
      · split
        · exact hone y _
        · exact .refl y
      · exact .refl y
    · exact .refl y
  · exact ((s.invalidate_onlyWaiters _).trans (State.invalidate_onlyWaiters z _)).trans
      (State.setWritten_onlyWaiters _ _ _)

theorem State.maintDo_onlyWaiters (s : State) (core : Nat) (m : Maint) : OnlyWaiters s (s.maintDo core m) :=
  OnlyWaiters.foldl (fun s (l : Nat × Nat) => s.maintLine_onlyWaiters core m.op m.l2 l.1 l.2) m.lines s

theorem State.maintDos_onlyWaiters (s : State) (core : Nat) (ms : List Maint) :
    OnlyWaiters s (ms.foldl (fun s m => s.maintDo core m) s) :=
  OnlyWaiters.foldl (fun s m => s.maintDo_onlyWaiters core m) ms s

/-- Behind an operation that changes only waiters, a thread has no maintenance left but some of what it had. -/
theorem OnlyWaiters.setMaint {s u : State} (h : OnlyWaiters s u) {core slot tid : Nat} {t : Thread}
    (ht : s.thread? core slot tid = some t) (hm : t.maint ≠ []) (later : List Maint) :
    OnlyMaint s (u.modThread core slot tid fun t => { t with maint := later }) := by
  have hc := u.modThread_changes core slot tid (fun t => { t with maint := later }) fun _ => rfl
  constructor
  case block =>
    intro core' slot' b hb
    obtain ⟨b', hb', he⟩ := h.block hb
    by_cases hn : core' = core ∧ slot' = slot
    · obtain ⟨rfl, rfl⟩ := hn
      obtain ⟨b'', hb'', he', _⟩ := hc.here b' hb'
      exact ⟨b'', hb'', by rw [he', he]⟩
    · exact ⟨b', (hc.others _ _ hn).trans hb', he⟩
  case thread =>
    intro core' slot' tid' x hx
    obtain ⟨y, hy, hxy⟩ := h.thread hx
    by_cases hn : core' = core ∧ slot' = slot
    · obtain ⟨rfl, rfl⟩ := hn
      refine ⟨_, by rw [hc.thread?, hy]; rfl, fun hw => ?_⟩
      obtain rfl := hxy hw
      split
      · next he =>
        subst he
        obtain rfl := Option.some.inj (ht.symm.trans hx)
        exact ⟨rfl, fun hnone => absurd hnone hm⟩
      · exact ⟨rfl, fun _ => rfl⟩
    · refine ⟨y, ?_, fun hw => ?_⟩
      · rw [← hy, State.thread?, State.thread?, hc.others _ _ hn]
      · rw [hxy hw]
        exact ⟨rfl, fun _ => rfl⟩

theorem cutAfterLast_nil {α : Type} (p : α → Bool) : cutAfterLast p [] = ([], []) := rfl

theorem State.maintWhere_onlyMaint (s : State) (core slot tid : Nat) (p : Maint → Bool) :
    OnlyMaint s (s.maintWhere core slot tid p) := by
  unfold State.maintWhere
  split
  · exact .refl s
  · next t ht =>
    split
    · exact .refl s
    · next now later hnow hcut =>
      refine (s.maintDos_onlyWaiters core now).setMaint ht (fun hnone => ?_) later
      rw [hnone, cutAfterLast_nil] at hcut
      cases hcut
      exact hnow rfl

theorem State.maintAll_onlyMaint (s : State) (core slot tid : Nat) : OnlyMaint s (s.maintAll core slot tid) := by
  unfold State.maintAll
  split
  · exact .refl s
  · next t ht =>
    split
    · exact .refl s
    · next hm =>
      exact (s.maintDos_onlyWaiters core t.maint).setMaint ht (fun hnone => hm (by simp [hnone])) []

/-- A thread without outstanding maintenance has none to complete. -/
theorem State.maintAll_of_none {s : State} {core slot tid : Nat} {x : Thread} (hx : s.thread? core slot tid = some x)
    (hm : x.maint = []) : s.maintAll core slot tid = s := by
  simp [State.maintAll, hx, hm]

theorem State.release_onlyMaint (s : State) (core slot tid : Nat) (sc : Scope) :
    OnlyMaint s (s.release core slot tid sc) :=
  (s.maintAll_onlyMaint core slot tid).trans (State.releaseCopies_onlyWaiters _ core sc).onlyMaint

/-- A release by a thread that waits on no word completes the maintenance of it (R258). -/
theorem State.release_thread? {s : State} {core slot tid : Nat} {x : Thread} (hx : s.thread? core slot tid = some x)
    (hw : x.onWord = false) (sc : Scope) :
    (s.release core slot tid sc).thread? core slot tid = some { x with maint := [] } := by
  refine (State.releaseCopies_onlyWaiters _ core sc).thread?_eq ?_ hw
  by_cases hm : x.maint = []
  · rw [State.maintAll_of_none hx hm, hx, ← hm]
  · have hu := (s.maintDos_onlyWaiters core x.maint).thread?_eq hx hw
    have hc := (x.maint.foldl (fun s m => s.maintDo core m) s).modThread_changes core slot tid
      (fun t => { t with maint := [] }) fun _ => rfl
    have hall : s.maintAll core slot tid = (x.maint.foldl (fun s m => s.maintDo core m) s).modThread core slot tid
        fun t => { t with maint := [] } := by
      simp [State.maintAll, hx, hm]
    rw [hall, hc.thread?, hu]
    simp

theorem State.before_onlyMaint (s : State) (c : Cur) (k : AccKind) (bypass : Bool) (t : LineTab) (as : List LAcc) :
    OnlyMaint s (s.before c k bypass t as) := by
  refine (OnlyMaint.foldl (fun s a => s.maintWhere_onlyMaint c.core c.slot _ _) as s).trans
    (OnlyWaiters.foldl (fun s l => ?_) _ _).onlyMaint
  split
  · exact s.approach_onlyWaiters c.core k bypass _ _
  · exact .refl s

/-! ## The fences of SEQ accesses (R260) -/

/-- A thread stands in a block, waits on no word and has no maintenance outstanding. -/
def State.Quiet (s : State) (c : Cur) (tid : Nat) : Prop :=
  ∃ x, s.thread? c.core c.slot tid = some x ∧ x.onWord = false ∧ x.maint = []

theorem OnlyMaint.quiet {s t : State} (h : OnlyMaint s t) {c : Cur} {tid : Nat} (hs : s.Quiet c tid) :
    t.Quiet c tid := by
  obtain ⟨x, hx, hw, hm⟩ := hs
  obtain ⟨y, hy, hxy⟩ := h.thread hx
  obtain ⟨_, hsame⟩ := hxy hw
  exact ⟨y, hy, by rwa [hsame hm], by rwa [hsame hm]⟩

/-- A thread that waits on no word waits on none behind the maintenance of some threads. -/
theorem OnlyMaint.not_onWord {s t : State} (h : OnlyMaint s t) {core slot tid : Nat} {x : Thread}
    (hx : s.thread? core slot tid = some x) (hw : x.onWord = false) :
    ∃ y, t.thread? core slot tid = some y ∧ y.onWord = false := by
  obtain ⟨y, hy, hxy⟩ := h.thread hx
  refine ⟨y, hy, ?_⟩
  rw [(hxy hw).1]
  exact hw

theorem State.fence_onlyMaint (s : State) (c : Cur) (m : Nat × Scope) :
    OnlyMaint s ((s.release c.core c.slot m.1 m.2).acquire c.core m.2) :=
  (s.release_onlyMaint c.core c.slot m.1 m.2).trans (State.acquire_onlyWaiters _ _ _).onlyMaint

theorem State.seqBefore_onlyMaint (s : State) (c : Cur) (l : List (Nat × Scope)) : OnlyMaint s (s.seqBefore c l) :=
  OnlyMaint.foldl (fun s m => s.fence_onlyMaint c m) l s

/-- The fences before some accesses leave their threads without maintenance. -/
theorem State.seqBefore_quiet {c : Cur} {l : List (Nat × Scope)} {s : State}
    (h : ∀ m ∈ l, ∃ x, s.thread? c.core c.slot m.1 = some x ∧ x.onWord = false) :
    ∀ m ∈ l, (s.seqBefore c l).Quiet c m.1 := by
  induction l generalizing s with
  | nil => simp
  | cons a r ih =>
    have hstep := s.fence_onlyMaint c a
    intro m hm
    rcases List.mem_cons.mp hm with rfl | hm
    · obtain ⟨x, hx, hw⟩ := h m (by simp)
      have hfence := (State.acquire_onlyWaiters _ c.core m.2).thread?_eq (State.release_thread? hx hw m.2) hw
      exact (State.seqBefore_onlyMaint _ c r).quiet ⟨_, hfence, hw, rfl⟩
    · refine ih (fun k hk => ?_) m hm
      obtain ⟨x, hx, hw⟩ := h k (by simp [hk])
      exact hstep.not_onWord hx hw

/-- The fences behind them find none to complete. -/
theorem State.seqAfter_onlyWaiters {c : Cur} {l : List (Nat × Scope)} {s : State} (h : ∀ m ∈ l, s.Quiet c m.1) :
    OnlyWaiters s (s.seqAfter c l) := by
  induction l generalizing s with
  | nil => exact .refl s
  | cons a r ih =>
    have hstep : OnlyWaiters s ((s.release c.core c.slot a.1 a.2).acquire c.core a.2) := by
      obtain ⟨x, hx, _, hm⟩ := h a (by simp)
      refine OnlyWaiters.trans ?_ (State.acquire_onlyWaiters _ _ _)
      rw [State.release, State.maintAll_of_none hx hm]
      exact s.releaseCopies_onlyWaiters _ _
    exact hstep.trans (ih fun m hm => hstep.onlyMaint.quiet (h m (by simp [hm])))

end Sys2Proof.Machine
end

section
/-!
Filling the caches for loads: only copies change, and of them no dirty byte.
-/
namespace Sys2Proof.Machine

/-! ## Dirty bytes of copies -/

/-- A dirty byte of a copy. -/
def Copy.dirtyAt (c : Copy) (i : Nat) : Option Byte := if maskBit c.dirty i then some (lineByte c.data i) else none

theorem State.dirtyByte_eq (s : State) (h : Holder) (k : Nat) :
    s.dirtyByte h k = (s.copy? h (k / 128)).bind fun c => c.dirtyAt (k % 128) := rfl

/-- The way that a line takes in the L2 of its home die holds no dirty byte. -/
def State.homeClean (s : State) : Prop :=
  ∀ x ∈ s.copies, x.holder = .l2 (homeDie (x.line * 128)) → x.dirty = 0

theorem State.copiesOk.homeClean {s : State} (h : s.copiesOk) : s.homeClean := fun x hx => (h x hx).2

/-- Only copies change, and of them no dirty byte. -/
structure KeepsDirty (s t : State) : Prop where
  rest : t = { s with copies := t.copies }
  clean : s.homeClean → t.homeClean
  dirty : s.homeClean → ∀ h k, t.dirtyByte h k = s.dirtyByte h k

theorem KeepsDirty.refl (s : State) : KeepsDirty s s := ⟨rfl, id, fun _ _ _ => rfl⟩

theorem KeepsDirty.trans {s t u : State} (h : KeepsDirty s t) (k : KeepsDirty t u) : KeepsDirty s u where
  rest := by rw [k.rest, h.rest]
  clean hs := k.clean (h.clean hs)
  dirty hs x y := (k.dirty (h.clean hs) x y).trans (h.dirty hs x y)

theorem KeepsDirty.foldl {α : Type} {f : State → α → State} (h : ∀ s a, KeepsDirty s (f s a)) :
    ∀ (l : List α) s, KeepsDirty s (l.foldl f s) :=
  foldl_related .refl .trans h

theorem KeepsDirty.blocks {s t : State} (h : KeepsDirty s t) : t.blocks = s.blocks := by rw [h.rest]

theorem State.copy?_where {s : State} {h : Holder} {line : Nat} {c : Copy} (hc : s.copy? h line = some c) :
    c ∈ s.copies ∧ c.holder = h ∧ c.line = line := by
  have hp := List.find?_some hc
  simp only [Bool.and_eq_true, beq_iff_eq] at hp
  exact ⟨List.mem_of_find?_eq_some hc, hp⟩

/-- A copy is that of one holder and one line. -/
theorem not_at_other {x : Copy} {g h : Holder} {k line : Nat} (he : ¬(h = g ∧ line = k))
    (hx : (x.holder == h && x.line == line) = true) : (x.holder == g && x.line == k) = false := by
  simp only [Bool.and_eq_true, beq_iff_eq] at hx
  obtain ⟨rfl, rfl⟩ := hx
  simpa using he

theorem State.putCopy_copy? (s : State) (c : Copy) (h : Holder) (line : Nat) :
    (s.putCopy c).copy? h line = if h = c.holder ∧ line = c.line then some c else s.copy? h line := by
  simp only [State.copy?, State.putCopy, List.find?_cons, List.find?_filter]
  split
  · next hc =>
    have he : h = c.holder ∧ line = c.line := by simpa [eq_comm (a := h), eq_comm (a := line)] using hc
    rw [if_pos he]
  · next hc =>
    have he : ¬(h = c.holder ∧ line = c.line) := fun he => by simp [he] at hc
    rw [if_neg he]
    congr 1
    funext x
    cases hx : x.holder == h && x.line == line with
    | false => simp
    | true => simp [not_at_other he hx]

/-- A copy is put in front that has the dirty bytes of the one in whose place it stands. -/
theorem State.putCopy_keepsDirty (s : State) (c : Copy)
    (hclean : s.homeClean → c.holder = .l2 (homeDie (c.line * 128)) → c.dirty = 0)
    (hdirty : s.homeClean → ∀ i < 128, c.dirtyAt i = (s.copy? c.holder c.line).bind (·.dirtyAt i)) :
    KeepsDirty s (s.putCopy c) where
  rest := rfl
  clean hs x hx := by
    rcases List.mem_cons.mp hx with rfl | hx
    · exact hclean hs
    · exact hs x (List.mem_filter.mp hx).1
  dirty hs h k := by
    rw [State.dirtyByte_eq, State.dirtyByte_eq, State.putCopy_copy?]
    split
    · next he =>
      obtain ⟨rfl, hk⟩ := he
      rw [Option.bind_some, hdirty hs _ (Nat.mod_lt k (by decide)), hk]
    · rfl

/-! ## Filling a line -/

/-- One byte of a line stays when another is set. -/
theorem lineByte_setLineByte_ne (d : BitVec 1024) {i j : Nat} (b : Byte) (h : i ≠ j) :
    lineByte (setLineByte d j b) i = lineByte d i := by
  ext n hn
  have hout : 8 * i + n < 8 * j ∨ 8 ≤ 8 * i + n - 8 * j := by omega
  simp only [lineByte, setLineByte, BitVec.getElem_extractLsb', BitVec.getLsbD_or, BitVec.getLsbD_and,
    BitVec.getLsbD_not, BitVec.getLsbD_shiftLeft]
  rcases hout with hlow | hhigh
  · simpa [hlow] using d.lt_of_getLsbD
  · have hmask : (255#1024).getLsbD (8 * i + n - 8 * j) = false := by
      have hbig : 255 < 2 ^ (8 * i + n - 8 * j) :=
        Nat.lt_of_lt_of_le (by decide) (Nat.pow_le_pow_right (by decide) hhigh)
      rw [BitVec.getLsbD_ofNat, Nat.testBit_lt_two_pow hbig, Bool.and_false]
    simpa [hhigh, hmask] using d.lt_of_getLsbD

theorem lineByte_fold (p : Nat → Bool) (f : Nat → Byte) (i : Nat) (hi : p i = false) (l : List Nat) (d : BitVec 1024) :
    lineByte (l.foldl (fun a j => if p j then setLineByte a j (f j) else a) d) i = lineByte d i := by
  induction l generalizing d with
  | nil => rfl
  | cons j l ih =>
    rw [List.foldl_cons, ih]
    split
    · next hj => exact lineByte_setLineByte_ne d _ (by rintro rfl; simp [hi] at hj)
    · rfl

theorem State.fillCopy_keepsDirty (s : State) (h : Holder) (line ct hint : Nat) (m : BitVec 128) (src : Nat → Byte)
    (bad : Nat → Bool) : KeepsDirty s (s.fillCopy h line ct hint m src bad) := by
  unfold State.fillCopy
  extract_lets c need data words ill
  have hholder : c.holder = h ∧ c.line = line := by
    unfold c
    cases hc : s.copy? h line with
    | none => exact ⟨rfl, rfl⟩
    | some x => exact (State.copy?_where hc).2
  have hclean : s.homeClean → c.holder = .l2 (homeDie (c.line * 128)) → c.dirty = 0 := by
    unfold c
    cases hc : s.copy? h line with
    | none => exact fun _ _ => rfl
    | some x => exact fun hs => hs x (State.copy?_where hc).1
  have hsame : ∀ i, c.dirtyAt i = (s.copy? c.holder c.line).bind (·.dirtyAt i) := by
    intro i
    rw [hholder.1, hholder.2]
    unfold c
    cases s.copy? h line with
    | none => simp [Copy.dirtyAt, Copy.hinted, maskBit]
    | some x => rfl
  split
  · exact s.putCopy_keepsDirty c hclean fun _ i _ => hsame i
  · refine s.putCopy_keepsDirty _ hclean fun _ i _ => ?_
    dsimp only
    rw [← hsame i]
    unfold Copy.dirtyAt
    dsimp only
    split
    · next hd =>
      have hi : maskBit need i = false := by
        unfold maskBit at hd ⊢
        simp [need, hd]
      rw [lineByte_fold (fun i => maskBit need i) src i hi]
    · rfl

theorem State.touchHome_keepsDirty (s : State) (line ct hint : Nat) : KeepsDirty s (s.touchHome line ct hint) := by
  refine s.putCopy_keepsDirty _ (fun _ _ => rfl) fun hs i _ => ?_
  dsimp only
  cases hc : s.copy? (.l2 (homeDie (line * 128))) line with
  | none => simp [Copy.dirtyAt, maskBit]
  | some x =>
    obtain ⟨hx, hh, hl⟩ := State.copy?_where hc
    have hd := hs x hx (by rw [hh, hl])
    simp [Copy.dirtyAt, maskBit, hd]

/-- The copy of a line once another stands in the place of one. -/
theorem State.setCopy_copy? (s : State) {c x : Copy} (hx : s.copy? c.holder c.line = some x) (h : Holder) (line : Nat) :
    (s.setCopy c).copy? h line = if h = c.holder ∧ line = c.line then some c else s.copy? h line := by
  simp only [State.copy?, State.setCopy] at hx ⊢
  split
  · next he =>
    obtain ⟨rfl, rfl⟩ := he
    exact find_mapIf_same _ (fun _ => c) s.copies x (fun _ _ _ => by simp) hx
  · next he =>
    refine find_mapIf_other _ _ _ _ (fun y _ hy => not_at_other he hy) fun _ _ _ => ?_
    exact not_at_other (fun hc => he ⟨hc.1.symm, hc.2.symm⟩) (by simp)

theorem State.firstInL2_keepsDirty (s : State) (die line : Nat) : KeepsDirty s (s.firstInL2 die line) := by
  unfold State.firstInL2
  split
  · next c hc =>
    obtain ⟨hmem, hh, hl⟩ := State.copy?_where hc
    refine ⟨rfl, fun hs x hx => ?_, fun hs h k => ?_⟩
    · obtain ⟨y, hy, rfl⟩ := List.mem_map.mp hx
      split
      · exact hs c hmem
      · exact hs y hy
    · rw [State.dirtyByte_eq, State.dirtyByte_eq,
        State.setCopy_copy? s (c := { c with hint := 1 }) (x := c) (by rw [hh, hl, hc])]
      split
      · next he =>
        obtain ⟨rfl, hk⟩ := he
        rw [hk, hh, hl, hc]
        rfl
      · rfl
  · exact .refl s

theorem State.fillL2_keepsDirty (s : State) (die : Nat) (p : Place) (hint : Nat) (m : BitVec 128) :
    KeepsDirty s (s.fillL2 die p hint m) := by
  unfold State.fillL2
  extract_lets line fill m'
  have hfill : ∀ x n, KeepsDirty x (fill x n) := fun x n => x.fillCopy_keepsDirty _ _ _ _ _ _ _
  split
  · split
    · exact s.touchHome_keepsDirty _ _ _
    · refine KeepsDirty.trans ?_ (hfill _ _)
      split
      · exact .refl s
      · exact s.touchHome_keepsDirty _ _ _
  · exact hfill s _
  · exact .refl s

theorem State.fillLine_keepsDirty (s : State) (core : Nat) (p : Place) (hint : Nat) (m : BitVec 128) (l1 : Bool) :
    KeepsDirty s (s.fillLine core p hint m l1) := by
  unfold State.fillLine
  extract_lets die line want x
  have hx : KeepsDirty s x := by
    unfold x
    split
    · split
      · exact s.firstInL2_keepsDirty die line
      · exact .refl s
    · exact s.fillL2_keepsDirty _ _ _ _
  split
  · exact .refl s
  · split
    · exact hx.trans (x.fillCopy_keepsDirty _ _ _ _ _ _ _)
    · exact hx

/-- Filling the caches for some loads changes clean bytes of copies alone. -/
theorem State.fillReads_keepsDirty (s : State) (core : Nat) (h : Hint) (t : LineTab) (as : List LAcc) :
    KeepsDirty s (s.fillReads core h t as) := by
  refine KeepsDirty.foldl (fun s l => ?_) _ s
  split
  · exact .refl s
  · exact s.fillLine_keepsDirty _ _ _ _ _

end Sys2Proof.Machine
end

section
/-!
Record offsets, the swizzle and the loads through a record (O12).
-/
namespace Sys2Proof.Machine

/-! ## Offsets and the swizzle -/

/-- The field of a pattern, as a bit field of its number. -/
theorem bitsOf_toNat {w : Nat} (v : BitVec w) (hi lo : Nat) :
    bitsOf v.toNat hi lo = (v.extractLsb' lo (hi + 1 - lo)).toNat := by
  simp [bitsOf, Nat.shiftRight_eq_div_pow]

theorem toSigned_eq_toInt (w v : Nat) : toSigned w v = (BitVec.ofNat w v).toInt := by
  simp [toSigned, BitVec.toInt]

theorem extractLsb'_high_half (x : Word) : x.extractLsb' 16 16 = BitVec.ofNat 16 (x.toNat / 65536) := by
  apply BitVec.eq_of_toNat_eq
  simp [Nat.shiftRight_eq_div_pow]

theorem extractLsb'_low_half (x : Word) : x.extractLsb' 0 16 = BitVec.ofNat 16 (x.toNat % 65536) := by
  apply BitVec.eq_of_toNat_eq
  simp

/-- The high half of an index, as R84 reads it under SGN. -/
theorem high_half_eq (sgn : Bool) (x : Word) :
    (if sgn then toSigned 16 (x.toNat / 65536) else ((x.toNat / 65536 : Nat) : Int)) =
      if sgn then (x.extractLsb' 16 16).toInt else ((x.extractLsb' 16 16).toNat : Int) := by
  have hx : x.toNat / 65536 < 65536 := by have := x.isLt; omega
  rw [toSigned_eq_toInt, extractLsb'_high_half, BitVec.toNat_ofNat, Nat.mod_eq_of_lt hx]

/-- The low half likewise. -/
theorem low_half_eq (sgn : Bool) (x : Word) :
    (if sgn then toSigned 16 (x.toNat % 65536) else ((x.toNat % 65536 : Nat) : Int)) =
      if sgn then (x.extractLsb' 0 16).toInt else ((x.extractLsb' 0 16).toNat : Int) := by
  rw [toSigned_eq_toInt, extractLsb'_low_half, BitVec.toNat_ofNat, Nat.mod_mod]

/-- What the swizzle of R86 XORs into o[6:4]: bits of the number of the line. -/
def swizzleKey (line mode : Nat) : Nat :=
  match mode with
  | 1 => line % 8
  | 2 => line / 2 % 8
  | 3 => line / 4 % 8
  | 4 => line % 4
  | _ => 0

theorem swizzleKey_lt (line mode : Nat) : swizzleKey line mode < 8 := by
  unfold swizzleKey
  split <;> omega

theorem swizzle_eq (o mode : Nat) :
    swizzle o mode = o / 128 * 128 + (o / 16 % 8 ^^^ swizzleKey (o / 128) mode) * 16 + o % 16 := by
  have h2 : o / 256 = o / 128 / 2 := by omega
  have h4 : o / 512 = o / 128 / 4 := by omega
  unfold swizzle swizzleKey
  split <;> simp [h2, h4]

/-- The three fields of a swizzled offset: the line, the 16-byte unit in it, the byte in that. -/
theorem swizzle_fields (o mode : Nat) :
    swizzle o mode / 128 = o / 128 ∧ swizzle o mode / 16 % 8 = o / 16 % 8 ^^^ swizzleKey (o / 128) mode ∧
      swizzle o mode % 16 = o % 16 := by
  have hlt : (o / 16 % 8 ^^^ swizzleKey (o / 128) mode) < 8 :=
    Nat.xor_lt_two_pow (n := 3) (Nat.mod_lt _ (by decide)) (swizzleKey_lt _ _)
  rw [swizzle_eq]
  omega

/-- The line is kept, so that the same key is XORed in twice. -/
theorem swizzle_swizzle (o mode : Nat) : swizzle (swizzle o mode) mode = o := by
  obtain ⟨hline, hunit, hbyte⟩ := swizzle_fields o mode
  rw [swizzle_eq (swizzle o mode), hline, hunit, hbyte, Nat.xor_assoc, Nat.xor_self, Nat.xor_zero]
  omega

/-- R84, R86. -/
theorem recordOffsets : Rules.RecordOffsets := by
  intro r x imm n
  have hpitch : ((r.extractLsb' 192 32).toNat : Int) = recPitch r := by simp [recPitch, recBits, bitsOf_toNat]
  have hroww : ((r.extractLsb' 224 32).toNat : Int) = recRoww r := by simp [recRoww, recBits, bitsOf_toNat]
  have hextent : ((r.extractLsb' 64 55).toNat : Int) = recExtent r := by simp [recExtent, recBits, bitsOf_toNat]
  have hesz : (r.extractLsb' 128 3).toNat = recBits r 130 128 := by simp [recBits, bitsOf_toNat]
  simp only [hpitch, hroww, hextent, hesz, ← high_half_eq, ← low_half_eq]
  refine ⟨fun hp => ?_, fun hp => ?_, fun o mode => ⟨swizzle_swizzle o mode, ?_, ?_⟩⟩
  · simp [recOffset, show recPitch r = 0 by omega]
  · simp [recOffset, show recPitch r ≠ 0 by omega, and_assoc]
  · exact (swizzle_fields o mode).1
  · exact (swizzle_fields o mode).2.2

/-! ## The forms of an instruction's lanes -/

/-- Two forms of one thread are one. -/
def Forms.apart (fs : Forms) : Prop := ∀ p ∈ fs, ∀ q ∈ fs, p.1.t.tid = q.1.t.tid → p = q

theorem State.mem_forms {s : State} {k a : Nat} {imm : Int} {n al : Nat} {p : LaneCtx × Form}
    (h : p ∈ s.forms k a imm n al) :
    p.1 ∈ s.lanes ∧ p.2 = formOf (p.1.b.krecs.getD k 0) (p.1.x a) imm n al := by
  obtain ⟨l, hl, rfl⟩ := List.mem_map.mp h
  exact ⟨hl, rfl⟩

theorem Runs.forms_apart {s : State} {c : Cur} {b : Block} (h : Runs s c b) (k a : Nat) (imm : Int) (n al : Nat) :
    (s.forms k a imm n al).apart := by
  intro p hp q hq he
  obtain ⟨hpl, hpf⟩ := State.mem_forms hp
  obtain ⟨hql, hqf⟩ := State.mem_forms hq
  have hlane := h.lane_ext hpl hql he
  exact Prod.ext hlane (by rw [hpf, hqf, hlane])

theorem Forms.mem_accs {fs : Forms} {a : LAcc} :
    a ∈ fs.accs ↔ ∃ l vas, (l, Form.acc vas) ∈ fs ∧ a = { lane := l.lane, tid := l.t.tid, vas := vas } := by
  constructor
  · intro h
    obtain ⟨⟨l, f⟩, hm, hf⟩ := List.mem_filterMap.mp h
    cases f with
    | acc vas => exact ⟨l, vas, hm, (Option.some.inj hf).symm⟩
    | trap _ => cases hf
    | oob => cases hf
  · rintro ⟨l, vas, hm, rfl⟩
    exact List.mem_filterMap.mpr ⟨(l, .acc vas), hm, rfl⟩

theorem Forms.mem_oobs {fs : Forms} {l : LaneCtx} : l ∈ fs.oobs ↔ (l, Form.oob) ∈ fs := by
  constructor
  · intro h
    obtain ⟨⟨k, f⟩, hm, hf⟩ := List.mem_filterMap.mp h
    cases f with
    | oob => cases hf; exact hm
    | acc _ => cases hf
    | trap _ => cases hf
  · exact fun h => List.mem_filterMap.mpr ⟨(l, .oob), h, rfl⟩

theorem Forms.not_mem_trap {fs : Forms} (h : fs.traps = []) (l : LaneCtx) (t : Trap) : (l, Form.trap t) ∉ fs := by
  intro hm
  have hnone := List.filterMap_eq_nil_iff.mp h _ hm
  cases hnone

theorem Forms.oobs_isEmpty (fs : Forms) : (!fs.oobs.isEmpty) = fs.any fun f => f.2 == .oob := by
  rw [Bool.eq_iff_iff, List.any_eq_true, Bool.not_eq_true', ← Bool.not_eq_true, List.isEmpty_iff]
  constructor
  · intro h
    obtain ⟨l, hl⟩ := List.exists_mem_of_ne_nil _ h
    exact ⟨_, Forms.mem_oobs.mp hl, by simp⟩
  · rintro ⟨⟨l, f⟩, hm, hf⟩ hnil
    obtain rfl : f = .oob := by simpa using hf
    have hl := Forms.mem_oobs.mpr hm
    simp [hnil] at hl

/-! ## What the threads get -/

/-- The value that each access reads, with its thread. -/
def State.loadVals (s : State) (core : Nat) (tab : LineTab) (as : List LAcc) : List (Nat × Nat) :=
  as.map fun a => (a.tid, s.readAcc core tab a)

/-- What a load makes of a thread of the block: a thread that has read a value takes it, one out of bounds takes zero,
and both go on. -/
def Cur.loaded (c : Cur) (vals : List (Nat × Nat)) (oobs : List LaneCtx) (give : Nat → Thread → Thread)
    (zero : Thread → Thread) (t : Thread) : Thread :=
  match vals.find? fun v => v.1 == t.tid with
  | some v => { give v.2 t with pc := c.nextPc }
  | none => if oobs.any fun l => l.t.tid == t.tid then { zero t with pc := c.nextPc } else t

/-- The state `v` of a load of some forms: what stands in the way is gone, and the fences of SEQ accesses have acted. -/
def State.readied (u : State) (c : Cur) (h : Hint) (tab : LineTab) (as : List LAcc) : State :=
  (u.before c .read (h == .bypass) tab as).seqBefore c (seqScopes tab as)

/-- The acquire of a load, if it has one and loads at all. -/
def State.acquireLoad (s : State) (c : Cur) (acq : Option Scope) (fs : Forms) : State :=
  match acq with
  | some sc => if fs.accs.isEmpty && fs.oobs.isEmpty then s else s.acquire c.core sc
  | none => s

/-- The threads of some forms take what they load. -/
def State.takeLoads (w : State) (c : Cur) (tab : LineTab) (fs : Forms) (give : Nat → Thread → Thread)
    (zero : Thread → Thread) : State :=
  w.modBlock c.core c.slot fun b =>
    { b with threads := b.threads.map (c.loaded (w.loadVals c.core tab fs.accs) fs.oobs give zero) }

theorem Cur.loaded_kept (c : Cur) (vals : List (Nat × Nat)) (oobs : List LaneCtx) {give : Nat → Thread → Thread}
    {zero : Thread → Thread} {α : Type} (f : Thread → α) (hpc : ∀ t pc, f { t with pc := pc } = f t)
    (hgive : ∀ v t, f (give v t) = f t) (hzero : ∀ t, f (zero t) = f t) (t : Thread) :
    f (c.loaded vals oobs give zero t) = f t := by
  unfold Cur.loaded
  split
  · rw [hpc, hgive]
  · split
    · rw [hpc, hzero]
    · rfl

/-- The value that a lane takes from its form: the bytes of its access as its core reads them, zero out of bounds. -/
def State.formValue (w : State) (core : Nat) (tab : LineTab) (l : LaneCtx) (f : Form) : Nat :=
  match f with
  | .acc vas => w.readAcc core tab { lane := l.lane, tid := l.t.tid, vas := vas }
  | _ => 0

theorem State.find_loadVals (w : State) (core : Nat) (tab : LineTab) {fs : Forms} (ha : fs.apart) {l : LaneCtx}
    {vas : List Nat} (hm : (l, Form.acc vas) ∈ fs) :
    (w.loadVals core tab fs.accs).find? (fun v => v.1 == l.t.tid) =
      some (l.t.tid, w.formValue core tab l (.acc vas)) := by
  cases hf : (w.loadVals core tab fs.accs).find? fun v => v.1 == l.t.tid with
  | none =>
    have hv : (l.t.tid, w.formValue core tab l (.acc vas)) ∈ w.loadVals core tab fs.accs :=
      List.mem_map.mpr ⟨_, Forms.mem_accs.mpr ⟨l, vas, hm, rfl⟩, rfl⟩
    exact absurd (List.find?_eq_none.mp hf _ hv) (by simp)
  | some v =>
    obtain ⟨a, hacc, rfl⟩ := List.mem_map.mp (List.mem_of_find?_eq_some hf)
    obtain ⟨k, vas', hk, rfl⟩ := Forms.mem_accs.mp hacc
    have hsame := ha _ hk _ hm (by simpa using List.find?_some hf)
    cases hsame
    rfl

theorem State.find_loadVals_none (w : State) (core : Nat) (tab : LineTab) {fs : Forms} {tid : Nat}
    (h : ∀ l vas, (l, Form.acc vas) ∈ fs → l.t.tid ≠ tid) :
    (w.loadVals core tab fs.accs).find? (fun v => v.1 == tid) = none := by
  refine List.find?_eq_none.mpr fun v hv => ?_
  obtain ⟨a, hacc, rfl⟩ := List.mem_map.mp hv
  obtain ⟨l, vas, hm, rfl⟩ := Forms.mem_accs.mp hacc
  simpa using h l vas hm

/-- A thread that loads takes the value of its form. -/
theorem Cur.loaded_form (c : Cur) (w : State) (core : Nat) (tab : LineTab) {fs : Forms} (ha : fs.apart)
    (ht : fs.traps = []) (give : Nat → Thread → Thread) {l : LaneCtx} {f : Form} (hm : (l, f) ∈ fs) {x : Thread}
    (hx : x.tid = l.t.tid) :
    c.loaded (w.loadVals core tab fs.accs) fs.oobs give (give 0) x =
      { give (w.formValue core tab l f) x with pc := c.nextPc } := by
  unfold Cur.loaded
  rw [hx]
  cases f with
  | trap t => exact absurd hm (Forms.not_mem_trap ht l t)
  | acc vas => rw [w.find_loadVals core tab ha hm]
  | oob =>
    have hnone : ∀ k vas, (k, Form.acc vas) ∈ fs → k.t.tid ≠ l.t.tid := by
      intro k vas hk he
      cases ha _ hk _ hm he
    rw [w.find_loadVals_none core tab hnone]
    have hany : (fs.oobs.any fun k => k.t.tid == l.t.tid) = true :=
      List.any_eq_true.mpr ⟨l, Forms.mem_oobs.mpr hm, by simp⟩
    simp [hany, State.formValue]

/-- A thread without a form stays. -/
theorem Cur.loaded_other (c : Cur) (w : State) (core : Nat) (tab : LineTab) {fs : Forms}
    (give : Nat → Thread → Thread) (zero : Thread → Thread) {x : Thread} (h : ∀ p ∈ fs, p.1.t.tid ≠ x.tid) :
    c.loaded (w.loadVals core tab fs.accs) fs.oobs give zero x = x := by
  unfold Cur.loaded
  rw [w.find_loadVals_none core tab fun l vas hm => h _ hm]
  have hany : (fs.oobs.any fun k => k.t.tid == x.tid) = false :=
    List.any_eq_false.mpr fun l hl => by simpa using h _ (Forms.mem_oobs.mp hl)
  simp [hany]

/-! ## `BSTAT` -/

theorem State.modBlock_id (s : State) (core slot : Nat) {f : Block → Block} (hf : ∀ b, f b = b) :
    s.modBlock core slot f = s := by
  simp [State.modBlock, mapIf, hf]

theorem State.modBlock_modBlock (s : State) (core slot : Nat) {f : Block → Block} (g : Block → Block)
    (hf : ∀ b, (f b).core = b.core ∧ (f b).slot = b.slot) :
    (s.modBlock core slot f).modBlock core slot g = s.modBlock core slot fun b => g (f b) := by
  simp only [State.modBlock, mapIf, List.map_map]
  congr 1
  refine List.map_congr_left fun b _ => ?_
  obtain ⟨hcore, hslot⟩ := hf b
  simp only [Function.comp]
  split
  · next hb => simp [hcore, hslot, hb]
  · rfl

/-- The bits that an instruction sets in `BSTAT` (R52). -/
def State.noted (s : State) (c : Cur) (oob split : Bool) : State :=
  s.modBlock c.core c.slot fun b => { b with bstat := bstatOf b oob split }

theorem State.noteBstat_eq (s : State) (c : Cur) (oob : List LaneCtx) (done : List LAcc) :
    s.noteBstat c oob done = s.noted c (!oob.isEmpty) (done.any fun a => decide (1 < (linesOf a.vas).length)) := by
  unfold State.noteBstat State.noted State.setBstat bstatOf
  dsimp only
  cases oob.isEmpty <;> cases done.any fun a => decide (1 < (linesOf a.vas).length)
  · simp
  · simp [State.modBlock_modBlock]
  · simp [State.modBlock_id]
  · simp

theorem State.noted_block? (s : State) (c : Cur) (oob split : Bool) (core slot : Nat) :
    (s.noted c oob split).block? core slot =
      if core = c.core ∧ slot = c.slot then
        (s.block? core slot).map fun b => { b with bstat := bstatOf b oob split }
      else s.block? core slot := by
  refine s.modBlock_block?_eq ?_ core slot
  exact fun _ => ⟨rfl, rfl⟩

theorem State.noted_thread? (s : State) (c : Cur) (oob split : Bool) (core slot tid : Nat) :
    (s.noted c oob split).thread? core slot tid = s.thread? core slot tid := by
  rw [State.thread?, State.thread?, State.noted_block?]
  split
  · cases s.block? core slot <;> rfl
  · rfl

theorem State.noted_bstat {s : State} {c : Cur} {b : Block} (hb : s.block? c.core c.slot = some b) (oob split : Bool) :
    ((s.noted c oob split).block? c.core c.slot).map (·.bstat) = some (bstatOf b oob split) := by
  rw [State.noted_block?, if_pos ⟨rfl, rfl⟩, hb]
  rfl

/-! ## The loads through a record -/

/-- A load none of whose lanes traps or waits: the caches are filled, the threads take their values, the fences behind
SEQ accesses and the acquire act, and `BSTAT` takes its bits. -/
theorem State.load_eq {s u : State} {c : Cur} {fs : Forms} {h : Hint} {tab : LineTab} (hc : s.cur = some c)
    (hr : Reached s c fs .read u tab) (hf : Full u tab fs.accs)
    (hb : ((u.readied c h tab fs.accs).fillReads c.core h tab fs.accs).readsBad c.core tab fs.accs = false)
    (acq : Option Scope) (give : Nat → Thread → Thread) (zero : Thread → Thread) (spl : Bool) :
    let w := (u.readied c h tab fs.accs).fillReads c.core h tab fs.accs
    s.load fs h acq give zero spl =
      (((w.takeLoads c tab fs give zero).seqAfter c (seqScopes tab fs.accs)).acquireLoad c acq fs).noted c
        (fs.any fun f => f.2 == .oob) (spl && fs.accs.any fun a => decide (1 < (linesOf a.vas).length)) := by
  have hbad : (fs.accs.filterMap fun a => (a.failure tab .read).map fun t => (a.lane, a.tid, t)) = [] :=
    List.filterMap_eq_nil_iff.mpr fun a ha => by rw [hr.ok a ha]; rfl
  have hgood : (fs.accs.filter fun a => (a.failure tab .read).isNone) = fs.accs :=
    List.filter_eq_self.mpr fun a ha => by rw [hr.ok a ha]; rfl
  have hwaits : (fs.accs.filterMap fun a => (u.firstEmpty (a.places tab)).map fun l => (a.tid, l)) = [] :=
    List.filterMap_eq_nil_iff.mpr fun a ha => by rw [hf a ha]; rfl
  have hok : (fs.accs.filter fun a => (u.firstEmpty (a.places tab)).isNone) = fs.accs :=
    List.filter_eq_self.mpr fun a ha => by rw [hf a ha]; rfl
  have hsplit : (spl && fs.accs.any fun a => decide (1 < (linesOf a.vas).length)) =
      (if spl then fs.accs else []).any fun a => decide (1 < (linesOf a.vas).length) := by
    cases spl <;> rfl
  unfold State.readied at hb
  intro w
  rw [← Forms.oobs_isEmpty, hsplit, ← State.noteBstat_eq]
  unfold State.load
  simp only [hc, hr.xlat, hbad, hgood, hwaits, hok, hb, hr.noTrap, List.append_nil, State.trapLanes_nil, State.killIf,
    List.foldl_nil]
  rfl

theorem Thread.later_eq (t : Thread) (d : Nat) (vs : List Word) :
    t.later d vs = { t with pend := if d < 120 then t.pend ++ [.regs (t.wb.toNat + d) vs] else t.pend } := by
  unfold Thread.later
  split <;> rfl

theorem Reached.onlyWaiters {s u : State} {c : Cur} {fs : Forms} {k : AccKind} {tab : LineTab}
    (h : Reached s c fs k u tab) : OnlyWaiters s u := by
  simpa [h.xlat] using s.xlatLines_onlyWaiters (s.askerOf c) k (allLines fs.accs)

theorem State.readied_onlyMaint (u : State) (c : Cur) (h : Hint) (tab : LineTab) (as : List LAcc) :
    OnlyMaint u (u.readied c h tab as) :=
  (u.before_onlyMaint c .read _ tab as).trans (State.seqBefore_onlyMaint _ c _)

/-- Once a load is ready, the threads of its SEQ accesses have no maintenance outstanding. -/
theorem State.readied_quiet {u : State} {c : Cur} {h : Hint} {tab : LineTab} {as : List LAcc}
    (hw : ∀ a ∈ as, ∃ x, u.thread? c.core c.slot a.tid = some x ∧ x.onWord = false) :
    ∀ m ∈ seqScopes tab as, (u.readied c h tab as).Quiet c m.1 := by
  refine State.seqBefore_quiet fun m hm => ?_
  obtain ⟨a, ha, he⟩ := List.mem_filterMap.mp hm
  obtain ⟨sc, _, rfl⟩ := Option.map_eq_some_iff.mp he
  obtain ⟨x, hx, hword⟩ := hw a ha
  exact (u.before_onlyMaint c .read _ tab as).not_onWord hx hword

theorem State.acquireLoad_onlyWaiters (s : State) (c : Cur) (acq : Option Scope) (fs : Forms) :
    OnlyWaiters s (s.acquireLoad c acq fs) := by
  unfold State.acquireLoad
  split
  · split
    · exact .refl s
    · exact s.acquire_onlyWaiters _ _
  · exact .refl s

/-- A standing thread waits on no word. -/
theorem Thread.not_onWord_of_cast {t : Thread} (h : t.cond = .cast) : t.onWord = false := by
  simp [Thread.onWord, h]

/-- Once a load is ready its threads stand as they did, those of its SEQ accesses without maintenance. -/
theorem Runs.readied {s u : State} {c : Cur} {b : Block} (hr : Runs s c b) (hst : Standing s) {fs : Forms}
    {tab : LineTab} (hreach : Reached s c fs .read u tab) (hfs : ∀ p ∈ fs, p.1 ∈ s.lanes) (h : Hint) :
    OnlyMaint s (u.readied c h tab fs.accs) ∧ ∀ m ∈ seqScopes tab fs.accs, (u.readied c h tab fs.accs).Quiet c m.1 := by
  refine ⟨hreach.onlyWaiters.onlyMaint.trans (u.readied_onlyMaint c h tab fs.accs), State.readied_quiet fun a ha => ?_⟩
  obtain ⟨l, vas, hm, rfl⟩ := Forms.mem_accs.mp ha
  have hl := hfs _ hm
  have hw := Thread.not_onWord_of_cast (hst l hl)
  exact ⟨l.t, hreach.onlyWaiters.thread?_eq (hr.thread?_lane hl) hw, hw⟩

/-- A way to take a value that adds an outstanding result and changes nothing else. -/
def OnlyPend (give : Nat → Thread → Thread) : Prop := ∀ v t, give v t = { t with pend := (give v t).pend }

theorem State.takeLoads_changes (w : State) (c : Cur) (tab : LineTab) (fs : Forms) {give : Nat → Thread → Thread}
    (hg : OnlyPend give) : Changes w (w.takeLoads c tab fs give (give 0)) c.core c.slot
      fun _ => c.loaded (w.loadVals c.core tab fs.accs) fs.oobs give (give 0) :=
  w.mapBlock_changes c.core c.slot _
    (c.loaded_kept _ _ Thread.tid (fun _ _ => rfl) (fun v t => by rw [hg v t]) fun t => by rw [hg 0 t])

/-- A thread without maintenance that waits on no word stays so when it takes a value. -/
theorem State.takeLoads_quiet {w : State} {c : Cur} (tab : LineTab) (fs : Forms) {give : Nat → Thread → Thread}
    (hg : OnlyPend give) {tid : Nat} (h : w.Quiet c tid) : (w.takeLoads c tab fs give (give 0)).Quiet c tid := by
  obtain ⟨x, hx, hw, hm⟩ := h
  refine ⟨_, by rw [(w.takeLoads_changes c tab fs hg).thread?, hx]; rfl, ?_, ?_⟩
  · rw [c.loaded_kept _ _ Thread.onWord (fun _ _ => rfl) (fun v t => by rw [hg v t]; rfl) fun t => by rw [hg 0 t]; rfl]
    exact hw
  · rw [c.loaded_kept _ _ Thread.maint (fun _ _ => rfl) (fun v t => by rw [hg v t]) fun t => by rw [hg 0 t]]
    exact hm

/-- Without fences and an acquire a load changes nothing but its threads, `BSTAT` and clean bytes of copies. -/
theorem Runs.takeLoads_frame {s m w : State} {c : Cur} {b : Block} (hr : Runs s c b) (hfill : KeepsDirty m w)
    (tab : LineTab) {fs : Forms} (hfs : ∀ p ∈ fs, p.1 ∈ s.lanes) {give : Nat → Thread → Thread} (hg : OnlyPend give)
    (oob split : Bool) :
    let t := (w.takeLoads c tab fs give (give 0)).noted c oob split
    t = { m with blocks := t.blocks, copies := t.copies } ∧
      (m.copiesOk → ∀ h k, t.dirtyByte h k = m.dirtyByte h k) ∧
      (∀ core slot, ¬(core = c.core ∧ slot = c.slot) → t.block? core slot = m.block? core slot) ∧
      ∀ tid, tid ∉ c.act.map (·.2) → t.thread? c.core c.slot tid = m.thread? c.core c.slot tid := by
  intro t
  have htake := w.takeLoads_changes c tab fs hg
  refine ⟨?_, fun hok => hfill.dirty hok.homeClean, fun core slot hn => ?_, fun tid hn => ?_⟩
  · change { w with blocks := t.blocks } = _
    rw [hfill.rest]
    rfl
  · rw [State.noted_block?, if_neg hn, htake.others core slot hn, State.block?_congr hfill.blocks]
  · rw [State.noted_thread?, htake.thread?, State.thread?_congr hfill.blocks]
    cases hx : m.thread? c.core c.slot tid with
    | none => rfl
    | some x =>
      obtain ⟨_, _, hxb⟩ := Option.bind_eq_some_iff.mp hx
      rw [Option.map_some, c.loaded_other w c.core tab give (give 0) fun p hp he => hn ?_]
      rw [← Block.thread?_tid hxb, ← he]
      exact List.mem_map_of_mem (hr.lane (hfs p hp)).1

/-- An instruction whose meaning is a load that lands in registers loads. -/
theorem loads_of {i : Instr} {imm : Int} {sz : Size} {al : Nat} {h : Hint} {r : MO} {acq : Option Scope}
    (hx : ∀ s, exec i s = .next (s.load (s.forms r.k r.a imm (sizeBytes sz) al) h acq
      (fun v t => t.later r.d (extendTo sz v)) fun t => t.later r.d (extendTo sz 0))) :
    Loads i imm sz al h r acq := by
  intro s c b u tab hr hst fs seqs m v w value hreach hfull hbad
  let give : Nat → Thread → Thread := fun v t => t.later r.d (extendTo sz v)
  let y := w.takeLoads c tab fs give (give 0)
  let z := (y.seqAfter c seqs).acquireLoad c acq fs
  have hg : OnlyPend give := fun v t => by simp only [give, Thread.later_eq]
  have hfs : ∀ p ∈ fs, p.1 ∈ s.lanes := fun p hp => (State.mem_forms hp).1
  obtain ⟨hsv, hquiet⟩ : OnlyMaint s v ∧ ∀ k ∈ seqs, v.Quiet c k.1 := hr.readied hst hreach hfs h
  have hfill : KeepsDirty v w := v.fillReads_keepsDirty c.core h tab fs.accs
  have hwy := w.takeLoads_changes c tab fs hg
  have hyz : OnlyWaiters y z := by
    refine OnlyWaiters.trans (State.seqAfter_onlyWaiters fun k hk => ?_) (State.acquireLoad_onlyWaiters _ _ _ _)
    exact State.takeLoads_quiet tab fs hg ((OnlyWaiters.of_blocks hfill.blocks).onlyMaint.quiet (hquiet k hk))
  have hexec : exec i s = .next (z.noted c (fs.any fun f => f.2 == .oob)
      (fs.accs.any fun a => decide (1 < (linesOf a.vas).length))) :=
    (hx s).trans (congrArg _ (State.load_eq hr.cur hreach hfull hbad acq give (give 0) true))
  refine ⟨_, hexec, ?_, ?_, ?_⟩
  · intro l f hm
    have hl := hfs _ hm
    obtain ⟨x, hxv, hw⟩ := hsv.not_onWord (hr.thread?_lane hl) (Thread.not_onWord_of_cast (hst l hl))
    have hxy : y.thread? c.core c.slot l.t.tid = some { give (value l f) x with pc := c.nextPc } := by
      obtain ⟨_, _, hxb⟩ := Option.bind_eq_some_iff.mp hxv
      rw [hwy.thread?, State.thread?_congr hfill.blocks, hxv, Option.map_some,
        c.loaded_form w c.core tab (hr.forms_apart _ _ _ _ _) hreach.noTrap give hm (Block.thread?_tid hxb)]
      rfl
    rw [State.noted_thread?, hyz.thread?_eq hxy (by rw [hg]; exact hw), hxv]
    simp only [give, Thread.later_eq, Option.map_some]
  · obtain ⟨bv, hbv, hv⟩ := hsv.block hr.block
    obtain ⟨b', hby, hy, _⟩ := hwy.here bv (by rw [State.block?_congr hfill.blocks, hbv])
    obtain ⟨bz, hbz, hz⟩ := hyz.block hby
    have hbits : bz.bstat = b.bstat := calc
      bz.bstat = b'.bstat := by rw [hz]
      _ = bv.bstat := by rw [hy]
      _ = b.bstat := by rw [hv]
    rw [State.noted_bstat hbz, bstatOf, hbits]
    rfl
  · rintro rfl hseqs
    have hv : v = m := by simp only [v, hseqs]; rfl
    have hz : z = y := by simp only [z, hseqs]; rfl
    rw [hv] at hfill
    rw [hz]
    exact hr.takeLoads_frame hfill tab hfs hg _ _

/-! ## Settling -/

/-- R110, R117, R118. -/
theorem loadsRead : Rules.LoadsRead := fun _ _ _ _ _ _ => ⟨loads_of fun _ => rfl, loads_of fun _ => rfl⟩

/-- Settles O12: the offset, its verdict and the swizzle by their fields; a load is what stands in its way, the filling
of the caches, and the values that its threads take, behind which fences and an acquire change only waiters. -/
theorem loadsReadMemory : Obligations.LoadsReadMemory := ⟨recordOffsets, loadsRead⟩

end Sys2Proof.Machine
end

section
/-!
The order of the selection engine (O27), its keys: `Better` is a total order, and the order of a floating key's words is
the order of its values.
-/
namespace Sys2Proof.Machine

/-! ## `Better` -/

/-- `Better` case by case: by the keys where they differ, by the indices where they do not. -/
theorem better_iff (lo : Bool) (p q : Nat × Option Int) :
    better lo p q = true ↔
      (p.2 = q.2 ∧ p.1 < q.1) ∨ (p.2 ≠ none ∧ q.2 = none) ∨
        ∃ a b, p.2 = some a ∧ q.2 = some b ∧ if lo then a < b else b < a := by
  obtain ⟨i, _ | a⟩ := p <;> obtain ⟨j, _ | b⟩ := q
  · simp [better]
  · simp [better]
  · simp [better]
  · by_cases h : a = b <;> cases lo <;> simp [better, h]

theorem better_irrefl (lo : Bool) (p : Nat × Option Int) : better lo p p = false := by
  rw [Bool.eq_false_iff, Ne, better_iff]
  rintro (⟨-, h⟩ | ⟨h, h'⟩ | ⟨a, b, ha, hb, h⟩)
  · exact Nat.lt_irrefl _ h
  · exact h h'
  · obtain rfl : a = b := Option.some.inj (ha.symm.trans hb)
    simp at h

/-- Transitive: for each key a NaN or a value, and values by their order. -/
theorem better_trans {lo : Bool} {p q r : Nat × Option Int} (hpq : better lo p q = true) (hqr : better lo q r = true) :
    better lo p r = true := by
  obtain ⟨i, x⟩ := p
  obtain ⟨j, y⟩ := q
  obtain ⟨k, z⟩ := r
  rw [better_iff] at *
  rcases x with _ | a <;> rcases y with _ | b <;> rcases z with _ | c <;> cases lo <;> simp at hpq hqr ⊢ <;> omega

/-- Of two pairs of different indices exactly one ranks before the other: equal keys fall to the indices. -/
theorem better_total (lo : Bool) {p q : Nat × Option Int} (h : p.1 ≠ q.1) : better lo p q = !better lo q p := by
  obtain ⟨i, x⟩ := p
  obtain ⟨j, y⟩ := q
  rw [Bool.eq_iff_iff, Bool.not_eq_true', Bool.eq_false_iff, Ne, better_iff, better_iff]
  rcases x with _ | a <;> rcases y with _ | b <;> cases lo <;> simp at h ⊢ <;> omega

/-- R247. -/
theorem betterIsTotal : Rules.BetterIsTotal := fun lo p q r =>
  ⟨better_total lo, better_trans, fun hp hq => (better_iff lo p q).2 (.inr (.inl ⟨hp, hq⟩)),
    fun hk hi => (better_iff lo p q).2 (.inl ⟨hk, hi⟩), fun a b ha hb hab => by
      cases lo
      · simp [better, ha, hb, Int.ne_of_lt hab, Int.le_of_lt hab]
      · simp [better, ha, hb, Int.ne_of_lt hab, hab]⟩

/-! ## Values of a floating format -/

/-- The absolute value of a finite encoding, as a multiple of the least subnormal number. -/
def Fmt.mag (f : Fmt) (a : Nat) : Nat :=
  if a / 2 ^ f.frac = 0 then a % 2 ^ f.frac else (a % 2 ^ f.frac + 2 ^ f.frac) * 2 ^ (a / 2 ^ f.frac - 1)

/-- The exponent of the least subnormal number. -/
def Fmt.least (f : Fmt) : Int := 1 - (f.bias : Int) - f.frac

/-- The sign of an encoding. -/
def Fmt.sign (f : Fmt) (v : Nat) : Bool := v / f.signW % 2 == 1

/-- The value of an encoding as a multiple of the least subnormal number, an infinity as the next one after the largest
finite number. -/
def Fmt.units (f : Fmt) (v : Nat) : Int := if f.sign v then -(f.mag (v % f.signW) : Int) else f.mag (v % f.signW)

theorem Fmt.mag_zero (f : Fmt) : f.mag 0 = 0 := by simp [mag]

theorem Fmt.mag_of_fields (f : Fmt) (q : Nat) {m : Nat} (hm : m < 2 ^ f.frac) :
    f.mag (2 ^ f.frac * q + m) = if q = 0 then m else (m + 2 ^ f.frac) * 2 ^ (q - 1) := by
  have hdiv : (2 ^ f.frac * q + m) / 2 ^ f.frac = q := by
    rw [Nat.mul_add_div (Nat.two_pow_pos _), Nat.div_eq_of_lt hm, Nat.add_zero]
  rw [mag, hdiv, Nat.mul_add_mod, Nat.mod_eq_of_lt hm]

/-- From one encoding to the next the fraction rises, or the exponent does and the fraction starts again. -/
theorem Fmt.mag_lt_succ (f : Fmt) (a : Nat) : f.mag a < f.mag (a + 1) := by
  have hw : 0 < 2 ^ f.frac := Nat.two_pow_pos _
  have hm : a % 2 ^ f.frac < 2 ^ f.frac := Nat.mod_lt a hw
  rw [← Nat.div_add_mod a (2 ^ f.frac)]
  generalize a % 2 ^ f.frac = m at *
  generalize a / 2 ^ f.frac = q
  rw [f.mag_of_fields q hm]
  by_cases hnext : m + 1 < 2 ^ f.frac
  · rw [Nat.add_assoc, f.mag_of_fields q hnext]
    split
    · exact Nat.lt_succ_self m
    · exact Nat.mul_lt_mul_of_pos_right (by omega) (Nat.two_pow_pos _)
  · have hwrap : 2 ^ f.frac * q + m + 1 = 2 ^ f.frac * (q + 1) + 0 := by
      rw [Nat.mul_add]
      omega
    rw [hwrap, f.mag_of_fields (q + 1) hw]
    cases q with
    | zero => simpa using hm
    | succ q =>
      calc (m + 2 ^ f.frac) * 2 ^ (q + 1 - 1) < (2 * 2 ^ f.frac) * 2 ^ q :=
            Nat.mul_lt_mul_of_pos_right (by omega) (Nat.two_pow_pos _)
        _ = (0 + 2 ^ f.frac) * 2 ^ (q + 1) := by
            rw [Nat.zero_add, Nat.pow_succ', ← Nat.mul_assoc, Nat.mul_comm 2]

theorem Fmt.mag_lt_mag (f : Fmt) {a b : Nat} (h : a < b) : f.mag a < f.mag b := by
  induction h with
  | refl => exact f.mag_lt_succ a
  | step _ ih => exact Nat.lt_trans ih (f.mag_lt_succ _)

theorem Fmt.mag_lt_mag_iff (f : Fmt) {a b : Nat} : f.mag a < f.mag b ↔ a < b := by
  refine ⟨fun h => Nat.lt_of_not_le fun hba => ?_, f.mag_lt_mag⟩
  rcases Nat.lt_or_eq_of_le hba with hlt | rfl
  · exact Nat.lt_asymm h (f.mag_lt_mag hlt)
  · exact Nat.lt_irrefl _ h

/-- An encoding that is no NaN is an infinity, one past the largest finite number, or its units. -/
theorem Fmt.val_of_ne_nan {f : Fmt} (hinf : f.inf = some (f.top + 1)) {v : Nat} (h : f.val v ≠ .nan) :
    (v % f.signW = f.top + 1 ∧ f.val v = .inf (f.sign v)) ∨
    (v % f.signW ≤ f.top ∧ ∃ m e, f.val v = .fin (f.sign v) m e ∧ f.least ≤ e ∧
      m * 2 ^ (e - f.least).toNat = f.mag (v % f.signW)) := by
  simp only [val, mag, sign, least, hinf] at *
  generalize v % f.signW = a at *
  by_cases htop : f.top < a
  · have ha : f.top + 1 = a := Decidable.byContradiction fun hne => by simp [htop, hne] at h
    exact .inl ⟨ha.symm, by simp [htop, ha]⟩
  · refine .inr ⟨by omega, ?_⟩
    by_cases h0 : a / 2 ^ f.frac = 0
    · exact ⟨a % 2 ^ f.frac, _, by rw [if_neg htop, if_pos h0], Int.le_refl _, by simp [h0]⟩
    · rw [if_neg htop, if_neg h0, if_neg h0]
      generalize a / 2 ^ f.frac = d at *
      refine ⟨a % 2 ^ f.frac + 2 ^ f.frac, _, rfl, by omega, ?_⟩
      congr 2
      omega

/-- Scaled to a smaller exponent, a value gains the power of two between the exponents. -/
theorem scaled_lower (s : Bool) (m : Nat) {e e0 q : Int} (hq : q ≤ e0) (he : e0 ≤ e) :
    scaled s m e q = scaled s m e e0 * ((2 ^ (e0 - q).toNat : Nat) : Int) := by
  have hexp : (e - q).toNat = (e - e0).toNat + (e0 - q).toNat := by omega
  have hmul : ((m * 2 ^ (e - q).toNat : Nat) : Int) =
      ((m * 2 ^ (e - e0).toNat : Nat) : Int) * ((2 ^ (e0 - q).toNat : Nat) : Int) := by
    rw [hexp, Nat.pow_add, ← Nat.mul_assoc, Int.natCast_mul]
  cases s
  · exact hmul
  · exact (congrArg Neg.neg hmul).trans (Int.neg_mul _ _).symm

/-- Two finite values compare as their multiples of any power of two that divides both. -/
theorem FV.lt_fin (s t : Bool) (m n : Nat) {e g q : Int} (he : q ≤ e) (hg : q ≤ g) :
    (FV.fin s m e).lt (.fin t n g) = decide (scaled s m e q < scaled t n g q) := by
  have hpos : (0 : Int) < ((2 ^ ((if e < g then e else g) - q).toNat : Nat) : Int) := by exact_mod_cast Nat.two_pow_pos _
  have hmin : q ≤ (if e < g then e else g) := by split <;> assumption
  rw [scaled_lower s m hmin (by split <;> omega), scaled_lower t n hmin (by split <;> omega)]
  simp only [FV.lt, Int.mul_lt_mul_right hpos]

theorem Fmt.val_lt {f : Fmt} (hinf : f.inf = some (f.top + 1)) {x y : Nat} (hx : f.val x ≠ .nan) (hy : f.val y ≠ .nan) :
    (f.val x).lt (f.val y) = decide (f.units x < f.units y) := by
  have hmag {a : Nat} (ha : a ≤ f.top) : f.mag a < f.mag (f.top + 1) := f.mag_lt_mag (by omega)
  have hscaled {v m : Nat} {e : Int} (hm : m * 2 ^ (e - f.least).toNat = f.mag (v % f.signW)) :
      scaled (f.sign v) m e f.least = f.units v := by simp only [scaled, hm, units]
  rcases f.val_of_ne_nan hinf hx with ⟨hax, hvx⟩ | ⟨hax, m, e, hvx, hex, hmx⟩ <;>
    rcases f.val_of_ne_nan hinf hy with ⟨hay, hvy⟩ | ⟨hay, n, g, hvy, hey, hmy⟩ <;> rw [hvx, hvy]
  · have hpos : 0 < f.mag (f.top + 1) := Nat.lt_of_le_of_lt (Nat.zero_le _) (hmag (Nat.le_refl _))
    simp only [FV.lt, units, hax, hay]
    cases f.sign x <;> cases f.sign y <;> simp <;> omega
  · have := hmag hay
    simp only [FV.lt, units, hax]
    cases f.sign x <;> cases f.sign y <;> simp <;> omega
  · have := hmag hax
    simp only [FV.lt, units, hay]
    cases f.sign x <;> cases f.sign y <;> simp <;> omega
  · rw [FV.lt_fin _ _ _ _ hex hey, hscaled hmx, hscaled hmy]

theorem Fmt.neg_val {f : Fmt} (hinf : f.inf = some (f.top + 1)) {v : Nat} (h : f.val v ≠ .nan) :
    (f.val v).neg = f.sign v := by
  rcases f.val_of_ne_nan hinf h with ⟨-, hv⟩ | ⟨-, m, e, hv, -, -⟩ <;> rw [hv] <;> rfl

theorem Fmt.isZero_val {f : Fmt} (hinf : f.inf = some (f.top + 1)) {v : Nat} (h : f.val v ≠ .nan) :
    (f.val v).isZero = decide (f.mag (v % f.signW) = 0) := by
  rcases f.val_of_ne_nan hinf h with ⟨ha, hv⟩ | ⟨-, m, e, hv, -, hm⟩ <;> rw [hv]
  · have : f.mag 0 < f.mag (f.top + 1) := f.mag_lt_mag (by omega)
    rw [ha]
    simp only [FV.isZero]
    simp; omega
  · rw [← hm]
    simp only [FV.isZero, Nat.mul_eq_zero, Nat.ne_of_gt (Nat.two_pow_pos _), or_false]
    rfl

/-! ## Floating keys -/

/-- The place of an encoding among the encodings of its format: ascending from 0, negative ones descending from -1. -/
def Fmt.place (f : Fmt) (v : Nat) : Int :=
  if f.signW ≤ v then -((v % f.signW : Nat) : Int) - 1 else (v % f.signW : Nat)

/-- A floating key: its place, none for a NaN. -/
def Fmt.key (f : Fmt) (v : Nat) : Option Int := if f.val v == .nan then none else some (f.place v)

theorem keyRank_f32 {op : Nat} (h : op < 2) (v : Nat) : keyRank op 0 v = f32.key v := by
  simp only [keyRank, Nat.ne_of_lt h, if_false]; rfl

theorem keyRank_bf16 {op : Nat} (h : op < 2) (v : Nat) : keyRank op 1 v = bf16.key v := by
  simp only [keyRank, Nat.ne_of_lt h, if_false]; rfl

theorem Fmt.key_eq_none_iff (f : Fmt) (v : Nat) : f.key v = none ↔ f.val v = .nan := by simp [key]

theorem Fmt.key_eq_some_iff (f : Fmt) (v : Nat) (i : Int) : f.key v = some i ↔ f.val v ≠ .nan ∧ f.place v = i := by
  by_cases h : f.val v = .nan <;> simp [key, h]

theorem Fmt.sign_eq {f : Fmt} {v : Nat} (h : v < 2 * f.signW) : f.sign v = decide (f.signW ≤ v) := by
  have hw : 0 < f.signW := Nat.two_pow_pos _
  by_cases hs : f.signW ≤ v
  · have : v / f.signW = 1 := Nat.div_eq_of_lt_le (by omega) (by omega)
    simp [sign, this, hs]
  · simp [sign, Nat.div_eq_of_lt (Nat.lt_of_not_le hs), hs]

theorem Fmt.place_inj {f : Fmt} {x y : Nat} (hx : x < 2 * f.signW) (hy : y < 2 * f.signW) :
    f.place x = f.place y ↔ x = y := by
  have hmod {v : Nat} (h : v < 2 * f.signW) : v % f.signW = if f.signW ≤ v then v - f.signW else v := by
    split
    · rw [Nat.mod_eq_sub_mod ‹_›, Nat.mod_eq_of_lt (by omega)]
    · exact Nat.mod_eq_of_lt (by omega)
  simp only [place, hmod hx, hmod hy]
  split <;> split <;> omega

/-- Places are in the order of the values: within a sign the magnitudes decide, and every negative encoding, -0.0 with
them, stands below every positive one. -/
theorem Fmt.place_lt_iff {f : Fmt} (hinf : f.inf = some (f.top + 1)) {x y : Nat} (hx : x < 2 * f.signW)
    (hy : y < 2 * f.signW) (hnx : f.val x ≠ .nan) (hny : f.val y ≠ .nan) :
    f.place x < f.place y ↔ (f.val x).below (f.val y) = true := by
  have hmag := f.mag_lt_mag_iff (a := x % f.signW) (b := y % f.signW)
  have hmag' := f.mag_lt_mag_iff (a := y % f.signW) (b := x % f.signW)
  simp only [FV.below, f.val_lt hinf hnx hny, f.isZero_val hinf hnx, f.isZero_val hinf hny, f.neg_val hinf hnx,
    f.neg_val hinf hny, place, units, f.sign_eq hx, f.sign_eq hy]
  by_cases hsx : f.signW ≤ x <;> by_cases hsy : f.signW ≤ y <;> simp [hsx, hsy] <;> omega

/-- The keys of a format that has infinities compare by value. -/
theorem Fmt.key_byValue {f : Fmt} (hinf : f.inf = some (f.top + 1)) {x y : Nat} (hx : x < 2 * f.signW)
    (hy : y < 2 * f.signW) :
    (f.key x = none ↔ f.val x = .nan) ∧
    ∀ i j, f.key x = some i → f.key y = some j → (i < j ↔ (f.val x).below (f.val y) = true) ∧ (i = j ↔ x = y) := by
  refine ⟨f.key_eq_none_iff x, fun i j hi hj => ?_⟩
  obtain ⟨hnx, rfl⟩ := (f.key_eq_some_iff x i).1 hi
  obtain ⟨hny, rfl⟩ := (f.key_eq_some_iff y j).1 hj
  exact ⟨f.place_lt_iff hinf hx hy hnx hny, f.place_inj hx hy⟩

/-- R247. -/
theorem keysCompareByValue : Rules.KeysCompareByValue := by
  intro op a b ha hb
  refine ⟨fun hop => ⟨?_, fun ha hb => ?_, ?_⟩, ?_⟩
  · simp only [keyRank_f32 hop]
    exact f32.key_byValue rfl ha hb
  · simp only [keyRank_bf16 hop]
    exact bf16.key_byValue rfl ha hb
  · simp [keyRank, Nat.ne_of_lt hop]
  · rintro rfl
    simp [keyRank]

end Sys2Proof.Machine
end

section
/-!
The ranking of the selection engine (O27): a ranked list is sorted, so that the place of an entry is the number of entries
before it; the distinct values of `SELU` with their counts.
-/
namespace Sys2Proof.Machine

/-! ## Places in a sorted list -/

/-- In a list sorted by a strict order, as many entries stand below the one at place `r` as places before it. -/
theorem countP_lt_getElem {α : Type} {lt : α → α → Bool} (hirr : ∀ a, lt a a = false)
    (htr : ∀ {a b c}, lt a b = true → lt b c = true → lt a c = true) :
    ∀ {l : List α}, l.Pairwise (fun a b => lt a b = true) → ∀ {r : Nat} {x : α}, l[r]? = some x →
      l.countP (fun a => lt a x) = r
  | [], _, r, x, hx => by simp at hx
  | a :: l, hl, r, x, hx => by
    obtain ⟨ha, hl⟩ := List.pairwise_cons.mp hl
    cases r with
    | zero =>
      obtain rfl : a = x := by simpa using hx
      have hnone : l.countP (fun b => lt b a) = 0 := List.countP_eq_zero.2 fun b hb hba => by
        simpa [hirr] using htr (ha b hb) hba
      simp [hirr, hnone]
    | succ r =>
      have hx : l[r]? = some x := by simpa using hx
      rw [List.countP_cons_of_pos (p := fun b => lt b x) (ha x (List.mem_of_getElem? hx)), countP_lt_getElem hirr htr hl hx]

/-! ## The k best pairs -/

/-- Induction along a list that grows at its end, as a ranked list takes its pairs. -/
theorem concat_induction {α : Type} {motive : List α → Prop} (nil : motive [])
    (concat : ∀ l a, motive l → motive (l ++ [a])) (l : List α) : motive l := by
  have hrev : ∀ r : List α, motive r.reverse := fun r => by
    induction r with
    | nil => exact nil
    | cons a r ih => exact List.reverse_cons ▸ concat r.reverse a ih
  exact List.reverse_reverse l ▸ hrev l.reverse

theorem rankInto_perm (lo : Bool) (p : Nat × Option Int) (l : List (Nat × Option Int)) :
    (rankInto lo p l).Perm (p :: l) := by
  induction l with
  | nil => exact .refl _
  | cons q l ih =>
    rw [rankInto]
    split
    · exact .refl _
    · exact (ih.cons q).trans (.swap p q l)

theorem rankInto_sorted {lo : Bool} {p : Nat × Option Int} {l : List (Nat × Option Int)}
    (hl : l.Pairwise fun a b => better lo a b = true) (hp : ∀ q ∈ l, p.1 ≠ q.1) :
    (rankInto lo p l).Pairwise fun a b => better lo a b = true := by
  induction l with
  | nil => simp [rankInto]
  | cons q l ih =>
    obtain ⟨hq, hl'⟩ := List.pairwise_cons.mp hl
    rw [rankInto]
    split
    · next hpq =>
      refine List.pairwise_cons.mpr ⟨fun x hx => ?_, hl⟩
      rcases List.mem_cons.mp hx with rfl | hx
      · exact hpq
      · exact better_trans hpq (hq x hx)
    · next hpq =>
      have hqp : better lo q p = true := by
        rw [better_total lo (hp q List.mem_cons_self).symm, Bool.eq_false_iff.mpr hpq, Bool.not_false]
      refine List.pairwise_cons.mpr ⟨fun x hx => ?_, ih hl' fun y hy => hp y (List.mem_cons_of_mem q hy)⟩
      rcases List.mem_cons.mp ((rankInto_perm lo p l).mem_iff.mp hx) with rfl | hx
      · exact hqp
      · exact hq x hx

/-- The first `k` places after a pair is put in depend on the first `k` places before alone. -/
theorem take_rankInto (lo : Bool) (p : Nat × Option Int) (k : Nat) (l : List (Nat × Option Int)) :
    (rankInto lo p (l.take k)).take k = (rankInto lo p l).take k := by
  induction l generalizing k with
  | nil => simp
  | cons q l ih =>
    cases k with
    | zero => simp
    | succ k =>
      simp only [List.take_succ_cons, rankInto]
      split
      · simp only [List.take_succ_cons]
        cases k with
        | zero => simp
        | succ k => simp [List.take_take]
      · simp only [List.take_succ_cons, ih]

/-- All pairs in rank order. -/
def ranked (lo : Bool) (ps : List (Nat × Option Int)) : List (Nat × Option Int) :=
  ps.foldl (fun l p => rankInto lo p l) []

theorem ranked_concat (lo : Bool) (ps : List (Nat × Option Int)) (p : Nat × Option Int) :
    ranked lo (ps ++ [p]) = rankInto lo p (ranked lo ps) := by simp [ranked]

theorem rankBest_eq_take (lo : Bool) (k : Nat) (ps : List (Nat × Option Int)) :
    rankBest lo k ps = (ranked lo ps).take k := by
  induction ps using concat_induction with
  | nil => simp [rankBest, ranked]
  | concat ps p ih =>
    calc rankBest lo k (ps ++ [p]) = (rankInto lo p (rankBest lo k ps)).take k := by simp [rankBest]
      _ = (ranked lo (ps ++ [p])).take k := by rw [ih, take_rankInto, ranked_concat]

theorem ranked_perm (lo : Bool) (ps : List (Nat × Option Int)) : (ranked lo ps).Perm ps := by
  induction ps using concat_induction with
  | nil => exact .refl _
  | concat ps p ih =>
    rw [ranked_concat]
    exact ((rankInto_perm lo p _).trans (ih.cons p)).trans (List.perm_append_singleton p ps).symm

theorem ranked_sorted (lo : Bool) {ps : List (Nat × Option Int)} (h : ps.Pairwise fun p q => p.1 ≠ q.1) :
    (ranked lo ps).Pairwise fun a b => better lo a b = true := by
  induction ps using concat_induction with
  | nil => exact .nil
  | concat ps p ih =>
    obtain ⟨hps, -, hp⟩ := List.pairwise_append.mp h
    rw [ranked_concat]
    exact rankInto_sorted (ih hps) fun q hq =>
      (hp q ((ranked_perm lo ps).mem_iff.mp hq) p (List.mem_singleton_self p)).symm

/-! ## The pairs of a segment -/

/-- A key of a command with its index, as `Better` compares it. -/
def SelCmd.pair (c : SelCmd) (keys : List Nat) (j : Nat) : Nat × Option Int := (j, keyRank c.op c.ext (keys.getD j 0))

/-- The pairs of a segment in rank order. -/
def SelCmd.rankedSeg (c : SelCmd) (keys : List Nat) (lo hi : Nat) : List (Nat × Option Int) :=
  ranked (c.ext.testBit 2) ((List.range' lo (hi - lo)).map (c.pair keys))

/-- The bytes written for a rank: the index and the key's bits, or a fill pair. -/
def rankBytes (keys : List Nat) : Option (Nat × Option Int) → List Byte
  | some p => bytesLE 4 p.1 ++ bytesLE 4 (keys.getD p.1 0)
  | none => bytesLE 4 0xFFFFFFFF ++ bytesLE 4 0

theorem bitAt_eq_testBit (v i : Nat) : bitAt v i = v.testBit i := by
  rw [bitAt, Nat.testBit_eq_decide_div_mod_eq]
  rfl

theorem SelCmd.rankedSeg_length (c : SelCmd) (keys : List Nat) (lo hi : Nat) :
    (c.rankedSeg keys lo hi).length = hi - lo := by
  rw [rankedSeg, (ranked_perm _ _).length_eq, List.length_map, List.length_range']

theorem SelCmd.rankedSeg_sorted (c : SelCmd) (keys : List Nat) (lo hi : Nat) :
    (c.rankedSeg keys lo hi).Pairwise fun a b => better (c.ext.testBit 2) a b = true :=
  ranked_sorted _ (List.pairwise_map.mpr (List.nodup_range' (s := lo) (n := hi - lo)))

/-- Without a payload, rank `r` of a segment writes the pair at place `r` of the ranked segment. -/
theorem segOut_getElem? {c : SelCmd} (hpb : sePb c.desc = 0) {r : Nat} (hr : r < seK c.desc) (keys : List Nat)
    (base lo hi : Nat) :
    (segOut c keys base lo hi)[r]? =
      some (.bytes (c.oo + 8 * (base + r)) (rankBytes keys (c.rankedSeg keys lo hi)[r]?)) := by
  have hbest : rankBest (bitAt c.ext 2) (seK c.desc)
      ((List.range (hi - lo)).map fun i => (lo + i, keyRank c.op c.ext (keys.getD (lo + i) 0))) =
        (c.rankedSeg keys lo hi).take (seK c.desc) := by
    rw [rankBest_eq_take, bitAt_eq_testBit, SelCmd.rankedSeg, List.range'_eq_map_range, List.map_map]
    rfl
  have hout : segOut c keys base lo hi = (List.range (seK c.desc)).map fun r =>
      .bytes (c.oo + 8 * (base + r)) (rankBytes keys ((c.rankedSeg keys lo hi).take (seK c.desc))[r]?) := by
    simp only [segOut, hbest, hpb, if_true]
    rw [List.map_eq_flatMap]
    refine congrArg (List.flatMap · _) (funext fun r => ?_)
    cases ((c.rankedSeg keys lo hi).take (seK c.desc))[r]? <;> rfl
  simp [hout, hr, List.getElem?_take]

/-- The keys of a segment, as a filter of all indices. -/
theorem filter_segment_perm {lo hi n : Nat} (h : hi ≤ n) :
    ((List.range n).filter fun i => decide (lo ≤ i) && decide (i < hi)).Perm (List.range' lo (hi - lo)) := by
  refine (List.perm_ext_iff_of_nodup (List.nodup_range.filter _) List.nodup_range').2 fun i => ?_
  simp only [List.mem_filter, List.mem_range, Bool.and_eq_true, decide_eq_true_eq, List.mem_range'_1]
  omega

/-- The pair at place `r` of the ranked segment is that of a key that exactly `r` keys of the segment rank before. -/
theorem SelCmd.rankedSeg_getElem? {c : SelCmd} {keys : List Nat} {lo hi r : Nat} (hhi : hi ≤ keys.length)
    {p : Nat × Option Int} (hp : (c.rankedSeg keys lo hi)[r]? = some p) :
    ∃ j, lo ≤ j ∧ j < hi ∧ p = c.pair keys j ∧
      ((List.range keys.length).filter fun i => decide (lo ≤ i) && decide (i < hi) &&
        better (c.ext.testBit 2) (c.pair keys i) (c.pair keys j)).length = r := by
  obtain ⟨j, hj, rfl⟩ := List.mem_map.mp ((ranked_perm _ _).mem_iff.mp (List.mem_of_getElem? hp))
  rw [List.mem_range'_1] at hj
  refine ⟨j, hj.1, by omega, rfl, ?_⟩
  calc _ = ((List.range keys.length).filter fun i => decide (lo ≤ i) && decide (i < hi)).countP
          fun i => better (c.ext.testBit 2) (c.pair keys i) (c.pair keys j) := by
        rw [List.countP_eq_length_filter, List.filter_filter]
        simp only [Bool.and_comm]
    _ = (List.range' lo (hi - lo)).countP fun i => better (c.ext.testBit 2) (c.pair keys i) (c.pair keys j) :=
        (filter_segment_perm hhi).countP_eq _
    _ = (c.rankedSeg keys lo hi).countP fun q => better (c.ext.testBit 2) q (c.pair keys j) := by
        rw [rankedSeg, (ranked_perm _ _).countP_eq, List.countP_map]
        rfl
    _ = r := countP_lt_getElem (better_irrefl _) better_trans (c.rankedSeg_sorted keys lo hi) hp

/-! ## The distinct values of `SELU` -/

theorem mem_fst_countInto (v x : Int) (bits j : Nat) (l : List Distinct) :
    x ∈ (countInto v bits j l).map (·.1) ↔ x = v ∨ x ∈ l.map (·.1) := by
  induction l with
  | nil => simp [countInto]
  | cons d l ih =>
    rw [countInto]
    split
    · simp
    · split
      · next h => simp [h]
      · rw [List.map_cons, List.mem_cons, ih, List.map_cons, List.mem_cons, or_left_comm]

theorem countInto_sorted {v : Int} {bits j : Nat} {l : List Distinct} (hl : (l.map (·.1)).Pairwise (· < ·)) :
    ((countInto v bits j l).map (·.1)).Pairwise (· < ·) := by
  induction l with
  | nil => simp [countInto]
  | cons d l ih =>
    obtain ⟨hd, hl'⟩ := List.pairwise_cons.mp hl
    rw [countInto]
    split
    · next h =>
      refine List.pairwise_cons.mpr ⟨fun x hx => ?_, hl⟩
      rcases List.mem_cons.mp hx with rfl | hx
      · exact h
      · exact Int.lt_trans h (hd x hx)
    · split
      · exact hl
      · refine List.pairwise_cons.mpr ⟨fun x hx => ?_, ih hl'⟩
        rcases (mem_fst_countInto ..).mp hx with rfl | hx
        · show d.1 < x
          omega
        · exact hd x hx

/-- An entry after a key of value `v` is counted: an entry of another value, a new one, or an old one counted up. -/
theorem mem_countInto {v : Int} {bits j : Nat} {l : List Distinct} (hl : (l.map (·.1)).Pairwise (· < ·)) {d : Distinct}
    (hd : d ∈ countInto v bits j l) :
    (d ∈ l ∧ d.1 ≠ v) ∨ (d = (v, bits, 1, j) ∧ v ∉ l.map (·.1)) ∨
      ∃ x ∈ l, x.1 = v ∧ d = (v, x.2.1, x.2.2.1 + 1, x.2.2.2) := by
  induction l with
  | nil => exact .inr (.inl ⟨List.mem_singleton.mp hd, List.not_mem_nil⟩)
  | cons e l ih =>
    obtain ⟨he, hl'⟩ := List.pairwise_cons.mp hl
    have he : ∀ x ∈ l, e.1 < x.1 := fun x hx => he x.1 (List.mem_map_of_mem hx)
    rw [countInto] at hd
    split at hd
    · next hv =>
      have hne : ∀ x ∈ e :: l, x.1 ≠ v := List.forall_mem_cons.2 ⟨Int.ne_of_gt hv, fun x hx => Int.ne_of_gt (Int.lt_trans hv (he x hx))⟩
      rcases List.mem_cons.mp hd with rfl | hd
      · exact .inr (.inl ⟨rfl, fun hm => let ⟨x, hx, hxv⟩ := List.mem_map.mp hm; hne x hx hxv⟩)
      · exact .inl ⟨hd, hne d hd⟩
    · split at hd
      · next hv =>
        rcases List.mem_cons.mp hd with rfl | hd
        · exact .inr (.inr ⟨e, List.mem_cons_self, hv.symm, by rw [hv]⟩)
        · exact .inl ⟨List.mem_cons_of_mem _ hd, hv ▸ Int.ne_of_gt (he d hd)⟩
      · next hv =>
        rcases List.mem_cons.mp hd with rfl | hd
        · exact .inl ⟨List.mem_cons_self, Ne.symm hv⟩
        · rcases ih hl' hd with ⟨hd, hne⟩ | ⟨rfl, hnew⟩ | ⟨x, hx, h⟩
          · exact .inl ⟨List.mem_cons_of_mem _ hd, hne⟩
          · exact .inr (.inl ⟨rfl, by rw [List.map_cons, List.mem_cons, not_or]; exact ⟨hv, hnew⟩⟩)
          · exact .inr (.inr ⟨x, List.mem_cons_of_mem _ hx, h⟩)

/-- A list of distinct values is that of some keys: ascending, each with its number of keys, none missing. -/
structure Tally (rk : Nat → Int) (keys : List Nat) (ds : List Distinct) : Prop where
  sorted : (ds.map (·.1)).Pairwise (· < ·)
  entry : ∀ d ∈ ds, d.1 = rk d.2.1 ∧ d.2.1 ∈ keys ∧ d.2.2.1 = keys.count d.2.1
  all : ∀ k ∈ keys, rk k ∈ ds.map (·.1)

theorem Tally.countInto {rk : Nat → Int} {keys : List Nat} {ds : List Distinct} {k : Nat} (h : Tally rk keys ds)
    (hinj : ∀ a ∈ keys, rk a = rk k → a = k) (j : Nat) :
    Tally rk (keys ++ [k]) (countInto (rk k) k j ds) where
  sorted := countInto_sorted h.sorted
  entry d hd := by
    rcases mem_countInto h.sorted hd with ⟨hd, hne⟩ | ⟨rfl, hnew⟩ | ⟨x, hx, hxk, rfl⟩
    · obtain ⟨hrk, hmem, hcount⟩ := h.entry d hd
      have hk : k ≠ d.2.1 := by rintro rfl; exact hne hrk
      exact ⟨hrk, List.mem_append_left _ hmem, by simp [hcount, hk]⟩
    · have hk : k ∉ keys := fun hk => hnew (h.all k hk)
      exact ⟨rfl, by simp, by simp [List.count_eq_zero_of_not_mem hk]⟩
    · obtain ⟨hrk, hmem, hcount⟩ := h.entry x hx
      obtain rfl : x.2.1 = k := hinj _ hmem (hrk.symm.trans hxk)
      exact ⟨rfl, by simp, by simp [hcount]⟩
  all a ha := by
    rw [mem_fst_countInto]
    rcases List.mem_append.mp ha with ha | ha
    · exact .inr (h.all a ha)
    · exact .inl (congrArg rk (List.mem_singleton.mp ha))

/-- The distinct values of some keys. -/
def distinctOf (rk : Nat → Int) (keys : List Nat) : List Distinct :=
  keys.zipIdx.foldl (fun l x => countInto (rk x.1) x.1 x.2 l) []

theorem tally_distinctOf {rk : Nat → Int} {keys : List Nat} (hinj : ∀ a ∈ keys, ∀ b ∈ keys, rk a = rk b → a = b) :
    Tally rk keys (distinctOf rk keys) := by
  induction keys using concat_induction with
  | nil => exact ⟨.nil, nofun, nofun⟩
  | concat keys k ih =>
    have hstep : distinctOf rk (keys ++ [k]) = Machine.countInto (rk k) k keys.length (distinctOf rk keys) := by
      simp [distinctOf, List.zipIdx_append]
    rw [hstep]
    exact (ih fun a ha b hb => hinj a (List.mem_append_left _ ha) b (List.mem_append_left _ hb)).countInto
      (fun a ha => hinj a (List.mem_append_left _ ha) k (by simp)) _

theorem nodup_eraseDups {α : Type} [BEq α] [LawfulBEq α] : ∀ l : List α, l.eraseDups.Nodup
  | [] => by simp
  | a :: l => by
    rw [List.eraseDups_cons, List.nodup_cons]
    exact ⟨by simp [List.mem_eraseDups], nodup_eraseDups _⟩
termination_by l => l.length
decreasing_by exact Nat.lt_succ_of_le (List.length_filter_le _ _)

theorem Tally.perm_eraseDups {rk : Nat → Int} {keys : List Nat} {ds : List Distinct} (h : Tally rk keys ds)
    (hinj : ∀ a ∈ keys, ∀ b ∈ keys, rk a = rk b → a = b) : (ds.map (·.2.1)).Perm keys.eraseDups := by
  have hnodup : (ds.map (·.2.1)).Nodup := by
    refine List.pairwise_map.mpr ((List.pairwise_map.mp h.sorted).imp_of_mem fun {d e} hd he hlt heq => Int.ne_of_lt hlt ?_)
    rw [(h.entry d hd).1, (h.entry e he).1, heq]
  refine (List.perm_ext_iff_of_nodup hnodup (nodup_eraseDups keys)).2 fun a => ?_
  rw [List.mem_eraseDups, List.mem_map]
  constructor
  · rintro ⟨d, hd, rfl⟩
    exact (h.entry d hd).2.1
  · intro ha
    obtain ⟨d, hd, hda⟩ := List.mem_map.mp (h.all a ha)
    obtain ⟨hrk, hmem, -⟩ := h.entry d hd
    exact ⟨d, hd, hinj _ hmem a ha (hrk.symm.trans hda)⟩

/-- The value at place `r` is one that exactly `r` distinct values stand below. -/
theorem Tally.rank_getElem? {rk : Nat → Int} {keys : List Nat} {ds : List Distinct} (h : Tally rk keys ds)
    (hinj : ∀ a ∈ keys, ∀ b ∈ keys, rk a = rk b → a = b) {r : Nat} {d : Distinct} (hd : ds[r]? = some d) :
    (keys.eraseDups.filter fun x => decide (rk x < rk d.2.1)).length = r := by
  have hval : rk d.2.1 = d.1 := (h.entry d (List.mem_of_getElem? hd)).1.symm
  calc _ = keys.eraseDups.countP fun x => decide (rk x < d.1) := by rw [List.countP_eq_length_filter, hval]
    _ = ds.countP fun e => decide (rk e.2.1 < d.1) := by
        rw [← (h.perm_eraseDups hinj).countP_eq, List.countP_map]
        rfl
    _ = ds.countP fun e => decide (e.1 < d.1) := List.countP_congr fun e he => by rw [(h.entry e he).1]
    _ = r := countP_lt_getElem (lt := fun a b : Distinct => decide (a.1 < b.1)) (by simp)
        (fun hab hbc => by simp only [decide_eq_true_eq] at *; omega)
        ((List.pairwise_map.mp h.sorted).imp decide_eq_true) hd

/-- `SELU`'s key types are exact: keys of equal value have equal bits. -/
theorem seluKey_inj (ext : Nat) {a b : Nat} (ha : a < 2 ^ (if ext % 4 < 2 then 32 else 64))
    (hb : b < 2 ^ (if ext % 4 < 2 then 32 else 64))
    (h : (keyRank 2 ext a).getD 0 = (keyRank 2 ext b).getD 0) : a = b := by
  have hsigned {w : Nat} (ha : a < 2 ^ w) (hb : b < 2 ^ w) (h : toSigned w a = toSigned w b) : a = b := by
    rw [toSigned_eq_toInt, toSigned_eq_toInt] at h
    have := congrArg BitVec.toNat (BitVec.eq_of_toInt_eq h)
    rwa [BitVec.toNat_ofNat, BitVec.toNat_ofNat, Nat.mod_eq_of_lt ha, Nat.mod_eq_of_lt hb] at this
  have hnat (h : (a : Int) = b) : a = b := by omega
  have hty : ext % 4 = 0 ∨ ext % 4 = 1 ∨ ext % 4 = 2 ∨ ext % 4 = 3 := by omega
  rcases hty with he | he | he | he
  · exact hsigned (w := 32) (by simpa [he] using ha) (by simpa [he] using hb) (by simpa [keyRank, he] using h)
  · exact hnat (by simpa [keyRank, he] using h)
  · exact hsigned (w := 64) (by simpa [he] using ha) (by simpa [he] using hb) (by simpa [keyRank, he] using h)
  · exact hnat (by simpa [keyRank, he] using h)

/-- Without a payload, `SELU` writes the number of distinct values, then each with its number. -/
theorem seluOut_eq {c : SelCmd} (hpb : sePb c.desc = 0) (keys : List Nat) :
    let es := if c.ext % 4 < 2 then 4 else 8
    let ds := distinctOf (fun x => (keyRank 2 c.ext x).getD 0) keys
    seluOut c keys = .bytes c.oo (bytesLE 16 ds.length) ::
      ds.zipIdx.map fun x => .bytes (c.oo + 16 + x.2 * (2 * es)) (bytesLE es x.1.2.1 ++ bytesLE es x.1.2.2.1) := by
  have hes : entrySize c.ext = 2 * (if c.ext % 4 < 2 then 4 else 8) := by rw [entrySize]; split <;> rfl
  simp only [seluOut, hpb, hes, if_true, ← List.map_eq_flatMap, Nat.mul_div_cancel_left _ Nat.two_pos]
  rfl

/-- R248, R249, R250. -/
theorem selectionRanks : Rules.SelectionRanks := by
  constructor
  · intro c keys base lo hi r _ hpb hhi hr
    refine ⟨fun hfill => ?_, fun hseg => ?_⟩
    · have hnone : (c.rankedSeg keys lo hi)[r]? = none :=
        List.getElem?_eq_none (c.rankedSeg_length keys lo hi ▸ hfill)
      rw [segOut_getElem? hpb hr, hnone]
      rfl
    · obtain ⟨p, hp⟩ : ∃ p, (c.rankedSeg keys lo hi)[r]? = some p :=
        ⟨_, List.getElem?_eq_getElem (by rwa [c.rankedSeg_length])⟩
      obtain ⟨j, hlo, hj, rfl, hcount⟩ := c.rankedSeg_getElem? hhi hp
      refine ⟨j, hlo, hj, hcount, ?_⟩
      rw [segOut_getElem? hpb hr, hp]
      rfl
  · intro c keys hpb hkeys
    have hinj : ∀ a ∈ keys, ∀ b ∈ keys, (keyRank 2 c.ext a).getD 0 = (keyRank 2 c.ext b).getD 0 → a = b :=
      fun a ha b hb => seluKey_inj c.ext (hkeys a ha) (hkeys b hb)
    have htally := tally_distinctOf hinj
    have hlen := (htally.perm_eraseDups hinj).length_eq
    rw [List.length_map] at hlen
    rw [seluOut_eq hpb]
    refine ⟨by simp [hlen], by simp [hlen], fun r hr => ?_⟩
    obtain ⟨d, hd⟩ : ∃ d, (distinctOf (fun x => (keyRank 2 c.ext x).getD 0) keys)[r]? = some d :=
      ⟨_, List.getElem?_eq_getElem (hlen ▸ hr)⟩
    obtain ⟨-, hmem, hcount⟩ := htally.entry d (List.mem_of_getElem? hd)
    exact ⟨d.2.1, hmem, by simp [hd, hcount], htally.rank_getElem? hinj hd⟩

/-- Settles O27: `Better` by its cases, floating keys by the strict growth of the magnitudes, ranks by the ranked lists,
which are sorted. -/
theorem selectionOrder : Obligations.SelectionOrder := ⟨betterIsTotal, keysCompareByValue, selectionRanks⟩

end Sys2Proof.Machine
end
